-- ==== Sys2Proof/Word.lean ====
section
/-! DEFINITION. The numbers of the Serteno 2480: bytes, time stamps, and the names of banks, windows, links, tags,
streams and segments (00_scope.md, Capacities and ranges). -/

namespace Sys2Proof

/-- One byte on a wire or in a frame. -/
abbrev Byte := BitVec 8

/-- A time stamp: a 32-bit wrapping count of microseconds (R189). -/
abbrev Micros := BitVec 32

/-- A byte address on the upstream link (R155). -/
abbrev UpAddr := BitVec 32

/-- A byte address on a bank port, counted from the start of the bank (R125). -/
abbrev BankAddr := BitVec 28

/-- A bank, 0 to 7. -/
abbrev BankId := Fin 8

/-- A window entry, 0 to 15. -/
abbrev WindowId := Fin 16

/-- A link entry, 0 to 7. -/
abbrev LinkId := Fin 8

/-- A tag, 0 to 31. -/
abbrev Tag := Fin 32

/-- A stream, 0 to 15. -/
abbrev Stream := Fin 16

/-- A segment of a bank, 0 to 31. -/
abbrev Segment := Fin 32

end Sys2Proof
end

