-- ==== Sys2Proof/Syntax.lean ====
section
/-! DEFINITION. The commands of the part: one constructor of `Instr` for each row of spec/opcode_table.json, with the
operands that the rule of the row names. -/

namespace Sys2Proof

/-- The kind of a request or of a bank command (R155, coded 0 READ, 1 WRITE). -/
inductive Kind where
  | read
  | write
  deriving DecidableEq, Repr

/-- The fields of a request on the request channel (R155). -/
structure Request where
  /-- RQ_TAG -/
  tag : Tag
  /-- RQ_STREAM -/
  stream : Stream
  /-- RQ_KIND -/
  kind : Kind
  /-- RQ_ADDR, the byte address of the first byte -/
  addr : UpAddr
  /-- RQ_LEN, the length minus one -/
  lenField : Fin 64
  /-- RQ_WDATA, lanes 0 to 63 -/
  wdata : Vector Byte 64
  deriving DecidableEq, Repr

/-- The edge of RESET_N that a PIN_RESET command brings. -/
inductive ResetEdge where
  | fall
  | rise
  deriving DecidableEq, Repr

/-- The levels of the input pins at an edge of RESET_N: LINK_RESET (R167), the eight PGOOD inputs (R27), and whether MCS_N
is low (R186). -/
structure PinLevels where
  linkResetHigh : Bool
  pgood : Vector Bool 8
  mcsLow : Bool
  deriving DecidableEq, Repr

/-- What an ACCEPTANCE command brings on the request channel (R154). -/
inductive Channel where
  /-- RQ_VALID falls, or is low at a sampling edge. -/
  | low
  /-- RQ_VALID rises with the fields of this request, or the fields change to these; no sampling edge yet. -/
  | shows (request : Request)
  /-- A sampling edge, with this request on the channel and RQ_VALID high. -/
  | edge (request : Request)
  deriving DecidableEq, Repr

/-- The result of a completion from a bank (R126). -/
inductive BankResult where
  | ok
  | error
  deriving DecidableEq, Repr

/-- The commands, in the order of the table. A management command carries its index byte and its argument bytes in
frame order (R182, section 11.6). -/
inductive Instr where
  /-- PIN_RESET: an edge of RESET_N. A pin reset is a fall and the rise that ends it; only the rise looks at the levels
  (R27, R186; log 2). -/
  | pinReset (edge : ResetEdge) (pins : PinLevels)
  /-- LINK_RESET: a rise of LINK_RESET. -/
  | linkReset
  /-- LINK_OPEN: a fall of LINK_RESET. -/
  | linkOpen
  /-- TICK: the REFCLK cycles of a tick have run out. -/
  | tick
  /-- ACCEPTANCE: what the request channel shows. A request passes at a sampling edge (log 10). -/
  | acceptance (channel : Channel)
  /-- RESPONSE_TAKEN: the sampling edge at which RS_ACCEPT is high. -/
  | responseTaken
  /-- STAGE_DWELL_EXPIRY of a bank. -/
  | stageDwellExpiry (bank : BankId)
  /-- RAMP_COMPLETION: PGOOD of the bank rises (log 4). -/
  | rampCompletion (bank : BankId)
  /-- GRANT: the arbiter looks at the head of the wake-wait list. -/
  | grant
  /-- WAKE_LIMIT_EXPIRY of a bank. -/
  | wakeLimitExpiry (bank : BankId)
  /-- RAIL_DROP: PGOOD of the bank falls (log 4). -/
  | railDrop (bank : BankId)
  /-- RESPONSE_TIMEOUT of a bank's port. -/
  | responseTimeout (bank : BankId)
  /-- COMPLETION: the bank answers its oldest command, with read data in lanes 0 to 63. -/
  | completion (bank : BankId) (result : BankResult) (data : Vector Byte 64)
  /-- FILL_WRITE_ISSUE: the fill engine issues its next write. -/
  | fillWriteIssue
  /-- DRAIN_COMPLETION of a bank. -/
  | drainCompletion (bank : BankId)
  /-- PARK_EXPIRY of the parked entry with this tag. -/
  | parkExpiry (tag : Tag)
  /-- IDLE_EXPIRY of a bank. -/
  | idleExpiry (bank : BankId)
  /-- RETAIN_EXPIRY of a bank. -/
  | retainExpiry (bank : BankId)
  /-- UNKNOWN_COMMAND: a frame whose code is not in the command table. -/
  | unknownCommand (code index : Byte)
  /-- READ_GLOBAL -/
  | readGlobal (index : Byte)
  /-- WRITE_GLOBAL -/
  | writeGlobal (index : Byte) (args : Vector Byte 7)
  /-- READ_STATUS -/
  | readStatus (index : Byte)
  /-- POP_EVENT -/
  | popEvent (index : Byte)
  /-- READ_BANK_CONFIG -/
  | readBankConfig (index : Byte)
  /-- WRITE_BANK_CONFIG -/
  | writeBankConfig (index : Byte) (args : Vector Byte 22)
  /-- READ_BANK_STATUS -/
  | readBankStatus (index : Byte)
  /-- WAKE_BANK -/
  | wakeBank (index : Byte)
  /-- SLEEP_BANK -/
  | sleepBank (index target : Byte)
  /-- FLUSH_BANK -/
  | flushBank (index : Byte)
  /-- CLEAR_FAULT -/
  | clearFault (index : Byte)
  /-- MARK_SEGMENTS -/
  | markSegments (index first count value : Byte)
  /-- CLEAR_COUNT -/
  | clearCount (index : Byte)
  /-- READ_WINDOW -/
  | readWindow (index : Byte)
  /-- WRITE_WINDOW -/
  | writeWindow (index : Byte) (args : Vector Byte 15)
  /-- READ_LINK -/
  | readLink (index : Byte)
  /-- WRITE_LINK -/
  | writeLink (index : Byte) (args : Vector Byte 5)
  /-- READ_PARKED -/
  | readParked (index : Byte)
  /-- FRAME_DISCARDED: MCS_N rises after these whole bytes, before the frame's command is taken; or, with no byte, it rises
  and ends a low period that is no frame or whose command has been taken (log 14). -/
  | frameDiscarded (received : List Byte)
  deriving DecidableEq, Repr

end Sys2Proof
end

