-- ==== Sys2Proof/Decode.lean ====
section
/-! DEFINITION. What a management frame spells (11_the_management_port.md, R182 to R184 and the command table of
section 11.6), its encoder, and `decodeTableWord`. -/

namespace Sys2Proof

/-- The commands of the command table of section 11.6. -/
inductive FrameCommand where
  | readGlobal | writeGlobal | readStatus | popEvent
  | readBankConfig | writeBankConfig | readBankStatus | wakeBank | sleepBank | flushBank | clearFault
  | markSegments | clearCount
  | readWindow | writeWindow | readLink | writeLink | readParked
  deriving DecidableEq, Repr

/-- The command table in its order. -/
def FrameCommand.all : List FrameCommand :=
  [.readGlobal, .writeGlobal, .readStatus, .popEvent, .readBankConfig, .writeBankConfig, .readBankStatus,
   .wakeBank, .sleepBank, .flushBank, .clearFault, .markSegments, .clearCount, .readWindow, .writeWindow,
   .readLink, .writeLink, .readParked]

/-- The command table, column Code. -/
def FrameCommand.code : FrameCommand → Byte
  | .readGlobal => 0x01
  | .writeGlobal => 0x02
  | .readStatus => 0x03
  | .popEvent => 0x04
  | .readBankConfig => 0x10
  | .writeBankConfig => 0x11
  | .readBankStatus => 0x12
  | .wakeBank => 0x13
  | .sleepBank => 0x14
  | .flushBank => 0x15
  | .clearFault => 0x16
  | .markSegments => 0x17
  | .clearCount => 0x18
  | .readWindow => 0x20
  | .writeWindow => 0x21
  | .readLink => 0x28
  | .writeLink => 0x29
  | .readParked => 0x30

/-- The command table, column A: the number of argument bytes. -/
def FrameCommand.argBytes : FrameCommand → Nat
  | .writeGlobal => 7
  | .writeBankConfig => 22
  | .sleepBank => 1
  | .markSegments => 3
  | .writeWindow => 15
  | .writeLink => 5
  | .readGlobal | .readStatus | .popEvent | .readBankConfig | .readBankStatus | .wakeBank | .flushBank
  | .clearFault | .clearCount | .readWindow | .readLink | .readParked => 0

/-- The command table, column N: the number of response bytes. -/
def FrameCommand.responseBytes : FrameCommand → Nat
  | .readGlobal => 7
  | .readStatus => 6
  | .popEvent => 16
  | .readBankConfig => 22
  | .readBankStatus => 15
  | .flushBank => 1
  | .readWindow => 16
  | .readLink => 7
  | .readParked => 22
  | .writeGlobal | .writeBankConfig | .wakeBank | .sleepBank | .clearFault | .markSegments | .clearCount
  | .writeWindow | .writeLink => 0

/-- How many index values are legal, counted from 00h (R184). -/
def FrameCommand.indexCount : FrameCommand → Nat
  | .readGlobal | .writeGlobal | .readStatus | .popEvent => 1
  | .readBankConfig | .writeBankConfig | .readBankStatus | .wakeBank | .sleepBank | .flushBank | .clearFault
  | .markSegments | .clearCount => 8
  | .readWindow | .writeWindow => 16
  | .readLink | .writeLink => 8
  | .readParked => 24

/-- The command of a code, or none where the code is not in the table (R184). -/
def FrameCommand.ofCode (code : Byte) : Option FrameCommand :=
  FrameCommand.all.find? fun c => c.code = code

/-- The first `n` bytes of a run of argument bytes. -/
def argVector (n : Nat) (bytes : List Byte) : Vector Byte n :=
  Vector.ofFn fun i => bytes.getD i.val 0

/-- The command that a known code, an index and a full run of argument bytes spell (R183). -/
def FrameCommand.instr (c : FrameCommand) (index : Byte) (args : List Byte) : Instr :=
  match c with
  | .readGlobal => .readGlobal index
  | .writeGlobal => .writeGlobal index (argVector 7 args)
  | .readStatus => .readStatus index
  | .popEvent => .popEvent index
  | .readBankConfig => .readBankConfig index
  | .writeBankConfig => .writeBankConfig index (argVector 22 args)
  | .readBankStatus => .readBankStatus index
  | .wakeBank => .wakeBank index
  | .sleepBank => .sleepBank index (args.getD 0 0)
  | .flushBank => .flushBank index
  | .clearFault => .clearFault index
  | .markSegments => .markSegments index (args.getD 0 0) (args.getD 1 0) (args.getD 2 0)
  | .clearCount => .clearCount index
  | .readWindow => .readWindow index
  | .writeWindow => .writeWindow index (argVector 15 args)
  | .readLink => .readLink index
  | .writeLink => .writeLink index (argVector 5 args)
  | .readParked => .readParked index

/-- The command that the bytes shifted in so far have the port take, or none while the last argument byte is not in
(R183, R184). Bytes after the taking do not begin a second command (R182). -/
def decodeFrame : List Byte → Option Instr
  | code :: index :: args =>
    match FrameCommand.ofCode code with
    | none => some (.unknownCommand code index)
    | some c => if args.length < c.argBytes then none else some (c.instr index args)
  | _ => none

/-- The bytes a management command's frame shifts in, up to the taking. None for what is no frame command. -/
def frameBytes : Instr → Option (List Byte)
  | .unknownCommand code index => some [code, index]
  | .readGlobal i => some [FrameCommand.readGlobal.code, i]
  | .writeGlobal i a => some (FrameCommand.writeGlobal.code :: i :: a.toList)
  | .readStatus i => some [FrameCommand.readStatus.code, i]
  | .popEvent i => some [FrameCommand.popEvent.code, i]
  | .readBankConfig i => some [FrameCommand.readBankConfig.code, i]
  | .writeBankConfig i a => some (FrameCommand.writeBankConfig.code :: i :: a.toList)
  | .readBankStatus i => some [FrameCommand.readBankStatus.code, i]
  | .wakeBank i => some [FrameCommand.wakeBank.code, i]
  | .sleepBank i t => some [FrameCommand.sleepBank.code, i, t]
  | .flushBank i => some [FrameCommand.flushBank.code, i]
  | .clearFault i => some [FrameCommand.clearFault.code, i]
  | .markSegments i f c v => some [FrameCommand.markSegments.code, i, f, c, v]
  | .clearCount i => some [FrameCommand.clearCount.code, i]
  | .readWindow i => some [FrameCommand.readWindow.code, i]
  | .writeWindow i a => some (FrameCommand.writeWindow.code :: i :: a.toList)
  | .readLink i => some [FrameCommand.readLink.code, i]
  | .writeLink i a => some (FrameCommand.writeLink.code :: i :: a.toList)
  | .readParked i => some [FrameCommand.readParked.code, i]
  | .pinReset _ _ | .linkReset | .linkOpen | .tick | .acceptance _ | .responseTaken | .stageDwellExpiry _
  | .rampCompletion _ | .grant | .wakeLimitExpiry _ | .railDrop _ | .responseTimeout _ | .completion _ _ _
  | .fillWriteIssue | .drainCompletion _ | .parkExpiry _ | .idleExpiry _ | .retainExpiry _
  | .frameDiscarded _ => none

/-- No row of spec/opcode_table.json gives bits, so no word spells a command (log 24). -/
def decodeTableWord (_nbits _w : Nat) : Option Instr := none

end Sys2Proof
end

