-- ==== Sys2Proof/Config.lean ====
section
/-! DEFINITION. What is fixed for the part (00_scope.md, Capacities and ranges), and the free values the manual
leaves without a value. -/

namespace Sys2Proof.Config

/-- The parking queue holds at most 24 entries (R28). -/
def parkCapacity : Nat := 24

/-- A bank port has four slots (R129). -/
def slotCapacity : Nat := 4

/-- At most two of a port's slots hold fill writes (R128). -/
def fillSlotCapacity : Nat := 2

/-- The event queue holds at most 32 records (R171). -/
def eventCapacity : Nat := 32

/-- Ticks in one step of the idle limit (R4). -/
def idleStep : Nat := 1000

/-- Ticks in one step of the retain limit (R4). -/
def retainStep : Nat := 100000

/-- Ticks in one step of the park limit (R30). -/
def parkStep : Nat := 10

/-- Bytes of one fill write (R99). -/
def fillBytes : Nat := 64

/-- FREE VALUE. The reason byte that READ PARKED would return for an entry with no reason. R55 says that such a read
does not occur and gives no code for it (log 16). -/
opaque noReasonCode : Byte

/-- FREE VALUE. What MDO carries at a byte position of a low period of MCS_N that began before RESET_N rose, `none` for not
driven. R186 says that the port does not take it as a frame, and does not say what MDO does (log 32). -/
opaque heldMdo (position : Nat) : Option Byte

end Sys2Proof.Config
end

