-- ==== Sys2Proof/Machine/State.lean ====
section
/-! DEFINITION. The state of the part, as plain data: every item that a chapter of the manual gives to a block, under
the block's own names, with its value after pin reset. INVENTORY.md lists the items beside their rules. -/

namespace Sys2Proof.Machine

/-- The power state of a bank (R1). -/
inductive Power where
  | off | retain | waiting | ramping | filling | on | draining | fault
  deriving DecidableEq, Repr

/-- The rail level the present wake started from (section 1.1). -/
inductive WakeKind where
  | none | fromOff | fromRetain
  deriving DecidableEq, Repr

/-- The kind of a drain (section 1.1). -/
inductive DrainKind where
  | none | soft | hard
  deriving DecidableEq, Repr

/-- The target of a drain (section 1.1). -/
inductive DrainTarget where
  | none | retain | off
  deriving DecidableEq, Repr

/-- A low rail to rest at: the idle target of R26 and the target of SLEEP BANK. -/
inductive RestTarget where
  | retain | off
  deriving DecidableEq, Repr

/-- The fill policy of a bank (R26). -/
inductive FillPolicy where
  | none | zero
  deriving DecidableEq, Repr

/-- A segment mark (R88). -/
inductive Mark where
  | valid | lost
  deriving DecidableEq, Repr

/-- The idle timer, with the ticks it has left (R58, R59). -/
inductive IdleTimer where
  | stopped
  | held (left : Nat)
  | counting (left : Nat)
  deriving DecidableEq, Repr

/-- The configuration fields of a bank, in the order of R26. -/
structure BankConfig where
  present : Bool
  /-- The capacity code of R195: the capacity is 2 to this power, in MiB. -/
  capacity : Fin 9
  /-- Ramp stages S. -/
  stages : BitVec 8
  /-- Stage dwell, in microseconds. -/
  dwell : BitVec 16
  /-- Wake limit, in microseconds. -/
  wakeLimit : BitVec 16
  /-- Wake retries. -/
  retries : BitVec 8
  offCost : BitVec 8
  retainCost : BitVec 8
  /-- Idle limit, in milliseconds. -/
  idleLimit : BitVec 16
  idleTarget : RestTarget
  /-- Retain limit, in steps of 100 ms. -/
  retainLimit : BitVec 16
  /-- Park limit, in steps of 10 microseconds. -/
  parkLimit : BitVec 16
  fillPolicy : FillPolicy
  /-- Count threshold. -/
  threshold : BitVec 32
  deriving DecidableEq, Repr

/-- What a slot of a bank port holds (R125). Tag and stream stand for REQUEST and ORPHAN only. -/
inductive Holder where
  | request (tag : Tag) (stream : Stream)
  | fill
  | orphan (tag : Tag) (stream : Stream)
  deriving DecidableEq, Repr

/-- A busy slot (R125). -/
structure Slot where
  holder : Holder
  kind : Kind
  addr : BankAddr
  segment : Segment
  length : Nat
  forwardTime : Micros
  expiryTime : Micros
  deriving DecidableEq, Repr

/-- The state of a bank port (R125). -/
structure Port where
  /-- The slot list, oldest first. -/
  slots : List Slot
  /-- The access counter. -/
  counter : BitVec 32
  /-- The threshold-reached flag. -/
  reached : Bool
  /-- Whether completions are ignored. -/
  ignoring : Bool
  deriving DecidableEq, Repr

/-- One bank: its controller (section 1.1), its charge at the arbiter (R75), its segment marks (R88) and its port
(R125). A timer that is not stopped shows the ticks it has left. -/
@[ext]
structure Bank where
  power : Power
  wakeKind : WakeKind
  /-- The attempt count. -/
  attempts : Nat
  /-- The stage now output on RAIL_STG. -/
  rampStage : Nat
  drainKind : DrainKind
  drainTarget : DrainTarget
  /-- The stage-dwell timer. -/
  dwellTimer : Option Nat
  /-- The wake-limit timer. -/
  wakeTimer : Option Nat
  idleTimer : IdleTimer
  retainTimer : Option Nat
  /-- The level of the PGOOD input. -/
  pgood : Bool
  config : BankConfig
  charge : Nat
  marks : Vector Mark 32
  port : Port
  deriving DecidableEq, Repr

/-- The global configuration (R187). The budget is the arbiter's B (R75). -/
structure Global where
  budget : BitVec 8
  /-- REFCLK frequency, in MHz. -/
  refclk : BitVec 8
  /-- Response limit, in microseconds. -/
  respLimit : BitVec 16
  /-- Event mask: bit n enables the kind of code n (R195). -/
  mask : BitVec 16
  /-- Alert enable. -/
  alert : Bool
  deriving DecidableEq, Repr

/-- The fill in progress (R95). -/
structure FillProgress where
  /-- The current segment. -/
  current : Option Segment
  /-- The bank address of the next fill write. -/
  nextWrite : Option BankAddr
  /-- The fill writes of the current segment completed OK. -/
  completed : Nat
  /-- The fill writes of the current segment in flight. -/
  inFlight : Nat
  cutOff : Bool
  deriving DecidableEq, Repr

/-- Whether writes may pass a window (R110). -/
inductive Access where
  | readWrite | readOnly
  deriving DecidableEq, Repr

/-- The six fields of a window entry that software writes (R110). -/
structure WindowConfig where
  enabled : Bool
  base : UpAddr
  size : BitVec 32
  offset : BankAddr
  bank : BankId
  access : Access
  deriving DecidableEq, Repr

/-- A window entry with its held count (R110). -/
structure Window where
  config : WindowConfig
  held : Nat
  deriving DecidableEq, Repr

/-- A link trigger (R140). -/
inductive Trigger where
  | wakeBegun | ready | drainBegun | asleep | faulted | count
  deriving DecidableEq, Repr

/-- A link action (R140). -/
inductive Action where
  | prewake | hold | sleepRetain | sleepOff | note
  deriving DecidableEq, Repr

/-- The five fields of a link that software writes (R140). -/
structure LinkConfig where
  enabled : Bool
  source : BankId
  trigger : Trigger
  target : BankId
  action : Action
  deriving DecidableEq, Repr

/-- A link with its fire count (R140). -/
structure Link where
  config : LinkConfig
  fireCount : BitVec 16
  deriving DecidableEq, Repr

/-- The state of a tag record (R153). -/
inductive TagState where
  | free | pending | answered
  deriving DecidableEq, Repr

/-- A record of the tag table (R153). -/
structure TagRecord where
  state : TagState
  length : Nat
  window : Option WindowId
  deriving DecidableEq, Repr

/-- The status of a response (R162). -/
inductive Status where
  | okay | stale | denied | nowin | expired | faulted | aborted | bankerr
  deriving DecidableEq, Repr

/-- A response in the response queue (R153). `data` is the read data, empty where RDATA is driven zero. -/
structure Response where
  tag : Tag
  status : Status
  data : List Byte
  deriving DecidableEq, Repr

/-- The reason of a parked entry (R31). It is derived, never stored. -/
inductive Reason where
  | order | bank | segment | slot
  deriving DecidableEq, Repr

/-- A decoded and permitted request, as it travels from the window decoder (R112) into its parking entry (R29) or its
port slot (R125). -/
structure Routed where
  tag : Tag
  stream : Stream
  kind : Kind
  window : WindowId
  bank : BankId
  addr : BankAddr
  segment : Segment
  length : Nat
  /-- The write data; absent for a READ. -/
  wdata : Option (List Byte)
  deriving DecidableEq, Repr

/-- The deadline of a parked entry (R30): the time it reads as, and the ticks its timer has left. -/
structure Deadline where
  time : Micros
  left : Nat
  deriving DecidableEq, Repr

/-- An entry of the parking queue (R29). -/
structure Entry where
  req : Routed
  acceptTime : Micros
  deadline : Option Deadline
  deriving DecidableEq, Repr

/-- The 14 kinds of event (R173). -/
inductive EventKind where
  | wakeRetry | wakeFault | railDrop | bankTimeout | bankError | parkExpired | fillError | fillDone
  | refusedAccess | protocol | retainExpired | countReached | linkNote | linkReset
  deriving DecidableEq, Repr

/-- The detail of a record, by kind (R173). -/
inductive Detail where
  | count (n : Nat)
  | segment (g : Segment)
  | status (st : Status)
  | trigger (t : Trigger)
  | dupTag
  | malformed
  deriving DecidableEq, Repr

/-- The optional fields of a record (R172). -/
structure About where
  bank : Option BankId := none
  tag : Option Tag := none
  stream : Option Stream := none
  window : Option WindowId := none
  link : Option LinkId := none
  detail : Option Detail := none
  deriving DecidableEq, Repr

/-- An event record (R172). -/
structure Record where
  sequence : BitVec 16
  kind : EventKind
  time : Micros
  about : About
  deriving DecidableEq, Repr

/-- The timebase (R189). -/
structure Timebase where
  /-- The microsecond counter. -/
  micros : Micros
  /-- REFCLK cycles counted within the present tick. -/
  cycles : Nat
  /-- REFCLK cycles that the present tick lasts. -/
  tickCycles : Nat
  deriving DecidableEq, Repr

/-- The management port as its pins have left it (R182): whether MCS_N is low, and of the frame whose command has been
taken, the bytes shifted in up to the taking, and the status and response bytes it shifts out. Both are empty while there
is no such frame. -/
structure Frame where
  mcsLow : Bool
  received : List Byte
  reply : List Byte
  deriving DecidableEq, Repr

/-- A command on a bank port bus (R126). -/
structure BusCommand where
  bank : BankId
  addr : BankAddr
  kind : Kind
  length : Nat
  data : List Byte
  deriving DecidableEq, Repr

/-- The state of the part. The fields are explained in INVENTORY.md, section State. -/
@[ext]
structure State where
  /-- The eight banks with their controllers, marks, charges and ports. -/
  banks : Vector Bank 8
  /-- The global configuration (R187). -/
  global : Global
  /-- The arbiter's units held H (R75). -/
  unitsHeld : Nat
  /-- The wake-wait list, oldest first (R75). -/
  waitList : List BankId
  /-- The fill queue (R95). -/
  fillQueue : List BankId
  /-- The fill in progress (R95). -/
  fill : FillProgress
  /-- The window table (R110). -/
  windows : Vector Window 16
  /-- The link table (R140). -/
  links : Vector Link 8
  /-- The tag table (R153). -/
  tags : Vector TagRecord 32
  /-- The response queue, oldest first (R153). -/
  responses : List Response
  /-- The presented request that has not passed (R153). -/
  presented : Option Request
  /-- Whether the link is closed (R153): LINK_RESET is high or RESET_N is low. -/
  linkClosed : Bool
  /-- Whether RESET_N is low (R27, R170, R186). -/
  resetLow : Bool
  /-- The parking queue, oldest first (R28). -/
  parked : List Entry
  /-- The event queue, oldest first (R171). -/
  events : List Record
  /-- The sequence counter (R171). -/
  sequence : BitVec 16
  /-- The lost count (R171). -/
  lost : BitVec 16
  /-- The timebase (R189). -/
  clock : Timebase
  /-- The frame of the management port (R182). -/
  frame : Frame
  /-- Whether the management port takes no frame before the next fall of MCS_N: RESET_N is low, or was low when the
  present low period of MCS_N began (R186). -/
  frameHeld : Bool
  /-- The model's own field: the commands that the bank ports issued in the latest step (log 15). -/
  busOut : List BusCommand
  /-- The model's own field: the bank and the segment of the fill write whose error the latest step took, where the segment
  was not cut off (R108; log 30). -/
  fillError : Option (BankId × Segment)
  /-- The model's own field: the commands that wait, first in first out (log 17). -/
  pending : List Instr
  deriving DecidableEq, Repr

/-- Why the machine stops with a fault. No rule of the manual stops the part (its FAULT is a power state of a bank),
so there is no constructor, and no meaning raises one: a model that never stops is safe only because every command has
its effect. -/
inductive Fault where
  deriving DecidableEq, Repr

/-- Why a command has no meaning. -/
inductive Refusal where
  /-- Raised by `exec` for a command whose arm has no meaning yet; safe. No arm raises it now. -/
  | notModelled (mnemonic : String)
  deriving DecidableEq, Repr

/-- The configuration of a bank after pin reset (R26). -/
def BankConfig.reset : BankConfig where
  present := false
  capacity := 0
  stages := 1
  dwell := 50
  wakeLimit := 500
  retries := 1
  offCost := 4
  retainCost := 1
  idleLimit := 0
  idleTarget := .retain
  retainLimit := 0
  parkLimit := 100
  fillPolicy := .none
  threshold := 0

/-- A bank port after pin reset (R139). -/
def Port.reset : Port where
  slots := []
  counter := 0
  reached := false
  ignoring := false

/-- A bank after pin reset (R27, R75, R88, R139). The PGOOD level is the model's choice (log 3). -/
def Bank.reset : Bank where
  power := .off
  wakeKind := .none
  attempts := 0
  rampStage := 0
  drainKind := .none
  drainTarget := .none
  dwellTimer := none
  wakeTimer := none
  idleTimer := .stopped
  retainTimer := none
  pgood := false
  config := BankConfig.reset
  charge := 0
  marks := Vector.replicate 32 .lost
  port := Port.reset

/-- The global configuration after pin reset (R187, R195). -/
def Global.reset : Global where
  budget := 8
  refclk := 25
  respLimit := 200
  mask := 0x3FFF
  alert := false

/-- No fill in progress (R95). -/
def FillProgress.idle : FillProgress where
  current := none
  nextWrite := none
  completed := 0
  inFlight := 0
  cutOff := false

/-- A window entry after pin reset (R110). -/
def Window.reset : Window where
  config := { enabled := false, base := 0, size := 0, offset := 0, bank := 0, access := .readWrite }
  held := 0

/-- A link after pin reset (R140). -/
def Link.reset : Link where
  config := { enabled := false, source := 0, trigger := .wakeBegun, target := 0, action := .prewake }
  fireCount := 0

/-- A tag record after pin reset (R170; log 12). -/
def TagRecord.reset : TagRecord where
  state := .free
  length := 0
  window := none

/-- MCS_N high, and no frame on the management port (R182, R186). -/
def Frame.empty : Frame where
  mcsLow := false
  received := []
  reply := []

/-- The part right after a pin reset, with LINK_RESET and every PGOOD input low, MCS_N high (log 3), and no command
waiting. -/
def State.reset : State where
  banks := Vector.replicate 8 Bank.reset
  global := Global.reset
  unitsHeld := 0
  waitList := []
  fillQueue := []
  fill := FillProgress.idle
  windows := Vector.replicate 16 Window.reset
  links := Vector.replicate 8 Link.reset
  tags := Vector.replicate 32 TagRecord.reset
  responses := []
  presented := none
  linkClosed := false
  resetLow := false
  parked := []
  events := []
  sequence := 0
  lost := 0
  clock := { micros := 0, cycles := 0, tickCycles := 25 }
  frame := Frame.empty
  frameHeld := false
  busOut := []
  fillError := none
  pending := []

end Sys2Proof.Machine
end

