-- ==== Sys2Proof/Machine/Flags.lean ====
section
/-! DEFINITION. What is derived from the state and never stored: bank geometry, parked counts and reasons, the decode of
a request, the decision that RQ_ACCEPT is driven from, and the outputs of the part. -/

namespace Sys2Proof.Machine

/-- Bank `b`'s record. -/
def State.bank (s : State) (b : BankId) : Bank := s.banks[b]

/-- The capacity in bytes: 2 to the capacity code, in MiB (R195). -/
def BankConfig.capacityBytes (c : BankConfig) : Nat := 2 ^ (c.capacity.val + 20)

/-- The segment size in bytes: the capacity divided by 32 (R88). -/
def BankConfig.segmentBytes (c : BankConfig) : Nat := 2 ^ (c.capacity.val + 15)

/-- The fill writes that a segment takes (R99). -/
def BankConfig.segmentWrites (c : BankConfig) : Nat := c.segmentBytes / Config.fillBytes

/-- The segment that a bank address lies in (R112). -/
def BankConfig.segmentOf (c : BankConfig) (a : BankAddr) : Segment :=
  ⟨a.toNat / c.segmentBytes % 32, Nat.mod_lt _ (by decide)⟩

/-- The number of ramp stages S as a count (R7). -/
def Bank.stageCount (k : Bank) : Nat := k.config.stages.toNat

/-- Whether some segment of the bank is marked LOST (R10). -/
def Bank.anyLost (k : Bank) : Bool := (List.finRange 32).any fun g => k.marks[g] = .lost

/-- The lowest-numbered LOST segment (R98). -/
def Bank.lowestLost (k : Bank) : Option Segment := (List.finRange 32).find? fun g => k.marks[g] = .lost

/-- The slots that hold fill writes, current or leftover (R128). -/
def Port.fillSlots (p : Port) : Nat := p.slots.countP fun x => x.holder = .fill

/-- Whether the port has a free slot (R127). -/
def Port.hasRoom (p : Port) : Bool := p.slots.length < Config.slotCapacity

/-- The cost of the wake of the bank, by its wake kind (R76). -/
def Bank.wakeCost (k : Bank) : Nat :=
  match k.wakeKind with
  | .fromRetain => k.config.retainCost.toNat
  | .fromOff | .none => k.config.offCost.toNat

/-- The parked count of a bank (R28). -/
def parkedCount (q : List Entry) (b : BankId) : Nat := q.countP fun e => e.req.bank = b

/-- The number of held requests: the tag records not FREE (R153). -/
def State.heldRequests (s : State) : Nat := (List.finRange 32).countP fun t => s.tags[t].state ≠ .free

/-- The code of an event kind, which is its bit in the event mask (R195). -/
def EventKind.code : EventKind → Nat
  | .wakeRetry => 0
  | .wakeFault => 1
  | .railDrop => 2
  | .bankTimeout => 3
  | .bankError => 4
  | .parkExpired => 5
  | .fillError => 6
  | .fillDone => 7
  | .refusedAccess => 8
  | .protocol => 9
  | .retainExpired => 10
  | .countReached => 11
  | .linkNote => 12
  | .linkReset => 13

/-- Whether a kind is enabled in the event mask (R174). -/
def State.enables (s : State) (k : EventKind) : Bool := s.global.mask.getLsbD k.code

/-- The reason of an entry, with the entries that stand earlier in the queue (R31). -/
def State.reason (s : State) (earlier : List Entry) (e : Entry) : Option Reason :=
  let k := s.bank e.req.bank
  if earlier.any (fun x => x.req.stream = e.req.stream) then some .order
  else if k.power = .waiting ∨ k.power = .ramping ∨ k.power = .draining then some .bank
  else if k.power = .filling ∧ k.marks[e.req.segment] = .lost then some .segment
  else if k.port.hasRoom = false then some .slot
  else none

/-- An entry that a release scan releases: it has no reason (R31), and its bank takes forwards (R127: ON or FILLING;
log 18). -/
def State.releasable (s : State) (earlier : List Entry) (e : Entry) : Bool :=
  s.reason earlier e = none ∧ ((s.bank e.req.bank).power = .on ∨ (s.bank e.req.bank).power = .filling)

/-- The segment of the oldest entry for bank `b` whose reason is SEGMENT (R46). -/
def State.demandFrom (s : State) (b : BankId) : List Entry → List Entry → Option Segment
  | _, [] => none
  | earlier, e :: later =>
    if e.req.bank = b ∧ s.reason earlier e = some .segment then some e.req.segment
    else s.demandFrom b (earlier ++ [e]) later

/-- The segment that a segment fill of bank `b` begins with (R98). Segment 0 stands for a bank with no LOST segment,
which begins no segment fill (log 20). -/
def State.chooseSegment (s : State) (b : BankId) : Segment :=
  match s.demandFrom b [] s.parked with
  | some g => g
  | none => (s.bank b).lowestLost.getD 0

/-- Whether the limit of a slot has run out: its expiry time has been reached, counted from its forward time modulo
2 to the 32 (R133; log 26). -/
def Slot.expired (x : Slot) (now : Micros) : Bool := (x.expiryTime - x.forwardTime).toNat ≤ (now - x.forwardTime).toNat

/-- Whether the response limit has run out for the oldest slot of the port (R133). -/
def Port.timedOut (p : Port) (now : Micros) : Bool :=
  match p.slots with
  | [] => false
  | x :: _ => x.expired now

end Sys2Proof.Machine

namespace Sys2Proof

/-- The length of a request, 1 to 64 (R155). -/
def Request.length (r : Request) : Nat := r.lenField.val + 1

/-- A request whose bytes would cross a 64-byte boundary (R155, R158). -/
def Request.malformed (r : Request) : Bool := 64 < r.addr.toNat % 64 + r.length

/-- The write data of a request: the bytes of its lanes up to its length, for a WRITE (R154, R155). -/
def Request.writeData (r : Request) : Option (List Byte) :=
  match r.kind with
  | .read => none
  | .write => some (r.wdata.toList.take r.length)

end Sys2Proof

namespace Sys2Proof.Machine

/-- Whether an upstream address lies in the range of a window (R110). -/
def WindowConfig.contains (c : WindowConfig) (a : Nat) : Bool := c.base.toNat ≤ a ∧ a < c.base.toNat + c.size.toNat

/-- The enabled entry whose range contains an address (R111). -/
def State.findWindow (s : State) (a : Nat) : Option WindowId :=
  (List.finRange 16).find? fun i => s.windows[i].config.enabled ∧ s.windows[i].config.contains a

/-- The finding of the window decoder (R111 to R114). -/
inductive Decoded where
  | nowin
  | denied (window : WindowId)
  | permitted (r : Routed)
  deriving DecidableEq, Repr

/-- The figures that the decoder works out for a request decoded through entry `i` (R112). -/
def State.route (s : State) (i : WindowId) (r : Request) : Routed :=
  let c := s.windows[i].config
  let a : BankAddr := BitVec.ofNat 28 (c.offset.toNat + (r.addr.toNat - c.base.toNat))
  { tag := r.tag, stream := r.stream, kind := r.kind, window := i, bank := c.bank, addr := a,
    segment := (s.bank c.bank).config.segmentOf a, length := r.length, wdata := r.writeData }

/-- The decode of a request against the window table (R111, R112, R113). -/
def State.decode (s : State) (r : Request) : Decoded :=
  match s.findWindow r.addr.toNat with
  | none => .nowin
  | some i =>
    if s.windows[i].config.contains (r.addr.toNat + r.length - 1) = false then .nowin
    else if s.windows[i].config.access = .readOnly ∧ r.kind = .write then .denied i
    else .permitted (s.route i r)

/-! ### The intake decision -/

/-- Whether an entry of the stream stands in the parking queue (R35). -/
def State.streamParked (s : State) (st : Stream) : Bool := s.parked.any fun e => e.req.stream = st

/-- Whether a request is forwarded directly at intake, the bank being in ON or FILLING (R35). -/
def State.forwardsDirectly (s : State) (r : Routed) : Bool :=
  let k := s.bank r.bank
  s.streamParked r.stream = false ∧ k.port.hasRoom
    ∧ (k.power = .on ∨ (k.power = .filling ∧ k.marks[r.segment] = .valid))

/-- Whether the intake decision would park a request (R41): a soft drain counts as ON (R36), FAULT answers (R34), and
what is not forwarded is parked (R37). -/
def State.wouldPark (s : State) (r : Routed) : Bool :=
  let k := s.bank r.bank
  if k.power = .fault then false
  else if k.power = .draining ∧ k.drainKind = .soft then s.streamParked r.stream ∨ k.port.hasRoom = false
  else s.forwardsDirectly r = false

/-- Whether a presented request is accepted at this instant (R156): RQ_ACCEPT while RQ_VALID is high. -/
def State.accepts (s : State) (r : Request) : Bool :=
  if s.linkClosed then false
  else if s.tags[r.tag].state ≠ .free then true
  else if r.malformed then true
  else match s.decode r with
    | .nowin => true
    | .denied _ => true
    | .permitted x => (s.wouldPark x ∧ Config.parkCapacity ≤ s.parked.length) = False

/-! ### The outputs -/

/-- RAIL_STG of a bank (R1). -/
def Bank.railStg (k : Bank) : Nat :=
  match k.power with
  | .off | .retain | .waiting | .fault => 0
  | .ramping => k.rampStage
  | .filling | .on | .draining => k.stageCount

/-- RAIL_RET of a bank (R1). -/
def Bank.railRet (k : Bank) : Bool :=
  match k.power with
  | .retain => true
  | .waiting => k.wakeKind = .fromRetain
  | .off | .ramping | .filling | .on | .draining | .fault => false

/-- RQ_ACCEPT (R154). -/
def State.rqAccept (s : State) : Bool :=
  match s.presented with
  | none => false
  | some r => s.accepts r

/-- The response on the response channel; none while RS_VALID is low (R164). -/
def State.presentedResponse (s : State) : Option Response := if s.linkClosed then none else s.responses.head?

/-- RS_STATUS (R162). -/
def Status.code : Status → Nat
  | .okay => 0
  | .stale => 1
  | .denied => 2
  | .nowin => 3
  | .expired => 4
  | .faulted => 5
  | .aborted => 6
  | .bankerr => 7

/-- RS_RDATA, lanes 0 to 63: the read data from lane 0 on, every other lane zero (R162). -/
def Response.lanes (r : Response) : Vector Byte 64 := Vector.ofFn fun i => r.data.getD i.val 0

/-- ALERT_N as a level, false for low (R179). -/
def State.alertN (s : State) : Bool := ¬ (s.global.alert ∧ s.events ≠ [])

/-- The byte that MDO carries at a byte position of the frame whose command has been taken (R182). -/
def Frame.mdo (f : Frame) (position : Nat) : Byte :=
  if position < f.received.length then 0 else f.reply.getD (position - f.received.length) 0

/-- MDO at a byte position, `none` while the port does not drive it: while RESET_N is low (R186) and while MCS_N is high
(R182). In a low period that is no frame (R186) it is a free value (log 32). -/
def State.mdo (s : State) (position : Nat) : Option Byte :=
  if s.resetLow ∨ s.frame.mcsLow = false then none
  else if s.frameHeld then Config.heldMdo position
  else some (s.frame.mdo position)

end Sys2Proof.Machine
end

