-- ==== Sys2Proof/Machine/Operands.lean ====
section
/-! DEFINITION. The codings of the arguments and response bytes of the management port (11_the_management_port.md,
sections 11.5 and 11.6). -/

namespace Sys2Proof.Machine

/-! ### Numbers and yes/no fields (R195: most significant byte first) -/

/-- A 16-bit number in two bytes. -/
def be16 (v : BitVec 16) : List Byte := [v.extractLsb' 8 8, v.extractLsb' 0 8]

/-- A 32-bit number in four bytes. -/
def be32 (v : BitVec 32) : List Byte :=
  [v.extractLsb' 24 8, v.extractLsb' 16 8, v.extractLsb' 8 8, v.extractLsb' 0 8]

/-- A count in one byte. -/
def byteOf (n : Nat) : Byte := BitVec.ofNat 8 n

/-- A yes/no field: 00h no, 01h yes. -/
def boolByte (b : Bool) : Byte := if b then 1 else 0

/-- The yes/no field that a byte codes, if it is one of the two codes. -/
def boolOf (v : Byte) : Option Bool := if v = 0 then some false else if v = 1 then some true else none

/-- A bank number in a byte, if it is 0 to 7. -/
def bankOf (v : Byte) : Option BankId := if h : v.toNat < 8 then some ⟨v.toNat, h⟩ else none

/-- A window number in a byte, if it is 0 to 15. -/
def windowOf (v : Byte) : Option WindowId := if h : v.toNat < 16 then some ⟨v.toNat, h⟩ else none

/-- A link number in a byte, if it is 0 to 7. -/
def linkOf (v : Byte) : Option LinkId := if h : v.toNat < 8 then some ⟨v.toNat, h⟩ else none

/-! ### Enumerated fields (R195) -/

def Power.code : Power → Byte
  | .off => 0
  | .retain => 1
  | .waiting => 2
  | .ramping => 3
  | .filling => 4
  | .on => 5
  | .draining => 6
  | .fault => 7

def DrainKind.code : DrainKind → Byte
  | .none => 0
  | .soft => 1
  | .hard => 2

def DrainTarget.code : DrainTarget → Byte
  | .none => 0
  | .retain => 1
  | .off => 2

/-- The idle target of R195, and the target argument of SLEEP BANK (R194), which has the same codes. -/
def RestTarget.code : RestTarget → Byte
  | .retain => 0
  | .off => 1

def restTargetOf (v : Byte) : Option RestTarget :=
  if v = 0 then some .retain else if v = 1 then some .off else none

def FillPolicy.code : FillPolicy → Byte
  | .none => 0
  | .zero => 1

def fillPolicyOf (v : Byte) : Option FillPolicy :=
  if v = 0 then some FillPolicy.none else if v = 1 then some .zero else none

def kindCode : Kind → Byte
  | .read => 0
  | .write => 1

def Access.code : Access → Byte
  | .readWrite => 0
  | .readOnly => 1

def accessOf (v : Byte) : Option Access :=
  if v = 0 then some .readWrite else if v = 1 then some .readOnly else none

def Reason.code : Reason → Byte
  | .order => 0
  | .bank => 1
  | .segment => 2
  | .slot => 3

def Trigger.code : Trigger → Byte
  | .wakeBegun => 0
  | .ready => 1
  | .drainBegun => 2
  | .asleep => 3
  | .faulted => 4
  | .count => 5

def triggerOf (v : Byte) : Option Trigger :=
  if v = 0 then some .wakeBegun
  else if v = 1 then some .ready
  else if v = 2 then some .drainBegun
  else if v = 3 then some .asleep
  else if v = 4 then some .faulted
  else if v = 5 then some .count
  else none

def Action.code : Action → Byte
  | .prewake => 0
  | .hold => 1
  | .sleepRetain => 2
  | .sleepOff => 3
  | .note => 4

def actionOf (v : Byte) : Option Action :=
  if v = 0 then some .prewake
  else if v = 1 then some .hold
  else if v = 2 then some .sleepRetain
  else if v = 3 then some .sleepOff
  else if v = 4 then some .note
  else none

/-- The value argument of MARK SEGMENTS (R194): 00h LOST, 01h VALID. -/
def markOf (v : Byte) : Option Mark := if v = 0 then some .lost else if v = 1 then some .valid else none

/-- The capacity that a code names, if it is 0 to 8. -/
def capacityOf (v : Byte) : Option (Fin 9) := if h : v.toNat < 9 then some ⟨v.toNat, h⟩ else none

/-- The detail of a record as the 16-bit number of R197. -/
def Detail.code : Detail → BitVec 16
  | .count n => BitVec.ofNat 16 n
  | .segment g => BitVec.ofNat 16 g.val
  | .status st => BitVec.ofNat 16 st.code
  | .trigger t => t.code.setWidth 16
  | .dupTag => 0
  | .malformed => 1

/-! ### The response codes (R185) -/

/-- A response code (R185). -/
inductive ResponseCode where
  | done | busy | range | state | overlap | unknown
  deriving DecidableEq, Repr

def ResponseCode.code : ResponseCode → Byte
  | .done => 0
  | .busy => 1
  | .range => 2
  | .state => 3
  | .overlap => 4
  | .unknown => 5

/-! ### The layout tables of section 11.6: responses -/

/-- READ GLOBAL response. -/
def Global.bytes (g : Global) : List Byte :=
  [g.budget, g.refclk] ++ be16 g.respLimit ++ be16 g.mask ++ [boolByte g.alert]

/-- READ STATUS response (R190). -/
def State.statusBytes (s : State) : List Byte :=
  [byteOf s.heldRequests, byteOf s.parked.length, byteOf s.unitsHeld, byteOf s.events.length] ++ be16 s.lost

/-- READ BANK CONFIG response (R191). -/
def BankConfig.bytes (c : BankConfig) : List Byte :=
  [boolByte c.present, byteOf c.capacity.val, c.stages] ++ be16 c.dwell ++ be16 c.wakeLimit
    ++ [c.retries, c.offCost, c.retainCost] ++ be16 c.idleLimit ++ [c.idleTarget.code] ++ be16 c.retainLimit
    ++ be16 c.parkLimit ++ [c.fillPolicy.code] ++ be32 c.threshold

/-- Eight marks as one byte of the segment map, the first in the most significant bit (R195). -/
def mapByte (marks : Vector Mark 32) (first : Nat) : Byte :=
  BitVec.ofNat 8 ((List.range 8).foldl (fun n i => 2 * n + if marks.toList[first + i]? = some .valid then 1 else 0) 0)

/-- The segment map: segment 0 is shifted out first (R195). -/
def segmentMap (marks : Vector Mark 32) : List Byte := [mapByte marks 0, mapByte marks 8, mapByte marks 16, mapByte marks 24]

/-- READ BANK STATUS response (R24). -/
def State.bankStatusBytes (s : State) (b : BankId) : List Byte :=
  let k := s.bank b
  [k.power.code, k.drainKind.code, k.drainTarget.code, byteOf k.attempts, byteOf k.port.slots.length,
    byteOf (parkedCount s.parked b)] ++ segmentMap k.marks ++ be32 k.port.counter ++ [byteOf k.charge]

/-- READ WINDOW response (R124, R196). -/
def Window.bytes (w : Window) : List Byte :=
  [boolByte w.config.enabled] ++ be32 w.config.base ++ be32 w.config.size ++ be32 (w.config.offset.setWidth 32)
    ++ [byteOf w.config.bank.val, w.config.access.code, byteOf w.held]

/-- READ LINK response (R151). -/
def Link.bytes (l : Link) : List Byte :=
  [boolByte l.config.enabled, byteOf l.config.source.val, l.config.trigger.code, byteOf l.config.target.val,
    l.config.action.code] ++ be16 l.fireCount

/-- The reason byte of READ PARKED. R55 says that an entry with no reason is never read; its byte is free (log 16). -/
def reasonByte : Option Reason → Byte
  | some r => r.code
  | none => Config.noReasonCode

/-- READ PARKED response for an entry and its reason (R55, R196). -/
def Entry.bytes (e : Entry) (reason : Option Reason) : List Byte :=
  [1, byteOf e.req.tag.val, byteOf e.req.stream.val, kindCode e.req.kind, byteOf e.req.window.val,
    byteOf e.req.bank.val] ++ be32 (e.req.addr.setWidth 32) ++ [byteOf e.req.segment.val, byteOf e.req.length]
    ++ be32 e.acceptTime
    ++ (match e.deadline with
        | none => [0] ++ be32 0
        | some d => [1] ++ be32 d.time)
    ++ [reasonByte reason]

/-- One presence bit of the field flags of a record (R197). -/
def flagBit {α : Type} (n : Nat) (x : Option α) : Nat := if x.isSome then 2 ^ n else 0

/-- The field flags of a record (R197). -/
def About.flags (a : About) : Byte :=
  byteOf (flagBit 0 a.bank + flagBit 1 a.tag + flagBit 2 a.stream + flagBit 3 a.window + flagBit 4 a.link
    + flagBit 5 a.detail)

/-- An optional number of a record; an absent one is sent as 0 (R197). -/
def optByte {n : Nat} (x : Option (Fin n)) : Byte :=
  match x with
  | none => 0
  | some v => byteOf v.val

/-- The detail field of a record (R197). -/
def detailCode : Option Detail → BitVec 16
  | none => 0
  | some d => d.code

/-- POP EVENT response for a record (R197). -/
def Record.bytes (r : Record) : List Byte :=
  [1] ++ be16 r.sequence ++ [byteOf r.kind.code] ++ be32 r.time ++ [r.about.flags, optByte r.about.bank,
    optByte r.about.tag, optByte r.about.stream, optByte r.about.window, optByte r.about.link]
    ++ be16 (detailCode r.about.detail)

/-! ### The layout tables of section 11.6: arguments -/

/-- WRITE GLOBAL arguments; none where the alert enable is neither of its codes. -/
def globalOf (a : Vector Byte 7) : Option Global :=
  match boolOf a[6] with
  | none => none
  | some alert => some { budget := a[0], refclk := a[1], respLimit := a[2] ++ a[3], mask := a[4] ++ a[5], alert := alert }

/-- WRITE BANK CONFIG arguments; none where present, capacity, idle target or fill policy is no code of its field. -/
def bankConfigOf (a : Vector Byte 22) : Option BankConfig :=
  match boolOf a[0], capacityOf a[1], restTargetOf a[12], fillPolicyOf a[17] with
  | some present, some capacity, some idleTarget, some fillPolicy =>
    some { present := present, capacity := capacity, stages := a[2], dwell := a[3] ++ a[4], wakeLimit := a[5] ++ a[6],
           retries := a[7], offCost := a[8], retainCost := a[9], idleLimit := a[10] ++ a[11], idleTarget := idleTarget,
           retainLimit := a[13] ++ a[14], parkLimit := a[15] ++ a[16], fillPolicy := fillPolicy,
           threshold := a[18] ++ a[19] ++ a[20] ++ a[21] }
  | _, _, _, _ => none

/-- WRITE WINDOW arguments; none where the enabled byte, the bank or the access is no code of its field (R118, R195).
The bank offset keeps its low 28 bits (R196). -/
def windowConfigOf (a : Vector Byte 15) : Option WindowConfig :=
  match boolOf a[0], bankOf a[13], accessOf a[14] with
  | some enabled, some bank, some access =>
    some { enabled := enabled, base := a[1] ++ a[2] ++ a[3] ++ a[4], size := a[5] ++ a[6] ++ a[7] ++ a[8],
           offset := (a[9] ++ a[10] ++ a[11] ++ a[12]).setWidth 28, bank := bank, access := access }
  | _, _, _ => none

/-- WRITE LINK arguments; none where a byte is no code of its field (R149, R195). -/
def linkConfigOf (a : Vector Byte 5) : Option LinkConfig :=
  match boolOf a[0], bankOf a[1], triggerOf a[2], bankOf a[3], actionOf a[4] with
  | some enabled, some source, some trigger, some target, some action =>
    some { enabled := enabled, source := source, trigger := trigger, target := target, action := action }
  | _, _, _, _, _ => none

/-! ### The checks on written values -/

/-- Whether the budget of the arbiter covers the costs of every present bank (R84, check 2). -/
def State.costsWithin (s : State) (budget : Nat) : Bool :=
  (List.finRange 8).all fun b =>
    (s.bank b).config.present = false
      ∨ ((s.bank b).config.offCost.toNat ≤ budget ∧ (s.bank b).config.retainCost.toNat ≤ budget)

/-- Check 1 of R188 on the fields of a WRITE GLOBAL. -/
def Global.inRange (g : Global) : Bool :=
  (4 ≤ g.refclk.toNat ∧ g.refclk.toNat ≤ 100) ∧ (1 ≤ g.respLimit.toNat ∧ g.respLimit.toNat ≤ 1023)
    ∧ g.mask.toNat < 2 ^ 14

/-- The RANGE checks of R84 on a budget. -/
def State.budgetInRange (s : State) (budget : Nat) : Bool :=
  1 ≤ budget ∧ budget ≤ 15 ∧ s.costsWithin budget

/-- The field checks of R192, with the present budget. -/
def BankConfig.inRange (c : BankConfig) (budget : Nat) : Bool :=
  (1 ≤ c.stages.toNat ∧ c.stages.toNat ≤ 4) ∧ (1 ≤ c.dwell.toNat ∧ c.dwell.toNat ≤ 1023)
    ∧ c.stages.toNat * c.dwell.toNat < c.wakeLimit.toNat ∧ c.retries.toNat ≤ 3
    ∧ (1 ≤ c.offCost.toNat ∧ c.offCost.toNat ≤ 15 ∧ c.offCost.toNat ≤ budget)
    ∧ (c.retainCost.toNat ≤ 15 ∧ c.retainCost.toNat ≤ budget)

/-- Whether an enabled window names the bank (R122). -/
def State.windowNames (s : State) (b : BankId) : Bool :=
  (List.finRange 16).any fun i => s.windows[i].config.enabled ∧ s.windows[i].config.bank = b

/-- Whether an enabled link names the bank as source or target (R150). -/
def State.linkNames (s : State) (b : BankId) : Bool :=
  (List.finRange 8).any fun l =>
    s.links[l].config.enabled ∧ (s.links[l].config.source = b ∨ s.links[l].config.target = b)

/-- The naming checks of R193: whether the write is refused with STATE. -/
def State.namingRefuses (s : State) (b : BankId) (c : BankConfig) : Bool :=
  let k := s.bank b
  (k.config.present ∧ c.present = false ∧ (s.windowNames b ∨ s.linkNames b ∨ k.power = .fault))
    ∨ (c.capacity ≠ k.config.capacity ∧ s.windowNames b)

/-- A window size: a power of two from 64 KiB to 256 MiB (R119). -/
def windowSizeOk (size : Nat) : Bool := (List.range 13).any fun n => size = 2 ^ (16 + n)

/-- The size and alignment checks of R119. -/
def WindowConfig.aligned (c : WindowConfig) : Bool :=
  windowSizeOk c.size.toNat ∧ c.base.toNat % c.size.toNat = 0 ∧ c.offset.toNat % c.size.toNat = 0

/-- Whether the upstream ranges of two windows share an address (R120). -/
def WindowConfig.overlaps (c d : WindowConfig) : Bool :=
  c.base.toNat < d.base.toNat + d.size.toNat ∧ d.base.toNat < c.base.toNat + c.size.toNat

/-- Whether another enabled entry overlaps what is written to entry `i` (R120). -/
def State.overlapsOther (s : State) (i : WindowId) (c : WindowConfig) : Bool :=
  (List.finRange 16).any fun j => j ≠ i ∧ s.windows[j].config.enabled ∧ s.windows[j].config.overlaps c

end Sys2Proof.Machine
end

