-- ==== Sys2Proof/Machine/Ops.lean ====
section
/-! DEFINITION. The shared operations over the state: event posting, answers, the parking queue, forwards and release
scans, the fill engine, the arbiter, the moves of a bank, entry into FAULT, and the link unit. -/

namespace Sys2Proof.Machine

/-! ### Updates of single records -/

/-- Change bank `b`'s record. -/
def State.updBank (s : State) (b : BankId) (f : Bank → Bank) : State :=
  { s with banks := s.banks.set b (f (s.bank b)) }

/-- Change every bank's record. -/
def State.mapBanks (s : State) (f : BankId → Bank → Bank) : State :=
  { s with banks := Vector.ofFn fun b => f b (s.bank b) }

/-- Change the port of a bank. -/
def Bank.withPort (k : Bank) (f : Port → Port) : Bank := { k with port := f k.port }

/-- Mark every segment of a bank LOST (R89). -/
def Bank.loseAll (k : Bank) : Bank := { k with marks := Vector.replicate 32 .lost }

/-- The marks with the segments first to first + count − 1 set (R93). -/
def setMarks (marks : Vector Mark 32) (first count : Nat) (m : Mark) : Vector Mark 32 :=
  Vector.ofFn fun g => if first ≤ g.val ∧ g.val < first + count then m else marks[g]

/-- Mark the segments first to first + count − 1 of a bank (R93). -/
def Bank.markRange (k : Bank) (first count : Nat) (m : Mark) : Bank := { k with marks := setMarks k.marks first count m }

/-- Change the held count of a window. -/
def State.updHeld (s : State) (i : WindowId) (f : Nat → Nat) : State :=
  { s with windows := s.windows.set i { s.windows[i] with held := f s.windows[i].held } }

/-! ### Events (R174) -/

/-- Post an event of a kind: it becomes a record when its kind is enabled, takes the next sequence number, and is
stored or, with the queue full, counted lost (R174). -/
def State.post (s : State) (k : EventKind) (about : About) : State :=
  if s.enables k then
    let numbered := { s with sequence := s.sequence + 1 }
    if s.events.length < Config.eventCapacity then
      { numbered with events := s.events ++ [{ sequence := s.sequence, kind := k, time := s.clock.micros, about := about }] }
    else { numbered with lost := if s.lost = 0xFFFF then s.lost else s.lost + 1 }
  else s

/-! ### Tags and answers (R159, R163) -/

/-- Bind a tag to an accepted request (R159). -/
def State.bindTag (s : State) (t : Tag) (length : Nat) (w : Option WindowId) : State :=
  { s with tags := s.tags.set t { state := .pending, length := length, window := w } }

/-- Answer a held request. A response is made only for a tag whose record is PENDING, and leaves it ANSWERED (R163). -/
def State.answer (s : State) (t : Tag) (status : Status) (data : List Byte) : State :=
  if s.tags[t].state = .pending then
    { s with tags := s.tags.set t { s.tags[t] with state := .answered }
             responses := s.responses ++ [{ tag := t, status := status, data := data }] }
  else s

/-! ### The idle timer (R58 to R60) -/

/-- The idle limit of a bank in ticks (R58). -/
def Bank.idleTicks (k : Bank) : Nat := k.config.idleLimit.toNat * Config.idleStep

/-- Load the idle timer at entry into ON, with the parked count of the bank (R58). -/
def Bank.loadIdle (k : Bank) (parked : Nat) : Bank :=
  { k with idleTimer :=
      if k.config.idleLimit = 0 then .stopped
      else if 0 < parked then .held k.idleTicks
      else .counting k.idleTicks }

/-- Reload the idle timer of a bank in ON (R60). -/
def Bank.reloadIdle (k : Bank) : Bank :=
  if k.power = .on then
    match k.idleTimer with
    | .counting _ => { k with idleTimer := .counting k.idleTicks }
    | .held _ | .stopped => k
  else k

/-- Hold or release the idle timer of a bank in ON, as its parked count stands (R59). -/
def Bank.syncIdle (k : Bank) (parked : Nat) : Bank :=
  if k.power = .on then
    match k.idleTimer with
    | .counting n => if 0 < parked then { k with idleTimer := .held n } else k
    | .held _ => if parked = 0 then { k with idleTimer := .counting k.idleTicks } else k
    | .stopped => k
  else k

/-! ### The parking queue (R28, R50) -/

/-- Replace the parking queue; each bank controller watches its parked count (R59). -/
def State.setParked (s : State) (q : List Entry) : State :=
  { s with parked := q }.mapBanks fun b k => k.syncIdle (parkedCount q b)

/-- The queue around its oldest entry that meets a test: the entries before it, the entry, the entries after it. -/
def splitOldest (p : Entry → Bool) : List Entry → Option (List Entry × Entry × List Entry)
  | [] => none
  | e :: later =>
    if p e then some ([], e, later)
    else match splitOldest p later with
      | none => none
      | some (before, x, after) => some (e :: before, x, after)

/-- Answer a run of entries in order. -/
def State.answerEntries (s : State) (status : Status) : List Entry → State
  | [] => s
  | e :: later => (s.answer e.req.tag status []).answerEntries status later

/-- The later entries of the stream of an answered entry: its cascade (R50). -/
def cascadeOf (e : Entry) (after : List Entry) : List Entry := after.filter fun x => x.req.stream = e.req.stream

/-- The queue once an entry and its cascade have left it (R50). -/
def withoutCascade (before : List Entry) (e : Entry) (after : List Entry) : List Entry :=
  before ++ after.filter fun x => x.req.stream ≠ e.req.stream

/-- Remove an entry from the queue and answer it, and its cascade after it, with a status (R50). -/
def State.expel (s : State) (before : List Entry) (e : Entry) (after : List Entry) (status : Status) : State :=
  (s.setParked (withoutCascade before e after)).answerEntries status (e :: cascadeOf e after)

/-- Answer the parked entries for a bank, oldest first, each followed by its cascade (R52, R53), at most `n` of them. -/
def State.expelBank (s : State) (b : BankId) (status : Status) : Nat → State
  | 0 => s
  | n + 1 =>
    match splitOldest (fun e => e.req.bank = b) s.parked with
    | none => s
    | some (before, e, after) => (s.expel before e after status).expelBank b status n

/-- Answer every parked entry for a bank, with the cascades (R52, R53). -/
def State.flushParked (s : State) (b : BankId) (status : Status) : State := s.expelBank b status s.parked.length

/-! ### One event at work -/

/-- An event being carried out: the state it has reached, the triggers offered and not yet taken (R143), the counter
crossings not yet posted (R135), and the links that have fired (R143). -/
structure Work where
  st : State
  offered : List (BankId × Trigger)
  crossings : List (BankId × Tag × Stream)
  fired : List LinkId
  deriving DecidableEq, Repr

/-- Carry out a change of the state that offers no trigger. -/
def Work.on (w : Work) (f : State → State) : Work := { w with st := f w.st }

/-- Change bank `b`'s record. -/
def Work.bank (w : Work) (b : BankId) (f : Bank → Bank) : Work := w.on fun s => s.updBank b f

/-- Bank `b` offers a trigger (R141). -/
def Work.offer (w : Work) (b : BankId) (t : Trigger) : Work := { w with offered := w.offered ++ [(b, t)] }

/-! ### Forwards and release scans (R44, R127, R135) -/

/-- The slot of a forwarded request (R127). -/
def State.requestSlot (s : State) (r : Routed) : Slot :=
  { holder := .request r.tag r.stream, kind := r.kind, addr := r.addr, segment := r.segment, length := r.length,
    forwardTime := s.clock.micros, expiryTime := s.clock.micros + s.global.respLimit.setWidth 32 }

/-- The access counter after a forward (R135). -/
def Port.counted (p : Port) : BitVec 32 := if p.counter = 0xFFFFFFFF then p.counter else p.counter + 1

/-- Whether a forward makes a crossing (R135). -/
def Bank.crosses (k : Bank) : Bool :=
  k.port.counter ≠ 0xFFFFFFFF ∧ k.port.counted = k.config.threshold ∧ k.config.threshold ≠ 0 ∧ k.port.reached = false

/-- The bank record after a forward: the slot, the counter, the flag and the idle timer (R127, R135). -/
def Bank.forwarded (k : Bank) (x : Slot) : Bank :=
  (k.withPort fun p => { p with slots := p.slots ++ [x], counter := p.counted, reached := p.reached || k.crosses }).reloadIdle

/-- The state after a request is forwarded to its bank port, which issues the command to the bank (R126, R127). -/
def State.sendRequest (s : State) (r : Routed) : State :=
  { s.updBank r.bank (fun k => k.forwarded (s.requestSlot r)) with
    busOut := s.busOut ++ [{ bank := r.bank, addr := r.addr, kind := r.kind, length := r.length, data := r.wdata.getD [] }] }

/-- Forward a request to its bank port, with the crossing it may make (R127, R135). -/
def Work.forward (w : Work) (r : Routed) : Work :=
  { w with
    st := w.st.sendRequest r
    crossings :=
      if (w.st.bank r.bank).crosses then w.crossings ++ [(r.bank, r.tag, r.stream)] else w.crossings }

/-- Release an entry: it leaves the queue, which keeps `rest`, and is forwarded (R45). -/
def Work.release (w : Work) (rest : List Entry) (e : Entry) : Work := (w.on fun s => s.setParked rest).forward e.req

/-- The walk of a release scan, with the entries it has kept and those still ahead (R44). -/
def Work.walk (w : Work) : List Entry → List Entry → Work
  | _, [] => w
  | kept, e :: ahead =>
    if w.st.releasable kept e then (w.release (kept ++ ahead) e).walk kept ahead
    else w.walk (kept ++ [e]) ahead

/-- A release scan (R44). -/
def Work.scan (w : Work) : Work := w.walk [] w.st.parked

/-! ### Entry into ON, and the fill engine (R11, R97 to R102) -/

/-- The bank record at entry into ON, with its parked count: no drain, and the idle timer loaded (R11, R58, R63). -/
def Bank.turnedOn (k : Bank) (parked : Nat) : Bank :=
  { k with power := .on, drainKind := .none, drainTarget := .none }.loadIdle parked

/-- The state once bank `b` is in ON (R11, R63). -/
def State.turnOn (s : State) (b : BankId) : State := s.updBank b fun k => k.turnedOn (parkedCount s.parked b)

/-- Bank `b` enters ON from RAMPING or FILLING: READY is offered, the idle timer loaded, and a scan run (R11). -/
def Work.enterOn (w : Work) (b : BankId) : Work := ((w.on fun s => s.turnOn b).offer b .ready).scan

/-- Whether bank `b` stands at the head of the fill queue. -/
def State.fillsBank (s : State) (b : BankId) : Bool := s.fillQueue.head? = some b

/-- Take a bank out of the fill queue; if it was the head, the current segment becomes none (R96, R102). -/
def State.unqueueFill (s : State) (b : BankId) : State :=
  { s with fillQueue := s.fillQueue.filter fun x => x ≠ b
           fill := if s.fillsBank b then FillProgress.idle else s.fill }

/-- The fill of bank `b` is done: steps 1 to 3 of R102. -/
def Work.fillDone (w : Work) (b : BankId) : Work :=
  (w.on fun s => (s.unqueueFill b).post .fillDone { bank := some b }).enterOn b

/-- The next write after an issue: 64 bytes on, or none after the segment's last block (R99). -/
def nextWriteAfter (c : BankConfig) (a : BankAddr) : Option BankAddr :=
  if (a.toNat + Config.fillBytes) % c.segmentBytes = 0 then none else some (a + BitVec.ofNat 28 Config.fillBytes)

/-- The slot of a fill write (R128). -/
def State.fillSlot (s : State) (g : Segment) (a : BankAddr) : Slot :=
  { holder := .fill, kind := .write, addr := a, segment := g, length := Config.fillBytes,
    forwardTime := s.clock.micros, expiryTime := s.clock.micros + s.global.respLimit.setWidth 32 }

/-- A bank record once its port holds one more fill write (R128). -/
def Bank.withFill (k : Bank) (x : Slot) : Bank := k.withPort fun p => { p with slots := p.slots ++ [x] }

/-- The state once the fill write at address `a` of segment `g` has been issued to bank `b` (R99, R126, R128). -/
def State.placeFill (s : State) (b : BankId) (g : Segment) (a : BankAddr) : State :=
  { s.updBank b (fun k => k.withFill (s.fillSlot g a)) with
    fill := { s.fill with nextWrite := nextWriteAfter (s.bank b).config a, inFlight := s.fill.inFlight + 1 }
    busOut := s.busOut ++ [{ bank := b, addr := a, kind := .write, length := Config.fillBytes,
                             data := List.replicate Config.fillBytes 0 }] }

/-- Whether bank `b`'s port takes a fill write (R99, R128). -/
def Bank.takesFill (k : Bank) : Bool := k.port.fillSlots < Config.fillSlotCapacity ∧ k.port.hasRoom

/-- Issue the next fill write, if the three conditions of R99 hold. -/
def State.issueFill (s : State) : State :=
  match s.fillQueue.head?, s.fill.current, s.fill.nextWrite with
  | some b, some g, some a => if (s.bank b).takesFill then s.placeFill b g a else s
  | _, _, _ => s

/-- Issue fill writes while R99 allows: a port holds at most two of them. -/
def State.issueFills (s : State) : State := s.issueFill.issueFill

/-- Set up a segment fill of the head bank (R97). -/
def State.beginSegment (s : State) (b : BankId) (g : Segment) : State :=
  { s with fill := { current := some g
                     nextWrite := some (BitVec.ofNat 28 (g.val * (s.bank b).config.segmentBytes))
                     completed := 0, inFlight := 0, cutOff := false } }

/-- Begin a segment fill for the head bank, or end the fill of a head bank with no LOST segment and go on with the
next head, for at most `n` heads (R97, R102). -/
def Work.startHeads (w : Work) : Nat → Work
  | 0 => w
  | n + 1 =>
    match w.st.fillQueue with
    | [] => w.on fun s => { s with fill := FillProgress.idle }
    | b :: _ =>
      if (w.st.bank b).anyLost then w.on fun s => (s.beginSegment b (s.chooseSegment b)).issueFills
      else (w.fillDone b).startHeads n

/-- Begin a segment fill for the head bank (R97). -/
def Work.startHead (w : Work) : Work := w.startHeads (w.st.fillQueue.length + 1)

/-- The state once bank `b` is in FILLING, at the tail of the fill queue (R10, R96). -/
def State.joinFill (s : State) (b : BankId) : State :=
  { s.updBank b (fun k => { k with power := .filling }) with fillQueue := s.fillQueue ++ [b] }

/-- Bank `b` enters FILLING: it joins the fill queue, a scan runs, and a bank that joins an empty queue is begun
(R10, R97, R100). -/
def Work.enterFilling (w : Work) (b : BankId) : Work :=
  let scanned := (w.on fun s => s.joinFill b).scan
  if w.st.fillQueue = [] then scanned.startHead else scanned

/-! ### Wakes and the arbiter (R5, R7, R10, R79 to R81) -/

/-- Release the units of a bank (R81). The grant attempt that follows is `tryGrant`. -/
def State.releaseUnits (s : State) (b : BankId) : State :=
  { s.updBank b (fun k => { k with charge := 0 }) with unitsHeld := s.unitsHeld - (s.bank b).charge }

/-- The state once the ramp of bank `b` is over: its ramp timers stop, its wake kind becomes NONE, and it holds no units
(R9, R10, R81). -/
def State.endRamp (s : State) (b : BankId) : State :=
  (s.updBank b fun k => { k with wakeKind := .none, dwellTimer := none, wakeTimer := none }).releaseUnits b

/-- The bank record at a grant of the given cost (R7, R80). -/
def Bank.granted (k : Bank) (cost : Nat) : Bank :=
  { k with power := .ramping, rampStage := 1, charge := cost, wakeTimer := some k.config.wakeLimit.toNat
           dwellTimer := if 1 < k.stageCount then some k.config.dwell.toNat else none }

/-- Whether stage S is output while PGOOD is high and the wake-limit timer runs (R9). -/
def Bank.rampDone (k : Bank) : Bool :=
  k.power = .ramping ∧ k.rampStage = k.stageCount ∧ k.pgood ∧ k.wakeTimer.isSome

/-- The ramp of bank `b` completes, its units released and a grant tried before: it leaves RAMPING for FILLING or ON
(R9, R10). -/
def Work.completeRamp (w : Work) (b : BankId) : Work :=
  if (w.st.bank b).rampDone then
    let ended := w.on fun s => s.endRamp b
    if (w.st.bank b).config.fillPolicy = .zero ∧ (w.st.bank b).anyLost then ended.enterFilling b else ended.enterOn b
  else w

/-- The state once the head of the wake-wait list is granted, with the rest of the list (R80). -/
def State.grantWake (s : State) (b : BankId) (rest : List BankId) : State :=
  { s.updBank b (fun k => k.granted (s.bank b).wakeCost) with
    waitList := rest, unitsHeld := s.unitsHeld + (s.bank b).wakeCost }

/-- The grants of a grant attempt over at most `n` heads of the wake-wait list (R79). The ramp of a head whose stage S is
output with PGOOD high completes within the grant: its units are released there, and the attempt goes on (R9, R80). With
the state come the banks whose ramps have so completed, in that order; they have still to leave RAMPING. -/
def State.grantHeads (s : State) : Nat → State × List BankId
  | 0 => (s, [])
  | n + 1 =>
    match s.waitList with
    | [] => (s, [])
    | b :: rest =>
      if s.unitsHeld + (s.bank b).wakeCost ≤ s.global.budget.toNat then
        let granted := s.grantWake b rest
        if (granted.bank b).rampDone then
          let later := (granted.releaseUnits b).grantHeads n
          (later.1, b :: later.2)
        else granted.grantHeads n
      else (s, [])

/-- The grants of a grant attempt (R79). -/
def State.grants (s : State) : State × List BankId := s.grantHeads s.waitList.length

/-- Banks leave RAMPING, in the order in which their ramps have completed: the one that completed first stands ahead in the
fill queue (R10, R96, R108). -/
def Work.completeRamps (w : Work) : List BankId → Work
  | [] => w
  | b :: later => (w.completeRamp b).completeRamps later

/-- A grant attempt, and the entries of the banks whose ramps complete within it (R10, R79, R80; log 6). -/
def Work.tryGrant (w : Work) : Work :=
  let attempt := w.st.grants
  (w.on fun _ => attempt.1).completeRamps attempt.2

/-- Complete the ramp of bank `b` if stage S is output while PGOOD is high: its units are released, a grant is tried, and it
leaves RAMPING, ahead of the banks whose ramps complete within that attempt (R9, R10, R81, R96; log 6). -/
def Work.finishRamp (w : Work) (b : BankId) : Work :=
  if (w.st.bank b).rampDone then
    let attempt := (w.st.releaseUnits b).grants
    (w.on fun _ => attempt.1).completeRamps (b :: attempt.2)
  else w

/-- The bank record of a bank in OFF or RETAIN that takes a wake request (R5). -/
def Bank.woken (k : Bank) : Bank :=
  { k with power := .waiting, attempts := 0, retainTimer := none
           wakeKind := if k.power = .retain then .fromRetain else .fromOff }

/-- The state once a wake request has taken bank `b` to WAITING, at the tail of the wake-wait list (R5, R78). -/
def State.joinWait (s : State) (b : BankId) : State :=
  { s.updBank b Bank.woken with waitList := s.waitList ++ [b] }

/-- A wake request at bank `b`. It acts on a present bank in OFF or RETAIN, and WAKE_BEGUN is offered unless a link
action caused it (R5). -/
def Work.wake (w : Work) (b : BankId) (fromLink : Bool) : Work :=
  let k := w.st.bank b
  if k.config.present ∧ (k.power = .off ∨ k.power = .retain) then
    let waiting := w.on fun s => s.joinWait b
    (if fromLink then waiting else waiting.offer b .wakeBegun).tryGrant
  else w

/-! ### Drains (R61 to R73) -/

/-- The retain timer at entry into RETAIN (R22). -/
def BankConfig.retainPeriod (c : BankConfig) : Option Nat :=
  if c.retainLimit = 0 then none else some (c.retainLimit.toNat * Config.retainStep)

/-- The bank record after its rail is lowered to its drain target (R67). A drain target of NONE does not occur in
DRAINING (log 20). -/
def Bank.lowered (k : Bank) : Bank :=
  let low := { k with drainKind := .none, drainTarget := .none, rampStage := 0 }
  match k.drainTarget with
  | .off => { low with power := .off, retainTimer := none }.loseAll
  | .retain | .none => { low with power := .retain, retainTimer := k.config.retainPeriod }

/-- The drain of bank `b` completes: ASLEEP is offered, and entries parked for the bank wake it again (R67, R68). -/
def Work.completeDrain (w : Work) (b : BankId) : Work :=
  let asleep := (w.bank b Bank.lowered).offer b .asleep
  if 0 < parkedCount asleep.st.parked b then asleep.wake b false else asleep

/-- Complete the drain of bank `b` if it is in DRAINING with no slot busy (R66). -/
def Work.drainIfEmpty (w : Work) (b : BankId) : Work :=
  if (w.st.bank b).power = .draining ∧ (w.st.bank b).port.slots = [] then w.completeDrain b else w

/-- The drain target of a SLEEP target or an idle target. -/
def RestTarget.drain : RestTarget → DrainTarget
  | .retain => .retain
  | .off => .off

/-- The bank record at entry into DRAINING (R61, R64). -/
def Bank.draining (k : Bank) (kind : DrainKind) (t : RestTarget) : Bank :=
  { k with power := .draining, drainKind := kind, drainTarget := t.drain, idleTimer := .stopped }

/-- A soft drain of bank `b` begins (R61). -/
def Work.softDrain (w : Work) (b : BankId) : Work :=
  ((w.bank b fun k => k.draining .soft k.config.idleTarget).offer b .drainBegun).drainIfEmpty b

/-- A soft drain of bank `b` is cancelled: it returns to ON, its idle timer is loaded, and a scan runs. No trigger is
offered (R63). -/
def Work.cancelDrain (w : Work) (b : BankId) : Work := (w.on fun s => s.turnOn b).scan

/-- The state once bank `b` is in a hard drain; a bank in FILLING has left the fill queue with it (R64, R96, R106). -/
def State.hardDraining (s : State) (b : BankId) (t : RestTarget) : State :=
  (s.updBank b fun k => k.draining .hard t).unqueueFill b

/-- Bank `b`, in ON or FILLING, enters a hard drain, and a bank that comes to the head of the fill queue is begun.
DRAIN_BEGUN is offered unless a link action caused the drain (R64, R106). -/
def Work.hardDrain (w : Work) (b : BankId) (t : RestTarget) (fromLink : Bool) : Work :=
  let drained := w.on fun s => s.hardDraining b t
  let begun := if w.st.fillsBank b then drained.startHead else drained
  (if fromLink then begun else begun.offer b .drainBegun).drainIfEmpty b

/-- The bank record of a bank in RETAIN that enters OFF (R22, R71). -/
def Bank.retainToOff (k : Bank) : Bank := { k with power := .off, retainTimer := none }.loseAll

/-- The moves that a SLEEP with a target makes at bank `b` (R72, R73). -/
def Work.sleep (w : Work) (b : BankId) (t : RestTarget) (fromLink : Bool) : Work :=
  match (w.st.bank b).power with
  | .on | .filling => w.hardDrain b t fromLink
  | .draining => w.bank b fun k => { k with drainKind := .hard, drainTarget := t.drain }
  | .retain => if t = .off then w.bank b Bank.retainToOff else w
  | .off | .waiting | .ramping | .fault => w

/-! ### Entry into FAULT (R18, R19) -/

/-- The cause of an entry into FAULT (R14, R16, R17). -/
inductive FaultCause where
  | wakeFailed | railDropped | timedOut
  deriving DecidableEq, Repr

/-- The bank record in FAULT: its state (R18, step 1), its port after the reset (R137), and its marks (R18, step 3),
which nothing reads between those steps. -/
def Bank.faulted (k : Bank) : Bank :=
  { k with power := .fault, rampStage := 0, dwellTimer := none, wakeTimer := none, idleTimer := .stopped
           retainTimer := none, drainKind := .none, drainTarget := .none, wakeKind := .none
           port := { k.port with slots := [], ignoring := true } }.loseAll

/-- The state once bank `b` is in FAULT; a bank in FILLING has left the fill queue with it (R18, R96, R107). -/
def State.toFault (s : State) (b : BankId) : State := (s.updBank b Bank.faulted).unqueueFill b

/-- Answer the requests of a slot list in order, the first with a status of its own (R19, R137). -/
def State.answerSlots (s : State) (first : Status) : List Slot → State
  | [] => s
  | x :: later =>
    (match x.holder with
     | .request t _ => s.answer t first []
     | .fill | .orphan _ _ => s).answerSlots .faulted later

/-- The status of the oldest request in flight at an entry into FAULT (R19). -/
def FaultCause.firstStatus : FaultCause → Status
  | .timedOut => .bankerr
  | .wakeFailed | .railDropped => .faulted

/-- The answers of R19: the requests that were in the slots, then the parked entries with their cascades. -/
def State.faultAnswers (s : State) (b : BankId) (cause : FaultCause) (slots : List Slot) : State :=
  (s.answerSlots cause.firstStatus slots).flushParked b .faulted

/-- The kind and fields of the event of the cause (R14, R16, R17), for the bank as it stood before, with the number of
responses that R19 produced. -/
def faultEvent (b : BankId) (k : Bank) (cause : FaultCause) (answered : Nat) : EventKind × About :=
  match cause with
  | .wakeFailed => (.wakeFault, { bank := some b, detail := some (.count k.attempts) })
  | .railDropped => (.railDrop, { bank := some b, detail := some (.count answered) })
  | .timedOut =>
    match k.port.slots.head?.map Slot.holder with
    | some (.request t st) =>
      (.bankTimeout, { bank := some b, tag := some t, stream := some st, detail := some (.count answered) })
    | _ => (.bankTimeout, { bank := some b, detail := some (.count answered) })

/-- Bank `b` enters FAULT (R18): its own state, the answers of R19 and their release scan, the fill engine's next head,
the event of the cause, and the trigger FAULTED. -/
def Work.enterFault (w : Work) (b : BankId) (cause : FaultCause) : Work :=
  let k := w.st.bank b
  let answered := w.on fun s => (s.toFault b).faultAnswers b cause k.port.slots
  let scanned := answered.scan
  let refilled := if w.st.fillsBank b then scanned.startHead else scanned
  let event := faultEvent b k cause (answered.st.responses.length - w.st.responses.length)
  (refilled.on fun s => s.post event.1 event.2).offer b .faulted

/-! ### The link unit (R142 to R148) -/

/-- A link action at its target (R144 to R147). -/
def Work.act (w : Work) (l : LinkId) (source : BankId) (t : Trigger) : Work :=
  let c := w.st.links[l].config
  let k := w.st.bank c.target
  match c.action with
  | .prewake =>
    if k.power = .draining ∧ k.drainKind = .soft then w.cancelDrain c.target else w.wake c.target true
  | .hold =>
    if k.power = .draining ∧ k.drainKind = .soft then w.cancelDrain c.target else w.bank c.target Bank.reloadIdle
  | .sleepRetain => w.sleep c.target .retain true
  | .sleepOff => w.sleep c.target .off true
  | .note => w.on fun s => s.post .linkNote { bank := some source, link := some l, detail := some (.trigger t) }

/-- Post the crossings of the walks made so far and offer their COUNT triggers, in the order of the walks (R135). -/
def Work.settleFrom (w : Work) : List (BankId × Tag × Stream) → Work
  | [] => w
  | (b, t, st) :: later =>
    ((w.on fun s => s.post .countReached { bank := some b, tag := some t, stream := some st }).offer b .count).settleFrom
      later

/-- Post every crossing not yet posted (R135). -/
def Work.settle (w : Work) : Work := ({ w with crossings := [] } : Work).settleFrom w.crossings

/-- The lowest enabled link that a trigger of bank `b` matches and that has not fired in this event (R142, R143). -/
def State.matchingLink (s : State) (fired : List LinkId) (b : BankId) (t : Trigger) : Option LinkId :=
  (List.finRange 8).find? fun l =>
    s.links[l].config.enabled ∧ s.links[l].config.source = b ∧ s.links[l].config.trigger = t ∧ l ∉ fired

/-- The next firing among the triggers still to be taken: the link, its trigger, and the triggers from that one on.
Triggers that match no link are dropped (R142). -/
def State.nextFiring (s : State) (fired : List LinkId) :
    List (BankId × Trigger) → Option (LinkId × (BankId × Trigger) × List (BankId × Trigger))
  | [] => none
  | o :: later =>
    match s.matchingLink fired o.1 o.2 with
    | some l => some (l, o, o :: later)
    | none => s.nextFiring fired later

/-- The fire count after a firing (R142). -/
def Link.firedOnce (l : Link) : Link := { l with fireCount := if l.fireCount = 0xFFFF then l.fireCount else l.fireCount + 1 }

/-- One firing: the fire count rises, and the action is applied whole (R142, R143). -/
def Work.fire (w : Work) (l : LinkId) (o : BankId × Trigger) (still : List (BankId × Trigger)) : Work :=
  let counted := w.on fun s => { s with links := s.links.set l s.links[l].firedOnce }
  (({ counted with offered := still, fired := l :: w.fired } : Work).act l o.1 o.2).settle

/-- Take the triggers offered, for at most `n` firings (R143). -/
def Work.fireUpTo (w : Work) : Nat → Work
  | 0 => { w with offered := [] }
  | n + 1 =>
    match w.st.nextFiring w.fired w.offered with
    | none => { w with offered := [] }
    | some (l, o, still) => (w.fire l o still).fireUpTo n

/-- The end of the moves of an event: crossings are posted, then the triggers are taken. Each link fires at most once
in an event, so eight firings are all there can be (R135, R143). -/
def Work.takeTriggers (w : Work) : Work := w.settle.fireUpTo 8

/-! ### A whole event -/

/-- The state at the start of a step: nothing is on the bank port buses yet, and no fill write has ended in error. -/
def State.begin (s : State) : State := { s with busOut := [], fillError := none }

/-- An event at its start. -/
def Work.start (s : State) : Work := { st := s, offered := [], crossings := [], fired := [] }

/-- One event: its moves, then the triggers they offered. -/
def State.event (s : State) (moves : Work → Work) : State := (moves (Work.start s)).takeTriggers.st

/-- A step that answers a next state. -/
def proceed (s : State) : Host.Outcome State Fault Refusal := .next s

/-! ### Management frames (R183 to R185) -/

/-- The state after a frame that runs up to the taking of its command, with these bytes in and out; a port that takes no
frame leaves everything as it was (R186). -/
def State.framed (s t : State) (received reply : List Byte) : State :=
  if s.frameHeld then s else { t with frame := { mcsLow := true, received := received, reply := reply } }

/-- The state after a management command is taken. `ok` carries the state it leaves and its response bytes, and is
answered DONE; a refusal changes nothing, and its response bytes are all 00h (R185). -/
def State.serve (s : State) (c : FrameCommand) (index : Byte) (args : List Byte)
    (result : Except ResponseCode (State × List Byte)) : State :=
  match result with
  | .ok (t, body) => s.framed t (c.code :: index :: args) (ResponseCode.done.code :: body)
  | .error e => s.framed s (c.code :: index :: args) (e.code :: List.replicate c.responseBytes 0)

/-- The index of a command that names nothing: 00h, or UNKNOWN (R184). -/
def withoutIndex (index : Byte) (body : Except ResponseCode (State × List Byte)) : Except ResponseCode (State × List Byte) :=
  if index = 0 then body else .error .unknown

/-- The index of a command that names a bank (R184). -/
def withBank (index : Byte) (body : BankId → Except ResponseCode (State × List Byte)) :
    Except ResponseCode (State × List Byte) :=
  match bankOf index with
  | some b => body b
  | none => .error .unknown

/-- The index of a command that names a window entry (R184). -/
def withWindow (index : Byte) (body : WindowId → Except ResponseCode (State × List Byte)) :
    Except ResponseCode (State × List Byte) :=
  match windowOf index with
  | some i => body i
  | none => .error .unknown

/-- The index of a command that names a link (R184). -/
def withLink (index : Byte) (body : LinkId → Except ResponseCode (State × List Byte)) :
    Except ResponseCode (State × List Byte) :=
  match linkOf index with
  | some l => body l
  | none => .error .unknown

end Sys2Proof.Machine
end

