-- ==== Sys2Proof/Machine/Actions.lean ====
section
/-! DEFINITION. The meanings of the action commands of the management port (R194). -/

namespace Sys2Proof.Machine

/-- The effect and answer of WAKE BANK (R23). -/
def State.wakeBank (s : State) (b : BankId) : Except ResponseCode (State × List Byte) :=
  let k := s.bank b
  if k.config.present = false then .error .state
  else match k.power with
    | .off | .retain => .ok (s.event fun w => w.wake b false, [])
    | .waiting | .ramping | .filling => .ok (s, [])
    | .on => .ok (s.updBank b Bank.reloadIdle, [])
    | .draining => if k.drainKind = .soft then .ok (s.event fun w => w.cancelDrain b, []) else .error .state
    | .fault => .error .state

/-- WAKE BANK (R23). -/
def execWakeBank (index : Byte) (s : State) : Host.Outcome State Fault Refusal :=
  let s := s.begin
  proceed (s.serve .wakeBank index [] (withBank index s.wakeBank))

/-- The effect and answer of SLEEP BANK; the target is checked before the bank (R72, R194). -/
def State.sleepBank (s : State) (target : Byte) (b : BankId) : Except ResponseCode (State × List Byte) :=
  match restTargetOf target with
  | none => .error .range
  | some t =>
    let k := s.bank b
    if k.config.present = false then .error .state
    else if k.power = .waiting ∨ k.power = .ramping ∨ k.power = .fault then .error .state
    else .ok (s.event fun w => w.sleep b t false, [])

/-- SLEEP BANK (R72). -/
def execSleepBank (index target : Byte) (s : State) : Host.Outcome State Fault Refusal :=
  let s := s.begin
  proceed (s.serve .sleepBank index [target] (withBank index (s.sleepBank target)))

/-- The effect and answer of FLUSH BANK: the parked entries for the bank and their cascades are answered ABORTED, one
scan follows, and the number of responses is returned (R53). -/
def State.flushBank (s : State) (b : BankId) : Except ResponseCode (State × List Byte) :=
  if (s.bank b).config.present = false then .error .state
  else
    let flushed := s.flushParked b .aborted
    .ok (flushed.event Work.scan, [byteOf (flushed.responses.length - s.responses.length)])

/-- FLUSH BANK (R53). -/
def execFlushBank (index : Byte) (s : State) : Host.Outcome State Fault Refusal :=
  let s := s.begin
  proceed (s.serve .flushBank index [] (withBank index s.flushBank))

/-- A bank that leaves FAULT for OFF; its port takes completions again (R21, R137). -/
def Bank.cleared (k : Bank) : Bank :=
  { k with power := .off, attempts := 0 }.withPort fun p => { p with ignoring := false }

/-- The effect and answer of CLEAR FAULT (R21). -/
def State.clearFault (s : State) (b : BankId) : Except ResponseCode (State × List Byte) :=
  if (s.bank b).config.present = false ∨ (s.bank b).power ≠ .fault then .error .state
  else .ok (s.updBank b Bank.cleared, [])

/-- CLEAR FAULT (R21). -/
def execClearFault (index : Byte) (s : State) : Host.Outcome State Fault Refusal :=
  let s := s.begin
  proceed (s.serve .clearFault index [] (withBank index s.clearFault))

/-- Whether the marks of a bank can be set in this power state (R93, check 3). -/
def Bank.markable (k : Bank) : Bool :=
  k.power = .on ∨ k.power = .filling ∨ k.power = .draining ∨ k.power = .retain

/-- A MARK SEGMENTS VALID that names the current segment of the head bank cuts its fill off (R103). -/
def State.cutOffFill (s : State) (b : BankId) (first count : Nat) : State :=
  match s.fill.current with
  | some g =>
    if s.fillsBank b ∧ first ≤ g.val ∧ g.val < first + count then
      { s with fill := { s.fill with cutOff := true, nextWrite := none } }
    else s
  | none => s

/-- The fill engine moves on after a MARK SEGMENTS VALID in FILLING: past a cut-off segment with no write in flight
(R103), or out of a fill with no LOST segment left and no write of the current segment in flight (R102). -/
def Work.moveFillOn (w : Work) (b : BankId) : Work :=
  if w.st.fillsBank b then
    if w.st.fill.inFlight = 0 ∧ (w.st.fill.cutOff ∨ (w.st.bank b).anyLost = false) then w.startHead else w
  else if (w.st.bank b).anyLost = false then w.fillDone b
  else w

/-- Whether every LOST segment of a bank is among the segments first to first + count − 1. -/
def Bank.lostWithin (k : Bank) (first count : Nat) : Bool :=
  (List.finRange 32).all fun g => k.marks[g] = .valid ∨ (first ≤ g.val ∧ g.val < first + count)

/-- The segment that a MARK SEGMENTS VALID of bank `b` leaves LOST: that of the failed fill write whose error the step just
before has taken, where the command names every LOST segment of the bank (R108; log 30). -/
def State.leftLost (s : State) (b : BankId) (first count : Nat) : Option Segment :=
  match s.fillError with
  | some (c, g) => if c = b ∧ (s.bank b).lostWithin first count then some g else none
  | none => none

/-- Set the named marks VALID, but that of a segment that stays LOST (R93, R108). -/
def Work.markValid (w : Work) (b : BankId) (first count : Nat) (stays : Option Segment) : Work :=
  let marked := w.bank b fun k => k.markRange first count .valid
  match stays with
  | some g => marked.bank b fun k => k.markRange g.val 1 .lost
  | none => marked

/-- The moves of a MARK SEGMENTS that is taken (R93, R94). The value LOST sets every named mark, that of a cut-off current
segment too, which stays cut off and is chosen again in its turn (R93, R89 against R103; log 29). The value VALID sets every
named mark, but that of a failed fill write in the one case of R108 (log 30). -/
def Work.mark (w : Work) (b : BankId) (first count : Nat) (m : Mark) (stays : Option Segment) : Work :=
  match m with
  | .lost => w.bank b fun k => k.markRange first count .lost
  | .valid =>
    let scanned := ((w.markValid b first count stays).on fun s => s.cutOffFill b first count).scan
    if (scanned.st.bank b).power = .filling then scanned.moveFillOn b else scanned

/-- The checks and effect of MARK SEGMENTS, taken in state `s` (R93, R94, R108). -/
def State.markSegments (s : State) (first count value : Byte) (b : BankId) : Except ResponseCode (State × List Byte) :=
  if (s.bank b).config.present = false then .error .state
  else match markOf value with
    | none => .error .range
    | some m =>
      if count = 0 ∨ 32 < first.toNat + count.toNat then .error .range
      else if (s.bank b).markable = false then .error .state
      else .ok (s.begin.event fun w => w.mark b first.toNat count.toNat m (s.leftLost b first.toNat count.toNat), [])

/-- MARK SEGMENTS (R93). -/
def execMarkSegments (index first count value : Byte) (s : State) : Host.Outcome State Fault Refusal :=
  proceed (s.begin.serve .markSegments index [first, count, value] (withBank index (s.markSegments first count value)))

/-- The effect and answer of CLEAR COUNT (R152). -/
def State.clearCount (s : State) (b : BankId) : Except ResponseCode (State × List Byte) :=
  if (s.bank b).config.present = false then .error .state
  else .ok (s.updBank b fun k => k.withPort fun p => { p with counter := 0, reached := false }, [])

/-- CLEAR COUNT (R152). -/
def execClearCount (index : Byte) (s : State) : Host.Outcome State Fault Refusal :=
  let s := s.begin
  proceed (s.serve .clearCount index [] (withBank index s.clearCount))

end Sys2Proof.Machine
end

