-- ==== Sys2Proof/Machine/Expiries.lean ====
section
/-! DEFINITION. The meanings of PARK_EXPIRY, IDLE_EXPIRY and RETAIN_EXPIRY. An expiry of a timer that has not run out,
or no longer exists, is no event and changes nothing (log 1). -/

namespace Sys2Proof.Machine

/-- Whether the deadline timer of an entry has run out (R30). -/
def Entry.due (e : Entry) : Bool :=
  match e.deadline with
  | none => false
  | some d => d.left = 0

/-- The expiry of an entry (R47): it and its cascade are answered EXPIRED, PARK_EXPIRED is posted, and a scan runs. -/
def Work.expire (w : Work) (before : List Entry) (e : Entry) (after : List Entry) : Work :=
  (w.on fun s => (s.expel before e after .expired).post .parkExpired
    { bank := some e.req.bank, tag := some e.req.tag, stream := some e.req.stream, window := some e.req.window,
      detail := some (.count (cascadeOf e after).length) }).scan

/-- PARK_EXPIRY of the entry with a tag (R47). -/
def execParkExpiry (t : Tag) (s : State) : Host.Outcome State Fault Refusal :=
  match splitOldest (fun e => e.req.tag = t ∧ e.due) s.parked with
  | none => proceed s.begin
  | some (before, e, after) => proceed (s.begin.event fun w => w.expire before e after)

/-- IDLE_EXPIRY (R61). -/
def execIdleExpiry (b : BankId) (s : State) : Host.Outcome State Fault Refusal :=
  if (s.bank b).power = .on ∧ (s.bank b).idleTimer = .counting 0 then proceed (s.begin.event fun w => w.softDrain b)
  else proceed s.begin

/-- RETAIN_EXPIRY (R22). -/
def execRetainExpiry (b : BankId) (s : State) : Host.Outcome State Fault Refusal :=
  if (s.bank b).power = .retain ∧ (s.bank b).retainTimer = some 0 then
    proceed ((s.begin.updBank b Bank.retainToOff).post .retainExpired { bank := some b })
  else proceed s.begin

end Sys2Proof.Machine
end

