-- ==== Sys2Proof/Machine/Objects.lean ====
section
/-! DEFINITION. The meanings of the management commands that read and write objects: the global configuration, the
status, the event queue, bank configurations, bank status, windows, links and the parking queue (R183 to R197), and of
UNKNOWN_COMMAND and FRAME_DISCARDED. -/

namespace Sys2Proof.Machine

/-- UNKNOWN_COMMAND (R184): answered UNKNOWN with no response bytes, and nothing changes. -/
def execUnknownCommand (code index : Byte) (s : State) : Host.Outcome State Fault Refusal :=
  let s := s.begin
  proceed (s.framed s [code, index] [ResponseCode.unknown.code])

/-- FRAME_DISCARDED, a rise of MCS_N (R182, R183): nothing is read, written or done, and the port waits for the next fall of
MCS_N. With no byte received it also stands for the rise that ends a frame whose command has been taken, and for the one
that ends a low period that began before RESET_N rose; while RESET_N is low the port ignores it (R186; log 14). -/
def execFrameDiscarded (_received : List Byte) (s : State) : Host.Outcome State Fault Refusal :=
  proceed { s.begin with frame := Frame.empty, frameHeld := s.frameHeld && s.resetLow }

/-- READ GLOBAL (R187). -/
def execReadGlobal (index : Byte) (s : State) : Host.Outcome State Fault Refusal :=
  let s := s.begin
  proceed (s.serve .readGlobal index [] (withoutIndex index (.ok (s, s.global.bytes))))

/-- The checks and effect of WRITE GLOBAL (R84, R188). -/
def State.writeGlobal (s : State) (args : Vector Byte 7) : Except ResponseCode (State × List Byte) :=
  match globalOf args with
  | none => .error .range
  | some g =>
    if g.inRange = false then .error .range
    else if s.budgetInRange g.budget.toNat = false then .error .range
    else if g.budget.toNat < s.unitsHeld then .error .busy
    else .ok ({ s with global := g }.event Work.tryGrant, [])

/-- WRITE GLOBAL (R188). -/
def execWriteGlobal (index : Byte) (args : Vector Byte 7) (s : State) : Host.Outcome State Fault Refusal :=
  let s := s.begin
  proceed (s.serve .writeGlobal index args.toList (withoutIndex index (s.writeGlobal args)))

/-- READ STATUS (R190): the lost count is returned and then cleared (R178). -/
def execReadStatus (index : Byte) (s : State) : Host.Outcome State Fault Refusal :=
  let s := s.begin
  proceed (s.serve .readStatus index [] (withoutIndex index (.ok ({ s with lost := 0 }, s.statusBytes))))

/-- The effect of POP EVENT: the oldest record, or EMPTY (R177). -/
def State.popEvent (s : State) : State × List Byte :=
  match s.events with
  | [] => (s, List.replicate 16 0)
  | r :: rest => ({ s with events := rest }, r.bytes)

/-- POP EVENT (R177). -/
def execPopEvent (index : Byte) (s : State) : Host.Outcome State Fault Refusal :=
  let s := s.begin
  proceed (s.serve .popEvent index [] (withoutIndex index (.ok s.popEvent)))

/-- READ BANK CONFIG (R191). -/
def execReadBankConfig (index : Byte) (s : State) : Host.Outcome State Fault Refusal :=
  let s := s.begin
  proceed (s.serve .readBankConfig index [] (withBank index fun b => .ok (s, (s.bank b).config.bytes)))

/-- The bank record after a taken bank-config write, with the immediate effects of R26. -/
def Bank.configured (k : Bank) (c : BankConfig) : Bank :=
  let written := { k with config := c }
  if k.power = .retain then
    if c.present = false then written.retainToOff
    else
      let timed := if c.retainLimit = k.config.retainLimit then written else { written with retainTimer := c.retainPeriod }
      if c.capacity = k.config.capacity then timed else timed.loseAll
  else written

/-- Whether a bank-config write can be taken in this power state (R26). -/
def Bank.configurable (k : Bank) : Bool := k.power = .off ∨ k.power = .retain ∨ k.power = .fault

/-- The checks and effect of WRITE BANK CONFIG (R26, R191 to R193). -/
def State.writeBankConfig (s : State) (b : BankId) (args : Vector Byte 22) : Except ResponseCode (State × List Byte) :=
  if (s.bank b).configurable = false then .error .busy
  else match bankConfigOf args with
    | none => .error .range
    | some c =>
      if c.inRange s.global.budget.toNat = false then .error .range
      else if s.namingRefuses b c then .error .state
      else .ok (s.updBank b (fun k => k.configured c), [])

/-- WRITE BANK CONFIG (R191). -/
def execWriteBankConfig (index : Byte) (args : Vector Byte 22) (s : State) : Host.Outcome State Fault Refusal :=
  let s := s.begin
  proceed (s.serve .writeBankConfig index args.toList (withBank index fun b => s.writeBankConfig b args))

/-- READ BANK STATUS (R24). -/
def execReadBankStatus (index : Byte) (s : State) : Host.Outcome State Fault Refusal :=
  let s := s.begin
  proceed (s.serve .readBankStatus index [] (withBank index fun b => .ok (s, s.bankStatusBytes b)))

/-- READ WINDOW (R124). -/
def execReadWindow (index : Byte) (s : State) : Host.Outcome State Fault Refusal :=
  let s := s.begin
  proceed (s.serve .readWindow index [] (withWindow index fun i => .ok (s, s.windows[i].bytes)))

/-- The checks on an enabled window write (R118, step 3; R119, R120). -/
def State.checkWindow (s : State) (i : WindowId) (c : WindowConfig) : Option ResponseCode :=
  if c.aligned = false then some .range
  else if (s.bank c.bank).config.present = false then some .state
  else if (s.bank c.bank).config.capacityBytes < c.offset.toNat + c.size.toNat then some .range
  else if s.overlapsOther i c then some .overlap
  else none

/-- The effect of a taken window write: the six fields, and not the held count (R118). -/
def State.setWindow (s : State) (i : WindowId) (c : WindowConfig) : State :=
  { s with windows := s.windows.set i { s.windows[i] with config := c } }

/-- The checks and effect of WRITE WINDOW (R118, R121). -/
def State.writeWindow (s : State) (i : WindowId) (args : Vector Byte 15) : Except ResponseCode (State × List Byte) :=
  if 0 < s.windows[i].held then .error .busy
  else match windowConfigOf args with
    | none => .error .range
    | some c =>
      match (if c.enabled then s.checkWindow i c else none) with
      | some e => .error e
      | none => .ok (s.setWindow i c, [])

/-- WRITE WINDOW (R118). -/
def execWriteWindow (index : Byte) (args : Vector Byte 15) (s : State) : Host.Outcome State Fault Refusal :=
  let s := s.begin
  proceed (s.serve .writeWindow index args.toList (withWindow index fun i => s.writeWindow i args))

/-- READ LINK (R151). -/
def execReadLink (index : Byte) (s : State) : Host.Outcome State Fault Refusal :=
  let s := s.begin
  proceed (s.serve .readLink index [] (withLink index fun l => .ok (s, s.links[l].bytes)))

/-- The checks and effect of WRITE LINK (R149). -/
def State.writeLink (s : State) (l : LinkId) (args : Vector Byte 5) : Except ResponseCode (State × List Byte) :=
  match linkConfigOf args with
  | none => .error .range
  | some c =>
    if c.enabled ∧ ((s.bank c.source).config.present = false ∨ (s.bank c.target).config.present = false) then .error .state
    else .ok ({ s with links := s.links.set l { config := c, fireCount := 0 } }, [])

/-- WRITE LINK (R149). -/
def execWriteLink (index : Byte) (args : Vector Byte 5) (s : State) : Host.Outcome State Fault Refusal :=
  let s := s.begin
  proceed (s.serve .writeLink index args.toList (withLink index fun l => s.writeLink l args))

/-- READ PARKED response at a queue position: the entry with its reason, or EMPTY (R55). -/
def State.parkedBytes (s : State) (position : Nat) : List Byte :=
  match s.parked[position]? with
  | none => List.replicate 22 0
  | some e => e.bytes (s.reason (s.parked.take position) e)

/-- READ PARKED (R55). -/
def execReadParked (index : Byte) (s : State) : Host.Outcome State Fault Refusal :=
  let s := s.begin
  proceed (s.serve .readParked index []
    (if index.toNat < Config.parkCapacity then .ok (s, s.parkedBytes index.toNat) else .error .unknown))

end Sys2Proof.Machine
end

