-- ==== Sys2Proof/Machine/PowerEvents.lean ====
section
/-! DEFINITION. The meanings of the ramp, grant, wake-limit, rail-drop and response-timeout events. -/

namespace Sys2Proof.Machine

/-- The bank record when its stage-dwell timer runs out (R8). -/
def Bank.nextStage (k : Bank) : Bank :=
  { k with rampStage := k.rampStage + 1
           dwellTimer := if k.rampStage + 1 < k.stageCount then some k.config.dwell.toNat else none }

/-- STAGE_DWELL_EXPIRY (R8). -/
def execStageDwellExpiry (b : BankId) (s : State) : Host.Outcome State Fault Refusal :=
  if (s.bank b).power = .ramping ∧ (s.bank b).dwellTimer = some 0 then
    proceed (s.begin.event fun w => (w.bank b Bank.nextStage).finishRamp b)
  else proceed s.begin

/-- RAMP_COMPLETION: PGOOD rises. In RAMPING with stage S output the ramp completes; in every other case only the
level of the input changes (R2, R9, R10; log 4). -/
def execRampCompletion (b : BankId) (s : State) : Host.Outcome State Fault Refusal :=
  proceed (s.begin.event fun w => (w.bank b fun k => { k with pgood := true }).finishRamp b)

/-- GRANT: the arbiter looks at the head of the wake-wait list (R79, R80; log 8). -/
def execGrant (s : State) : Host.Outcome State Fault Refusal := proceed (s.begin.event Work.tryGrant)

/-- The bank record once an attempt has failed: stage 0 is output, the ramp timers stop, the attempt count rises, and a
wake from retention has given up its contents (R13). -/
def Bank.attemptFailed (k : Bank) : Bank :=
  let counted := { k with rampStage := 0, dwellTimer := none, wakeTimer := none, attempts := k.attempts + 1 }
  if k.wakeKind = .fromRetain then { counted.loseAll with wakeKind := .fromOff } else counted

/-- The state once an attempt of bank `b` has failed, its units released (R13, R81). -/
def State.failAttempt (s : State) (b : BankId) : State := (s.updBank b Bank.attemptFailed).releaseUnits b

/-- The state once bank `b` is back in WAITING, at the tail of the wake-wait list (R14). -/
def State.rejoinWait (s : State) (b : BankId) : State :=
  { s.updBank b (fun k => { k with power := .waiting }) with waitList := s.waitList ++ [b] }

/-- A retry: WAKE_RETRY is posted, the bank goes to the tail of the wake-wait list, and a grant is tried. R81 gives one
outcome for the attempt of the release and the attempt of the append, so one attempt serves both (R14, R81). -/
def Work.retry (w : Work) (b : BankId) : Work :=
  (w.on fun s => (s.post .wakeRetry { bank := some b, detail := some (.count (s.bank b).attempts) }).rejoinWait b).tryGrant

/-- A failed wake attempt: the units are released, and the bank retries, or a grant is tried and it enters FAULT
(R13, R14, R81; log 21). -/
def Work.failAttempt (w : Work) (b : BankId) : Work :=
  let failed := w.on fun s => s.failAttempt b
  let k := failed.st.bank b
  if k.attempts ≤ k.config.retries.toNat then failed.retry b else failed.tryGrant.enterFault b .wakeFailed

/-- WAKE_LIMIT_EXPIRY (R13). -/
def execWakeLimitExpiry (b : BankId) (s : State) : Host.Outcome State Fault Refusal :=
  if (s.bank b).power = .ramping ∧ (s.bank b).wakeTimer = some 0 then proceed (s.begin.event fun w => w.failAttempt b)
  else proceed s.begin

/-- Whether the rail of a bank is fully up: FILLING, ON or DRAINING. -/
def Bank.railUp (k : Bank) : Bool := k.power = .filling ∨ k.power = .on ∨ k.power = .draining

/-- RAIL_DROP: PGOOD falls. In FILLING, ON and DRAINING the bank enters FAULT; in every other state only the level of
the input changes (R2, R16; log 4). -/
def execRailDrop (b : BankId) (s : State) : Host.Outcome State Fault Refusal :=
  proceed (s.begin.event fun w =>
    let low := w.bank b fun k => { k with pgood := false }
    if (s.bank b).railUp then low.enterFault b .railDropped else low)

/-- RESPONSE_TIMEOUT: the response limit of the oldest slot runs out (R17, R133). -/
def execResponseTimeout (b : BankId) (s : State) : Host.Outcome State Fault Refusal :=
  if (s.bank b).railUp ∧ (s.bank b).port.timedOut s.clock.micros then
    proceed (s.begin.event fun w => w.enterFault b .timedOut)
  else proceed s.begin

end Sys2Proof.Machine
end

