-- ==== Sys2Proof/Machine/PortEvents.lean ====
section
/-! DEFINITION. The meanings of COMPLETION, FILL_WRITE_ISSUE and DRAIN_COMPLETION. -/

namespace Sys2Proof.Machine

/-- The answer to a completed request, with its read data (R92, R130). -/
def Bank.completionAnswer (k : Bank) (x : Slot) (result : BankResult) (data : Vector Byte 64) : Status × List Byte :=
  match result, x.kind with
  | .error, _ => (.bankerr, [])
  | .ok, .write => (.okay, [])
  | .ok, .read => (if k.marks[x.segment] = .valid then .okay else .stale, data.toList.take x.length)

/-- A completed request is answered; an ERROR posts BANK_ERROR (R130). -/
def State.completeRequest (s : State) (b : BankId) (x : Slot) (t : Tag) (st : Stream) (result : BankResult)
    (data : Vector Byte 64) : State :=
  let a := (s.bank b).completionAnswer x result data
  let answered := s.answer t a.1 a.2
  match result with
  | .ok => answered
  | .error => answered.post .bankError { bank := some b, tag := some t, stream := some st }

/-- What the fill engine does in the slots that a completion's scan has left (R132, step 3). -/
inductive FillStep where
  /-- It issues fill writes as R99 allows. -/
  | issue
  /-- It begins its next segment fill (R101, R103). -/
  | nextSegment
  deriving DecidableEq, Repr

/-- Whether a fill write of bank `b` belongs to the fill in progress; otherwise it is a leftover (R95, R105). -/
def State.inCurrentFill (s : State) (b : BankId) (x : Slot) : Bool :=
  s.fillsBank b ∧ s.fill.current = some x.segment ∧ 0 < s.fill.inFlight

/-- The fill of bank `b` is abandoned on an error: steps 2 to 5 of R104. -/
def Work.abandonFill (w : Work) (b : BankId) (g : Segment) : Work :=
  ((w.on fun s => (s.unqueueFill b).post .fillError { bank := some b, detail := some (.segment g) }).enterOn b).startHead

/-- The fill in progress once a write of it has completed OK (R101). -/
def FillProgress.counted (f : FillProgress) : FillProgress :=
  { f with completed := f.completed + 1, inFlight := f.inFlight - 1 }

/-- Whether the segment fill has come to its end: all its writes have completed (R101), or it is cut off and none is in
flight (R103). -/
def FillProgress.ended (f : FillProgress) (writes : Nat) : Bool :=
  if f.cutOff then f.inFlight = 0 else f.completed = writes

/-- A fill write of the current fill completes OK: the counts, and whether the segment fill has come to its end
(R101, R103). -/
def State.countFillWrite (s : State) (b : BankId) : State × FillStep :=
  ({ s with fill := s.fill.counted },
    if s.fill.counted.ended (s.bank b).config.segmentWrites then .nextSegment else .issue)

/-- The segment whose last write has completed becomes VALID, unless it was cut off (R101, R103). -/
def State.markFilled (s : State) (b : BankId) (g : Segment) : State :=
  if s.fill.cutOff then s else s.updBank b fun k => k.markRange g.val 1 .valid

/-- The fill engine takes the completion of a fill write: the change of the state before the scan, and the engine's
step after it (R101, R103, R104, R105). -/
def Work.completeFillWrite (w : Work) (b : BankId) (x : Slot) (result : BankResult) : Work × FillStep :=
  if w.st.inCurrentFill b x then
    match result with
    | .error => (w.abandonFill b x.segment, .issue)
    | .ok =>
      let counted := w.st.countFillWrite b
      match counted.2 with
      | .issue => ({ w with st := counted.1 }, .issue)
      | .nextSegment => ({ w with st := counted.1.markFilled b x.segment }, .nextSegment)
  else (w, .issue)

/-- What the port does with a completion, by the holder of its oldest slot (R130). -/
def Work.holderAction (w : Work) (b : BankId) (x : Slot) (result : BankResult) (data : Vector Byte 64) : Work × FillStep :=
  match x.holder with
  | .request t st => (w.on fun s => s.completeRequest b x t st result data, .issue)
  | .orphan _ _ => (w, .issue)
  | .fill => w.completeFillWrite b x result

/-- The fill engine's step after the scan (R132, step 3). -/
def Work.fillStep (w : Work) (b : BankId) : FillStep → Work
  | .issue => if w.st.fillsBank b then w.on State.issueFills else w
  | .nextSegment => w.startHead

/-- The bank and the segment of a fill write whose error ends the fill, where the segment was not cut off (R104, R108;
log 30). -/
def State.fillErrorOf (s : State) (b : BankId) (x : Slot) (result : BankResult) : Option (BankId × Segment) :=
  if x.holder = .fill ∧ result = .error ∧ s.inCurrentFill b x ∧ s.fill.cutOff = false then some (b, x.segment) else none

/-- The moves of a completion that removes slot `x` and leaves `rest` (R130, R132). -/
def Work.complete (w : Work) (b : BankId) (x : Slot) (rest : List Slot) (result : BankResult) (data : Vector Byte 64) :
    Work :=
  let freed := w.bank b fun k => k.withPort fun p => { p with slots := rest }
  let acted := freed.holderAction b x result data
  (acted.1.scan.fillStep b acted.2).drainIfEmpty b

/-- The new oldest slot may have run out of time already: the limit then runs out within the same event, after all
its other effects (R133; log 9). So it does too where the two slots have one expiry time, which is reached (log 31). -/
def Work.watchOldest (w : Work) (b : BankId) : Work :=
  if (w.st.bank b).railUp ∧ (w.st.bank b).port.timedOut w.st.clock.micros then (w.enterFault b .timedOut).takeTriggers
  else w

/-- COMPLETION (R130 to R132). -/
def execCompletion (b : BankId) (result : BankResult) (data : Vector Byte 64) (s : State) :
    Host.Outcome State Fault Refusal :=
  if (s.bank b).port.ignoring then proceed s.begin
  else match (s.bank b).port.slots with
    | [] => proceed s.begin
    | x :: rest =>
      let begun := { s.begin with fillError := s.fillErrorOf b x result }
      proceed ((((Work.start begun).complete b x rest result data).takeTriggers).watchOldest b).st

/-- FILL_WRITE_ISSUE (R99; log 8). -/
def execFillWriteIssue (s : State) : Host.Outcome State Fault Refusal := proceed s.begin.issueFill

/-- DRAIN_COMPLETION (R66, R67; log 8). -/
def execDrainCompletion (b : BankId) (s : State) : Host.Outcome State Fault Refusal :=
  proceed (s.begin.event fun w => w.drainIfEmpty b)

end Sys2Proof.Machine
end

