-- ==== Sys2Proof/Machine/Resets.lean ====
section
/-! DEFINITION. The meanings of PIN_RESET, LINK_RESET, LINK_OPEN and TICK. -/

namespace Sys2Proof.Machine

/-- The part while RESET_N is low: every item stands at its reset value, the link is closed (R170), no tick is made
(R189), and the management port ignores its pins (R186; log 2). -/
def State.inPinReset : State :=
  { State.reset with
    resetLow := true, linkClosed := true, frameHeld := true
    clock := { micros := 0, cycles := 0, tickCycles := 0 } }

/-- The part after a pin reset, with the levels of its input pins when RESET_N rises (R27, R56, R74, R75, R109, R110,
R139, R140, R170, R181, R186, R187, R189; log 2). -/
def State.afterPinReset (pins : PinLevels) : State :=
  { State.reset with
    banks := Vector.ofFn fun b => { Bank.reset with pgood := pins.pgood[b] }
    linkClosed := pins.linkResetHigh
    frame := { Frame.empty with mcsLow := pins.mcsLow }
    frameHeld := pins.mcsLow }

/-- PIN_RESET: a fall of RESET_N, in every state, and the rise that ends it. Only the queue of waiting commands is not the
part's. While RESET_N is high it cannot rise (log 13). -/
def execPinReset (edge : ResetEdge) (pins : PinLevels) (s : State) : Host.Outcome State Fault Refusal :=
  match edge with
  | .fall => proceed { State.inPinReset with pending := s.pending }
  | .rise => if s.resetLow then proceed { State.afterPinReset pins with pending := s.pending } else proceed s.begin

/-- A REQUEST slot turned into an ORPHAN slot (R138). -/
def Slot.orphaned (x : Slot) : Slot :=
  match x.holder with
  | .request t st => { x with holder := .orphan t st }
  | .fill | .orphan _ _ => x

/-- A bank at a link reset: its REQUEST slots become orphans (R138). -/
def Bank.orphaned (k : Bank) : Bank := k.withPort fun p => { p with slots := p.slots.map Slot.orphaned }

/-- A tag record whose tag is FREE again (R165, R168). -/
def TagRecord.freed (r : TagRecord) : TagRecord := { r with state := .free }

/-- A window entry through which no request is held (R116). -/
def Window.emptied (w : Window) : Window := { w with held := 0 }

/-- The upstream link interface and the window decoder at a link reset (R168). -/
def State.closeLink (s : State) : State :=
  { s with tags := s.tags.map TagRecord.freed, responses := [], windows := s.windows.map Window.emptied
           linkClosed := true }

/-- The effects of a link reset (R57, R138, R168), before the LINK_RESET event is posted. -/
def State.dropRequests (s : State) : State := (s.closeLink.setParked []).mapBanks fun _ k => k.orphaned

/-- LINK_RESET: a rise of LINK_RESET (R168). While the input is high already it cannot rise (log 13). -/
def execLinkReset (s : State) : Host.Outcome State Fault Refusal :=
  if s.linkClosed then proceed s.begin else proceed (s.begin.dropRequests.post .linkReset {})

/-- LINK_OPEN: a fall of LINK_RESET opens the link, unless RESET_N is low, which keeps it closed (R167, R170). -/
def execLinkOpen (s : State) : Host.Outcome State Fault Refusal := proceed { s.begin with linkClosed := s.resetLow }

/-- A timer one tick later: a stopped timer counts nothing, and one that has run out stays so until its expiry is
taken (R4; log 5). -/
def tickTimer (t : Option Nat) : Option Nat := t.map fun n => n - 1

/-- The idle timer one tick later: only a counting timer counts (R4, R59). -/
def IdleTimer.tick : IdleTimer → IdleTimer
  | .stopped => .stopped
  | .held n => .held n
  | .counting n => .counting (n - 1)

/-- A bank controller's timers one tick later (R4). -/
def Bank.tick (k : Bank) : Bank :=
  { k with dwellTimer := tickTimer k.dwellTimer, wakeTimer := tickTimer k.wakeTimer
           idleTimer := k.idleTimer.tick, retainTimer := tickTimer k.retainTimer }

/-- A parked entry's deadline timer one tick later (R30). -/
def Entry.tick (e : Entry) : Entry := { e with deadline := e.deadline.map fun d => { d with left := d.left - 1 } }

/-- The timebase at the end of a tick; the next tick lasts the cycles now in force (R189). -/
def State.nextTick (s : State) : Timebase :=
  { micros := s.clock.micros + 1, cycles := 0, tickCycles := s.global.refclk.toNat }

/-- The state one tick later (R189, R4). -/
def State.ticked (s : State) : State :=
  { s.mapBanks (fun _ k => k.tick) with clock := s.nextTick, parked := s.parked.map Entry.tick }

/-- One REFCLK cycle: the last of the cycles that the present tick lasts ends it. While RESET_N is low no tick is made and
no cycle is counted: the first one begins when it rises (R189; log 2). -/
def State.cycled (s : State) : State :=
  if s.resetLow then s
  else if s.clock.cycles + 1 < s.clock.tickCycles then { s with clock := { s.clock with cycles := s.clock.cycles + 1 } }
  else s.ticked

/-- So many REFCLK cycles. -/
def State.cycles (s : State) : Nat → State
  | 0 => s
  | n + 1 => s.cycled.cycles n

/-- The REFCLK cycles that the present tick has still to last (R189): one at least. -/
def Timebase.left (c : Timebase) : Nat := max 1 (c.tickCycles - c.cycles)

/-- TICK: the cycles that the present tick has still to last go by, and with the last of them the microsecond counter adds 1
and every timer counts (R189, R4; log 11). -/
def execTick (s : State) : Host.Outcome State Fault Refusal := proceed (s.begin.cycles s.clock.left)

end Sys2Proof.Machine
end

