-- ==== Sys2Proof/Machine/Upstream.lean ====
section
/-! DEFINITION. The meanings of ACCEPTANCE and RESPONSE_TAKEN. -/

namespace Sys2Proof.Machine

/-- The deadline of an entry accepted now, with the park limit of its bank (R30). -/
def State.deadlineFor (s : State) (b : BankId) : Option Deadline :=
  let limit := (s.bank b).config.parkLimit
  if limit = 0 then none
  else some { time := s.clock.micros + BitVec.ofNat 32 (limit.toNat * Config.parkStep),
              left := limit.toNat * Config.parkStep }

/-- The entry of a request parked now (R29). -/
def State.entryFor (s : State) (r : Routed) : Entry :=
  { req := r, acceptTime := s.clock.micros, deadline := s.deadlineFor r.bank }

/-- Park a request, and wake its bank if it is in OFF or RETAIN (R37). -/
def Work.park (w : Work) (r : Routed) : Work :=
  (w.on fun s => s.setParked (s.parked ++ [s.entryFor r])).wake r.bank false

/-- Forward a request directly, or park it (R35, R37). -/
def Work.place (w : Work) (r : Routed) : Work := if w.st.forwardsDirectly r then w.forward r else w.park r

/-- The intake of a held request: FAULT answers it (R34), a soft drain is cancelled first (R36), and it is then
forwarded or parked. -/
def Work.intake (w : Work) (r : Routed) : Work :=
  let k := w.st.bank r.bank
  if k.power = .fault then w.on fun s => s.answer r.tag .faulted []
  else if k.power = .draining ∧ k.drainKind = .soft then (w.cancelDrain r.bank).place r
  else w.place r

/-- Bind the tag of a request decoded through entry `i`, whose held count rises (R116, R159). -/
def State.hold (s : State) (r : Request) (i : WindowId) : State :=
  (s.bindTag r.tag r.length (some i)).updHeld i fun n => n + 1

/-- What the acceptance of a request does (R156 to R159, R114). -/
def State.take (s : State) (r : Request) : State :=
  if s.tags[r.tag].state ≠ .free then
    s.post .protocol { tag := some r.tag, stream := some r.stream, detail := some .dupTag }
  else if r.malformed then
    ((s.bindTag r.tag r.length none).answer r.tag .denied []).post .protocol
      { tag := some r.tag, stream := some r.stream, detail := some .malformed }
  else match s.decode r with
    | .nowin =>
      ((s.bindTag r.tag r.length none).answer r.tag .nowin []).post .refusedAccess
        { tag := some r.tag, stream := some r.stream, detail := some (.status .nowin) }
    | .denied i =>
      ((s.hold r i).answer r.tag .denied []).post .refusedAccess
        { bank := some s.windows[i].config.bank, tag := some r.tag, stream := some r.stream, window := some i,
          detail := some (.status .denied) }
    | .permitted x => (s.hold r x.window).event fun w => w.intake x

/-- The state with this on the request channel (R153, R154). -/
def State.shown (s : State) (presented : Option Request) : State := { s.begin with presented := presented }

/-- ACCEPTANCE: the request channel shows no request, or a request that has met no sampling edge yet; or a sampling edge
comes, at which the request passes if RQ_ACCEPT is high for it, and otherwise stays presented (R154, R156, R160;
log 10). -/
def execAcceptance (channel : Channel) (s : State) : Host.Outcome State Fault Refusal :=
  match channel with
  | .low => proceed (s.shown none)
  | .shows r => proceed (s.shown (some r))
  | .edge r => if s.accepts r then proceed ((s.shown none).take r) else proceed (s.shown (some r))

/-- The oldest response is taken: its tag is freed and the held count of its window falls (R165). -/
def State.passResponse (s : State) (x : Response) (rest : List Response) : State :=
  let record := s.tags[x.tag]
  let freed := { s with responses := rest, tags := s.tags.set x.tag { record with state := .free } }
  match record.window with
  | none => freed
  | some i => freed.updHeld i fun n => n - 1

/-- RESPONSE_TAKEN: RS_ACCEPT is high at the edge; it has no effect while RS_VALID is low (R164, R165). -/
def execResponseTaken (s : State) : Host.Outcome State Fault Refusal :=
  if s.linkClosed then proceed s.begin
  else match s.responses with
    | [] => proceed s.begin
    | x :: rest => proceed (s.begin.passResponse x rest)

end Sys2Proof.Machine
end

