-- ==== Sys2Proof/Machine/Dispatch.lean ====
section
/-! DEFINITION. The dispatch of the commands to their meanings: one arm for each row of spec/opcode_table.json. -/

namespace Sys2Proof.Machine

/-- The effect of a command on everything but the queue of waiting commands. -/
def exec (i : Instr) (s : State) : Host.Outcome State Fault Refusal :=
  match i with
  | .pinReset edge pins => Sys2Proof.Machine.execPinReset edge pins s
  | .linkReset => Sys2Proof.Machine.execLinkReset s
  | .linkOpen => Sys2Proof.Machine.execLinkOpen s
  | .tick => Sys2Proof.Machine.execTick s
  | .acceptance channel => Sys2Proof.Machine.execAcceptance channel s
  | .responseTaken => Sys2Proof.Machine.execResponseTaken s
  | .stageDwellExpiry bank => Sys2Proof.Machine.execStageDwellExpiry bank s
  | .rampCompletion bank => Sys2Proof.Machine.execRampCompletion bank s
  | .grant => Sys2Proof.Machine.execGrant s
  | .wakeLimitExpiry bank => Sys2Proof.Machine.execWakeLimitExpiry bank s
  | .railDrop bank => Sys2Proof.Machine.execRailDrop bank s
  | .responseTimeout bank => Sys2Proof.Machine.execResponseTimeout bank s
  | .completion bank result data => Sys2Proof.Machine.execCompletion bank result data s
  | .fillWriteIssue => Sys2Proof.Machine.execFillWriteIssue s
  | .drainCompletion bank => Sys2Proof.Machine.execDrainCompletion bank s
  | .parkExpiry tag => Sys2Proof.Machine.execParkExpiry tag s
  | .idleExpiry bank => Sys2Proof.Machine.execIdleExpiry bank s
  | .retainExpiry bank => Sys2Proof.Machine.execRetainExpiry bank s
  | .unknownCommand code index => Sys2Proof.Machine.execUnknownCommand code index s
  | .readGlobal index => Sys2Proof.Machine.execReadGlobal index s
  | .writeGlobal index args => Sys2Proof.Machine.execWriteGlobal index args s
  | .readStatus index => Sys2Proof.Machine.execReadStatus index s
  | .popEvent index => Sys2Proof.Machine.execPopEvent index s
  | .readBankConfig index => Sys2Proof.Machine.execReadBankConfig index s
  | .writeBankConfig index args => Sys2Proof.Machine.execWriteBankConfig index args s
  | .readBankStatus index => Sys2Proof.Machine.execReadBankStatus index s
  | .wakeBank index => Sys2Proof.Machine.execWakeBank index s
  | .sleepBank index target => Sys2Proof.Machine.execSleepBank index target s
  | .flushBank index => Sys2Proof.Machine.execFlushBank index s
  | .clearFault index => Sys2Proof.Machine.execClearFault index s
  | .markSegments index first count value => Sys2Proof.Machine.execMarkSegments index first count value s
  | .clearCount index => Sys2Proof.Machine.execClearCount index s
  | .readWindow index => Sys2Proof.Machine.execReadWindow index s
  | .writeWindow index args => Sys2Proof.Machine.execWriteWindow index args s
  | .readLink index => Sys2Proof.Machine.execReadLink index s
  | .writeLink index args => Sys2Proof.Machine.execWriteLink index args s
  | .readParked index => Sys2Proof.Machine.execReadParked index s
  | .frameDiscarded received => Sys2Proof.Machine.execFrameDiscarded received s

end Sys2Proof.Machine
end

