-- ==== Sys2Proof/Safety.lean ====
section
/-! DEFINITION. What a safe run is, and the conditions that the manual says hold at all times, each as a property of one
state. -/

namespace Sys2Proof.Machine

/-- So many steps from a state. -/
def run (n : Nat) (s : State) : Host.Outcome State Fault Refusal :=
  Host.Core.run ⟨State, Fault, Refusal, step, State.reset⟩ n s

/-- A run of steps that neither faults nor is refused. -/
def SafeRun (n : Nat) (s : State) : Prop := ∃ t, run n s = .next t

/-- The parking queue holds at most 24 entries (R28). -/
def State.QueueBounded (s : State) : Prop := s.parked.length ≤ Config.parkCapacity

/-- The event queue holds at most 32 records (R171). -/
def State.EventsBounded (s : State) : Prop := s.events.length ≤ Config.eventCapacity

/-- A port holds at most four commands, at most two of them fill writes (R127, R128). -/
def Bank.PortBounded (k : Bank) : Prop :=
  k.port.slots.length ≤ Config.slotCapacity ∧ k.port.fillSlots ≤ Config.fillSlotCapacity

/-- Every port keeps its bounds (R127, R128). -/
def State.PortsBounded (s : State) : Prop := ∀ b, (s.bank b).PortBounded

/-- The wake-wait list holds exactly the banks in WAITING (R78), and the fill queue exactly the banks in FILLING (R96),
each once. -/
structure State.QueuesHold (s : State) : Prop where
  waitOnce : s.waitList.Nodup
  wait : ∀ b, b ∈ s.waitList ↔ (s.bank b).power = .waiting
  fillOnce : s.fillQueue.Nodup
  fill : ∀ b, b ∈ s.fillQueue ↔ (s.bank b).power = .filling

/-- The sum of the charges of the eight banks. -/
def State.charges (s : State) : Nat := ((List.finRange 8).map fun b => (s.bank b).charge).sum

/-- The units held are the sum of the charges (R75) and within the budget, and only a ramping bank has a charge (R77). -/
structure State.UnitsHold (s : State) : Prop where
  sum : s.unitsHeld = s.charges
  within : s.unitsHeld ≤ s.global.budget.toNat
  ramping : ∀ b, (s.bank b).charge ≠ 0 → (s.bank b).power = .ramping

/-- A bank in OFF or FAULT has all its segments marked LOST (R91). -/
def Bank.MarksHold (k : Bank) : Prop := k.power = .off ∨ k.power = .fault → ∀ g : Segment, k.marks[g] = .lost

/-- Every bank in OFF or FAULT is all LOST (R91). -/
def State.MarksHold (s : State) : Prop := ∀ b, (s.bank b).MarksHold

/-- A port is empty unless its bank is in FILLING, ON or DRAINING (R129), and completions are ignored exactly in FAULT
(R125, R137). -/
structure Bank.PortHolds (k : Bank) : Prop where
  empty : k.railUp = false → k.port.slots = []
  ignoring : k.port.ignoring = true ↔ k.power = .fault

/-- Every port holds to its bank's state (R125, R129, R137). -/
def State.PortsHold (s : State) : Prop := ∀ b, (s.bank b).PortHolds

/-- Drain kind and target are other than NONE exactly in DRAINING, and the wake kind exactly in WAITING and RAMPING
(section 1.1). -/
structure Bank.KindsHold (k : Bank) : Prop where
  kind : k.drainKind ≠ .none ↔ k.power = .draining
  target : k.drainTarget ≠ .none ↔ k.power = .draining
  wake : k.wakeKind ≠ .none ↔ k.power = .waiting ∨ k.power = .ramping

/-- Every bank's kinds hold to its state (section 1.1). -/
def State.KindsHold (s : State) : Prop := ∀ b, (s.bank b).KindsHold

/-- A bank whose present flag is no is in OFF (R3). -/
def State.AbsentOff (s : State) : Prop := ∀ b, (s.bank b).config.present = false → (s.bank b).power = .off

/-- An enabled window is aligned, names a present bank, and lies within its capacity (R119, R122). -/
def State.WindowSound (s : State) (i : WindowId) : Prop :=
  s.windows[i].config.enabled = true →
    s.windows[i].config.aligned = true ∧ (s.bank s.windows[i].config.bank).config.present = true ∧
    s.windows[i].config.offset.toNat + s.windows[i].config.size.toNat
      ≤ (s.bank s.windows[i].config.bank).config.capacityBytes

/-- Every enabled window is sound (R122), and no two share an address (R111, R120). -/
structure State.WindowsSound (s : State) : Prop where
  sound : ∀ i, s.WindowSound i
  apart : ∀ i j : WindowId, i ≠ j → s.windows[i].config.enabled = true → s.windows[j].config.enabled = true →
    s.windows[i].config.overlaps s.windows[j].config = false

/-- Every enabled link names two present banks (R150). -/
def State.LinksSound (s : State) : Prop :=
  ∀ l : LinkId, s.links[l].config.enabled = true →
    (s.bank s.links[l].config.source).config.present = true ∧ (s.bank s.links[l].config.target).config.present = true

/-- A bank that the parking queue holds an entry for is in WAITING, RAMPING, FILLING, ON or DRAINING (R32). -/
def State.ParkedAwake (s : State) : Prop :=
  ∀ e ∈ s.parked, (s.bank e.req.bank).power ≠ .off ∧ (s.bank e.req.bank).power ≠ .retain
    ∧ (s.bank e.req.bank).power ≠ .fault

/-- A tag has one response in the queue when its record is ANSWERED, and none otherwise (R163). -/
def State.TagsAnswered (s : State) : Prop :=
  ∀ t : Tag, s.responses.countP (fun x => x.tag = t) = if s.tags[t].state = .answered then 1 else 0

/-- The requests held through a window: the records not FREE that name it (R116, R153). -/
def State.heldThrough (s : State) (i : WindowId) : Nat :=
  (List.finRange 32).countP fun t => s.tags[t].state ≠ .free ∧ s.tags[t].window = some i

/-- The held count of a window is the number of requests held through it (R116). -/
def State.HeldCounts (s : State) : Prop := ∀ i : WindowId, s.windows[i].held = s.heldThrough i

/-- While RESET_N is low the link is closed (R153, R170) and the management port takes no frame (R186). -/
def State.ResetCloses (s : State) : Prop := s.resetLow = true → s.linkClosed = true ∧ s.frameHeld = true

/-! ### Terms of the statements -/

/-- No link is enabled, so that no trigger fires one (R142). -/
def State.Unlinked (s : State) : Prop := ∀ l : LinkId, s.links[l].config.enabled = false

/-- Nothing stands ready to act beside the command itself: no link is enabled, no bank waits for a grant, and no request
is parked. -/
structure State.Quiet (s : State) : Prop where
  unlinked : s.Unlinked
  wait : s.waitList = []
  parked : s.parked = []

/-- The state after a command that changes nothing: the model's two fields for the latest step alone are empty (logs 15,
30). -/
def State.settled (s : State) : State := { s with busOut := [], fillError := none }

/-- The state after a management command that changes nothing but its frame: the bytes taken in, and the status byte and
response bytes shifted out. -/
def State.replied (s : State) (received reply : List Byte) : State :=
  { s.settled with frame := { mcsLow := true, received := received, reply := reply } }

/-- The arguments of a WRITE GLOBAL fail a RANGE check (R188, check 1; R84, checks 1 and 2; 11.6 layout). -/
def State.globalOutOfRange (s : State) (a : Vector Byte 7) : Prop :=
  a[1].toNat < 4 ∨ 100 < a[1].toNat ∨ (a[2] ++ a[3]).toNat < 1 ∨ 1023 < (a[2] ++ a[3]).toNat ∨ 0x3FFF < (a[4] ++ a[5]).toNat
    ∨ 1 < a[6].toNat ∨ a[0].toNat < 1 ∨ 15 < a[0].toNat
    ∨ ∃ b, (s.bank b).config.present = true ∧
        (a[0].toNat < (s.bank b).config.offCost.toNat ∨ a[0].toNat < (s.bank b).config.retainCost.toNat)

/-- The arguments of a WRITE BANK CONFIG fail a field check (R192; 11.6 layout). -/
def State.configOutOfRange (s : State) (a : Vector Byte 22) : Prop :=
  1 < a[0].toNat ∨ 8 < a[1].toNat ∨ a[2].toNat < 1 ∨ 4 < a[2].toNat ∨ (a[3] ++ a[4]).toNat < 1 ∨ 1023 < (a[3] ++ a[4]).toNat
    ∨ (a[5] ++ a[6]).toNat ≤ a[2].toNat * (a[3] ++ a[4]).toNat ∨ 3 < a[7].toNat
    ∨ a[8].toNat < 1 ∨ 15 < a[8].toNat ∨ s.global.budget.toNat < a[8].toNat
    ∨ 15 < a[9].toNat ∨ s.global.budget.toNat < a[9].toNat ∨ 1 < a[12].toNat ∨ 1 < a[17].toNat

/-- The fields that the arguments of a WRITE BANK CONFIG carry (11.6 layout, R195). -/
def configFields (a : Vector Byte 22) : BankConfig where
  present := a[0] = 1
  capacity := Fin.ofNat 9 a[1].toNat
  stages := a[2]
  dwell := a[3] ++ a[4]
  wakeLimit := a[5] ++ a[6]
  retries := a[7]
  offCost := a[8]
  retainCost := a[9]
  idleLimit := a[10] ++ a[11]
  idleTarget := if a[12] = 1 then .off else .retain
  retainLimit := a[13] ++ a[14]
  parkLimit := a[15] ++ a[16]
  fillPolicy := if a[17] = 1 then .zero else .none
  threshold := a[18] ++ a[19] ++ a[20] ++ a[21]

/-- An enabled window names the bank (R122). -/
def State.windowOn (s : State) (b : BankId) : Prop :=
  ∃ i : WindowId, s.windows[i].config.enabled = true ∧ s.windows[i].config.bank = b

/-- An enabled link names the bank as source or target (R150). -/
def State.linkOn (s : State) (b : BankId) : Prop :=
  ∃ l : LinkId, s.links[l].config.enabled = true ∧ (s.links[l].config.source = b ∨ s.links[l].config.target = b)

/-- A bank-config write of these fields fails a naming check (R193). -/
def State.configMisnames (s : State) (b : BankId) (c : BankConfig) : Prop :=
  ((s.bank b).config.present = true ∧ c.present = false ∧ (s.windowOn b ∨ s.linkOn b ∨ (s.bank b).power = .fault))
    ∨ (c.capacity ≠ (s.bank b).config.capacity ∧ s.windowOn b)

/-- The fields that the arguments of a WRITE WINDOW carry (11.6 layout, R195, R196). -/
def windowFields (a : Vector Byte 15) : WindowConfig where
  enabled := a[0] = 1
  base := a[1] ++ a[2] ++ a[3] ++ a[4]
  size := a[5] ++ a[6] ++ a[7] ++ a[8]
  offset := (a[9] ++ a[10] ++ a[11] ++ a[12]).setWidth 28
  bank := Fin.ofNat 8 a[13].toNat
  access := if a[14] = 1 then .readOnly else .readWrite

/-- The size and alignment checks of R119 fail. -/
def WindowConfig.misaligned (c : WindowConfig) : Prop :=
  (∀ n : Nat, n ≤ 12 → c.size.toNat ≠ 65536 * 2 ^ n) ∨ ¬ c.size.toNat ∣ c.base.toNat ∨ ¬ c.size.toNat ∣ c.offset.toNat

/-- Two windows share an upstream address (R120). -/
def WindowConfig.sharesAddress (c d : WindowConfig) : Prop :=
  ∃ x : Nat, (c.base.toNat ≤ x ∧ x < c.base.toNat + c.size.toNat) ∧ d.base.toNat ≤ x ∧ x < d.base.toNat + d.size.toNat

/-- The upstream address lies in the window (R110). -/
def WindowConfig.holds (c : WindowConfig) (x : Nat) : Prop := c.base.toNat ≤ x ∧ x < c.base.toNat + c.size.toNat

/-- The request is decoded through window `i`: it alone of the enabled windows holds the first byte, and it holds the last
(R111). -/
structure State.DecodedThrough (s : State) (r : Request) (i : WindowId) : Prop where
  enabled : s.windows[i].config.enabled = true
  first : s.windows[i].config.holds r.addr.toNat
  last : s.windows[i].config.holds (r.addr.toNat + r.length - 1)
  only : ∀ j : WindowId, s.windows[j].config.enabled = true → s.windows[j].config.holds r.addr.toNat → j = i

/-- The request is well-formed, the link is open, and its tag is FREE: checks 1 and 2 of R156 do not apply. -/
structure State.Takes (s : State) (r : Request) : Prop where
  linkOpen : s.linkClosed = false
  free : s.tags[r.tag].state = .free
  formed : r.addr.toNat % 64 + r.length ≤ 64

/-- The figures that the decoder works out for a request through window `i` (R112). -/
def State.figures (s : State) (r : Request) (i : WindowId) : Routed :=
  let c := s.windows[i].config
  let a : BankAddr := BitVec.ofNat 28 (c.offset.toNat + (r.addr.toNat - c.base.toNat))
  { tag := r.tag, stream := r.stream, kind := r.kind, window := i, bank := c.bank, addr := a,
    segment := Fin.ofNat 32 (a.toNat / (2 ^ ((s.bank c.bank).config.capacity.val + 20) / 32)), length := r.length,
    wdata := if r.kind = .write then some (r.wdata.toList.take r.length) else none }

/-- The admission unit would park a request with these figures (R41): it is for a bank that is not FAULT, and it cannot be
forwarded at once (R35); a soft drain counts as ON (R36). -/
def State.parks (s : State) (x : Routed) : Prop :=
  let k := s.bank x.bank
  k.power = .off ∨ k.power = .retain ∨ k.power = .waiting ∨ k.power = .ramping
    ∨ (k.power = .draining ∧ k.drainKind ≠ .soft)
    ∨ ((k.power = .on ∨ k.power = .filling ∨ k.power = .draining) ∧
        (4 ≤ k.port.slots.length ∨ ∃ e ∈ s.parked, e.req.stream = x.stream))
    ∨ (k.power = .filling ∧ k.marks[x.segment] = .lost)

/-- The state once a request has been accepted and held through window `i`: its tag is PENDING and the held count of the
window has risen (R116, R159). -/
def State.accepted (s : State) (r : Request) (i : WindowId) : State :=
  { s.settled with
    presented := none
    tags := s.tags.set r.tag { state := .pending, length := r.length, window := some i }
    windows := s.windows.set i { s.windows[i] with held := s.windows[i].held + 1 } }

/-- A bank that enters ON, with nothing parked for it: no drain, and the idle timer loaded (R11, R58). -/
def Bank.readied (k : Bank) : Bank :=
  { k with
    power := .on, drainKind := .none, drainTarget := .none
    idleTimer := if k.config.idleLimit = 0 then .stopped else .counting (k.config.idleLimit.toNat * 1000) }

/-- A bank whose ramp is over: its ramp timers stop, its wake kind is NONE, and it holds no units (R9, R10, R81). -/
def Bank.ramped (k : Bank) : Bank := { k with wakeKind := .none, dwellTimer := none, wakeTimer := none, charge := 0 }

/-- A bank whose drain completes with nothing parked for it (R67, R22). -/
def Bank.rested (k : Bank) : Bank :=
  if k.drainTarget = .off then
    { k with power := .off, drainKind := .none, drainTarget := .none, rampStage := 0, retainTimer := none
             marks := Vector.replicate 32 .lost }
  else
    { k with power := .retain, drainKind := .none, drainTarget := .none, rampStage := 0
             retainTimer := if k.config.retainLimit = 0 then none else some (k.config.retainLimit.toNat * 100000) }

/-- A bank in WAITING after a wake request in OFF or RETAIN (R5). -/
def Bank.awaiting (k : Bank) : Bank :=
  { k with power := .waiting, attempts := 0, retainTimer := none
           wakeKind := if k.power = .retain then .fromRetain else .fromOff }

/-- The cost of a wake of a bank in OFF or RETAIN (R76). -/
def Bank.costAsleep (k : Bank) : Nat := if k.power = .retain then k.config.retainCost.toNat else k.config.offCost.toNat

/-- A bank in RAMPING at stage 1, just granted with a charge (R7, R80). -/
def Bank.ramping (k : Bank) (charge : Nat) : Bank :=
  { k with power := .ramping, rampStage := 1, charge := charge, wakeTimer := some k.config.wakeLimit.toNat
           dwellTimer := if 1 < k.config.stages.toNat then some k.config.dwell.toNat else none }

/-- A bank in FAULT (R18, R19, R137). -/
def Bank.failed (k : Bank) : Bank :=
  { k with power := .fault, rampStage := 0, dwellTimer := none, wakeTimer := none, idleTimer := .stopped
           retainTimer := none, drainKind := .none, drainTarget := .none, wakeKind := .none
           marks := Vector.replicate 32 .lost, port := { k.port with slots := [], ignoring := true } }

/-- The tags of the requests in a slot list, oldest first. -/
def requestTags : List Slot → List Tag
  | [] => []
  | x :: later =>
    match x.holder with
    | .request t _ => t :: requestTags later
    | .fill | .orphan _ _ => requestTags later

/-- The state once the requests with these tags, each PENDING, have been answered in order, with no read data (R163). -/
def State.answered (s : State) (status : Status) (tags : List Tag) : State :=
  { s with
    tags := Vector.ofFn fun t => if t ∈ tags then { s.tags[t] with state := .answered } else s.tags[t]
    responses := s.responses ++ tags.map fun t => { tag := t, status := status, data := [] } }

/-- The parked entries that a flush of bank `b` answers, in order: each entry of the bank from the oldest to the newest that
no earlier cascade has answered, followed by its cascade, the later entries of its stream (R50, R53). `gone` holds the
streams whose later entries have been answered. -/
def flushOrder (b : BankId) : List Stream → List Entry → List Entry
  | _, [] => []
  | gone, e :: later =>
    if e.req.stream ∈ gone then flushOrder b gone later
    else if e.req.bank = b then
      e :: (later.filter fun x => x.req.stream = e.req.stream) ++ flushOrder b (e.req.stream :: gone) later
    else flushOrder b gone later

/-- The parked entries that a flush of bank `b` leaves in the queue (R50, R53). -/
def flushRest (b : BankId) : List Stream → List Entry → List Entry
  | _, [] => []
  | gone, e :: later =>
    if e.req.stream ∈ gone then flushRest b gone later
    else if e.req.bank = b then flushRest b (e.req.stream :: gone) later
    else e :: flushRest b gone later

/-- The state with another parking queue. A bank in ON holds its counting idle timer while an entry is parked for it, and a
held one is loaded with the full limit, and counts, once none is; the ticks that it kept are dropped (R59). -/
def State.withQueue (s : State) (q : List Entry) : State :=
  { s with
    parked := q
    banks := Vector.ofFn fun b =>
      { s.bank b with
        idleTimer :=
          if (s.bank b).power = .on then
            match (s.bank b).idleTimer with
            | .counting n => if ∃ e ∈ q, e.req.bank = b then .held n else .counting n
            | .held n =>
              if ∃ e ∈ q, e.req.bank = b then .held n else .counting ((s.bank b).config.idleLimit.toNat * 1000)
            | .stopped => .stopped
          else (s.bank b).idleTimer } }

/-- The parked entries that a release scan forwards to bank `b` in ON with `free` slots free, no other bank taking a
forward: in queue order, each entry for the bank that no kept entry of its stream stands before, while a slot is free (R31,
R38, R44). `kept` holds the streams of the entries kept so far. -/
def releaseOrder (b : BankId) : Nat → List Stream → List Entry → List Entry
  | _, _, [] => []
  | free, kept, e :: later =>
    if e.req.bank = b ∧ e.req.stream ∉ kept ∧ 0 < free then e :: releaseOrder b (free - 1) kept later
    else releaseOrder b free (e.req.stream :: kept) later

/-- The parked entries that such a scan leaves in the queue (R44). -/
def releaseRest (b : BankId) : Nat → List Stream → List Entry → List Entry
  | _, _, [] => []
  | free, kept, e :: later =>
    if e.req.bank = b ∧ e.req.stream ∉ kept ∧ 0 < free then releaseRest b (free - 1) kept later
    else e :: releaseRest b free (e.req.stream :: kept) later

/-- The state once a release scan has forwarded the entries that it can to bank `b` in ON, whose port has four slots in all:
each takes a slot behind the busy ones, is counted, and goes out to the bank; the idle timer is released with the last entry
for the bank (R44, R45, R59, R127, R135). The bank's count threshold is 0, so that no forward is a crossing. -/
def State.released (s : State) (b : BankId) : State :=
  let k := s.bank b
  let free := 4 - k.port.slots.length
  let out := releaseOrder b free [] s.parked
  let left := releaseRest b free [] s.parked
  { s.updBank b fun _ =>
      { k with
        idleTimer :=
          match k.idleTimer with
          | .held n => if ∃ e ∈ left, e.req.bank = b then .held n else .counting (k.config.idleLimit.toNat * 1000)
          | .counting n => .counting n
          | .stopped => .stopped
        port := { k.port with
          counter := BitVec.ofNat 32 (min (k.port.counter.toNat + out.length) 0xFFFFFFFF)
          slots := k.port.slots ++ out.map fun e =>
            { holder := .request e.req.tag e.req.stream, kind := e.req.kind, addr := e.req.addr, segment := e.req.segment,
              length := e.req.length, forwardTime := s.clock.micros,
              expiryTime := s.clock.micros + s.global.respLimit.setWidth 32 } } } with
    parked := left
    busOut := s.busOut ++ out.map fun e =>
      { bank := b, addr := e.req.addr, kind := e.req.kind, length := e.req.length, data := e.req.wdata.getD [] } }

/-- No bank but `b` takes a forward of a parked entry: the entries for other banks wait for banks in WAITING or RAMPING, and
no other bank holds its idle timer (R31, R59). Bank `b` counts no threshold. -/
structure State.OnlyReleases (s : State) (b : BankId) : Prop where
  others : ∀ e ∈ s.parked, e.req.bank ≠ b →
    (s.bank e.req.bank).power = .waiting ∨ (s.bank e.req.bank).power = .ramping
  timers : ∀ c n, c ≠ b → (s.bank c).idleTimer ≠ .held n
  threshold : (s.bank b).config.threshold = 0

/-- Segment `g` of the bank is its lowest-numbered LOST segment (R98). -/
def Bank.LowestLost (k : Bank) (g : Segment) : Prop :=
  k.marks[g] = .lost ∧ ∀ h : Segment, k.marks[h] = .lost → g.val ≤ h.val

/-- The state once the fill engine has begun a segment fill of segment `g` of bank `b`, whose port holds no fill write, and
has issued as many fill writes as the port takes: two, or one, or none, as slots are free (R97, R99, R128). -/
def State.fillBegun (s : State) (b : BankId) (g : Segment) : State :=
  let k := s.bank b
  let writes := min 2 (4 - k.port.slots.length)
  let addr := fun n : Nat => (BitVec.ofNat 28 (g.val * 2 ^ (k.config.capacity.val + 15) + 64 * n) : BankAddr)
  { s.updBank b fun _ => { k with port := { k.port with slots := k.port.slots ++ (List.range writes).map fun n =>
      { holder := .fill, kind := .write, addr := addr n, segment := g, length := 64, forwardTime := s.clock.micros,
        expiryTime := s.clock.micros + s.global.respLimit.setWidth 32 } } } with
    busOut := s.busOut ++ (List.range writes).map fun n =>
      { bank := b, addr := addr n, kind := .write, length := 64, data := List.replicate 64 0 }
    fill := { current := some g, nextWrite := some (addr writes), completed := 0, inFlight := writes, cutOff := false } }

/-- The fill engine comes to bank `c` at the head of the fill queue, with segment `g` its lowest LOST one and no fill write
in its port (R97, R98, R105). -/
structure State.NextHead (s : State) (b c : BankId) (more : List BankId) (g : Segment) : Prop where
  queue : s.fillQueue = b :: c :: more
  once : (b :: c :: more).Nodup
  lowest : (s.bank c).LowestLost g
  noFill : ∀ x ∈ (s.bank c).port.slots, x.holder ≠ .fill

/-- A fill write of segment `g`, in the fill under way at the head bank `b`, stands oldest in the port, and no slot behind
it has run out of time. -/
structure State.FillCompletes (s : State) (b : BankId) (x : Slot) (rest : List Slot) (g : Segment) : Prop where
  taken : (s.bank b).port.ignoring = false
  slots : (s.bank b).port.slots = x :: rest
  holder : x.holder = .fill
  segment : x.segment = g
  filling : (s.bank b).power = .filling
  head : s.fillQueue.head? = some b
  current : s.fill.current = some g
  inFlight : 0 < s.fill.inFlight
  limit : s.global.respLimit ≠ 0
  inTime : ∀ y, rest.head? = some y → (s.clock.micros - y.forwardTime).toNat < (y.expiryTime - y.forwardTime).toNat

/-- The fire count of a link after a firing (R142). -/
def Link.fireCountRaised (l : Link) : BitVec 16 := if l.fireCount = 0xFFFF then 0xFFFF else l.fireCount + 1

/-- The state once these links have fired, each once, their actions apart (R142). -/
def State.linksFired (s : State) (fired : List LinkId) : State :=
  { s with links := Vector.ofFn fun l =>
      if l ∈ fired then { s.links[l] with fireCount := s.links[l].fireCountRaised } else s.links[l] }

/-- A NOTE link watches a trigger of bank `b`, and no other link is enabled (R142, R147). -/
structure State.NoteWatches (s : State) (b : BankId) (l : LinkId) (x : Trigger) : Prop where
  enabled : s.links[l].config.enabled = true
  source : s.links[l].config.source = b
  trigger : s.links[l].config.trigger = x
  note : s.links[l].config.action = .note
  alone : ∀ m : LinkId, m ≠ l → s.links[m].config.enabled = false

/-- The state once a NOTE link has fired at a trigger of bank `b`: its fire count has risen, and LINK_NOTE is posted behind
the records made before (R142, R147). -/
def State.noted (s : State) (b : BankId) (l : LinkId) (x : Trigger) : State :=
  (s.linksFired [l]).post .linkNote { bank := some b, link := some l, detail := some (.trigger x) }

/-- Bank `b` in ON whose idle timer has run out, with a slot busy, and link `l` watches its DRAIN_BEGUN: the drain that an
IDLE_EXPIRY begins fires that link (R61, R142). Any other enabled link watches the link's target, another bank, for a trigger
other than ASLEEP, so that it fires only if the action itself offers a trigger, which it does not (R148). -/
structure State.OneLinkWatches (s : State) (b : BankId) (l : LinkId) : Prop where
  enabled : s.links[l].config.enabled = true
  source : s.links[l].config.source = b
  trigger : s.links[l].config.trigger = .drainBegun
  others : ∀ m : LinkId, m ≠ l → s.links[m].config.enabled = true →
    s.links[l].config.target ≠ b ∧ s.links[m].config.source = s.links[l].config.target
      ∧ s.links[m].config.trigger ≠ .asleep
  on : (s.bank b).power = .on
  due : (s.bank b).idleTimer = .counting 0
  busy : (s.bank b).port.slots ≠ []

/-- What an event leaves as it was: the configuration of the banks and of the part, the windows with their held counts,
the fields of the links, the channel inputs, the timebase, and the commands that wait. -/
structure SettingsKept (s t : State) : Prop where
  config : ∀ b, (t.bank b).config = (s.bank b).config
  global : t.global = s.global
  windows : t.windows = s.windows
  links : ∀ l : LinkId, t.links[l].config = s.links[l].config
  presented : t.presented = s.presented
  linkClosed : t.linkClosed = s.linkClosed
  resetLow : t.resetLow = s.resetLow
  frameHeld : t.frameHeld = s.frameHeld
  clock : t.clock = s.clock
  pending : t.pending = s.pending

end Sys2Proof.Machine
end

