-- ==== Sys2Proof/WellFormed.lean ====
section
/-! DEFINITION. Which commands can be sent. The operand types leave two checks: the code of an unknown command is in
no row of the command table (R184), and a discarded frame ended before its command was taken (R183). -/

namespace Sys2Proof

/-- A command that an outside partner can send. -/
def Instr.wellFormed : Instr → Bool
  | .unknownCommand code _ => (FrameCommand.ofCode code).isNone
  | .frameDiscarded received => (decodeFrame received).isNone
  | .pinReset _ _ | .linkReset | .linkOpen | .tick | .acceptance _ | .responseTaken | .stageDwellExpiry _
  | .rampCompletion _ | .grant | .wakeLimitExpiry _ | .railDrop _ | .responseTimeout _ | .completion _ _ _
  | .fillWriteIssue | .drainCompletion _ | .parkExpiry _ | .idleExpiry _ | .retainExpiry _
  | .readGlobal _ | .writeGlobal _ _ | .readStatus _ | .popEvent _ | .readBankConfig _ | .writeBankConfig _ _
  | .readBankStatus _ | .wakeBank _ | .sleepBank _ _ | .flushBank _ | .clearFault _ | .markSegments _ _ _ _
  | .clearCount _ | .readWindow _ | .writeWindow _ _ | .readLink _ | .writeLink _ _ | .readParked _ => true

end Sys2Proof
end

