-- ==== Sys2Proof/Certificates/Slice0/Obligations.lean ====
section
/-! DEFINITION. The statements for the provers. OBLIGATIONS.json gives each its title, its basis and its rules. The fields
busOut, fillError and pending, and the form of the field frame, are the model's own (logs 14, 15, 17, 30): that every step
empties busOut and fillError first (State.settled), and that a meaning leaves pending alone, are the model's choice wherever
a statement says so. -/

section

open Sys2Proof Sys2Proof.Machine

/-! ### The step -/

/-- A step takes the command at the front of the queue and runs it on the state with the rest of the queue. -/
def Obligations.StepRunsTheFrontCommand : Prop :=
  ∀ (c : Instr) (rest : List Instr) (s : State),
    step { s with pending := c :: rest } = exec c { s with pending := rest }

/-- A step on an empty queue lets one REFCLK cycle go by. It is counted within the present tick; the last of the cycles that
the tick lasts ends it as TICK does; and while RESET_N is low none is counted. So many such steps as the tick has cycles left
end it (R189). That a step on an empty queue is one cycle, and that a command takes none, is the model's choice (log 11). -/
def Obligations.StepOnEmptyQueueCountsACycle : Prop :=
  ∀ s : State, s.pending = [] →
    (s.resetLow = true → step s = .next s.settled)
    ∧ (s.resetLow = false → s.clock.cycles + 1 < s.clock.tickCycles → step s = .next
        { s.settled with clock := { s.clock with cycles := s.clock.cycles + 1 } })
    ∧ (s.resetLow = false → s.clock.tickCycles ≤ s.clock.cycles + 1 → step s = exec .tick s)
    ∧ (s.resetLow = false → s.clock.cycles < s.clock.tickCycles →
        run (s.clock.tickCycles - s.clock.cycles) s = exec .tick s)

/-- Every command answers a next state in every state, and no run of any length from any state faults or is refused. -/
def Obligations.NoRunStops : Prop :=
  (∀ (c : Instr) (s : State), ∃ t, exec c s = .next t) ∧ ∀ (n : Nat) (s : State), SafeRun n s

/-! ### Reset -/

/-- The state after pin reset, with every item at the value its chapter gives. The levels of the input pins LINK_RESET, PGOOD
and MCS_N are the model's choice (log 3) and are not stated; that the window field of a FREE record is none is its reading
of R170 (log 12). -/
def Obligations.ResetValues : Prop :=
  (∀ b : BankId, State.reset.bank b =
    { power := .off, wakeKind := .none, attempts := 0, rampStage := 0, drainKind := .none, drainTarget := .none,
      dwellTimer := none, wakeTimer := none, idleTimer := .stopped, retainTimer := none,
      pgood := (State.reset.bank b).pgood,
      config := { present := false, capacity := 0, stages := 1, dwell := 50, wakeLimit := 500, retries := 1,
                  offCost := 4, retainCost := 1, idleLimit := 0, idleTarget := .retain, retainLimit := 0,
                  parkLimit := 100, fillPolicy := .none, threshold := 0 },
      charge := 0, marks := Vector.replicate 32 .lost,
      port := { slots := [], counter := 0, reached := false, ignoring := false } })
  ∧ State.reset.global = { budget := 8, refclk := 25, respLimit := 200, mask := 0x3FFF, alert := false }
  ∧ State.reset.unitsHeld = 0 ∧ State.reset.waitList = [] ∧ State.reset.fillQueue = []
  ∧ State.reset.fill = { current := none, nextWrite := none, completed := 0, inFlight := 0, cutOff := false }
  ∧ (∀ i : WindowId, State.reset.windows[i] =
      { config := { enabled := false, base := 0, size := 0, offset := 0, bank := 0, access := .readWrite }, held := 0 })
  ∧ (∀ l : LinkId, State.reset.links[l] =
      { config := { enabled := false, source := 0, trigger := .wakeBegun, target := 0, action := .prewake },
        fireCount := 0 })
  ∧ (∀ t : Tag, State.reset.tags[t] = { state := .free, length := 0, window := none })
  ∧ State.reset.responses = [] ∧ State.reset.presented = none ∧ State.reset.parked = []
  ∧ State.reset.events = [] ∧ State.reset.sequence = 0 ∧ State.reset.lost = 0
  ∧ State.reset.clock = { micros := 0, cycles := 0, tickCycles := 25 }
  ∧ State.reset.frame.received = [] ∧ State.reset.frame.reply = [] ∧ State.reset.resetLow = false

/-- What the manual says holds at all times holds after pin reset. -/
def Obligations.ResetHoldsTheInvariants : Prop :=
  State.reset.QueueBounded ∧ State.reset.EventsBounded ∧ State.reset.PortsBounded ∧ State.reset.QueuesHold
  ∧ State.reset.UnitsHold ∧ State.reset.MarksHold ∧ State.reset.PortsHold ∧ State.reset.KindsHold ∧ State.reset.AbsentOff
  ∧ State.reset.WindowsSound ∧ State.reset.LinksSound ∧ State.reset.ParkedAwake ∧ State.reset.TagsAnswered
  ∧ State.reset.HeldCounts ∧ State.reset.ResetCloses

/-- PIN_RESET. A fall of RESET_N puts every item at its reset value and holds the part there: the link closed, no tick made,
the management port taking no frame, every output inactive and MDO not driven (R27, R170, R186, R189). The rise that ends
it leaves the reset state, with the levels of LINK_RESET, of the PGOOD inputs and of MCS_N that the command carries, and with
the commands that wait (log 2). A rise while RESET_N is high is no event (log 13). -/
def Obligations.PinReset : Prop :=
  (∀ (pins : PinLevels) (s : State), let t : State :=
      { State.reset with
        resetLow := true, linkClosed := true, frameHeld := true, clock := { micros := 0, cycles := 0, tickCycles := 0 }
        pending := s.pending }
    exec (.pinReset .fall pins) s = .next t
    ∧ t.rqAccept = false ∧ t.presentedResponse = none ∧ t.alertN = true ∧ (∀ position, t.mdo position = none)
    ∧ ∀ b, (t.bank b).railStg = 0 ∧ (t.bank b).railRet = false)
  ∧ ∀ (pins : PinLevels) (s : State),
    (s.resetLow = true → exec (.pinReset .rise pins) s = .next
      { State.reset with
        banks := Vector.ofFn fun b => { State.reset.bank b with pgood := pins.pgood[b] }
        linkClosed := pins.linkResetHigh, pending := s.pending
        frame := { mcsLow := pins.mcsLow, received := [], reply := [] }, frameHeld := pins.mcsLow })
    ∧ (s.resetLow = false → exec (.pinReset .rise pins) s = .next s.settled)

/-- LINK_RESET (R168, R57, R138, R59): the tags are freed, the responses, the held counts and the parking queue are
dropped, the request slots become orphans, idle timers that were held are released, the link closes, and the LINK_RESET
event is posted. That a freed record keeps its length and window is the model's reading (log 12). -/
def Obligations.LinkReset : Prop :=
  ∀ s : State, s.linkClosed = false →
    let t : State := { s.settled with
        responses := [], parked := [], linkClosed := true
        tags := s.tags.map fun r => { r with state := .free }
        windows := s.windows.map fun w => { w with held := 0 }
        banks := Vector.ofFn fun b =>
          { s.bank b with
            idleTimer :=
              if (s.bank b).power = .on then
                match (s.bank b).idleTimer with
                | .held _ => .counting ((s.bank b).config.idleLimit.toNat * 1000)
                | .counting n => .counting n
                | .stopped => .stopped
              else (s.bank b).idleTimer
            port := { (s.bank b).port with
              slots := (s.bank b).port.slots.map fun x =>
                match x.holder with
                | .request g st => { x with holder := .orphan g st }
                | .fill | .orphan _ _ => x } } }
    exec .linkReset s = .next (t.post .linkReset {})

/-- LINK_OPEN opens the link and changes nothing else (R167), but while RESET_N is low, when the link stays closed (R153,
R170); and LINK_RESET while the link is closed changes nothing (log 13). -/
def Obligations.LinkOpen : Prop :=
  (∀ s : State, exec .linkOpen s = .next { s.settled with linkClosed := s.resetLow })
  ∧ ∀ s : State, s.linkClosed = true → exec .linkReset s = .next s.settled

/-- TICK: at the end of the present tick the microsecond counter adds 1, the next tick takes the frequency now in force, and
every timer counts one (R189, R4); a timer that has run out stays at 0 until its expiry is taken (log 5). No tick is made
while RESET_N is low (R189). That one command stands for the cycles that the tick has left is the model's choice (log 11). -/
def Obligations.Tick : Prop :=
  ∀ s : State, (s.resetLow = true → exec .tick s = .next s.settled)
  ∧ (s.resetLow = false → exec .tick s = .next
    { s.settled with
      clock := { micros := s.clock.micros + 1, cycles := 0, tickCycles := s.global.refclk.toNat }
      parked := s.parked.map fun e => { e with deadline := e.deadline.map fun d => { d with left := d.left - 1 } }
      banks := Vector.ofFn fun b =>
        { s.bank b with
          dwellTimer := (s.bank b).dwellTimer.map fun n => n - 1
          wakeTimer := (s.bank b).wakeTimer.map fun n => n - 1
          retainTimer := (s.bank b).retainTimer.map fun n => n - 1
          idleTimer :=
            match (s.bank b).idleTimer with
            | .stopped => .stopped
            | .held n => .held n
            | .counting n => .counting (n - 1) } })

/-! ### Events -/

/-- The posting table (R174). -/
def Obligations.PostingMakesARecord : Prop :=
  ∀ (s : State) (k : EventKind) (about : About),
    (s.global.mask.getLsbD k.code = false → s.post k about = s)
    ∧ (s.global.mask.getLsbD k.code = true → s.events.length < 32 → s.post k about =
        { s with
          sequence := s.sequence + 1
          events := s.events ++ [{ sequence := s.sequence, kind := k, time := s.clock.micros, about := about }] })
    ∧ (s.global.mask.getLsbD k.code = true → 32 ≤ s.events.length → s.post k about =
        { s with sequence := s.sequence + 1, lost := if s.lost = 65535 then 65535 else s.lost + 1 })

/-! ### Outputs -/

/-- The rail outputs of a bank follow its state (R1); ALERT_N is low exactly while the alert enable is yes and a record
waits (R179); with the link closed RQ_ACCEPT is low and no response is presented (R167), and with the link open the oldest
response is presented (R164). With the link open RQ_ACCEPT is low with no request on the channel (R154), and follows the
checks of R156 with one: it is low for a request that would be parked while the queue holds 24 entries, and high for every
other. RS_STATUS has the codes of R162, and RS_RDATA the read data from lane 0 on and zero in every other lane. MDO is not
driven while MCS_N is high (R182), nor while RESET_N is low (R186); in a frame it carries 00h while the bytes of the command
come in, then the status and response bytes, then 00h (R182). What it carries in a low period of MCS_N that is no frame is a
free value of the model (log 32), of which nothing is said. -/
def Obligations.OutputsFollowTheState : Prop :=
  (∀ k : Bank,
    (k.power = .off ∨ k.power = .retain ∨ k.power = .waiting ∨ k.power = .fault → k.railStg = 0)
    ∧ (k.power = .ramping → k.railStg = k.rampStage)
    ∧ (k.power = .filling ∨ k.power = .on ∨ k.power = .draining → k.railStg = k.config.stages.toNat)
    ∧ (k.railRet = true ↔ k.power = .retain ∨ (k.power = .waiting ∧ k.wakeKind = .fromRetain)))
  ∧ (∀ s : State,
    (s.alertN = false ↔ s.global.alert = true ∧ s.events ≠ [])
    ∧ (s.linkClosed = true → s.rqAccept = false ∧ s.presentedResponse = none)
    ∧ (s.linkClosed = false → s.presentedResponse = s.responses.head?)
    ∧ (s.presented = none → s.rqAccept = false)
    ∧ ∀ r, s.presented = some r → s.linkClosed = false →
        (s.tags[r.tag].state ≠ .free → s.rqAccept = true)
        ∧ (64 < r.addr.toNat % 64 + r.length → s.rqAccept = true)
        ∧ ((∀ i : WindowId, s.windows[i].config.enabled = true →
              ¬ (s.windows[i].config.holds r.addr.toNat ∧ s.windows[i].config.holds (r.addr.toNat + r.length - 1))) →
            s.rqAccept = true)
        ∧ ∀ i, s.Takes r → s.DecodedThrough r i →
            (s.windows[i].config.access = .readOnly → r.kind = .write → s.rqAccept = true)
            ∧ (s.windows[i].config.access = .readWrite ∨ r.kind = .read →
                (s.rqAccept = false ↔ s.parks (s.figures r i) ∧ 24 ≤ s.parked.length)))
  ∧ [Status.okay, .stale, .denied, .nowin, .expired, .faulted, .aborted, .bankerr].map Status.code = List.range 8
  ∧ (∀ (x : Response) (i : Fin 64),
      (∀ h : i.val < x.data.length, x.lanes[i] = x.data[i.val]) ∧ (x.data.length ≤ i.val → x.lanes[i] = 0))
  ∧ ∀ (s : State) (position : Nat),
      (s.resetLow = true ∨ s.frame.mcsLow = false → s.mdo position = none)
      ∧ (s.resetLow = false → s.frame.mcsLow = true → s.frameHeld = false →
          (position < s.frame.received.length → s.mdo position = some 0)
          ∧ (∀ h : position < s.frame.reply.length,
              s.mdo (s.frame.received.length + position) = some s.frame.reply[position])
          ∧ (s.frame.received.length + s.frame.reply.length ≤ position → s.mdo position = some 0))

/-! ### Management frames -/

/-- A frame of a well-formed management command decodes to that command. -/
def Obligations.FrameDecodesToItsCommand : Prop :=
  ∀ (i : Instr) (bytes : List Byte), i.wellFormed = true → frameBytes i = some bytes → decodeFrame bytes = some i

/-- Some frames written out from the command table of section 11.6. -/
def Obligations.FramesOfTheTable : Prop :=
  decodeFrame [0x01, 0x00] = some (.readGlobal 0) ∧ decodeFrame [0x04, 0x00] = some (.popEvent 0)
  ∧ decodeFrame [0x13, 0x02] = some (.wakeBank 2) ∧ decodeFrame [0x14, 0x02, 0x01] = some (.sleepBank 2 1)
  ∧ decodeFrame [0x14, 0x02] = none ∧ decodeFrame [0x17, 0x05, 0x00, 0x20, 0x01] = some (.markSegments 5 0 32 1)
  ∧ decodeFrame [0x29, 0x03, 0x01, 0x02, 0x01, 0x04, 0x00] = some (.writeLink 3 #v[1, 2, 1, 4, 0])
  ∧ decodeFrame [0x30, 0x17] = some (.readParked 0x17) ∧ decodeFrame [0x05, 0x00] = some (.unknownCommand 5 0)

/-- An unknown code is taken with its index byte and answered UNKNOWN, an index out of its range is answered UNKNOWN with
all response bytes 00h, and nothing else changes (R184). -/
def Obligations.UnknownIsAnsweredUnknown : Prop :=
  ∀ (s : State) (i : Byte), s.frameHeld = false →
    (∀ code : Byte, FrameCommand.ofCode code = none → decodeFrame [code, i] = some (.unknownCommand code i)
      ∧ exec (.unknownCommand code i) s = .next (s.replied [code, i] [0x05]))
    ∧ (i ≠ 0 →
        exec (.readGlobal i) s = .next (s.replied [0x01, i] (0x05 :: List.replicate 7 0))
        ∧ (∀ a, exec (.writeGlobal i a) s = .next (s.replied (0x02 :: i :: a.toList) [0x05]))
        ∧ exec (.readStatus i) s = .next (s.replied [0x03, i] (0x05 :: List.replicate 6 0))
        ∧ exec (.popEvent i) s = .next (s.replied [0x04, i] (0x05 :: List.replicate 16 0)))
    ∧ (8 ≤ i.toNat →
        exec (.readBankConfig i) s = .next (s.replied [0x10, i] (0x05 :: List.replicate 22 0))
        ∧ (∀ a, exec (.writeBankConfig i a) s = .next (s.replied (0x11 :: i :: a.toList) [0x05]))
        ∧ exec (.readBankStatus i) s = .next (s.replied [0x12, i] (0x05 :: List.replicate 15 0))
        ∧ exec (.wakeBank i) s = .next (s.replied [0x13, i] [0x05])
        ∧ (∀ target, exec (.sleepBank i target) s = .next (s.replied [0x14, i, target] [0x05]))
        ∧ exec (.flushBank i) s = .next (s.replied [0x15, i] [0x05, 0])
        ∧ exec (.clearFault i) s = .next (s.replied [0x16, i] [0x05])
        ∧ (∀ first count value,
            exec (.markSegments i first count value) s = .next (s.replied [0x17, i, first, count, value] [0x05]))
        ∧ exec (.clearCount i) s = .next (s.replied [0x18, i] [0x05])
        ∧ exec (.readLink i) s = .next (s.replied [0x28, i] (0x05 :: List.replicate 7 0))
        ∧ (∀ a, exec (.writeLink i a) s = .next (s.replied (0x29 :: i :: a.toList) [0x05])))
    ∧ (16 ≤ i.toNat →
        exec (.readWindow i) s = .next (s.replied [0x20, i] (0x05 :: List.replicate 16 0))
        ∧ ∀ a, exec (.writeWindow i a) s = .next (s.replied (0x21 :: i :: a.toList) [0x05]))
    ∧ (24 ≤ i.toNat → exec (.readParked i) s = .next (s.replied [0x30, i] (0x05 :: List.replicate 22 0)))

/-- A frame that ends before its command is taken is discarded, and nothing is read, written or done (R183). Before the first
fall of MCS_N after a pin reset the port takes no frame: whatever is shifted in does nothing, and the rise of MCS_N that ends
a low period begun before RESET_N rose lets the next frame be taken (R186; form of the commands: log 14). After the rise MDO
is not driven (R182). -/
def Obligations.DiscardedFrameDoesNothing : Prop :=
  (∀ (received : List Byte) (s : State), decodeFrame received = none →
    let t : State := { s.settled with frame := { mcsLow := false, received := [], reply := [] } }
    (∀ position, t.mdo position = none)
    ∧ (s.frameHeld = false → exec (.frameDiscarded received) s = .next t)
    ∧ (s.frameHeld = true → s.resetLow = false → exec (.frameDiscarded received) s = .next { t with frameHeld := false })
    ∧ (s.frameHeld = true → s.resetLow = true → exec (.frameDiscarded received) s = .next t))
  ∧ ∀ (c : Instr) (bytes : List Byte) (s : State), s.frameHeld = true → frameBytes c = some bytes →
    exec c s = .next s.settled

/-- READ GLOBAL, READ BANK CONFIG and READ BANK STATUS return the fields as they stand and change nothing (R187, R191,
R24), in the codes of R195 and with segment 0 in the most significant bit of the segment map. -/
def Obligations.ReadsOfConfigurationAndStatus : Prop :=
  (∀ s : State, s.frameHeld = false → exec (.readGlobal 0) s = .next (s.replied [0x01, 0x00]
    ([0x00, s.global.budget, s.global.refclk] ++ be16 s.global.respLimit ++ be16 s.global.mask
      ++ [boolByte s.global.alert])))
  ∧ (∀ (s : State) (b : BankId), s.frameHeld = false →
    exec (.readBankConfig (byteOf b.val)) s = .next (s.replied [0x10, byteOf b.val]
      (let c := (s.bank b).config
       [0x00, boolByte c.present, byteOf c.capacity.val, c.stages] ++ be16 c.dwell ++ be16 c.wakeLimit
        ++ [c.retries, c.offCost, c.retainCost] ++ be16 c.idleLimit ++ [if c.idleTarget = .off then 1 else 0]
        ++ be16 c.retainLimit ++ be16 c.parkLimit ++ [if c.fillPolicy = .zero then 1 else 0] ++ be32 c.threshold)))
  ∧ ∀ (s : State) (b : BankId), s.frameHeld = false →
    exec (.readBankStatus (byteOf b.val)) s = .next (s.replied [0x12, byteOf b.val]
    (let k := s.bank b
     let power : Byte :=
      match k.power with
      | .off => 0
      | .retain => 1
      | .waiting => 2
      | .ramping => 3
      | .filling => 4
      | .on => 5
      | .draining => 6
      | .fault => 7
     let drainKind : Byte :=
      match k.drainKind with
      | .none => 0
      | .soft => 1
      | .hard => 2
     let drainTarget : Byte :=
      match k.drainTarget with
      | .none => 0
      | .retain => 1
      | .off => 2
     let mark := fun n : Nat => if k.marks[(Fin.ofNat 32 n : Segment)] = .valid then 1 else 0
     let eight := fun n : Nat => byteOf ((List.range 8).foldl (fun m i => 2 * m + mark (n + i)) 0)
     [0x00, power, drainKind, drainTarget, byteOf k.attempts, byteOf k.port.slots.length,
      byteOf (s.parked.countP fun e => e.req.bank = b), eight 0, eight 8, eight 16, eight 24]
      ++ be32 k.port.counter ++ [byteOf k.charge]))

/-- WRITE GLOBAL (R188, R84): the first failed check is answered and nothing changes; a write that passes replaces all
five fields at once, and where no waiting bank fits the budget changes nothing else. -/
def Obligations.WriteGlobal : Prop :=
  ∀ (s : State) (a : Vector Byte 7), s.frameHeld = false →
    (s.globalOutOfRange a → exec (.writeGlobal 0 a) s = .next (s.replied (0x02 :: 0 :: a.toList) [0x02]))
    ∧ (¬ s.globalOutOfRange a → a[0].toNat < s.unitsHeld →
        exec (.writeGlobal 0 a) s = .next (s.replied (0x02 :: 0 :: a.toList) [0x01]))
    ∧ (¬ s.globalOutOfRange a → s.unitsHeld ≤ a[0].toNat →
        let g : Global := { budget := a[0], refclk := a[1], respLimit := a[2] ++ a[3], mask := a[4] ++ a[5],
                            alert := a[6] = 1 }
        ((∀ b, s.waitList.head? = some b → a[0].toNat < s.unitsHeld + (s.bank b).wakeCost) →
          exec (.writeGlobal 0 a) s = .next ({ s with global := g }.replied (0x02 :: 0 :: a.toList) [0x00]))
        ∧ ∃ t, exec (.writeGlobal 0 a) s = .next t ∧ t.global = g
            ∧ t.frame = { mcsLow := true, received := 0x02 :: 0 :: a.toList, reply := [0x00] })

/-- READ STATUS returns the five figures, sets the lost count to 0, and changes no other state (R190). -/
def Obligations.ReadStatus : Prop :=
  ∀ s : State, s.frameHeld = false → exec (.readStatus 0) s = .next ({ s with lost := 0 }.replied [0x03, 0x00]
    ([0x00, byteOf ((List.finRange 32).countP fun t : Tag => s.tags[t].state ≠ TagState.free), byteOf s.parked.length,
      byteOf s.unitsHeld, byteOf s.events.length] ++ be16 s.lost))

/-- POP EVENT removes the oldest record and returns it in the sixteen bytes of R197, or answers EMPTY; a frame cut short
before the taking removes no record (R177). The kinds and the details have the codes of R195 and R197. -/
def Obligations.PopEvent : Prop :=
  (∀ (s : State) (r : Record) (rest : List Record), s.frameHeld = false → s.events = r :: rest →
    let a := r.about
    let flag := fun (bit : Nat) (present : Bool) => if present then 2 ^ bit else 0
    let value := fun v : Option Nat => byteOf (v.getD 0)
    let flags := byteOf (flag 0 a.bank.isSome + flag 1 a.tag.isSome + flag 2 a.stream.isSome + flag 3 a.window.isSome
      + flag 4 a.link.isSome + flag 5 a.detail.isSome)
    let detail := match a.detail with
      | none => 0
      | some d => d.code
    exec (.popEvent 0) s = .next ({ s with events := rest }.replied [0x04, 0x00]
      ([0x00, 0x01] ++ be16 r.sequence ++ [byteOf r.kind.code] ++ be32 r.time
        ++ [flags, value (a.bank.map Fin.val), value (a.tag.map Fin.val), value (a.stream.map Fin.val),
            value (a.window.map Fin.val), value (a.link.map Fin.val)] ++ be16 detail)))
  ∧ (∀ s : State, s.frameHeld = false → s.events = [] →
      exec (.popEvent 0) s = .next (s.replied [0x04, 0x00] (0x00 :: List.replicate 16 0x00)))
  ∧ (∀ (received : List Byte) (s : State), decodeFrame received = none →
      ∃ t, exec (.frameDiscarded received) s = .next t ∧ t.events = s.events)
  ∧ [EventKind.wakeRetry, .wakeFault, .railDrop, .bankTimeout, .bankError, .parkExpired, .fillError, .fillDone,
      .refusedAccess, .protocol, .retainExpired, .countReached, .linkNote, .linkReset].map EventKind.code = List.range 14
  ∧ (∀ n, (Detail.count n).code = BitVec.ofNat 16 n) ∧ (∀ g : Segment, (Detail.segment g).code = BitVec.ofNat 16 g.val)
  ∧ (Detail.status .denied).code = 2 ∧ (Detail.status .nowin).code = 3
  ∧ Detail.dupTag.code = 0 ∧ Detail.malformed.code = 1
  ∧ [Trigger.wakeBegun, .ready, .drainBegun, .asleep, .faulted, .count].map (fun x => (Detail.trigger x).code)
      = [0, 1, 2, 3, 4, 5]

/-- READ WINDOW answers UNKNOWN for an index of 16 or more; for 0 to 15 it returns the six fields as stored and the held
count, and changes nothing (R124). -/
def Obligations.ReadWindow : Prop :=
  (∀ (s : State) (index : Byte), s.frameHeld = false → 16 ≤ index.toNat →
    exec (.readWindow index) s = .next (s.replied [0x20, index] (0x05 :: List.replicate 16 0)))
  ∧ ∀ (s : State) (i : WindowId), s.frameHeld = false →
    exec (.readWindow (byteOf i.val)) s = .next (s.replied [0x20, byteOf i.val]
      (let c := s.windows[i].config
       [0x00, boolByte c.enabled] ++ be32 c.base ++ be32 c.size ++ be32 (c.offset.setWidth 32)
        ++ [byteOf c.bank.val, if c.access = .readOnly then 1 else 0, byteOf s.windows[i].held]))

/-- READ LINK answers UNKNOWN for an index of 8 or more; for 0 to 7 it returns the five fields and the fire count, and
changes nothing (R151), in the codes of R195. -/
def Obligations.ReadLink : Prop :=
  (∀ (s : State) (index : Byte), s.frameHeld = false → 8 ≤ index.toNat →
    exec (.readLink index) s = .next (s.replied [0x28, index] (0x05 :: List.replicate 7 0)))
  ∧ ∀ (s : State) (l : LinkId), s.frameHeld = false →
    exec (.readLink (byteOf l.val)) s = .next (s.replied [0x28, byteOf l.val]
      (let c := s.links[l].config
       let trigger : Byte :=
        match c.trigger with
        | .wakeBegun => 0
        | .ready => 1
        | .drainBegun => 2
        | .asleep => 3
        | .faulted => 4
        | .count => 5
       let action : Byte :=
        match c.action with
        | .prewake => 0
        | .hold => 1
        | .sleepRetain => 2
        | .sleepOff => 3
        | .note => 4
       [0x00, boolByte c.enabled, byteOf c.source.val, trigger, byteOf c.target.val, action]
        ++ be16 s.links[l].fireCount))

/-- READ PARKED returns the entry at a position, with the code of the first test of R31 that holds for it, or EMPTY, and
changes nothing (R55, R31, R195). The byte of an entry for which no test holds is a free value of the model (log 16). -/
def Obligations.ReadParked : Prop :=
  ∀ (s : State) (index : Byte), s.frameHeld = false → index.toNat < 24 →
    (∀ e, s.parked[index.toNat]? = some e →
      let k := s.bank e.req.bank
      let reason : Byte :=
        if ∃ x ∈ s.parked.take index.toNat, x.req.stream = e.req.stream then 0
        else if k.power = .waiting ∨ k.power = .ramping ∨ k.power = .draining then 1
        else if k.power = .filling ∧ k.marks[e.req.segment] = .lost then 2
        else if 4 ≤ k.port.slots.length then 3
        else Config.noReasonCode
      exec (.readParked index) s = .next (s.replied [0x30, index]
      ([0x00, 0x01, byteOf e.req.tag.val, byteOf e.req.stream.val, if e.req.kind = .write then 1 else 0,
        byteOf e.req.window.val, byteOf e.req.bank.val] ++ be32 (e.req.addr.setWidth 32)
        ++ [byteOf e.req.segment.val, byteOf e.req.length] ++ be32 e.acceptTime
        ++ (match e.deadline with
            | none => [0x00, 0x00, 0x00, 0x00, 0x00]
            | some d => 0x01 :: be32 d.time)
        ++ [reason])))
    ∧ (s.parked.length ≤ index.toNat →
        exec (.readParked index) s = .next (s.replied [0x30, index] (0x00 :: List.replicate 22 0x00)))

/-- WRITE BANK CONFIG (R191 to R193, R26): the first failed check is answered and nothing changes; a write that passes
replaces all fourteen fields, with the effects of R26 in RETAIN. -/
def Obligations.WriteBankConfig : Prop :=
  ∀ (s : State) (b : BankId) (a : Vector Byte 22), s.frameHeld = false →
    let k := s.bank b
    let c := configFields a
    let received := 0x11 :: byteOf b.val :: a.toList
    let low := k.power = .off ∨ k.power = .retain ∨ k.power = .fault
    (¬ low → exec (.writeBankConfig (byteOf b.val) a) s = .next (s.replied received [0x01]))
    ∧ (low → s.configOutOfRange a → exec (.writeBankConfig (byteOf b.val) a) s = .next (s.replied received [0x02]))
    ∧ (low → ¬ s.configOutOfRange a → s.configMisnames b c →
        exec (.writeBankConfig (byteOf b.val) a) s = .next (s.replied received [0x03]))
    ∧ (low → ¬ s.configOutOfRange a → ¬ s.configMisnames b c →
        (k.power ≠ .retain → exec (.writeBankConfig (byteOf b.val) a) s =
          .next ((s.updBank b fun _ => { k with config := c }).replied received [0x00]))
        ∧ (k.power = .retain → c.present = false → exec (.writeBankConfig (byteOf b.val) a) s =
          .next ((s.updBank b fun _ =>
            { k with config := c, power := .off, retainTimer := none, marks := Vector.replicate 32 .lost }).replied
              received [0x00]))
        ∧ (k.power = .retain → c.present = true → exec (.writeBankConfig (byteOf b.val) a) s =
          .next ((s.updBank b fun _ =>
            { k with
              config := c
              retainTimer :=
                if c.retainLimit = k.config.retainLimit then k.retainTimer
                else if c.retainLimit = 0 then none else some (c.retainLimit.toNat * 100000)
              marks := if c.capacity = k.config.capacity then k.marks else Vector.replicate 32 .lost }).replied
              received [0x00])))

/-- WRITE WINDOW (R118 to R121): the first failed check is answered and nothing changes; a write that passes replaces the
six fields and not the held count. -/
def Obligations.WriteWindow : Prop :=
  ∀ (s : State) (i : WindowId) (a : Vector Byte 15), s.frameHeld = false →
    let w := s.windows[i]
    let c := windowFields a
    let received := 0x21 :: byteOf i.val :: a.toList
    let refused := fun code : Byte => exec (.writeWindow (byteOf i.val) a) s = .next (s.replied received [code])
    let taken := exec (.writeWindow (byteOf i.val) a) s =
      .next ({ s with windows := s.windows.set i { w with config := c } }.replied received [0x00])
    let coded := a[0].toNat ≤ 1 ∧ a[13].toNat ≤ 7 ∧ a[14].toNat ≤ 1
    let present := (s.bank c.bank).config.present = true
    let fits := c.offset.toNat + c.size.toNat ≤ 2 ^ ((s.bank c.bank).config.capacity.val + 20)
    let overlap := ∃ j : WindowId, j ≠ i ∧ s.windows[j].config.enabled = true ∧ s.windows[j].config.sharesAddress c
    (0 < w.held → refused 0x01)
    ∧ (w.held = 0 → ¬ coded → refused 0x02)
    ∧ (w.held = 0 → coded → c.enabled = false → taken)
    ∧ (w.held = 0 → coded → c.enabled = true → s.WindowsSound →
        (c.misaligned → refused 0x02)
        ∧ (¬ c.misaligned → ¬ present → refused 0x03)
        ∧ (¬ c.misaligned → present → ¬ fits → refused 0x02)
        ∧ (¬ c.misaligned → present → fits → overlap → refused 0x04)
        ∧ (¬ c.misaligned → present → fits → ¬ overlap → taken))

/-- WRITE LINK (R149): the first failed check is answered and nothing changes; a write that passes replaces the five
fields, in the codes of R195, and sets the fire count to 0. -/
def Obligations.WriteLink : Prop :=
  ∀ (s : State) (l : LinkId) (a : Vector Byte 5), s.frameHeld = false →
    let received := 0x29 :: byteOf l.val :: a.toList
    let coded := a[0].toNat ≤ 1 ∧ a[1].toNat ≤ 7 ∧ a[2].toNat ≤ 5 ∧ a[3].toNat ≤ 7 ∧ a[4].toNat ≤ 4
    let absent := (s.bank (Fin.ofNat 8 a[1].toNat)).config.present = false
      ∨ (s.bank (Fin.ofNat 8 a[3].toNat)).config.present = false
    let trigger := fun x : Trigger => match x with
      | .wakeBegun => (0 : Byte)
      | .ready => 1
      | .drainBegun => 2
      | .asleep => 3
      | .faulted => 4
      | .count => 5
    let action := fun x : Action => match x with
      | .prewake => (0 : Byte)
      | .hold => 1
      | .sleepRetain => 2
      | .sleepOff => 3
      | .note => 4
    (¬ coded → exec (.writeLink (byteOf l.val) a) s = .next (s.replied received [0x02]))
    ∧ (coded → a[0] = 1 → absent → exec (.writeLink (byteOf l.val) a) s = .next (s.replied received [0x03]))
    ∧ (coded → (a[0] = 0 ∨ ¬ absent) → ∃ x : Link, x.fireCount = 0
        ∧ [boolByte x.config.enabled, byteOf x.config.source.val, trigger x.config.trigger, byteOf x.config.target.val,
            action x.config.action] = a.toList
        ∧ exec (.writeLink (byteOf l.val) a) s =
            .next ({ s with links := s.links.set l x }.replied received [0x00]))

/-- CLEAR FAULT (R21): a bank in FAULT enters OFF with an attempt count of 0, and its port takes completions again; in
every other state, and for an absent bank, the command is refused with STATE. CLEAR COUNT (R152): for a present bank, in
every power state, the access counter becomes 0 and the threshold-reached flag no; for an absent bank it is refused. -/
def Obligations.ClearFaultAndClearCount : Prop :=
  (∀ (s : State) (b : BankId), s.frameHeld = false →
    let k := s.bank b
    (k.config.present = false ∨ k.power ≠ .fault →
      exec (.clearFault (byteOf b.val)) s = .next (s.replied [0x16, byteOf b.val] [0x03]))
    ∧ (k.config.present = true → k.power = .fault → exec (.clearFault (byteOf b.val)) s =
        .next ((s.updBank b fun _ =>
          { k with power := .off, attempts := 0, port := { k.port with ignoring := false } }).replied
            [0x16, byteOf b.val] [0x00])))
  ∧ ∀ (s : State) (b : BankId), s.frameHeld = false →
    let k := s.bank b
    (k.config.present = false →
      exec (.clearCount (byteOf b.val)) s = .next (s.replied [0x18, byteOf b.val] [0x03]))
    ∧ (k.config.present = true → exec (.clearCount (byteOf b.val)) s =
        .next ((s.updBank b fun _ => { k with port := { k.port with counter := 0, reached := false } }).replied
          [0x18, byteOf b.val] [0x00]))

/-- WAKE BANK (R23): where it wakes nothing, by the table (R60, R63); and of a sleeping bank (R5, R7, R79), which waits
while its cost does not fit, and otherwise ramps from stage 1, or, with one stage and PGOOD high, completes its ramp at once
into ON or FILLING (R9, R10, R80). -/
def Obligations.WakeBank : Prop :=
  (∀ (s : State) (b : BankId), s.frameHeld = false →
    let k := s.bank b
    let received := [0x13, byteOf b.val]
    (k.config.present = false → exec (.wakeBank (byteOf b.val)) s = .next (s.replied received [0x03]))
    ∧ (k.power = .fault ∨ (k.power = .draining ∧ k.drainKind ≠ .soft) →
        exec (.wakeBank (byteOf b.val)) s = .next (s.replied received [0x03]))
    ∧ (k.config.present = true → (k.power = .waiting ∨ k.power = .ramping ∨ k.power = .filling) →
        exec (.wakeBank (byteOf b.val)) s = .next (s.replied received [0x00]))
    ∧ (k.config.present = true → k.power = .on → exec (.wakeBank (byteOf b.val)) s =
        .next ((s.updBank b fun _ =>
          { k with idleTimer :=
              match k.idleTimer with
              | .counting _ => .counting (k.config.idleLimit.toNat * 1000)
              | .held n => .held n
              | .stopped => .stopped }).replied received [0x00]))
    ∧ (k.config.present = true → k.power = .draining → k.drainKind = .soft → s.parked = [] →
        exec (.wakeBank (byteOf b.val)) s = .next ((s.updBank b fun _ => k.readied).replied received [0x00])))
  ∧ ∀ (s : State) (b : BankId), s.frameHeld = false →
    let k := s.bank b
    let received := [0x13, byteOf b.val]
    let cost := k.costAsleep
    let fills := k.config.fillPolicy = .zero ∧ ∃ g : Segment, k.marks[g] = .lost
    s.Unlinked → s.waitList = [] → k.config.present = true → (k.power = .off ∨ k.power = .retain) →
      (s.global.budget.toNat < s.unitsHeld + cost → exec (.wakeBank (byteOf b.val)) s =
        .next ({ s.updBank b fun _ => k.awaiting with waitList := [b] }.replied received [0x00]))
      ∧ (s.unitsHeld + cost ≤ s.global.budget.toNat → (k.config.stages.toNat ≠ 1 ∨ k.pgood = false) →
          exec (.wakeBank (byteOf b.val)) s =
            .next ({ s.updBank b fun _ => k.awaiting.ramping cost with
              unitsHeld := s.unitsHeld + cost }.replied received [0x00]))
      ∧ (s.unitsHeld + cost ≤ s.global.budget.toNat → k.config.stages.toNat = 1 → k.pgood = true → s.parked = [] →
          (¬ fills → exec (.wakeBank (byteOf b.val)) s =
            .next ((s.updBank b fun _ => (k.awaiting.ramping cost).ramped.readied).replied received [0x00]))
          ∧ (fills → s.fillQueue ≠ [] → exec (.wakeBank (byteOf b.val)) s =
            .next ({ s.updBank b fun _ => { (k.awaiting.ramping cost).ramped with power := .filling } with
              fillQueue := s.fillQueue ++ [b] }.replied received [0x00])))

/-- SLEEP BANK where no drain begins (R72, R71). -/
def Obligations.SleepBankWithoutANewDrain : Prop :=
  ∀ (s : State) (b : BankId) (target : Byte), s.frameHeld = false →
    let k := s.bank b
    let received := [0x14, byteOf b.val, target]
    let answers := fun (t : State) (code : Byte) =>
      exec (.sleepBank (byteOf b.val) target) s = .next (t.replied received [code])
    (1 < target.toNat → answers s 0x02)
    ∧ (target.toNat ≤ 1 →
        (k.config.present = false → answers s 0x03)
        ∧ (k.power = .waiting ∨ k.power = .ramping ∨ k.power = .fault → answers s 0x03)
        ∧ (k.config.present = true →
            (k.power = .off → answers s 0x00)
            ∧ (k.power = .retain → target = 0 → answers s 0x00)
            ∧ (k.power = .retain → target = 1 → answers
                (s.updBank b fun _ => { k with power := .off, retainTimer := none, marks := Vector.replicate 32 .lost }) 0x00)
            ∧ (k.power = .draining → answers
                (s.updBank b fun _ =>
                  { k with drainKind := .hard, drainTarget := if target = 1 then .off else .retain }) 0x00)))

/-- SLEEP BANK of a bank in ON or FILLING (R64, R66, R67, R106): a hard drain, which completes at once where nothing is in
flight and nothing is parked for the bank. The bank that comes to the head of the fill queue has a segment fill begun. -/
def Obligations.SleepBankDrains : Prop :=
  ∀ (s : State) (b : BankId) (target : Byte), s.frameHeld = false →
    let k := s.bank b
    let drained : Bank :=
      { k with power := .draining, drainKind := .hard, drainTarget := if target = 1 then .off else .retain
               idleTimer := .stopped }
    let left := s.fillQueue.filter fun c => c ≠ b
    let answers := fun t : State =>
      exec (.sleepBank (byteOf b.val) target) s = .next (t.replied [0x14, byteOf b.val, target] [0x00])
    s.Unlinked → k.config.present = true → target.toNat ≤ 1 → (k.power = .on ∨ k.power = .filling) →
      (k.port.slots ≠ [] → s.fillQueue.head? ≠ some b →
        answers { s.updBank b fun _ => drained with fillQueue := left })
      ∧ (k.port.slots ≠ [] → s.fillQueue = [b] →
          answers { s.updBank b fun _ => drained with
            fillQueue := []
            fill := { current := none, nextWrite := none, completed := 0, inFlight := 0, cutOff := false } })
      ∧ (k.port.slots = [] → s.parked = [] → s.fillQueue.head? ≠ some b →
          answers { s.updBank b fun _ => drained.rested with fillQueue := left })
      ∧ (k.port.slots = [] → s.parked = [] → s.fillQueue = [b] →
          answers { s.updBank b fun _ => drained.rested with
            fillQueue := []
            fill := { current := none, nextWrite := none, completed := 0, inFlight := 0, cutOff := false } })
      ∧ ∀ c more g, s.NextHead b c more g → s.parked = [] →
          let left : State := { s.settled.updBank b fun _ => if k.port.slots = [] then drained.rested else drained with
            fillQueue := c :: more }
          exec (.sleepBank (byteOf b.val) target) s = .next
            { left.fillBegun c g with frame := { mcsLow := true, received := [0x14, byteOf b.val, target], reply := [0x00] } }

/-- FLUSH BANK (R53): for an absent bank STATE; otherwise every entry parked for the bank that no earlier cascade has
answered is answered ABORTED, oldest first, each followed by its stream cascade of any bank (R50), and the command answers
DONE with the number of responses made. The queue keeps the other entries, and nothing else changes where the scan that
follows finds none of them due for release. -/
def Obligations.FlushBank : Prop :=
  ∀ (s : State) (b : BankId), s.frameHeld = false →
    let received := [0x15, byteOf b.val]
    let gone := flushOrder b [] s.parked
    let tags := gone.map fun e => e.req.tag
    let left := flushRest b [] s.parked
    ((s.bank b).config.present = false → exec (.flushBank (byteOf b.val)) s = .next (s.replied received [0x03, 0x00]))
    ∧ ((s.bank b).config.present = true → tags.Nodup → (∀ g ∈ tags, s.tags[g].state = .pending) →
        ∃ t : State, exec (.flushBank (byteOf b.val)) s = .next t
          ∧ t.responses = s.responses ++ tags.map (fun g => { tag := g, status := .aborted, data := [] })
          ∧ (∀ g : Tag, t.tags[g] = if g ∈ tags then { s.tags[g] with state := .answered } else s.tags[g])
          ∧ t.parked.Sublist left ∧ (∀ e ∈ left, e ∈ s.parked ∧ e.req.bank ≠ b)
          ∧ t.frame = { mcsLow := true, received := received, reply := [0x00, byteOf tags.length] })
    ∧ ((s.bank b).config.present = true → tags.Nodup → (∀ g ∈ tags, s.tags[g].state = .pending) → s.Unlinked →
        (∀ x ∈ gone, (s.bank x.req.bank).power ≠ .on) →
        (∀ x ∈ left, (s.bank x.req.bank).power = .waiting ∨ (s.bank x.req.bank).power = .ramping) →
        (∀ c n, (s.bank c).idleTimer ≠ .held n) → exec (.flushBank (byteOf b.val)) s = .next
          (({ s with parked := left }.answered .aborted tags).replied received [0x00, byteOf tags.length]))
    ∧ ((s.bank b).config.present = true → ∀ (before after : List Entry) (e : Entry), s.Unlinked →
        s.parked = before ++ e :: after → e.req.bank = b →
        (∀ x ∈ before ++ after, x.req.bank ≠ b ∧ x.req.stream ≠ e.req.stream
          ∧ ((s.bank x.req.bank).power = .waiting ∨ (s.bank x.req.bank).power = .ramping)) →
        s.tags[e.req.tag].state = .pending → exec (.flushBank (byteOf b.val)) s = .next
          (((s.withQueue (before ++ after)).answered .aborted [e.req.tag]).replied received [0x00, 0x01]))

/-- MARK SEGMENTS (R93, R94): the checks in order; a taken LOST changes the named marks and nothing else. That it does so to
a cut-off current segment too is the model's choice (log 29). -/
def Obligations.MarkSegmentsChecksAndLost : Prop :=
  ∀ (s : State) (b : BankId) (first count value : Byte), s.frameHeld = false →
    let k := s.bank b
    let answers := fun (t : State) (code : Byte) =>
      exec (.markSegments (byteOf b.val) first count value) s =
        .next (t.replied [0x17, byteOf b.val, first, count, value] [code])
    let outOfRange := 1 < value.toNat ∨ count = 0 ∨ 32 < first.toNat + count.toNat
    let markable := k.power = .on ∨ k.power = .filling ∨ k.power = .draining ∨ k.power = .retain
    (k.config.present = false → answers s 0x03)
    ∧ (k.config.present = true → outOfRange → answers s 0x02)
    ∧ (k.config.present = true → ¬ outOfRange → ¬ markable → answers s 0x03)
    ∧ (k.config.present = true → ¬ outOfRange → markable → value = 0 → answers
        (s.updBank b fun _ =>
          { k with marks := Vector.ofFn fun g =>
              if first.toNat ≤ g.val ∧ g.val < first.toNat + count.toNat then .lost else k.marks[g] }) 0x00)

/-- MARK SEGMENTS with the value VALID (R94, R102, R103), with nothing parked: the named marks become VALID. In FILLING the
head bank's current segment is cut off where it is named, and where no write of it is in flight the next segment fill is
begun; and a bank with no LOST segment left and no fill write in flight ends its fill with FILL_DONE and enters ON. Where it
comes together with the error of a fill write of a segment that was not cut off, the error is taken first, and it names every
LOST segment of the bank, that segment stays LOST (R108). That the two come together where the command is taken in the very
next step is the model's choice (log 30). -/
def Obligations.MarkSegmentsValid : Prop :=
  ∀ (s : State) (b : BankId) (first count : Byte), s.frameHeld = false →
    let k := s.bank b
    let named := fun g : Segment => first.toNat ≤ g.val ∧ g.val < first.toNat + count.toNat
    let marked : Bank := { k with marks := Vector.ofFn fun g => if named g then .valid else k.marks[g] }
    let received := [0x17, byteOf b.val, first, count, 0x01]
    let answers := fun t : State =>
      exec (.markSegments (byteOf b.val) first count 0x01) s = .next (t.replied received [0x00])
    let failed := fun g : Segment => s.fillError = some (b, g) ∧ ∀ h : Segment, k.marks[h] = .lost → named h
    s.Unlinked → s.parked = [] → k.config.present = true → count ≠ 0 → first.toNat + count.toNat ≤ 32 →
      (k.power = .on ∨ k.power = .draining ∨ k.power = .retain → b ∉ s.fillQueue →
        ((∀ g, ¬ failed g) → answers (s.updBank b fun _ => marked))
        ∧ ∀ g, failed g → answers (s.updBank b fun _ =>
            { k with marks := Vector.ofFn fun h => if h = g then .lost else if named h then .valid else k.marks[h] }))
      ∧ ((∀ g, ¬ failed g) →
        (k.power = .filling → (∃ g : Segment, marked.marks[g] = .lost) →
            (s.fillQueue.head? ≠ some b → answers (s.updBank b fun _ => marked))
            ∧ (s.fillQueue.head? = some b → ∀ g, s.fill.current = some g →
                (¬ named g → (s.fill.cutOff = false ∨ s.fill.inFlight ≠ 0) → answers (s.updBank b fun _ => marked))
                ∧ (named g → s.fill.inFlight ≠ 0 → answers
                    { s.updBank b fun _ => marked with fill := { s.fill with cutOff := true, nextWrite := none } })
                ∧ (named g → s.fill.inFlight = 0 → (∀ x ∈ k.port.slots, x.holder ≠ .fill) → ∀ h, marked.LowestLost h →
                    exec (.markSegments (byteOf b.val) first count 0x01) s = .next
                      { (s.settled.updBank b fun _ => marked).fillBegun b h with
                        frame := { mcsLow := true, received := received, reply := [0x00] } })))
        ∧ (k.power = .filling → (∀ g : Segment, marked.marks[g] = .valid) → s.fillQueue = [b] → s.fill.inFlight = 0 →
            answers (({ s.updBank b fun _ => marked.readied with
              fillQueue := []
              fill := { current := none, nextWrite := none, completed := 0, inFlight := 0, cutOff := false } }).post
                .fillDone { bank := some b })))

/-! ### Requests and responses -/

/-- A request presented while the link is closed, or one that would be parked while the parking queue holds 24 entries,
stays presented and changes nothing else (R156, check 4; R160). A request that has met no sampling edge stands on the channel
and changes nothing else, and one that is withdrawn before it has passed leaves no trace (R154). That it stands in the state
as the presented request is the model's form (log 10). -/
def Obligations.WithheldRequestChangesNothing : Prop :=
  ∀ (s : State) (r : Request),
    (s.linkClosed = true → exec (.acceptance (.edge r)) s = .next { s.settled with presented := some r })
    ∧ (∀ i, s.Takes r → s.DecodedThrough r i → (s.windows[i].config.access = .readWrite ∨ r.kind = .read) →
        24 ≤ s.parked.length → s.parks (s.figures r i) →
        exec (.acceptance (.edge r)) s = .next { s.settled with presented := some r })
    ∧ exec (.acceptance (.shows r)) s = .next { s.settled with presented := some r }
    ∧ exec (.acceptance .low) s = .next { s.settled with presented := none }

/-- A request whose tag is held is discarded with a PROTOCOL event (R157); a malformed one is answered DENIED with a
PROTOCOL event (R158). -/
def Obligations.DuplicateAndMalformedRequests : Prop :=
  ∀ (s : State) (r : Request), s.linkClosed = false →
    (s.tags[r.tag].state ≠ .free → exec (.acceptance (.edge r)) s = .next
      ({ s.settled with presented := none }.post .protocol
        { tag := some r.tag, stream := some r.stream, detail := some .dupTag }))
    ∧ (s.tags[r.tag].state = .free → 64 < r.addr.toNat % 64 + r.length →
        let t : State :=
          { s.settled with
            presented := none
            tags := s.tags.set r.tag { state := .answered, length := r.length, window := none }
            responses := s.responses ++ [{ tag := r.tag, status := .denied, data := [] }] }
        exec (.acceptance (.edge r)) s = .next
          (t.post .protocol { tag := some r.tag, stream := some r.stream, detail := some .malformed }))

/-- A request outside every enabled window is answered NOWIN, and a WRITE through a READ_ONLY window DENIED, each with a
REFUSED_ACCESS event (R111, R113 to R116); a permitted one for a bank in FAULT is answered FAULTED (R34). -/
def Obligations.RequestsAnsweredAtAcceptance : Prop :=
  (∀ (s : State) (r : Request), s.Takes r →
    ((∀ i : WindowId, s.windows[i].config.enabled = true → ¬ s.windows[i].config.holds r.addr.toNat) →
      let t : State :=
        { s.settled with
          presented := none
          tags := s.tags.set r.tag { state := .answered, length := r.length, window := none }
          responses := s.responses ++ [{ tag := r.tag, status := .nowin, data := [] }] }
      exec (.acceptance (.edge r)) s = .next (t.post .refusedAccess
        { tag := some r.tag, stream := some r.stream, detail := some (.status .nowin) }))
    ∧ ∀ i, s.DecodedThrough r i → s.windows[i].config.access = .readOnly → r.kind = .write →
        let t : State :=
          { s.accepted r i with
            tags := s.tags.set r.tag { state := .answered, length := r.length, window := some i }
            responses := s.responses ++ [{ tag := r.tag, status := .denied, data := [] }] }
        exec (.acceptance (.edge r)) s = .next (t.post .refusedAccess
            { bank := some s.windows[i].config.bank, tag := some r.tag, stream := some r.stream, window := some i,
              detail := some (.status .denied) }))
  ∧ ∀ (s : State) (r : Request) (i : WindowId), s.Takes r → s.DecodedThrough r i →
    (s.windows[i].config.access = .readWrite ∨ r.kind = .read) → (s.bank s.windows[i].config.bank).power = .fault →
    exec (.acceptance (.edge r)) s = .next
      { s.accepted r i with
        tags := s.tags.set r.tag { state := .answered, length := r.length, window := some i }
        responses := s.responses ++ [{ tag := r.tag, status := .faulted, data := [] }] }

/-- A permitted request for a bank in ON, or in FILLING with its segment VALID, with a free slot and no entry of its
stream parked, is forwarded: its slot is appended, the command is issued, the access counter and the idle timer follow,
and a crossing posts COUNT_REACHED (R35, R127, R135). -/
def Obligations.RequestForwardedAtOnce : Prop :=
  ∀ (s : State) (r : Request) (i : WindowId), s.Takes r → s.DecodedThrough r i →
    (s.windows[i].config.access = .readWrite ∨ r.kind = .read) → s.Unlinked →
    let x := s.figures r i
    let k := s.bank x.bank
    (k.power = .on ∨ (k.power = .filling ∧ k.marks[x.segment] = .valid)) → k.port.slots.length < 4 →
    (∀ e ∈ s.parked, e.req.stream ≠ r.stream) →
    let counter : BitVec 32 := if k.port.counter = 0xFFFFFFFF then 0xFFFFFFFF else k.port.counter + 1
    let crossed := k.port.counter ≠ 0xFFFFFFFF ∧ counter = k.config.threshold ∧ k.config.threshold ≠ 0
      ∧ k.port.reached = false
    let slot : Slot :=
      { holder := .request r.tag r.stream, kind := r.kind, addr := x.addr, segment := x.segment, length := r.length,
        forwardTime := s.clock.micros, expiryTime := s.clock.micros + s.global.respLimit.setWidth 32 }
    let t : State :=
      { (s.accepted r i).updBank x.bank (fun _ =>
          { k with
            port := { k.port with
              slots := k.port.slots ++ [slot], counter := counter, reached := k.port.reached || decide crossed }
            idleTimer :=
              if k.power = .on then
                match k.idleTimer with
                | .counting _ => .counting (k.config.idleLimit.toNat * 1000)
                | .held n => .held n
                | .stopped => .stopped
              else k.idleTimer }) with
        busOut := [{ bank := x.bank, addr := x.addr, kind := r.kind, length := r.length, data := x.wdata.getD [] }] }
    exec (.acceptance (.edge r)) s = .next
      (if crossed then t.post .countReached { bank := some x.bank, tag := some r.tag, stream := some r.stream } else t)

/-- A permitted request that is not forwarded is parked at the tail with its deadline, holds the counting idle timer of a bank
in ON (R59), and wakes a bank in OFF or RETAIN (R37, R29, R30, R5). The wake waits where its cost does not fit the budget, and
is granted at once where it does; and where the granted ramp completes at once into ON (R9, R80), the entry is released at
once, so that the request does what it does to a bank that has entered ON. -/
def Obligations.RequestParked : Prop :=
  ∀ (s : State) (r : Request) (i : WindowId), s.Takes r → s.DecodedThrough r i →
    (s.windows[i].config.access = .readWrite ∨ r.kind = .read) → s.parked.length < 24 →
    let x := s.figures r i
    let k := s.bank x.bank
    let entry : Entry :=
      { req := x, acceptTime := s.clock.micros
        deadline := if k.config.parkLimit = 0 then none
          else some { time := s.clock.micros + BitVec.ofNat 32 (k.config.parkLimit.toNat * 10)
                      left := k.config.parkLimit.toNat * 10 } }
    let t := (s.accepted r i).withQueue (s.parked ++ [entry])
    (k.power = .waiting ∨ k.power = .ramping ∨ (k.power = .draining ∧ k.drainKind ≠ .soft)
        ∨ ((k.power = .on ∨ k.power = .filling) ∧
            (4 ≤ k.port.slots.length ∨ ∃ e ∈ s.parked, e.req.stream = r.stream))
        ∨ (k.power = .filling ∧ k.marks[x.segment] = .lost) →
      exec (.acceptance (.edge r)) s = .next t)
    ∧ ((k.power = .off ∨ k.power = .retain) → k.config.present = true → s.Unlinked → s.waitList = [] →
        let cost := k.costAsleep
        (s.global.budget.toNat < s.unitsHeld + cost → exec (.acceptance (.edge r)) s = .next
          { t.updBank x.bank (fun _ => k.awaiting) with waitList := [x.bank] })
        ∧ (s.unitsHeld + cost ≤ s.global.budget.toNat → (k.config.stages.toNat ≠ 1 ∨ k.pgood = false) →
            exec (.acceptance (.edge r)) s = .next
              { t.updBank x.bank (fun _ => k.awaiting.ramping cost) with unitsHeld := s.unitsHeld + cost })
        ∧ (s.unitsHeld + cost ≤ s.global.budget.toNat → k.config.stages.toNat = 1 → k.pgood = true →
            (k.config.fillPolicy = .none ∨ ∀ g : Segment, k.marks[g] = .valid) → s.parked = [] →
            (∀ c n, (s.bank c).idleTimer ≠ .held n) → k.port.slots.length < 4 →
            let ready := (k.awaiting.ramping cost).ramped.readied
            exec (.acceptance (.edge r)) s = exec (.acceptance (.edge r)) (s.updBank x.bank fun _ => ready)
            ∧ ∃ u, exec (.acceptance (.edge r)) s = .next u ∧ (u.bank x.bank).power = .on ∧ u.parked = [] ∧ u.waitList = []
                ∧ (u.bank x.bank).port.slots.length = k.port.slots.length + 1 ∧ u.unitsHeld = s.unitsHeld))

/-- A request for a bank in a soft drain cancels the drain and then does what it does to a bank that has entered ON (R36,
R63); with nothing parked and a free slot it is forwarded. -/
def Obligations.RequestCancelsASoftDrain : Prop :=
  ∀ (s : State) (r : Request) (i : WindowId), s.Takes r → s.DecodedThrough r i →
    (s.windows[i].config.access = .readWrite ∨ r.kind = .read) → s.Unlinked → s.parked = [] →
    let b := s.windows[i].config.bank
    let k := s.bank b
    k.power = .draining → k.drainKind = .soft →
      exec (.acceptance (.edge r)) s = exec (.acceptance (.edge r)) (s.updBank b fun _ => k.readied)
      ∧ (k.port.slots.length < 4 → ∃ t, exec (.acceptance (.edge r)) s = .next t ∧ (t.bank b).power = .on
          ∧ (t.bank b).drainKind = .none ∧ (t.bank b).drainTarget = .none ∧ (t.bank b).idleTimer = k.readied.idleTimer
          ∧ (t.bank b).port.slots.length = k.port.slots.length + 1 ∧ t.parked = [] ∧ ∀ c, c ≠ b → t.bank c = s.bank c)

/-- The oldest response passes: it leaves the queue, its tag becomes FREE, and the held count of its window falls by 1
(R165); with the queue empty or the link closed nothing changes (R164). That the freed record keeps its length and window is
the model's reading (log 12). -/
def Obligations.ResponseTaken : Prop :=
  ∀ s : State,
    (s.linkClosed = true ∨ s.responses = [] → exec .responseTaken s = .next s.settled)
    ∧ ∀ x rest, s.linkClosed = false → s.responses = x :: rest →
        let freed := s.tags.set x.tag { s.tags[x.tag] with state := .free }
        (s.tags[x.tag].window = none →
          exec .responseTaken s = .next { s.settled with responses := rest, tags := freed })
        ∧ ∀ i, s.tags[x.tag].window = some i → exec .responseTaken s = .next
            { s.settled with
              responses := rest, tags := freed
              windows := s.windows.set i { s.windows[i] with held := s.windows[i].held - 1 } }

/-! ### Wakes -/

/-- STAGE_DWELL_EXPIRY (R8, R9): the next stage is output, and the dwell timer restarts below stage S; stage S with PGOOD
high completes the ramp into ON. That a timer that has not run out gives no event is the model's choice (log 1). -/
def Obligations.StageDwellExpiry : Prop :=
  ∀ (s : State) (b : BankId),
    let k := s.bank b
    let next : Bank :=
      { k with
        rampStage := k.rampStage + 1
        dwellTimer := if k.rampStage + 1 < k.config.stages.toNat then some k.config.dwell.toNat else none }
    (k.power ≠ .ramping ∨ k.dwellTimer ≠ some 0 → exec (.stageDwellExpiry b) s = .next s.settled)
    ∧ (k.power = .ramping → k.dwellTimer = some 0 →
        (k.rampStage + 1 ≠ k.config.stages.toNat ∨ k.pgood = false ∨ k.wakeTimer = none) →
        exec (.stageDwellExpiry b) s = .next (s.settled.updBank b fun _ => next))
    ∧ (k.power = .ramping → k.dwellTimer = some 0 → k.rampStage + 1 = k.config.stages.toNat → k.pgood = true →
        k.wakeTimer ≠ none → s.Quiet → (k.config.fillPolicy = .none ∨ ∀ g : Segment, k.marks[g] = .valid) →
        exec (.stageDwellExpiry b) s = .next
          { s.settled.updBank b fun _ => next.ramped.readied with unitsHeld := s.unitsHeld - k.charge })

/-- RAMP_COMPLETION, a rise of PGOOD (R2, R9, R10): in RAMPING with stage S output the ramp completes into ON, or into
FILLING at the tail of the fill queue; everywhere else only the level is recorded (log 4). Into ON, the release scan forwards
the entries parked for the bank in queue order while slots are free, and keeps an entry behind a kept one of its stream (R11,
R43 to R45). The units are released and a grant is tried before the bank enters ON or FILLING (R10, R80). Where the ramp of
the bank granted completes within that grant, the bank whose completion was taken first still stands ahead of it in the fill
queue (R96, R108; log 6). -/
def Obligations.RampCompletion : Prop :=
  ∀ (s : State) (b : BankId),
    let k := s.bank b
    let high : Bank := { k with pgood := true }
    let fills := k.config.fillPolicy = .zero ∧ ∃ g : Segment, k.marks[g] = .lost
    (k.power ≠ .ramping ∨ k.rampStage ≠ k.config.stages.toNat ∨ k.wakeTimer = none →
      exec (.rampCompletion b) s = .next (s.settled.updBank b fun _ => high))
    ∧ (k.power = .ramping → k.rampStage = k.config.stages.toNat → k.wakeTimer ≠ none → s.Quiet →
        (¬ fills → exec (.rampCompletion b) s = .next
          { s.settled.updBank b fun _ => high.ramped.readied with unitsHeld := s.unitsHeld - k.charge })
        ∧ (fills → s.fillQueue ≠ [] → exec (.rampCompletion b) s = .next
            { s.settled.updBank b fun _ => { high.ramped with power := .filling } with
              unitsHeld := s.unitsHeld - k.charge, fillQueue := s.fillQueue ++ [b] })
        ∧ (s.fillQueue = [] → k.config.fillPolicy = .zero → k.port.slots = [] → ∀ g : Segment,
            k.marks[g] = .lost → (∀ h : Segment, k.marks[h] = .lost → g.val ≤ h.val) →
            let start := g.val * 2 ^ (k.config.capacity.val + 15)
            let write := fun n : Nat => (BitVec.ofNat 28 (start + 64 * n) : BankAddr)
            let slot := fun n : Nat =>
              ({ holder := .fill, kind := .write, addr := write n, segment := g, length := 64,
                 forwardTime := s.clock.micros, expiryTime := s.clock.micros + s.global.respLimit.setWidth 32 } : Slot)
            let command := fun n : Nat =>
              ({ bank := b, addr := write n, kind := .write, length := 64, data := List.replicate 64 0 } : BusCommand)
            exec (.rampCompletion b) s = .next
              { s.settled.updBank b fun _ =>
                  { high.ramped with power := .filling, port := { k.port with slots := [slot 0, slot 1] } } with
                busOut := [command 0, command 1], unitsHeld := s.unitsHeld - k.charge, fillQueue := [b]
                fill := { current := some g, nextWrite := some (write 2), completed := 0, inFlight := 2
                          cutOff := false } }))
    ∧ (k.power = .ramping → k.rampStage = k.config.stages.toNat → k.wakeTimer ≠ none → s.Unlinked →
        (¬ fills → s.waitList = [] → s.OnlyReleases b →
          exec (.rampCompletion b) s = .next
            ({ s.settled.updBank b fun _ =>
                { high.ramped with
                  power := .on, drainKind := .none, drainTarget := .none
                  idleTimer :=
                    if k.config.idleLimit = 0 then .stopped
                    else if ∃ e ∈ s.parked, e.req.bank = b then .held (k.config.idleLimit.toNat * 1000)
                    else .counting (k.config.idleLimit.toNat * 1000) } with
                unitsHeld := s.unitsHeld - k.charge }.released b))
        ∧ (fills → s.fillQueue ≠ [] → s.parked = [] → ∀ c, s.waitList = [c] → c ≠ b →
            let m := s.bank c
            s.unitsHeld - k.charge + m.wakeCost ≤ s.global.budget.toNat → m.config.stages.toNat = 1 → m.pgood = true →
            m.config.fillPolicy = .zero → (∃ g : Segment, m.marks[g] = .lost) →
            exec (.rampCompletion b) s = .next
              { (s.settled.updBank b fun _ => { high.ramped with power := .filling }).updBank c fun _ =>
                  { (m.ramping m.wakeCost).ramped with power := .filling } with
                unitsHeld := s.unitsHeld - k.charge, waitList := [], fillQueue := s.fillQueue ++ [b, c] }))

/-- GRANT (R79, R80, R7): the head of the wake-wait list is granted when its cost fits, and enters RAMPING at stage 1;
with one stage and PGOOD high its ramp completes within the grant into ON or FILLING, and gives its units back (R9, R10);
where it does not fit, or the list is empty, nothing changes. That the command is taken on its own is the model's reading
(log 8), and the OFF cost of a head with wake kind NONE, which does not occur, its choice (log 20). -/
def Obligations.Grant : Prop :=
  ∀ s : State,
    ((∀ b, s.waitList.head? = some b → s.global.budget.toNat < s.unitsHeld + (s.bank b).wakeCost) →
      exec .grant s = .next s.settled)
    ∧ ∀ b rest, s.waitList = b :: rest →
        let k := s.bank b
        let cost := if k.wakeKind = .fromRetain then k.config.retainCost.toNat else k.config.offCost.toNat
        let fills := k.config.fillPolicy = .zero ∧ ∃ g : Segment, k.marks[g] = .lost
        s.unitsHeld + cost ≤ s.global.budget.toNat →
        ((k.config.stages.toNat ≠ 1 ∨ k.pgood = false) →
          (∀ c, rest.head? = some c → s.global.budget.toNat < s.unitsHeld + cost + (s.bank c).wakeCost) →
          exec .grant s = .next
            { s.settled.updBank b (fun _ => k.ramping cost) with
              waitList := rest, unitsHeld := s.unitsHeld + cost })
        ∧ (k.config.stages.toNat = 1 → k.pgood = true → b ∉ rest → s.Unlinked → s.parked = [] →
            (∀ c, rest.head? = some c → s.global.budget.toNat < s.unitsHeld + (s.bank c).wakeCost) →
            (¬ fills → exec .grant s = .next
              { s.settled.updBank b (fun _ => (k.ramping cost).ramped.readied) with waitList := rest })
            ∧ (fills → s.fillQueue ≠ [] → exec .grant s = .next
                { s.settled.updBank b (fun _ => { (k.ramping cost).ramped with power := .filling }) with
                  waitList := rest, fillQueue := s.fillQueue ++ [b] }))

/-- WAKE_LIMIT_EXPIRY (R13, R14, R81): with retries left the attempt is counted, WAKE_RETRY posted and the bank waits for
the next grant, which it waits for or gets; with none left it enters FAULT with WAKE_FAULT. That a timer that has not run
out gives no event is the model's choice (log 1), and so is the OFF cost of a retry with wake kind NONE, which does not occur
(log 20). -/
def Obligations.WakeLimitExpiry : Prop :=
  ∀ (s : State) (b : BankId),
    let k := s.bank b
    let kind : WakeKind := if k.wakeKind = .fromRetain then .fromOff else k.wakeKind
    let marks := if k.wakeKind = .fromRetain then Vector.replicate 32 .lost else k.marks
    let held := s.unitsHeld - k.charge
    (k.power ≠ .ramping ∨ k.wakeTimer ≠ some 0 → exec (.wakeLimitExpiry b) s = .next s.settled)
    ∧ (k.power = .ramping → k.wakeTimer = some 0 → s.Quiet →
        (k.attempts + 1 ≤ k.config.retries.toNat →
          (s.global.budget.toNat < held + k.config.offCost.toNat →
            exec (.wakeLimitExpiry b) s = .next
              ({ s.settled.updBank b (fun _ =>
                  { k with power := .waiting, rampStage := 0, dwellTimer := none, wakeTimer := none, charge := 0
                           attempts := k.attempts + 1, wakeKind := kind, marks := marks }) with
                  waitList := [b], unitsHeld := held }.post .wakeRetry
                { bank := some b, detail := some (.count (k.attempts + 1)) }))
          ∧ (held + k.config.offCost.toNat ≤ s.global.budget.toNat →
              (k.config.stages.toNat ≠ 1 ∨ k.pgood = false) →
              exec (.wakeLimitExpiry b) s = .next
                ({ s.settled.updBank b (fun _ =>
                    { k with
                      power := .ramping, rampStage := 1, charge := k.config.offCost.toNat
                      wakeTimer := some k.config.wakeLimit.toNat
                      dwellTimer := if 1 < k.config.stages.toNat then some k.config.dwell.toNat else none
                      attempts := k.attempts + 1, wakeKind := kind, marks := marks }) with
                    unitsHeld := held + k.config.offCost.toNat }.post .wakeRetry
                  { bank := some b, detail := some (.count (k.attempts + 1)) })))
        ∧ (k.config.retries.toNat < k.attempts + 1 → k.port.slots = [] → b ∉ s.fillQueue →
            exec (.wakeLimitExpiry b) s = .next
              ({ s.settled.updBank b (fun _ => { k with charge := 0, attempts := k.attempts + 1 }.failed) with
                  unitsHeld := held }.post .wakeFault
                { bank := some b, detail := some (.count (k.attempts + 1)) })))

/-! ### Faults of a bank -/

/-- RAIL_DROP, a fall of PGOOD (R2, R16, R18, R19): a bank in FILLING, ON or DRAINING enters FAULT, its requests in flight
are answered FAULTED oldest first, and RAIL_DROP carries their number; in every other state only the level is recorded (log
4). The bank that comes to the head of the fill queue has a segment fill begun (R107). An entry parked for the bank is
answered FAULTED too (R52). -/
def Obligations.RailDrop : Prop :=
  (∀ (s : State) (b : BankId),
    let k := s.bank b
    let low : Bank := { k with pgood := false }
    let tags := requestTags k.port.slots
    let up := k.power = .filling ∨ k.power = .on ∨ k.power = .draining
    (¬ up → exec (.railDrop b) s = .next (s.settled.updBank b fun _ => low))
    ∧ (up → s.Unlinked → s.parked = [] → tags.Nodup → (∀ g ∈ tags, s.tags[g].state = .pending) →
        (s.fillQueue.head? ≠ some b → exec (.railDrop b) s = .next
          (({ s.settled.updBank b fun _ => low.failed with
              fillQueue := s.fillQueue.filter fun c => c ≠ b }.answered .faulted tags).post .railDrop
            { bank := some b, detail := some (.count tags.length) }))
        ∧ (s.fillQueue = [b] → exec (.railDrop b) s = .next
            (({ s.settled.updBank b fun _ => low.failed with
                fillQueue := []
                fill := { current := none, nextWrite := none, completed := 0, inFlight := 0, cutOff := false } }.answered
                  .faulted tags).post .railDrop { bank := some b, detail := some (.count tags.length) }))
        ∧ ∀ c more g, s.NextHead b c more g → exec (.railDrop b) s = .next
            ((({ s.settled.updBank b fun _ => low.failed with fillQueue := c :: more }.answered
                .faulted tags).fillBegun c g).post .railDrop { bank := some b, detail := some (.count tags.length) })))
  ∧ ∀ (s : State) (b : BankId) (e : Entry), s.Unlinked → s.parked = [e] → e.req.bank = b → (s.bank b).power = .on →
    (s.bank b).port.slots = [] → b ∉ s.fillQueue → s.tags[e.req.tag].state = .pending →
    ∃ t, exec (.railDrop b) s = .next t ∧ (t.bank b).power = .fault ∧ t.parked = []
      ∧ t.responses = s.responses ++ [{ tag := e.req.tag, status := .faulted, data := [] }]
      ∧ t.tags = s.tags.set e.req.tag { s.tags[e.req.tag] with state := .answered }

/-- RESPONSE_TIMEOUT (R17 to R19, R133): the bank enters FAULT; the timed-out request is answered BANKERR and the other
requests in flight FAULTED; BANK_TIMEOUT carries the timed-out request's tag and stream, if it is a request; and the bank
that comes to the head of the fill queue has a segment fill begun (R107). That a limit that has not run out gives no event is
the model's choice (log 1), and the comparison of times modulo 2 to the 32 its reading (log 26). -/
def Obligations.ResponseTimeout : Prop :=
  ∀ (s : State) (b : BankId),
    let k := s.bank b
    let up := k.power = .filling ∨ k.power = .on ∨ k.power = .draining
    ((¬ up ∨ k.port.slots = [] ∨ ∃ x rest, k.port.slots = x :: rest ∧
        (s.clock.micros - x.forwardTime).toNat < (x.expiryTime - x.forwardTime).toNat) →
      exec (.responseTimeout b) s = .next s.settled)
    ∧ ∀ x rest, k.port.slots = x :: rest →
        (x.expiryTime - x.forwardTime).toNat ≤ (s.clock.micros - x.forwardTime).toNat → up → s.Unlinked →
        s.parked = [] → (requestTags k.port.slots).Nodup → (∀ g ∈ requestTags k.port.slots, s.tags[g].state = .pending) →
        let failed : State :=
          { s.settled.updBank b fun _ => k.failed with fillQueue := s.fillQueue.filter fun c => c ≠ b }
        let count := (requestTags k.port.slots).length
        let faults := fun begun : State → State =>
          (∀ g st, x.holder = .request g st → exec (.responseTimeout b) s = .next
            ((begun ((failed.answered .bankerr [g]).answered .faulted (requestTags rest))).post .bankTimeout
              { bank := some b, tag := some g, stream := some st, detail := some (.count count) }))
          ∧ ((∀ g st, x.holder ≠ .request g st) → exec (.responseTimeout b) s = .next
              ((begun (failed.answered .faulted (requestTags rest))).post .bankTimeout
                { bank := some b, detail := some (.count count) }))
        (s.fillQueue.head? ≠ some b → faults id)
        ∧ (s.fillQueue = [b] → faults fun u =>
            { u with fill := { current := none, nextWrite := none, completed := 0, inFlight := 0, cutOff := false } })
        ∧ ∀ c more g, s.NextHead b c more g → faults fun u => u.fillBegun c g

/-! ### Completions, fills and drains -/

/-- A completion that finds the port ignoring or empty is ignored (R131). One that completes a request of a bank whose rail is
up frees the slot and answers it: OKAY or STALE with the read data by the mark of the segment, OKAY for a WRITE, BANKERR with
a BANK_ERROR event for an ERROR; an orphan's is discarded (R92, R130). In ON with entries parked for the bank, the release
scan then forwards them in queue order while slots are free, and keeps an entry behind a kept one of its stream (R43 to R45,
R132). -/
def Obligations.CompletionOfARequest : Prop :=
  ∀ (s : State) (b : BankId) (result : BankResult) (data : Vector Byte 64),
    let k := s.bank b
    (k.port.ignoring = true ∨ k.port.slots = [] → exec (.completion b result data) s = .next s.settled)
    ∧ ∀ x rest, k.port.ignoring = false → k.port.slots = x :: rest →
        (k.power = .on ∨ k.power = .filling ∨ (k.power = .draining ∧ rest ≠ [])) → s.fillQueue.head? ≠ some b →
        (∀ y, rest.head? = some y → (s.clock.micros - y.forwardTime).toNat < (y.expiryTime - y.forwardTime).toNat) →
        let freed : State :=
          (s.settled.updBank b fun _ => { k with port := { k.port with slots := rest } })
        let releases := s.parked = [] ∨
          (k.power = .on ∧ s.OnlyReleases b ∧ (∃ e ∈ s.parked, e.req.bank = b) ∧ (∀ n, k.idleTimer ≠ .counting n)
            ∧ s.global.respLimit ≠ 0)
        let scanned := fun t : State => if s.parked = [] then t else t.released b
        releases →
        (∀ g st, x.holder = .request g st → s.tags[g].state = .pending →
          let answered := fun (status : Status) (read : List Byte) =>
            { freed with
              tags := s.tags.set g { s.tags[g] with state := .answered }
              responses := s.responses ++ [{ tag := g, status := status, data := read }] }
          (result = .ok → x.kind = .read → k.marks[x.segment] = .valid →
            exec (.completion b result data) s = .next (scanned (answered .okay (data.toList.take x.length))))
          ∧ (result = .ok → x.kind = .read → k.marks[x.segment] = .lost →
              exec (.completion b result data) s = .next (scanned (answered .stale (data.toList.take x.length))))
          ∧ (result = .ok → x.kind = .write → exec (.completion b result data) s = .next (scanned (answered .okay [])))
          ∧ (result = .error → exec (.completion b result data) s = .next
              (scanned ((answered .bankerr []).post .bankError { bank := some b, tag := some g, stream := some st }))))
        ∧ (∀ g st, x.holder = .orphan g st → exec (.completion b result data) s = .next (scanned freed))
        ∧ (x.holder = .fill → exec (.completion b result data) s = .next (scanned freed))

/-- Completions of fill writes of the head bank (R101 to R104). An OK is counted; one that is not the last of its segment
lets the engine issue what it may. The last one marks its segment VALID, and the engine begins the next segment fill, of the
segment that the oldest entry with the reason SEGMENT asks for, or else of the lowest LOST one (R98); where the bank has no
LOST segment left its fill ends with FILL_DONE and ON. After a cut-off the engine moves on at the last write in flight, and
marks nothing. An ERROR ends the fill with FILL_ERROR and ON; the model keeps which segment failed uncut for the next step
(log 30). Where a fill ends, the next head's segment fill is begun. -/
def Obligations.CompletionOfAFillWrite : Prop :=
  ∀ (s : State) (b : BankId) (data : Vector Byte 64) (x : Slot) (rest : List Slot) (g : Segment),
    let k := s.bank b
    let idle : FillProgress := { current := none, nextWrite := none, completed := 0, inFlight := 0, cutOff := false }
    let freed : Bank := { k with port := { k.port with slots := rest } }
    let marked : Bank := { freed with marks := Vector.ofFn fun h => if h = g then .valid else k.marks[h] }
    let noFill := ∀ y ∈ rest, y.holder ≠ .fill
    let done := s.fill.completed + 1
    let last := done = 2 ^ (k.config.capacity.val + 15) / 64
    let counted : FillProgress := { s.fill with completed := done, inFlight := s.fill.inFlight - 1 }
    let fillOver := fun (u : Bank) (queue : List BankId) =>
      { s.settled.updBank b fun _ => u.readied with fillQueue := queue, fill := idle }
    s.FillCompletes b x rest g → s.Unlinked →
    (s.fill.cutOff = false → ¬ last → s.parked = [] → exec (.completion b .ok data) s = .next
      ({ s.settled.updBank b fun _ => freed with fill := counted }.issueFills))
    ∧ (s.fill.cutOff = false → last →
        ((∀ h : Segment, h ≠ g → k.marks[h] = .valid) → s.parked = [] →
          (s.fillQueue = [b] → exec (.completion b .ok data) s = .next
            ((fillOver marked []).post .fillDone { bank := some b }))
          ∧ ∀ c more h, s.NextHead b c more h → exec (.completion b .ok data) s = .next
              (((fillOver marked (c :: more)).post .fillDone { bank := some b }).fillBegun c h))
        ∧ (noFill → s.parked = [] → ∀ h, marked.LowestLost h → exec (.completion b .ok data) s = .next
            ((s.settled.updBank b fun _ => marked).fillBegun b h))
        ∧ (noFill → ∀ e later, s.parked = e :: later →
            (∀ y ∈ s.parked, y.req.bank = b ∧ marked.marks[y.req.segment] = .lost) →
            exec (.completion b .ok data) s = .next
              ((s.settled.updBank b fun _ => marked).fillBegun b e.req.segment)))
    ∧ (s.fill.cutOff = true → s.fill.nextWrite = none → s.parked = [] →
        (s.fill.inFlight ≠ 1 → exec (.completion b .ok data) s = .next
          { s.settled.updBank b fun _ => freed with fill := counted })
        ∧ (s.fill.inFlight = 1 → noFill → ∀ h, k.LowestLost h → exec (.completion b .ok data) s = .next
            ((s.settled.updBank b fun _ => freed).fillBegun b h))
        ∧ (s.fill.inFlight = 1 → (∀ h : Segment, k.marks[h] = .valid) → s.fillQueue = [b] →
            exec (.completion b .ok data) s = .next ((fillOver freed []).post .fillDone { bank := some b })))
    ∧ (s.parked = [] →
        let failed := fun queue : List BankId =>
          { fillOver freed queue with fillError := if s.fill.cutOff then none else some (b, g) }.post .fillError
            { bank := some b, detail := some (.segment g) }
        (s.fillQueue = [b] → exec (.completion b .error data) s = .next (failed []))
        ∧ ∀ c more h, s.NextHead b c more h → exec (.completion b .error data) s = .next
            ((failed (c :: more)).fillBegun c h))

/-- FILL_WRITE_ISSUE (R99, R128): where its three conditions hold the next 64 zero bytes go to the head bank's port, and
otherwise nothing changes. That the command is taken on its own is the model's reading (log 8). -/
def Obligations.FillWriteIssue : Prop :=
  ∀ s : State,
    (∀ b g a, s.fillQueue.head? = some b → s.fill.current = some g → s.fill.nextWrite = some a →
      let k := s.bank b
      let slot : Slot :=
        { holder := .fill, kind := .write, addr := a, segment := g, length := 64, forwardTime := s.clock.micros,
          expiryTime := s.clock.micros + s.global.respLimit.setWidth 32 }
      let fills := k.port.slots.countP fun x => x.holder = .fill
      (fills < 2 → k.port.slots.length < 4 → exec .fillWriteIssue s = .next
        { s.settled.updBank b fun _ => { k with port := { k.port with slots := k.port.slots ++ [slot] } } with
          busOut := [{ bank := b, addr := a, kind := .write, length := 64, data := List.replicate 64 0 }]
          fill := { s.fill with
            nextWrite := if (a.toNat + 64) % 2 ^ (k.config.capacity.val + 15) = 0 then none else some (a + 64)
            inFlight := s.fill.inFlight + 1 } })
      ∧ (2 ≤ fills ∨ 4 ≤ k.port.slots.length → exec .fillWriteIssue s = .next s.settled))
    ∧ (s.fillQueue = [] ∨ s.fill.current = none ∨ s.fill.nextWrite = none →
        exec .fillWriteIssue s = .next s.settled)

/-- DRAIN_COMPLETION (R66, R67, R68): a draining bank with no slot busy lowers its rail to the drain target; with an entry
parked for it, it passes on to WAITING, which here waits for its grant. The COMPLETION that frees the last slot of a
draining bank completes the drain, after the answer. A drain target of NONE, which does not occur, is treated as RETAIN
(log 20), and DRAIN_COMPLETION with a slot busy is no event (log 1). -/
def Obligations.DrainCompletion : Prop :=
  (∀ (s : State) (b : BankId),
    let k := s.bank b
    (k.power ≠ .draining ∨ k.port.slots ≠ [] → exec (.drainCompletion b) s = .next s.settled)
    ∧ (k.power = .draining → k.port.slots = [] → s.Unlinked →
        ((∀ e ∈ s.parked, e.req.bank ≠ b) →
          exec (.drainCompletion b) s = .next (s.settled.updBank b fun _ => k.rested))
        ∧ ((∃ e ∈ s.parked, e.req.bank = b) → k.config.present = true → s.waitList = [] →
            s.global.budget.toNat <
              s.unitsHeld + (if k.drainTarget = .off then k.config.offCost else k.config.retainCost).toNat →
            exec (.drainCompletion b) s = .next
              { s.settled.updBank b fun _ =>
                  { k.rested with
                    power := .waiting, attempts := 0, retainTimer := none
                    wakeKind := if k.drainTarget = .off then .fromOff else .fromRetain } with
                waitList := [b] })))
  ∧ ∀ (s : State) (b : BankId) (data : Vector Byte 64) (x : Slot) (g : Tag) (st : Stream),
    let k := s.bank b
    k.port.ignoring = false → k.port.slots = [x] → x.holder = .request g st → x.kind = .write → k.power = .draining →
    s.Unlinked → s.parked = [] → s.fillQueue.head? ≠ some b → s.tags[g].state = .pending →
    exec (.completion b .ok data) s = .next
      { s.settled.updBank b fun _ => { k with port := { k.port with slots := [] } }.rested with
        tags := s.tags.set g { s.tags[g] with state := .answered }
        responses := s.responses ++ [{ tag := g, status := .okay, data := [] }] }

/-! ### Expiries -/

/-- PARK_EXPIRY (R47, R50): the entry whose deadline has run out is answered EXPIRED, the later entries of its stream after
it, and one PARK_EXPIRED event carries the cascade count; the held idle timer of a bank in ON counts from its full limit once
no entry is parked for the bank (R59). Here no entry that stays is released. That a timer that has not run out gives no event
is the model's choice (log 1). -/
def Obligations.ParkExpiry : Prop :=
  ∀ (s : State) (g : Tag),
    ((∀ e ∈ s.parked, e.req.tag = g → ∀ d, e.deadline = some d → d.left ≠ 0) →
      exec (.parkExpiry g) s = .next s.settled)
    ∧ ∀ (before after : List Entry) (e : Entry) (d : Deadline), s.parked = before ++ e :: after → e.req.tag = g →
        e.deadline = some d → d.left = 0 → (∀ x ∈ before, x.req.tag ≠ g) → s.Unlinked →
        let cascade := after.filter fun x : Entry => x.req.stream = e.req.stream
        let left := before ++ after.filter fun x : Entry => x.req.stream ≠ e.req.stream
        let gone := g :: cascade.map fun x => x.req.tag
        (∀ x ∈ left, (s.bank x.req.bank).power = .waiting ∨ (s.bank x.req.bank).power = .ramping
          ∨ 4 ≤ (s.bank x.req.bank).port.slots.length) →
        gone.Nodup → (∀ h ∈ gone, s.tags[h].state = .pending) →
        exec (.parkExpiry g) s = .next
          (((s.settled.withQueue left).answered .expired gone).post .parkExpired
            { bank := some e.req.bank, tag := some g, stream := some e.req.stream, window := some e.req.window,
              detail := some (.count cascade.length) })

/-- IDLE_EXPIRY (R61): a soft drain to the idle target begins, and completes at once where nothing is in flight.
RETAIN_EXPIRY (R22): the bank enters OFF with its marks LOST, and RETAIN_EXPIRED is posted. A timer that has not run out
gives no event (log 1). -/
def Obligations.IdleAndRetainExpiry : Prop :=
  (∀ (s : State) (b : BankId),
    let k := s.bank b
    let drained : Bank :=
      { k with
        power := .draining, drainKind := .soft, idleTimer := .stopped
        drainTarget := if k.config.idleTarget = .off then .off else .retain }
    (k.power ≠ .on ∨ k.idleTimer ≠ .counting 0 → exec (.idleExpiry b) s = .next s.settled)
    ∧ (k.power = .on → k.idleTimer = .counting 0 → s.Unlinked →
        (k.port.slots ≠ [] → exec (.idleExpiry b) s = .next (s.settled.updBank b fun _ => drained))
        ∧ (k.port.slots = [] → (∀ e ∈ s.parked, e.req.bank ≠ b) →
            exec (.idleExpiry b) s = .next (s.settled.updBank b fun _ => drained.rested))))
  ∧ ∀ (s : State) (b : BankId),
    let k := s.bank b
    (k.power ≠ .retain ∨ k.retainTimer ≠ some 0 → exec (.retainExpiry b) s = .next s.settled)
    ∧ (k.power = .retain → k.retainTimer = some 0 → exec (.retainExpiry b) s = .next
        ((s.settled.updBank b fun _ => { k with power := .off, retainTimer := none, marks := Vector.replicate 32 .lost }).post
          .retainExpired { bank := some b }))

/-! ### Frames and links -/

/-- Whatever links fire and whatever banks move with it, an event of a bank, of the arbiter or of a timer leaves the
configuration, the windows, the fields of the links, the channel inputs, the timebase, the management frame and the
commands that wait as they were, and fires each link at most once: its fire count stays or rises by one, and a count of 65535
stays (R142, R143). The action commands of R194 leave all of these but the frame, and fire each link at most once too. -/
def Obligations.EventsKeepTheSettings : Prop :=
  (∀ (s t : State) (b : BankId) (g : Tag) (result : BankResult) (data : Vector Byte 64) (c : Instr),
    c ∈ [Instr.stageDwellExpiry b, .rampCompletion b, .grant, .wakeLimitExpiry b, .railDrop b, .responseTimeout b,
      .completion b result data, .fillWriteIssue, .drainCompletion b, .parkExpiry g, .idleExpiry b, .retainExpiry b] →
    exec c s = .next t → SettingsKept s t ∧ t.frame = s.frame
      ∧ ∀ l : LinkId, t.links[l].fireCount = s.links[l].fireCount ∨ t.links[l].fireCount = s.links[l].fireCountRaised)
  ∧ ∀ (s t : State) (index first count value target : Byte) (c : Instr),
      c ∈ [Instr.wakeBank index, .sleepBank index target, .flushBank index, .clearFault index,
        .markSegments index first count value, .clearCount index] →
      exec c s = .next t → SettingsKept s t
        ∧ ∀ l : LinkId, t.links[l].fireCount = s.links[l].fireCount ∨ t.links[l].fireCount = s.links[l].fireCountRaised

/-- Links fire when their trigger is offered. A NOTE link posts LINK_NOTE behind the records of the event, and its fire count
rises (R142, R147): at WAKE_BEGUN of a wake by WAKE BANK or a request (R5), at READY of a bank that enters ON from RAMPING or
FILLING, not at an entry into FILLING (R10, R11), at DRAIN_BEGUN of a soft or a hard drain (R61, R64), at ASLEEP of a drain
completion (R66, R67), at FAULTED of each entry into FAULT (R18), and at COUNT of a crossing (R135). Of several links the
triggers are served in the order offered, and the links of one trigger in ascending order, each firing once: here NOTE links
watch DRAIN_BEGUN and ASLEEP of a bank whose drain completes at once (R142, R143). A PREWAKE, HOLD, SLEEP_RETAIN or SLEEP_OFF
link acts on its target by the target's state, its fire count rises even where the state leaves nothing to change, and the
move that it makes offers no trigger itself (R142, R144 to R146, R148). -/
def Obligations.NoteLinkFires : Prop :=
  (∀ (s : State) (b : BankId) (l : LinkId),
    let k := s.bank b
    let fills := k.config.fillPolicy = .zero ∧ ∃ g : Segment, k.marks[g] = .lost
    let idle : FillProgress := { current := none, nextWrite := none, completed := 0, inFlight := 0, cutOff := false }
    let drained := fun (kind : DrainKind) (target : DrainTarget) =>
      ({ k with power := .draining, drainKind := kind, idleTimer := .stopped, drainTarget := target } : Bank)
    (s.NoteWatches b l .wakeBegun → k.config.present = true → (k.power = .off ∨ k.power = .retain) → s.waitList = [] →
      s.global.budget.toNat < s.unitsHeld + k.costAsleep →
      (s.frameHeld = false → exec (.wakeBank (byteOf b.val)) s = .next
        (({ s.updBank b fun _ => k.awaiting with waitList := [b] }.noted b l .wakeBegun).replied
          [0x13, byteOf b.val] [0x00]))
      ∧ ∀ r i, s.Takes r → s.DecodedThrough r i → s.windows[i].config.bank = b →
          (s.windows[i].config.access = .readWrite ∨ r.kind = .read) → s.parked.length < 24 → k.config.parkLimit = 0 →
          let entry : Entry := { req := s.figures r i, acceptTime := s.clock.micros, deadline := none }
          exec (.acceptance (.edge r)) s = .next
            ({ ((s.accepted r i).withQueue (s.parked ++ [entry])).updBank b (fun _ => k.awaiting) with
              waitList := [b] }.noted b l .wakeBegun))
    ∧ (s.NoteWatches b l .ready → s.waitList = [] → s.parked = [] →
        (k.power = .ramping → k.rampStage = k.config.stages.toNat → k.wakeTimer ≠ none →
          (¬ fills → exec (.rampCompletion b) s = .next
            ({ s.settled.updBank b fun _ => { k with pgood := true }.ramped.readied with
              unitsHeld := s.unitsHeld - k.charge }.noted b l .ready))
          ∧ (fills → s.fillQueue ≠ [] → exec (.rampCompletion b) s = .next
              { s.settled.updBank b fun _ => { { k with pgood := true }.ramped with power := .filling } with
                unitsHeld := s.unitsHeld - k.charge, fillQueue := s.fillQueue ++ [b] }))
        ∧ (k.power = .ramping → k.dwellTimer = some 0 → k.rampStage + 1 = k.config.stages.toNat → k.pgood = true →
            k.wakeTimer ≠ none → ¬ fills → exec (.stageDwellExpiry b) s = .next
              ({ s.settled.updBank b fun _ => { k with rampStage := k.rampStage + 1 }.ramped.readied with
                unitsHeld := s.unitsHeld - k.charge }.noted b l .ready))
        ∧ ∀ (x : Slot) (rest : List Slot) (g : Segment) (data : Vector Byte 64), s.FillCompletes b x rest g →
            s.fillQueue = [b] →
            let freed : Bank := { k with port := { k.port with slots := rest } }
            exec (.completion b .error data) s = .next
              (({ s.settled.updBank b fun _ => freed.readied with
                  fillQueue := [], fill := idle
                  fillError := if s.fill.cutOff then none else some (b, g) }.post .fillError
                { bank := some b, detail := some (.segment g) }).noted b l .ready))
    ∧ (s.NoteWatches b l .drainBegun → k.power = .on →
        (k.idleTimer = .counting 0 → k.port.slots ≠ [] → exec (.idleExpiry b) s = .next
          ((s.settled.updBank b fun _ => drained .soft k.config.idleTarget.drain).noted b l .drainBegun))
        ∧ ∀ target : Byte, s.frameHeld = false → k.config.present = true → target.toNat ≤ 1 → k.port.slots ≠ [] →
            s.fillQueue.head? ≠ some b → exec (.sleepBank (byteOf b.val) target) s = .next
              (({ s.updBank b fun _ => drained .hard (if target = 1 then .off else .retain) with
                fillQueue := s.fillQueue.filter fun c => c ≠ b }.noted b l .drainBegun).replied
                  [0x14, byteOf b.val, target] [0x00]))
    ∧ (s.NoteWatches b l .asleep → k.power = .draining →
        (k.port.slots = [] → (∀ e ∈ s.parked, e.req.bank ≠ b) → exec (.drainCompletion b) s = .next
          ((s.settled.updBank b fun _ => k.rested).noted b l .asleep))
        ∧ ∀ (result : BankResult) (data : Vector Byte 64) (x : Slot) (g : Tag) (st : Stream), k.port.ignoring = false →
            k.port.slots = [x] → x.holder = .orphan g st → s.parked = [] → s.fillQueue.head? ≠ some b →
            exec (.completion b result data) s = .next
              ((s.settled.updBank b fun _ => { k with port := { k.port with slots := [] } }.rested).noted
                b l .asleep))
    ∧ (s.NoteWatches b l .faulted → s.parked = [] → b ∉ s.fillQueue →
        (k.power = .on ∨ k.power = .draining → requestTags k.port.slots = [] →
          exec (.railDrop b) s = .next
            (((s.settled.updBank b fun _ => { k with pgood := false }.failed).post .railDrop
              { bank := some b, detail := some (.count 0) }).noted b l .faulted)
          ∧ ∀ x rest, k.port.slots = x :: rest →
              (x.expiryTime - x.forwardTime).toNat ≤ (s.clock.micros - x.forwardTime).toNat →
              exec (.responseTimeout b) s = .next
                (((s.settled.updBank b fun _ => k.failed).post .bankTimeout
                  { bank := some b, detail := some (.count 0) }).noted b l .faulted))
        ∧ (k.power = .ramping → k.wakeTimer = some 0 → s.waitList = [] → k.config.retries.toNat < k.attempts + 1 →
            k.port.slots = [] → exec (.wakeLimitExpiry b) s = .next
              (({ s.settled.updBank b fun _ => { k with charge := 0, attempts := k.attempts + 1 }.failed with
                unitsHeld := s.unitsHeld - k.charge }.post .wakeFault
                  { bank := some b, detail := some (.count (k.attempts + 1)) }).noted b l .faulted)))
    ∧ (s.NoteWatches b l .count → ∀ r i, s.Takes r → s.DecodedThrough r i → s.windows[i].config.bank = b →
        (s.windows[i].config.access = .readWrite ∨ r.kind = .read) → k.power = .on → k.port.slots = [] →
        k.idleTimer = .stopped → s.parked = [] → k.port.reached = false → k.port.counter ≠ 0xFFFFFFFF →
        k.port.counter + 1 = k.config.threshold → k.config.threshold ≠ 0 →
        let x := s.figures r i
        let slot : Slot :=
          { holder := .request r.tag r.stream, kind := r.kind, addr := x.addr, segment := x.segment, length := r.length,
            forwardTime := s.clock.micros, expiryTime := s.clock.micros + s.global.respLimit.setWidth 32 }
        exec (.acceptance (.edge r)) s = .next
          (({ (s.accepted r i).updBank b (fun _ =>
                { k with port := { k.port with slots := [slot], counter := k.port.counter + 1, reached := true } }) with
              busOut := [{ bank := b, addr := x.addr, kind := r.kind, length := r.length, data := x.wdata.getD [] }] }.post
            .countReached { bank := some b, tag := some r.tag, stream := some r.stream }).noted b l .count)))
  ∧ (∀ (s : State) (b : BankId),
    let k := s.bank b
    let drained : Bank :=
      { k with power := .draining, drainKind := .soft, idleTimer := .stopped, drainTarget := k.config.idleTarget.drain }
    let watching := fun x : Trigger => (List.finRange 8).filter fun l : LinkId =>
      s.links[l].config.enabled = true ∧ s.links[l].config.trigger = x
    let notes := fun (u : State) (x : Trigger) => (watching x).foldl (fun (v : State) (l : LinkId) =>
      v.post .linkNote { bank := some b, link := some l, detail := some (.trigger x) }) u
    (∀ l : LinkId, s.links[l].config.enabled = true →
      s.links[l].config.source = b ∧ s.links[l].config.action = .note) →
    k.power = .on → k.idleTimer = .counting 0 → k.port.slots = [] → (∀ e ∈ s.parked, e.req.bank ≠ b) →
    exec (.idleExpiry b) s = .next
      (notes (notes ((s.settled.updBank b fun _ => drained.rested).linksFired
        (watching .drainBegun ++ watching .asleep)) .drainBegun) .asleep))
  ∧ ∀ (s : State) (b : BankId) (l : LinkId), s.OneLinkWatches b l →
    let k := s.bank b
    let act := s.links[l].config.action
    let c := s.links[l].config.target
    let m := s.bank c
    let fired : State :=
      (s.settled.updBank b fun _ =>
        { k with power := .draining, drainKind := .soft, idleTimer := .stopped
                 drainTarget := k.config.idleTarget.drain }).linksFired [l]
    let after := fun t : State => exec (.idleExpiry b) s = .next t
    let sleeps := act = .sleepRetain ∨ act = .sleepOff
    let target : DrainTarget := if act = .sleepOff then .off else .retain
    (c = b → act = .prewake ∨ act = .hold → s.parked = [] → after (fired.updBank b fun _ => k.readied))
    ∧ (c = b → sleeps → after (fired.updBank b fun _ =>
        { k with power := .draining, drainKind := .hard, idleTimer := .stopped, drainTarget := target }))
    ∧ (c ≠ b →
        (act = .prewake → m.power = .off ∨ m.power = .retain → m.config.present = true → s.waitList = [] →
          (s.global.budget.toNat < s.unitsHeld + m.costAsleep →
            after { fired.updBank c fun _ => m.awaiting with waitList := [c] })
          ∧ (s.unitsHeld + m.costAsleep ≤ s.global.budget.toNat → (m.config.stages.toNat ≠ 1 ∨ m.pgood = false) →
              after { fired.updBank c fun _ => m.awaiting.ramping m.costAsleep with
                unitsHeld := s.unitsHeld + m.costAsleep }))
        ∧ (act = .prewake ∨ act = .hold → m.power = .draining → m.drainKind = .soft → s.parked = [] →
            after (fired.updBank c fun _ => m.readied))
        ∧ (act = .prewake → (m.power = .waiting ∨ m.power = .ramping ∨ m.power = .filling ∨ m.power = .on
              ∨ (m.power = .draining ∧ m.drainKind ≠ .soft) ∨ m.power = .fault) → after fired)
        ∧ (act = .hold → m.power = .on → after (fired.updBank c fun _ =>
            { m with idleTimer :=
                match m.idleTimer with
                | .counting _ => .counting (m.config.idleLimit.toNat * 1000)
                | .held n => .held n
                | .stopped => .stopped }))
        ∧ (act = .hold → (m.power = .off ∨ m.power = .retain ∨ m.power = .waiting ∨ m.power = .ramping ∨ m.power = .filling
              ∨ (m.power = .draining ∧ m.drainKind ≠ .soft) ∨ m.power = .fault) → after fired)
        ∧ (sleeps → (m.power = .off ∨ m.power = .waiting ∨ m.power = .ramping ∨ m.power = .fault) → after fired)
        ∧ (sleeps → m.power = .draining →
            after (fired.updBank c fun _ => { m with drainKind := .hard, drainTarget := target }))
        ∧ (act = .sleepRetain → m.power = .retain → after fired)
        ∧ (act = .sleepOff → m.power = .retain → after (fired.updBank c fun _ =>
            { m with power := .off, retainTimer := none, marks := Vector.replicate 32 .lost }))
        ∧ (sleeps → m.power = .on ∨ m.power = .filling → s.fillQueue.head? ≠ some c →
            let drained : Bank :=
              { m with power := .draining, drainKind := .hard, idleTimer := .stopped, drainTarget := target }
            (m.port.slots ≠ [] → after { fired.updBank c fun _ => drained with
              fillQueue := s.fillQueue.filter fun d => d ≠ c })
            ∧ (m.port.slots = [] → (∀ e ∈ s.parked, e.req.bank ≠ c) → after { fired.updBank c fun _ => drained.rested with
              fillQueue := s.fillQueue.filter fun d => d ≠ c })))

/-! ### What every step keeps -/

/-- The wake-wait list stays exactly the banks in WAITING, and the fill queue exactly the banks in FILLING, each once
(R78, R96). -/
def Obligations.StepsKeepTheQueues : Prop :=
  ∀ s t : State, s.QueuesHold → step s = .next t → t.QueuesHold

/-- The units held stay the sum of the charges and within the budget, and only ramping banks hold units (R75, R77). -/
def Obligations.StepsKeepTheUnits : Prop :=
  ∀ s t : State, s.QueuesHold → s.UnitsHold → step s = .next t → t.UnitsHold

/-- Banks in OFF and FAULT stay all LOST (R91), and absent banks stay in OFF (R3). Ports stay empty outside FILLING, ON and
DRAINING, and ignore completions exactly in FAULT (R125, R129, R137). Drain kind, drain target and wake kind stay NONE
outside their states (section 1.1). -/
def Obligations.StepsKeepTheBanks : Prop :=
  ∀ s t : State, s.QueuesHold → step s = .next t →
    (s.MarksHold → t.MarksHold) ∧ (s.AbsentOff → t.AbsentOff) ∧ (s.PortsHold → t.PortsHold)
    ∧ (s.KindsHold → t.KindsHold)

/-- The parking queue, the event queue and the ports keep their bounds (R28, R171, R129); and while RESET_N is low the link
stays closed and the management port takes no frame (R153, R170, R186). -/
def Obligations.StepsKeepTheBounds : Prop :=
  ∀ s t : State, s.QueuesHold → step s = .next t →
    (s.QueueBounded → t.QueueBounded) ∧ (s.EventsBounded → t.EventsBounded) ∧ (s.PortsBounded → t.PortsBounded)
    ∧ (s.ResetCloses → t.ResetCloses)

/-- Enabled windows stay aligned, apart and within present banks (R111, R122), and enabled links name present banks
(R150). -/
def Obligations.StepsKeepTheTables : Prop :=
  ∀ s t : State, s.QueuesHold → step s = .next t →
    (s.WindowsSound → t.WindowsSound) ∧ (s.LinksSound → t.LinksSound)

/-- A bank that an entry is parked for stays in WAITING, RAMPING, FILLING, ON or DRAINING (R32). -/
def Obligations.StepsKeepParkedBanksAwake : Prop :=
  ∀ s t : State, s.QueuesHold → s.AbsentOff → s.WindowsSound → s.ParkedAwake → step s = .next t → t.ParkedAwake

/-- Each tag keeps one response in the queue when ANSWERED and none otherwise (R163), and each held count stays the number
of requests held through its window (R116). -/
def Obligations.StepsKeepTheHeldRequests : Prop :=
  ∀ s t : State, s.QueuesHold → s.TagsAnswered → step s = .next t →
    t.TagsAnswered ∧ (s.HeldCounts → t.HeldCounts)

end
end

