-- ==== Sys2Proof/Laws/State.lean ====
section
/-! SUPPORT. One lemma for each field that an update of the state, or of a bank record, leaves as it was, so that no
later proof unfolds a record update; and what bank records read as after an update. -/

namespace Sys2Proof.Machine

/-! ### Bank records after an update of the state -/

@[simp] theorem State.bank_updBank_self (s : State) (b : BankId) (f : Bank → Bank) : (s.updBank b f).bank b = f (s.bank b) := by
  simp [State.bank, State.updBank]

theorem State.bank_updBank_ne (s : State) {b c : BankId} (f : Bank → Bank) (h : c ≠ b) : (s.updBank b f).bank c = s.bank c := by
  have : b.val ≠ c.val := fun h' => h (Fin.ext h'.symm)
  simp [State.bank, State.updBank, this]

theorem State.bank_updBank (s : State) (b c : BankId) (f : Bank → Bank) :
    (s.updBank b f).bank c = if c = b then f (s.bank b) else s.bank c := by
  by_cases h : c = b
  · subst h; simp
  · simp [h, State.bank_updBank_ne]

@[simp] theorem State.bank_mapBanks (s : State) (f : BankId → Bank → Bank) (b : BankId) : (s.mapBanks f).bank b = f b (s.bank b) := by
  simp [State.bank, State.mapBanks]

/-! ### `State.updBank` -/

@[simp] theorem State.updBank_global (s : State) (b : BankId) (f : Bank → Bank) : (s.updBank b f).global = s.global := rfl
@[simp] theorem State.updBank_unitsHeld (s : State) (b : BankId) (f : Bank → Bank) : (s.updBank b f).unitsHeld = s.unitsHeld := rfl
@[simp] theorem State.updBank_waitList (s : State) (b : BankId) (f : Bank → Bank) : (s.updBank b f).waitList = s.waitList := rfl
@[simp] theorem State.updBank_fillQueue (s : State) (b : BankId) (f : Bank → Bank) : (s.updBank b f).fillQueue = s.fillQueue := rfl
@[simp] theorem State.updBank_fill (s : State) (b : BankId) (f : Bank → Bank) : (s.updBank b f).fill = s.fill := rfl
@[simp] theorem State.updBank_windows (s : State) (b : BankId) (f : Bank → Bank) : (s.updBank b f).windows = s.windows := rfl
@[simp] theorem State.updBank_links (s : State) (b : BankId) (f : Bank → Bank) : (s.updBank b f).links = s.links := rfl
@[simp] theorem State.updBank_tags (s : State) (b : BankId) (f : Bank → Bank) : (s.updBank b f).tags = s.tags := rfl
@[simp] theorem State.updBank_responses (s : State) (b : BankId) (f : Bank → Bank) : (s.updBank b f).responses = s.responses := rfl
@[simp] theorem State.updBank_presented (s : State) (b : BankId) (f : Bank → Bank) : (s.updBank b f).presented = s.presented := rfl
@[simp] theorem State.updBank_linkClosed (s : State) (b : BankId) (f : Bank → Bank) : (s.updBank b f).linkClosed = s.linkClosed := rfl
@[simp] theorem State.updBank_resetLow (s : State) (b : BankId) (f : Bank → Bank) : (s.updBank b f).resetLow = s.resetLow := rfl
@[simp] theorem State.updBank_parked (s : State) (b : BankId) (f : Bank → Bank) : (s.updBank b f).parked = s.parked := rfl
@[simp] theorem State.updBank_events (s : State) (b : BankId) (f : Bank → Bank) : (s.updBank b f).events = s.events := rfl
@[simp] theorem State.updBank_sequence (s : State) (b : BankId) (f : Bank → Bank) : (s.updBank b f).sequence = s.sequence := rfl
@[simp] theorem State.updBank_lost (s : State) (b : BankId) (f : Bank → Bank) : (s.updBank b f).lost = s.lost := rfl
@[simp] theorem State.updBank_clock (s : State) (b : BankId) (f : Bank → Bank) : (s.updBank b f).clock = s.clock := rfl
@[simp] theorem State.updBank_frame (s : State) (b : BankId) (f : Bank → Bank) : (s.updBank b f).frame = s.frame := rfl
@[simp] theorem State.updBank_frameHeld (s : State) (b : BankId) (f : Bank → Bank) : (s.updBank b f).frameHeld = s.frameHeld := rfl
@[simp] theorem State.updBank_busOut (s : State) (b : BankId) (f : Bank → Bank) : (s.updBank b f).busOut = s.busOut := rfl
@[simp] theorem State.updBank_fillError (s : State) (b : BankId) (f : Bank → Bank) : (s.updBank b f).fillError = s.fillError := rfl
@[simp] theorem State.updBank_pending (s : State) (b : BankId) (f : Bank → Bank) : (s.updBank b f).pending = s.pending := rfl

/-! ### `State.mapBanks` -/

@[simp] theorem State.mapBanks_global (s : State) (f : BankId → Bank → Bank) : (s.mapBanks f).global = s.global := rfl
@[simp] theorem State.mapBanks_unitsHeld (s : State) (f : BankId → Bank → Bank) : (s.mapBanks f).unitsHeld = s.unitsHeld := rfl
@[simp] theorem State.mapBanks_waitList (s : State) (f : BankId → Bank → Bank) : (s.mapBanks f).waitList = s.waitList := rfl
@[simp] theorem State.mapBanks_fillQueue (s : State) (f : BankId → Bank → Bank) : (s.mapBanks f).fillQueue = s.fillQueue := rfl
@[simp] theorem State.mapBanks_fill (s : State) (f : BankId → Bank → Bank) : (s.mapBanks f).fill = s.fill := rfl
@[simp] theorem State.mapBanks_windows (s : State) (f : BankId → Bank → Bank) : (s.mapBanks f).windows = s.windows := rfl
@[simp] theorem State.mapBanks_links (s : State) (f : BankId → Bank → Bank) : (s.mapBanks f).links = s.links := rfl
@[simp] theorem State.mapBanks_tags (s : State) (f : BankId → Bank → Bank) : (s.mapBanks f).tags = s.tags := rfl
@[simp] theorem State.mapBanks_responses (s : State) (f : BankId → Bank → Bank) : (s.mapBanks f).responses = s.responses := rfl
@[simp] theorem State.mapBanks_presented (s : State) (f : BankId → Bank → Bank) : (s.mapBanks f).presented = s.presented := rfl
@[simp] theorem State.mapBanks_linkClosed (s : State) (f : BankId → Bank → Bank) : (s.mapBanks f).linkClosed = s.linkClosed := rfl
@[simp] theorem State.mapBanks_resetLow (s : State) (f : BankId → Bank → Bank) : (s.mapBanks f).resetLow = s.resetLow := rfl
@[simp] theorem State.mapBanks_parked (s : State) (f : BankId → Bank → Bank) : (s.mapBanks f).parked = s.parked := rfl
@[simp] theorem State.mapBanks_events (s : State) (f : BankId → Bank → Bank) : (s.mapBanks f).events = s.events := rfl
@[simp] theorem State.mapBanks_sequence (s : State) (f : BankId → Bank → Bank) : (s.mapBanks f).sequence = s.sequence := rfl
@[simp] theorem State.mapBanks_lost (s : State) (f : BankId → Bank → Bank) : (s.mapBanks f).lost = s.lost := rfl
@[simp] theorem State.mapBanks_clock (s : State) (f : BankId → Bank → Bank) : (s.mapBanks f).clock = s.clock := rfl
@[simp] theorem State.mapBanks_frame (s : State) (f : BankId → Bank → Bank) : (s.mapBanks f).frame = s.frame := rfl
@[simp] theorem State.mapBanks_frameHeld (s : State) (f : BankId → Bank → Bank) : (s.mapBanks f).frameHeld = s.frameHeld := rfl
@[simp] theorem State.mapBanks_busOut (s : State) (f : BankId → Bank → Bank) : (s.mapBanks f).busOut = s.busOut := rfl
@[simp] theorem State.mapBanks_fillError (s : State) (f : BankId → Bank → Bank) : (s.mapBanks f).fillError = s.fillError := rfl
@[simp] theorem State.mapBanks_pending (s : State) (f : BankId → Bank → Bank) : (s.mapBanks f).pending = s.pending := rfl

/-! ### `State.updHeld` -/

@[simp] theorem State.updHeld_banks (s : State) (i : WindowId) (f : Nat → Nat) : (s.updHeld i f).banks = s.banks := rfl
@[simp] theorem State.updHeld_global (s : State) (i : WindowId) (f : Nat → Nat) : (s.updHeld i f).global = s.global := rfl
@[simp] theorem State.updHeld_unitsHeld (s : State) (i : WindowId) (f : Nat → Nat) : (s.updHeld i f).unitsHeld = s.unitsHeld := rfl
@[simp] theorem State.updHeld_waitList (s : State) (i : WindowId) (f : Nat → Nat) : (s.updHeld i f).waitList = s.waitList := rfl
@[simp] theorem State.updHeld_fillQueue (s : State) (i : WindowId) (f : Nat → Nat) : (s.updHeld i f).fillQueue = s.fillQueue := rfl
@[simp] theorem State.updHeld_fill (s : State) (i : WindowId) (f : Nat → Nat) : (s.updHeld i f).fill = s.fill := rfl
@[simp] theorem State.updHeld_links (s : State) (i : WindowId) (f : Nat → Nat) : (s.updHeld i f).links = s.links := rfl
@[simp] theorem State.updHeld_tags (s : State) (i : WindowId) (f : Nat → Nat) : (s.updHeld i f).tags = s.tags := rfl
@[simp] theorem State.updHeld_responses (s : State) (i : WindowId) (f : Nat → Nat) : (s.updHeld i f).responses = s.responses := rfl
@[simp] theorem State.updHeld_presented (s : State) (i : WindowId) (f : Nat → Nat) : (s.updHeld i f).presented = s.presented := rfl
@[simp] theorem State.updHeld_linkClosed (s : State) (i : WindowId) (f : Nat → Nat) : (s.updHeld i f).linkClosed = s.linkClosed := rfl
@[simp] theorem State.updHeld_resetLow (s : State) (i : WindowId) (f : Nat → Nat) : (s.updHeld i f).resetLow = s.resetLow := rfl
@[simp] theorem State.updHeld_parked (s : State) (i : WindowId) (f : Nat → Nat) : (s.updHeld i f).parked = s.parked := rfl
@[simp] theorem State.updHeld_events (s : State) (i : WindowId) (f : Nat → Nat) : (s.updHeld i f).events = s.events := rfl
@[simp] theorem State.updHeld_sequence (s : State) (i : WindowId) (f : Nat → Nat) : (s.updHeld i f).sequence = s.sequence := rfl
@[simp] theorem State.updHeld_lost (s : State) (i : WindowId) (f : Nat → Nat) : (s.updHeld i f).lost = s.lost := rfl
@[simp] theorem State.updHeld_clock (s : State) (i : WindowId) (f : Nat → Nat) : (s.updHeld i f).clock = s.clock := rfl
@[simp] theorem State.updHeld_frame (s : State) (i : WindowId) (f : Nat → Nat) : (s.updHeld i f).frame = s.frame := rfl
@[simp] theorem State.updHeld_frameHeld (s : State) (i : WindowId) (f : Nat → Nat) : (s.updHeld i f).frameHeld = s.frameHeld := rfl
@[simp] theorem State.updHeld_busOut (s : State) (i : WindowId) (f : Nat → Nat) : (s.updHeld i f).busOut = s.busOut := rfl
@[simp] theorem State.updHeld_fillError (s : State) (i : WindowId) (f : Nat → Nat) : (s.updHeld i f).fillError = s.fillError := rfl
@[simp] theorem State.updHeld_pending (s : State) (i : WindowId) (f : Nat → Nat) : (s.updHeld i f).pending = s.pending := rfl
@[simp] theorem State.updHeld_bank (s : State) (i : WindowId) (f : Nat → Nat) (c : BankId) : (s.updHeld i f).bank c = s.bank c := by simp only [State.bank, State.updHeld_banks]

/-! ### `State.post` -/

@[simp] theorem State.post_banks (s : State) (k : EventKind) (a : About) : (s.post k a).banks = s.banks := by
  unfold State.post; split
  · split <;> rfl
  · rfl
@[simp] theorem State.post_global (s : State) (k : EventKind) (a : About) : (s.post k a).global = s.global := by
  unfold State.post; split
  · split <;> rfl
  · rfl
@[simp] theorem State.post_unitsHeld (s : State) (k : EventKind) (a : About) : (s.post k a).unitsHeld = s.unitsHeld := by
  unfold State.post; split
  · split <;> rfl
  · rfl
@[simp] theorem State.post_waitList (s : State) (k : EventKind) (a : About) : (s.post k a).waitList = s.waitList := by
  unfold State.post; split
  · split <;> rfl
  · rfl
@[simp] theorem State.post_fillQueue (s : State) (k : EventKind) (a : About) : (s.post k a).fillQueue = s.fillQueue := by
  unfold State.post; split
  · split <;> rfl
  · rfl
@[simp] theorem State.post_fill (s : State) (k : EventKind) (a : About) : (s.post k a).fill = s.fill := by
  unfold State.post; split
  · split <;> rfl
  · rfl
@[simp] theorem State.post_windows (s : State) (k : EventKind) (a : About) : (s.post k a).windows = s.windows := by
  unfold State.post; split
  · split <;> rfl
  · rfl
@[simp] theorem State.post_links (s : State) (k : EventKind) (a : About) : (s.post k a).links = s.links := by
  unfold State.post; split
  · split <;> rfl
  · rfl
@[simp] theorem State.post_tags (s : State) (k : EventKind) (a : About) : (s.post k a).tags = s.tags := by
  unfold State.post; split
  · split <;> rfl
  · rfl
@[simp] theorem State.post_responses (s : State) (k : EventKind) (a : About) : (s.post k a).responses = s.responses := by
  unfold State.post; split
  · split <;> rfl
  · rfl
@[simp] theorem State.post_presented (s : State) (k : EventKind) (a : About) : (s.post k a).presented = s.presented := by
  unfold State.post; split
  · split <;> rfl
  · rfl
@[simp] theorem State.post_linkClosed (s : State) (k : EventKind) (a : About) : (s.post k a).linkClosed = s.linkClosed := by
  unfold State.post; split
  · split <;> rfl
  · rfl
@[simp] theorem State.post_resetLow (s : State) (k : EventKind) (a : About) : (s.post k a).resetLow = s.resetLow := by
  unfold State.post; split
  · split <;> rfl
  · rfl
@[simp] theorem State.post_parked (s : State) (k : EventKind) (a : About) : (s.post k a).parked = s.parked := by
  unfold State.post; split
  · split <;> rfl
  · rfl
@[simp] theorem State.post_clock (s : State) (k : EventKind) (a : About) : (s.post k a).clock = s.clock := by
  unfold State.post; split
  · split <;> rfl
  · rfl
@[simp] theorem State.post_frame (s : State) (k : EventKind) (a : About) : (s.post k a).frame = s.frame := by
  unfold State.post; split
  · split <;> rfl
  · rfl
@[simp] theorem State.post_frameHeld (s : State) (k : EventKind) (a : About) : (s.post k a).frameHeld = s.frameHeld := by
  unfold State.post; split
  · split <;> rfl
  · rfl
@[simp] theorem State.post_busOut (s : State) (k : EventKind) (a : About) : (s.post k a).busOut = s.busOut := by
  unfold State.post; split
  · split <;> rfl
  · rfl
@[simp] theorem State.post_fillError (s : State) (k : EventKind) (a : About) : (s.post k a).fillError = s.fillError := by
  unfold State.post; split
  · split <;> rfl
  · rfl
@[simp] theorem State.post_pending (s : State) (k : EventKind) (a : About) : (s.post k a).pending = s.pending := by
  unfold State.post; split
  · split <;> rfl
  · rfl
@[simp] theorem State.post_bank (s : State) (k : EventKind) (a : About) (c : BankId) : (s.post k a).bank c = s.bank c := by simp only [State.bank, State.post_banks]

/-! ### `State.bindTag` -/

@[simp] theorem State.bindTag_banks (s : State) (t : Tag) (n : Nat) (w : Option WindowId) : (s.bindTag t n w).banks = s.banks := rfl
@[simp] theorem State.bindTag_global (s : State) (t : Tag) (n : Nat) (w : Option WindowId) : (s.bindTag t n w).global = s.global := rfl
@[simp] theorem State.bindTag_unitsHeld (s : State) (t : Tag) (n : Nat) (w : Option WindowId) : (s.bindTag t n w).unitsHeld = s.unitsHeld := rfl
@[simp] theorem State.bindTag_waitList (s : State) (t : Tag) (n : Nat) (w : Option WindowId) : (s.bindTag t n w).waitList = s.waitList := rfl
@[simp] theorem State.bindTag_fillQueue (s : State) (t : Tag) (n : Nat) (w : Option WindowId) : (s.bindTag t n w).fillQueue = s.fillQueue := rfl
@[simp] theorem State.bindTag_fill (s : State) (t : Tag) (n : Nat) (w : Option WindowId) : (s.bindTag t n w).fill = s.fill := rfl
@[simp] theorem State.bindTag_windows (s : State) (t : Tag) (n : Nat) (w : Option WindowId) : (s.bindTag t n w).windows = s.windows := rfl
@[simp] theorem State.bindTag_links (s : State) (t : Tag) (n : Nat) (w : Option WindowId) : (s.bindTag t n w).links = s.links := rfl
@[simp] theorem State.bindTag_responses (s : State) (t : Tag) (n : Nat) (w : Option WindowId) : (s.bindTag t n w).responses = s.responses := rfl
@[simp] theorem State.bindTag_presented (s : State) (t : Tag) (n : Nat) (w : Option WindowId) : (s.bindTag t n w).presented = s.presented := rfl
@[simp] theorem State.bindTag_linkClosed (s : State) (t : Tag) (n : Nat) (w : Option WindowId) : (s.bindTag t n w).linkClosed = s.linkClosed := rfl
@[simp] theorem State.bindTag_resetLow (s : State) (t : Tag) (n : Nat) (w : Option WindowId) : (s.bindTag t n w).resetLow = s.resetLow := rfl
@[simp] theorem State.bindTag_parked (s : State) (t : Tag) (n : Nat) (w : Option WindowId) : (s.bindTag t n w).parked = s.parked := rfl
@[simp] theorem State.bindTag_events (s : State) (t : Tag) (n : Nat) (w : Option WindowId) : (s.bindTag t n w).events = s.events := rfl
@[simp] theorem State.bindTag_sequence (s : State) (t : Tag) (n : Nat) (w : Option WindowId) : (s.bindTag t n w).sequence = s.sequence := rfl
@[simp] theorem State.bindTag_lost (s : State) (t : Tag) (n : Nat) (w : Option WindowId) : (s.bindTag t n w).lost = s.lost := rfl
@[simp] theorem State.bindTag_clock (s : State) (t : Tag) (n : Nat) (w : Option WindowId) : (s.bindTag t n w).clock = s.clock := rfl
@[simp] theorem State.bindTag_frame (s : State) (t : Tag) (n : Nat) (w : Option WindowId) : (s.bindTag t n w).frame = s.frame := rfl
@[simp] theorem State.bindTag_frameHeld (s : State) (t : Tag) (n : Nat) (w : Option WindowId) : (s.bindTag t n w).frameHeld = s.frameHeld := rfl
@[simp] theorem State.bindTag_busOut (s : State) (t : Tag) (n : Nat) (w : Option WindowId) : (s.bindTag t n w).busOut = s.busOut := rfl
@[simp] theorem State.bindTag_fillError (s : State) (t : Tag) (n : Nat) (w : Option WindowId) : (s.bindTag t n w).fillError = s.fillError := rfl
@[simp] theorem State.bindTag_pending (s : State) (t : Tag) (n : Nat) (w : Option WindowId) : (s.bindTag t n w).pending = s.pending := rfl
@[simp] theorem State.bindTag_bank (s : State) (t : Tag) (n : Nat) (w : Option WindowId) (c : BankId) : (s.bindTag t n w).bank c = s.bank c := by simp only [State.bank, State.bindTag_banks]

/-! ### `State.hold` -/

@[simp] theorem State.hold_banks (s : State) (r : Request) (i : WindowId) : (s.hold r i).banks = s.banks := rfl
@[simp] theorem State.hold_global (s : State) (r : Request) (i : WindowId) : (s.hold r i).global = s.global := rfl
@[simp] theorem State.hold_unitsHeld (s : State) (r : Request) (i : WindowId) : (s.hold r i).unitsHeld = s.unitsHeld := rfl
@[simp] theorem State.hold_waitList (s : State) (r : Request) (i : WindowId) : (s.hold r i).waitList = s.waitList := rfl
@[simp] theorem State.hold_fillQueue (s : State) (r : Request) (i : WindowId) : (s.hold r i).fillQueue = s.fillQueue := rfl
@[simp] theorem State.hold_fill (s : State) (r : Request) (i : WindowId) : (s.hold r i).fill = s.fill := rfl
@[simp] theorem State.hold_links (s : State) (r : Request) (i : WindowId) : (s.hold r i).links = s.links := rfl
@[simp] theorem State.hold_responses (s : State) (r : Request) (i : WindowId) : (s.hold r i).responses = s.responses := rfl
@[simp] theorem State.hold_presented (s : State) (r : Request) (i : WindowId) : (s.hold r i).presented = s.presented := rfl
@[simp] theorem State.hold_linkClosed (s : State) (r : Request) (i : WindowId) : (s.hold r i).linkClosed = s.linkClosed := rfl
@[simp] theorem State.hold_resetLow (s : State) (r : Request) (i : WindowId) : (s.hold r i).resetLow = s.resetLow := rfl
@[simp] theorem State.hold_parked (s : State) (r : Request) (i : WindowId) : (s.hold r i).parked = s.parked := rfl
@[simp] theorem State.hold_events (s : State) (r : Request) (i : WindowId) : (s.hold r i).events = s.events := rfl
@[simp] theorem State.hold_sequence (s : State) (r : Request) (i : WindowId) : (s.hold r i).sequence = s.sequence := rfl
@[simp] theorem State.hold_lost (s : State) (r : Request) (i : WindowId) : (s.hold r i).lost = s.lost := rfl
@[simp] theorem State.hold_clock (s : State) (r : Request) (i : WindowId) : (s.hold r i).clock = s.clock := rfl
@[simp] theorem State.hold_frame (s : State) (r : Request) (i : WindowId) : (s.hold r i).frame = s.frame := rfl
@[simp] theorem State.hold_frameHeld (s : State) (r : Request) (i : WindowId) : (s.hold r i).frameHeld = s.frameHeld := rfl
@[simp] theorem State.hold_busOut (s : State) (r : Request) (i : WindowId) : (s.hold r i).busOut = s.busOut := rfl
@[simp] theorem State.hold_fillError (s : State) (r : Request) (i : WindowId) : (s.hold r i).fillError = s.fillError := rfl
@[simp] theorem State.hold_pending (s : State) (r : Request) (i : WindowId) : (s.hold r i).pending = s.pending := rfl
@[simp] theorem State.hold_bank (s : State) (r : Request) (i : WindowId) (c : BankId) : (s.hold r i).bank c = s.bank c := by simp only [State.bank, State.hold_banks]

/-! ### `State.answer` -/

@[simp] theorem State.answer_banks (s : State) (t : Tag) (x : Status) (d : List Byte) : (s.answer t x d).banks = s.banks := by
  unfold State.answer; split <;> rfl
@[simp] theorem State.answer_global (s : State) (t : Tag) (x : Status) (d : List Byte) : (s.answer t x d).global = s.global := by
  unfold State.answer; split <;> rfl
@[simp] theorem State.answer_unitsHeld (s : State) (t : Tag) (x : Status) (d : List Byte) : (s.answer t x d).unitsHeld = s.unitsHeld := by
  unfold State.answer; split <;> rfl
@[simp] theorem State.answer_waitList (s : State) (t : Tag) (x : Status) (d : List Byte) : (s.answer t x d).waitList = s.waitList := by
  unfold State.answer; split <;> rfl
@[simp] theorem State.answer_fillQueue (s : State) (t : Tag) (x : Status) (d : List Byte) : (s.answer t x d).fillQueue = s.fillQueue := by
  unfold State.answer; split <;> rfl
@[simp] theorem State.answer_fill (s : State) (t : Tag) (x : Status) (d : List Byte) : (s.answer t x d).fill = s.fill := by
  unfold State.answer; split <;> rfl
@[simp] theorem State.answer_windows (s : State) (t : Tag) (x : Status) (d : List Byte) : (s.answer t x d).windows = s.windows := by
  unfold State.answer; split <;> rfl
@[simp] theorem State.answer_links (s : State) (t : Tag) (x : Status) (d : List Byte) : (s.answer t x d).links = s.links := by
  unfold State.answer; split <;> rfl
@[simp] theorem State.answer_presented (s : State) (t : Tag) (x : Status) (d : List Byte) : (s.answer t x d).presented = s.presented := by
  unfold State.answer; split <;> rfl
@[simp] theorem State.answer_linkClosed (s : State) (t : Tag) (x : Status) (d : List Byte) : (s.answer t x d).linkClosed = s.linkClosed := by
  unfold State.answer; split <;> rfl
@[simp] theorem State.answer_resetLow (s : State) (t : Tag) (x : Status) (d : List Byte) : (s.answer t x d).resetLow = s.resetLow := by
  unfold State.answer; split <;> rfl
@[simp] theorem State.answer_parked (s : State) (t : Tag) (x : Status) (d : List Byte) : (s.answer t x d).parked = s.parked := by
  unfold State.answer; split <;> rfl
@[simp] theorem State.answer_events (s : State) (t : Tag) (x : Status) (d : List Byte) : (s.answer t x d).events = s.events := by
  unfold State.answer; split <;> rfl
@[simp] theorem State.answer_sequence (s : State) (t : Tag) (x : Status) (d : List Byte) : (s.answer t x d).sequence = s.sequence := by
  unfold State.answer; split <;> rfl
@[simp] theorem State.answer_lost (s : State) (t : Tag) (x : Status) (d : List Byte) : (s.answer t x d).lost = s.lost := by
  unfold State.answer; split <;> rfl
@[simp] theorem State.answer_clock (s : State) (t : Tag) (x : Status) (d : List Byte) : (s.answer t x d).clock = s.clock := by
  unfold State.answer; split <;> rfl
@[simp] theorem State.answer_frame (s : State) (t : Tag) (x : Status) (d : List Byte) : (s.answer t x d).frame = s.frame := by
  unfold State.answer; split <;> rfl
@[simp] theorem State.answer_frameHeld (s : State) (t : Tag) (x : Status) (d : List Byte) : (s.answer t x d).frameHeld = s.frameHeld := by
  unfold State.answer; split <;> rfl
@[simp] theorem State.answer_busOut (s : State) (t : Tag) (x : Status) (d : List Byte) : (s.answer t x d).busOut = s.busOut := by
  unfold State.answer; split <;> rfl
@[simp] theorem State.answer_fillError (s : State) (t : Tag) (x : Status) (d : List Byte) : (s.answer t x d).fillError = s.fillError := by
  unfold State.answer; split <;> rfl
@[simp] theorem State.answer_pending (s : State) (t : Tag) (x : Status) (d : List Byte) : (s.answer t x d).pending = s.pending := by
  unfold State.answer; split <;> rfl
@[simp] theorem State.answer_bank (s : State) (t : Tag) (x : Status) (d : List Byte) (c : BankId) : (s.answer t x d).bank c = s.bank c := by simp only [State.bank, State.answer_banks]

/-! ### `State.setParked` -/

@[simp] theorem State.setParked_global (s : State) (q : List Entry) : (s.setParked q).global = s.global := rfl
@[simp] theorem State.setParked_unitsHeld (s : State) (q : List Entry) : (s.setParked q).unitsHeld = s.unitsHeld := rfl
@[simp] theorem State.setParked_waitList (s : State) (q : List Entry) : (s.setParked q).waitList = s.waitList := rfl
@[simp] theorem State.setParked_fillQueue (s : State) (q : List Entry) : (s.setParked q).fillQueue = s.fillQueue := rfl
@[simp] theorem State.setParked_fill (s : State) (q : List Entry) : (s.setParked q).fill = s.fill := rfl
@[simp] theorem State.setParked_windows (s : State) (q : List Entry) : (s.setParked q).windows = s.windows := rfl
@[simp] theorem State.setParked_links (s : State) (q : List Entry) : (s.setParked q).links = s.links := rfl
@[simp] theorem State.setParked_tags (s : State) (q : List Entry) : (s.setParked q).tags = s.tags := rfl
@[simp] theorem State.setParked_responses (s : State) (q : List Entry) : (s.setParked q).responses = s.responses := rfl
@[simp] theorem State.setParked_presented (s : State) (q : List Entry) : (s.setParked q).presented = s.presented := rfl
@[simp] theorem State.setParked_linkClosed (s : State) (q : List Entry) : (s.setParked q).linkClosed = s.linkClosed := rfl
@[simp] theorem State.setParked_resetLow (s : State) (q : List Entry) : (s.setParked q).resetLow = s.resetLow := rfl
@[simp] theorem State.setParked_events (s : State) (q : List Entry) : (s.setParked q).events = s.events := rfl
@[simp] theorem State.setParked_sequence (s : State) (q : List Entry) : (s.setParked q).sequence = s.sequence := rfl
@[simp] theorem State.setParked_lost (s : State) (q : List Entry) : (s.setParked q).lost = s.lost := rfl
@[simp] theorem State.setParked_clock (s : State) (q : List Entry) : (s.setParked q).clock = s.clock := rfl
@[simp] theorem State.setParked_frame (s : State) (q : List Entry) : (s.setParked q).frame = s.frame := rfl
@[simp] theorem State.setParked_frameHeld (s : State) (q : List Entry) : (s.setParked q).frameHeld = s.frameHeld := rfl
@[simp] theorem State.setParked_busOut (s : State) (q : List Entry) : (s.setParked q).busOut = s.busOut := rfl
@[simp] theorem State.setParked_fillError (s : State) (q : List Entry) : (s.setParked q).fillError = s.fillError := rfl
@[simp] theorem State.setParked_pending (s : State) (q : List Entry) : (s.setParked q).pending = s.pending := rfl

/-! ### `State.sendRequest` -/

@[simp] theorem State.sendRequest_global (s : State) (r : Routed) : (s.sendRequest r).global = s.global := rfl
@[simp] theorem State.sendRequest_unitsHeld (s : State) (r : Routed) : (s.sendRequest r).unitsHeld = s.unitsHeld := rfl
@[simp] theorem State.sendRequest_waitList (s : State) (r : Routed) : (s.sendRequest r).waitList = s.waitList := rfl
@[simp] theorem State.sendRequest_fillQueue (s : State) (r : Routed) : (s.sendRequest r).fillQueue = s.fillQueue := rfl
@[simp] theorem State.sendRequest_fill (s : State) (r : Routed) : (s.sendRequest r).fill = s.fill := rfl
@[simp] theorem State.sendRequest_windows (s : State) (r : Routed) : (s.sendRequest r).windows = s.windows := rfl
@[simp] theorem State.sendRequest_links (s : State) (r : Routed) : (s.sendRequest r).links = s.links := rfl
@[simp] theorem State.sendRequest_tags (s : State) (r : Routed) : (s.sendRequest r).tags = s.tags := rfl
@[simp] theorem State.sendRequest_responses (s : State) (r : Routed) : (s.sendRequest r).responses = s.responses := rfl
@[simp] theorem State.sendRequest_presented (s : State) (r : Routed) : (s.sendRequest r).presented = s.presented := rfl
@[simp] theorem State.sendRequest_linkClosed (s : State) (r : Routed) : (s.sendRequest r).linkClosed = s.linkClosed := rfl
@[simp] theorem State.sendRequest_resetLow (s : State) (r : Routed) : (s.sendRequest r).resetLow = s.resetLow := rfl
@[simp] theorem State.sendRequest_parked (s : State) (r : Routed) : (s.sendRequest r).parked = s.parked := rfl
@[simp] theorem State.sendRequest_events (s : State) (r : Routed) : (s.sendRequest r).events = s.events := rfl
@[simp] theorem State.sendRequest_sequence (s : State) (r : Routed) : (s.sendRequest r).sequence = s.sequence := rfl
@[simp] theorem State.sendRequest_lost (s : State) (r : Routed) : (s.sendRequest r).lost = s.lost := rfl
@[simp] theorem State.sendRequest_clock (s : State) (r : Routed) : (s.sendRequest r).clock = s.clock := rfl
@[simp] theorem State.sendRequest_frame (s : State) (r : Routed) : (s.sendRequest r).frame = s.frame := rfl
@[simp] theorem State.sendRequest_frameHeld (s : State) (r : Routed) : (s.sendRequest r).frameHeld = s.frameHeld := rfl
@[simp] theorem State.sendRequest_fillError (s : State) (r : Routed) : (s.sendRequest r).fillError = s.fillError := rfl
@[simp] theorem State.sendRequest_pending (s : State) (r : Routed) : (s.sendRequest r).pending = s.pending := rfl
theorem State.sendRequest_bank (s : State) (r : Routed) (c : BankId) :
    (s.sendRequest r).bank c = (s.updBank r.bank fun k => k.forwarded (s.requestSlot r)).bank c := rfl

/-! ### `State.turnOn` -/

@[simp] theorem State.turnOn_global (s : State) (b : BankId) : (s.turnOn b).global = s.global := rfl
@[simp] theorem State.turnOn_unitsHeld (s : State) (b : BankId) : (s.turnOn b).unitsHeld = s.unitsHeld := rfl
@[simp] theorem State.turnOn_waitList (s : State) (b : BankId) : (s.turnOn b).waitList = s.waitList := rfl
@[simp] theorem State.turnOn_fillQueue (s : State) (b : BankId) : (s.turnOn b).fillQueue = s.fillQueue := rfl
@[simp] theorem State.turnOn_fill (s : State) (b : BankId) : (s.turnOn b).fill = s.fill := rfl
@[simp] theorem State.turnOn_windows (s : State) (b : BankId) : (s.turnOn b).windows = s.windows := rfl
@[simp] theorem State.turnOn_links (s : State) (b : BankId) : (s.turnOn b).links = s.links := rfl
@[simp] theorem State.turnOn_tags (s : State) (b : BankId) : (s.turnOn b).tags = s.tags := rfl
@[simp] theorem State.turnOn_responses (s : State) (b : BankId) : (s.turnOn b).responses = s.responses := rfl
@[simp] theorem State.turnOn_presented (s : State) (b : BankId) : (s.turnOn b).presented = s.presented := rfl
@[simp] theorem State.turnOn_linkClosed (s : State) (b : BankId) : (s.turnOn b).linkClosed = s.linkClosed := rfl
@[simp] theorem State.turnOn_resetLow (s : State) (b : BankId) : (s.turnOn b).resetLow = s.resetLow := rfl
@[simp] theorem State.turnOn_parked (s : State) (b : BankId) : (s.turnOn b).parked = s.parked := rfl
@[simp] theorem State.turnOn_events (s : State) (b : BankId) : (s.turnOn b).events = s.events := rfl
@[simp] theorem State.turnOn_sequence (s : State) (b : BankId) : (s.turnOn b).sequence = s.sequence := rfl
@[simp] theorem State.turnOn_lost (s : State) (b : BankId) : (s.turnOn b).lost = s.lost := rfl
@[simp] theorem State.turnOn_clock (s : State) (b : BankId) : (s.turnOn b).clock = s.clock := rfl
@[simp] theorem State.turnOn_frame (s : State) (b : BankId) : (s.turnOn b).frame = s.frame := rfl
@[simp] theorem State.turnOn_frameHeld (s : State) (b : BankId) : (s.turnOn b).frameHeld = s.frameHeld := rfl
@[simp] theorem State.turnOn_busOut (s : State) (b : BankId) : (s.turnOn b).busOut = s.busOut := rfl
@[simp] theorem State.turnOn_fillError (s : State) (b : BankId) : (s.turnOn b).fillError = s.fillError := rfl
@[simp] theorem State.turnOn_pending (s : State) (b : BankId) : (s.turnOn b).pending = s.pending := rfl
theorem State.turnOn_bank (s : State) (b : BankId) (c : BankId) :
    (s.turnOn b).bank c = (s.updBank b fun k => k.turnedOn (parkedCount s.parked b)).bank c := rfl

/-! ### `State.unqueueFill` -/

@[simp] theorem State.unqueueFill_banks (s : State) (b : BankId) : (s.unqueueFill b).banks = s.banks := rfl
@[simp] theorem State.unqueueFill_global (s : State) (b : BankId) : (s.unqueueFill b).global = s.global := rfl
@[simp] theorem State.unqueueFill_unitsHeld (s : State) (b : BankId) : (s.unqueueFill b).unitsHeld = s.unitsHeld := rfl
@[simp] theorem State.unqueueFill_waitList (s : State) (b : BankId) : (s.unqueueFill b).waitList = s.waitList := rfl
@[simp] theorem State.unqueueFill_windows (s : State) (b : BankId) : (s.unqueueFill b).windows = s.windows := rfl
@[simp] theorem State.unqueueFill_links (s : State) (b : BankId) : (s.unqueueFill b).links = s.links := rfl
@[simp] theorem State.unqueueFill_tags (s : State) (b : BankId) : (s.unqueueFill b).tags = s.tags := rfl
@[simp] theorem State.unqueueFill_responses (s : State) (b : BankId) : (s.unqueueFill b).responses = s.responses := rfl
@[simp] theorem State.unqueueFill_presented (s : State) (b : BankId) : (s.unqueueFill b).presented = s.presented := rfl
@[simp] theorem State.unqueueFill_linkClosed (s : State) (b : BankId) : (s.unqueueFill b).linkClosed = s.linkClosed := rfl
@[simp] theorem State.unqueueFill_resetLow (s : State) (b : BankId) : (s.unqueueFill b).resetLow = s.resetLow := rfl
@[simp] theorem State.unqueueFill_parked (s : State) (b : BankId) : (s.unqueueFill b).parked = s.parked := rfl
@[simp] theorem State.unqueueFill_events (s : State) (b : BankId) : (s.unqueueFill b).events = s.events := rfl
@[simp] theorem State.unqueueFill_sequence (s : State) (b : BankId) : (s.unqueueFill b).sequence = s.sequence := rfl
@[simp] theorem State.unqueueFill_lost (s : State) (b : BankId) : (s.unqueueFill b).lost = s.lost := rfl
@[simp] theorem State.unqueueFill_clock (s : State) (b : BankId) : (s.unqueueFill b).clock = s.clock := rfl
@[simp] theorem State.unqueueFill_frame (s : State) (b : BankId) : (s.unqueueFill b).frame = s.frame := rfl
@[simp] theorem State.unqueueFill_frameHeld (s : State) (b : BankId) : (s.unqueueFill b).frameHeld = s.frameHeld := rfl
@[simp] theorem State.unqueueFill_busOut (s : State) (b : BankId) : (s.unqueueFill b).busOut = s.busOut := rfl
@[simp] theorem State.unqueueFill_fillError (s : State) (b : BankId) : (s.unqueueFill b).fillError = s.fillError := rfl
@[simp] theorem State.unqueueFill_pending (s : State) (b : BankId) : (s.unqueueFill b).pending = s.pending := rfl
@[simp] theorem State.unqueueFill_bank (s : State) (b : BankId) (c : BankId) : (s.unqueueFill b).bank c = s.bank c := by simp only [State.bank, State.unqueueFill_banks]

/-! ### `State.placeFill` -/

@[simp] theorem State.placeFill_global (s : State) (b : BankId) (g : Segment) (a : BankAddr) : (s.placeFill b g a).global = s.global := rfl
@[simp] theorem State.placeFill_unitsHeld (s : State) (b : BankId) (g : Segment) (a : BankAddr) : (s.placeFill b g a).unitsHeld = s.unitsHeld := rfl
@[simp] theorem State.placeFill_waitList (s : State) (b : BankId) (g : Segment) (a : BankAddr) : (s.placeFill b g a).waitList = s.waitList := rfl
@[simp] theorem State.placeFill_fillQueue (s : State) (b : BankId) (g : Segment) (a : BankAddr) : (s.placeFill b g a).fillQueue = s.fillQueue := rfl
@[simp] theorem State.placeFill_windows (s : State) (b : BankId) (g : Segment) (a : BankAddr) : (s.placeFill b g a).windows = s.windows := rfl
@[simp] theorem State.placeFill_links (s : State) (b : BankId) (g : Segment) (a : BankAddr) : (s.placeFill b g a).links = s.links := rfl
@[simp] theorem State.placeFill_tags (s : State) (b : BankId) (g : Segment) (a : BankAddr) : (s.placeFill b g a).tags = s.tags := rfl
@[simp] theorem State.placeFill_responses (s : State) (b : BankId) (g : Segment) (a : BankAddr) : (s.placeFill b g a).responses = s.responses := rfl
@[simp] theorem State.placeFill_presented (s : State) (b : BankId) (g : Segment) (a : BankAddr) : (s.placeFill b g a).presented = s.presented := rfl
@[simp] theorem State.placeFill_linkClosed (s : State) (b : BankId) (g : Segment) (a : BankAddr) : (s.placeFill b g a).linkClosed = s.linkClosed := rfl
@[simp] theorem State.placeFill_resetLow (s : State) (b : BankId) (g : Segment) (a : BankAddr) : (s.placeFill b g a).resetLow = s.resetLow := rfl
@[simp] theorem State.placeFill_parked (s : State) (b : BankId) (g : Segment) (a : BankAddr) : (s.placeFill b g a).parked = s.parked := rfl
@[simp] theorem State.placeFill_events (s : State) (b : BankId) (g : Segment) (a : BankAddr) : (s.placeFill b g a).events = s.events := rfl
@[simp] theorem State.placeFill_sequence (s : State) (b : BankId) (g : Segment) (a : BankAddr) : (s.placeFill b g a).sequence = s.sequence := rfl
@[simp] theorem State.placeFill_lost (s : State) (b : BankId) (g : Segment) (a : BankAddr) : (s.placeFill b g a).lost = s.lost := rfl
@[simp] theorem State.placeFill_clock (s : State) (b : BankId) (g : Segment) (a : BankAddr) : (s.placeFill b g a).clock = s.clock := rfl
@[simp] theorem State.placeFill_frame (s : State) (b : BankId) (g : Segment) (a : BankAddr) : (s.placeFill b g a).frame = s.frame := rfl
@[simp] theorem State.placeFill_frameHeld (s : State) (b : BankId) (g : Segment) (a : BankAddr) : (s.placeFill b g a).frameHeld = s.frameHeld := rfl
@[simp] theorem State.placeFill_fillError (s : State) (b : BankId) (g : Segment) (a : BankAddr) : (s.placeFill b g a).fillError = s.fillError := rfl
@[simp] theorem State.placeFill_pending (s : State) (b : BankId) (g : Segment) (a : BankAddr) : (s.placeFill b g a).pending = s.pending := rfl
theorem State.placeFill_bank (s : State) (b : BankId) (g : Segment) (a : BankAddr) (c : BankId) :
    (s.placeFill b g a).bank c = (s.updBank b fun k => k.withFill (s.fillSlot g a)).bank c := by
  simp only [State.bank, State.placeFill]

/-! ### `State.issueFill` -/

@[simp] theorem State.issueFill_global (s : State) : (s.issueFill).global = s.global := by
  unfold State.issueFill; split
  · split <;> rfl
  · rfl
@[simp] theorem State.issueFill_unitsHeld (s : State) : (s.issueFill).unitsHeld = s.unitsHeld := by
  unfold State.issueFill; split
  · split <;> rfl
  · rfl
@[simp] theorem State.issueFill_waitList (s : State) : (s.issueFill).waitList = s.waitList := by
  unfold State.issueFill; split
  · split <;> rfl
  · rfl
@[simp] theorem State.issueFill_fillQueue (s : State) : (s.issueFill).fillQueue = s.fillQueue := by
  unfold State.issueFill; split
  · split <;> rfl
  · rfl
@[simp] theorem State.issueFill_windows (s : State) : (s.issueFill).windows = s.windows := by
  unfold State.issueFill; split
  · split <;> rfl
  · rfl
@[simp] theorem State.issueFill_links (s : State) : (s.issueFill).links = s.links := by
  unfold State.issueFill; split
  · split <;> rfl
  · rfl
@[simp] theorem State.issueFill_tags (s : State) : (s.issueFill).tags = s.tags := by
  unfold State.issueFill; split
  · split <;> rfl
  · rfl
@[simp] theorem State.issueFill_responses (s : State) : (s.issueFill).responses = s.responses := by
  unfold State.issueFill; split
  · split <;> rfl
  · rfl
@[simp] theorem State.issueFill_presented (s : State) : (s.issueFill).presented = s.presented := by
  unfold State.issueFill; split
  · split <;> rfl
  · rfl
@[simp] theorem State.issueFill_linkClosed (s : State) : (s.issueFill).linkClosed = s.linkClosed := by
  unfold State.issueFill; split
  · split <;> rfl
  · rfl
@[simp] theorem State.issueFill_resetLow (s : State) : (s.issueFill).resetLow = s.resetLow := by
  unfold State.issueFill; split
  · split <;> rfl
  · rfl
@[simp] theorem State.issueFill_parked (s : State) : (s.issueFill).parked = s.parked := by
  unfold State.issueFill; split
  · split <;> rfl
  · rfl
@[simp] theorem State.issueFill_events (s : State) : (s.issueFill).events = s.events := by
  unfold State.issueFill; split
  · split <;> rfl
  · rfl
@[simp] theorem State.issueFill_sequence (s : State) : (s.issueFill).sequence = s.sequence := by
  unfold State.issueFill; split
  · split <;> rfl
  · rfl
@[simp] theorem State.issueFill_lost (s : State) : (s.issueFill).lost = s.lost := by
  unfold State.issueFill; split
  · split <;> rfl
  · rfl
@[simp] theorem State.issueFill_clock (s : State) : (s.issueFill).clock = s.clock := by
  unfold State.issueFill; split
  · split <;> rfl
  · rfl
@[simp] theorem State.issueFill_frame (s : State) : (s.issueFill).frame = s.frame := by
  unfold State.issueFill; split
  · split <;> rfl
  · rfl
@[simp] theorem State.issueFill_frameHeld (s : State) : (s.issueFill).frameHeld = s.frameHeld := by
  unfold State.issueFill; split
  · split <;> rfl
  · rfl
@[simp] theorem State.issueFill_fillError (s : State) : (s.issueFill).fillError = s.fillError := by
  unfold State.issueFill; split
  · split <;> rfl
  · rfl
@[simp] theorem State.issueFill_pending (s : State) : (s.issueFill).pending = s.pending := by
  unfold State.issueFill; split
  · split <;> rfl
  · rfl

/-! ### `State.beginSegment` -/

@[simp] theorem State.beginSegment_banks (s : State) (b : BankId) (g : Segment) : (s.beginSegment b g).banks = s.banks := rfl
@[simp] theorem State.beginSegment_global (s : State) (b : BankId) (g : Segment) : (s.beginSegment b g).global = s.global := rfl
@[simp] theorem State.beginSegment_unitsHeld (s : State) (b : BankId) (g : Segment) : (s.beginSegment b g).unitsHeld = s.unitsHeld := rfl
@[simp] theorem State.beginSegment_waitList (s : State) (b : BankId) (g : Segment) : (s.beginSegment b g).waitList = s.waitList := rfl
@[simp] theorem State.beginSegment_fillQueue (s : State) (b : BankId) (g : Segment) : (s.beginSegment b g).fillQueue = s.fillQueue := rfl
@[simp] theorem State.beginSegment_windows (s : State) (b : BankId) (g : Segment) : (s.beginSegment b g).windows = s.windows := rfl
@[simp] theorem State.beginSegment_links (s : State) (b : BankId) (g : Segment) : (s.beginSegment b g).links = s.links := rfl
@[simp] theorem State.beginSegment_tags (s : State) (b : BankId) (g : Segment) : (s.beginSegment b g).tags = s.tags := rfl
@[simp] theorem State.beginSegment_responses (s : State) (b : BankId) (g : Segment) : (s.beginSegment b g).responses = s.responses := rfl
@[simp] theorem State.beginSegment_presented (s : State) (b : BankId) (g : Segment) : (s.beginSegment b g).presented = s.presented := rfl
@[simp] theorem State.beginSegment_linkClosed (s : State) (b : BankId) (g : Segment) : (s.beginSegment b g).linkClosed = s.linkClosed := rfl
@[simp] theorem State.beginSegment_resetLow (s : State) (b : BankId) (g : Segment) : (s.beginSegment b g).resetLow = s.resetLow := rfl
@[simp] theorem State.beginSegment_parked (s : State) (b : BankId) (g : Segment) : (s.beginSegment b g).parked = s.parked := rfl
@[simp] theorem State.beginSegment_events (s : State) (b : BankId) (g : Segment) : (s.beginSegment b g).events = s.events := rfl
@[simp] theorem State.beginSegment_sequence (s : State) (b : BankId) (g : Segment) : (s.beginSegment b g).sequence = s.sequence := rfl
@[simp] theorem State.beginSegment_lost (s : State) (b : BankId) (g : Segment) : (s.beginSegment b g).lost = s.lost := rfl
@[simp] theorem State.beginSegment_clock (s : State) (b : BankId) (g : Segment) : (s.beginSegment b g).clock = s.clock := rfl
@[simp] theorem State.beginSegment_frame (s : State) (b : BankId) (g : Segment) : (s.beginSegment b g).frame = s.frame := rfl
@[simp] theorem State.beginSegment_frameHeld (s : State) (b : BankId) (g : Segment) : (s.beginSegment b g).frameHeld = s.frameHeld := rfl
@[simp] theorem State.beginSegment_busOut (s : State) (b : BankId) (g : Segment) : (s.beginSegment b g).busOut = s.busOut := rfl
@[simp] theorem State.beginSegment_fillError (s : State) (b : BankId) (g : Segment) : (s.beginSegment b g).fillError = s.fillError := rfl
@[simp] theorem State.beginSegment_pending (s : State) (b : BankId) (g : Segment) : (s.beginSegment b g).pending = s.pending := rfl
@[simp] theorem State.beginSegment_bank (s : State) (b : BankId) (g : Segment) (c : BankId) : (s.beginSegment b g).bank c = s.bank c := by simp only [State.bank, State.beginSegment_banks]

/-! ### `State.joinFill` -/

@[simp] theorem State.joinFill_global (s : State) (b : BankId) : (s.joinFill b).global = s.global := rfl
@[simp] theorem State.joinFill_unitsHeld (s : State) (b : BankId) : (s.joinFill b).unitsHeld = s.unitsHeld := rfl
@[simp] theorem State.joinFill_waitList (s : State) (b : BankId) : (s.joinFill b).waitList = s.waitList := rfl
@[simp] theorem State.joinFill_fill (s : State) (b : BankId) : (s.joinFill b).fill = s.fill := rfl
@[simp] theorem State.joinFill_windows (s : State) (b : BankId) : (s.joinFill b).windows = s.windows := rfl
@[simp] theorem State.joinFill_links (s : State) (b : BankId) : (s.joinFill b).links = s.links := rfl
@[simp] theorem State.joinFill_tags (s : State) (b : BankId) : (s.joinFill b).tags = s.tags := rfl
@[simp] theorem State.joinFill_responses (s : State) (b : BankId) : (s.joinFill b).responses = s.responses := rfl
@[simp] theorem State.joinFill_presented (s : State) (b : BankId) : (s.joinFill b).presented = s.presented := rfl
@[simp] theorem State.joinFill_linkClosed (s : State) (b : BankId) : (s.joinFill b).linkClosed = s.linkClosed := rfl
@[simp] theorem State.joinFill_resetLow (s : State) (b : BankId) : (s.joinFill b).resetLow = s.resetLow := rfl
@[simp] theorem State.joinFill_parked (s : State) (b : BankId) : (s.joinFill b).parked = s.parked := rfl
@[simp] theorem State.joinFill_events (s : State) (b : BankId) : (s.joinFill b).events = s.events := rfl
@[simp] theorem State.joinFill_sequence (s : State) (b : BankId) : (s.joinFill b).sequence = s.sequence := rfl
@[simp] theorem State.joinFill_lost (s : State) (b : BankId) : (s.joinFill b).lost = s.lost := rfl
@[simp] theorem State.joinFill_clock (s : State) (b : BankId) : (s.joinFill b).clock = s.clock := rfl
@[simp] theorem State.joinFill_frame (s : State) (b : BankId) : (s.joinFill b).frame = s.frame := rfl
@[simp] theorem State.joinFill_frameHeld (s : State) (b : BankId) : (s.joinFill b).frameHeld = s.frameHeld := rfl
@[simp] theorem State.joinFill_busOut (s : State) (b : BankId) : (s.joinFill b).busOut = s.busOut := rfl
@[simp] theorem State.joinFill_fillError (s : State) (b : BankId) : (s.joinFill b).fillError = s.fillError := rfl
@[simp] theorem State.joinFill_pending (s : State) (b : BankId) : (s.joinFill b).pending = s.pending := rfl
theorem State.joinFill_bank (s : State) (b : BankId) (c : BankId) :
    (s.joinFill b).bank c = (s.updBank b fun k => { k with power := .filling }).bank c := rfl

/-! ### `State.releaseUnits` -/

@[simp] theorem State.releaseUnits_global (s : State) (b : BankId) : (s.releaseUnits b).global = s.global := rfl
@[simp] theorem State.releaseUnits_waitList (s : State) (b : BankId) : (s.releaseUnits b).waitList = s.waitList := rfl
@[simp] theorem State.releaseUnits_fillQueue (s : State) (b : BankId) : (s.releaseUnits b).fillQueue = s.fillQueue := rfl
@[simp] theorem State.releaseUnits_fill (s : State) (b : BankId) : (s.releaseUnits b).fill = s.fill := rfl
@[simp] theorem State.releaseUnits_windows (s : State) (b : BankId) : (s.releaseUnits b).windows = s.windows := rfl
@[simp] theorem State.releaseUnits_links (s : State) (b : BankId) : (s.releaseUnits b).links = s.links := rfl
@[simp] theorem State.releaseUnits_tags (s : State) (b : BankId) : (s.releaseUnits b).tags = s.tags := rfl
@[simp] theorem State.releaseUnits_responses (s : State) (b : BankId) : (s.releaseUnits b).responses = s.responses := rfl
@[simp] theorem State.releaseUnits_presented (s : State) (b : BankId) : (s.releaseUnits b).presented = s.presented := rfl
@[simp] theorem State.releaseUnits_linkClosed (s : State) (b : BankId) : (s.releaseUnits b).linkClosed = s.linkClosed := rfl
@[simp] theorem State.releaseUnits_resetLow (s : State) (b : BankId) : (s.releaseUnits b).resetLow = s.resetLow := rfl
@[simp] theorem State.releaseUnits_parked (s : State) (b : BankId) : (s.releaseUnits b).parked = s.parked := rfl
@[simp] theorem State.releaseUnits_events (s : State) (b : BankId) : (s.releaseUnits b).events = s.events := rfl
@[simp] theorem State.releaseUnits_sequence (s : State) (b : BankId) : (s.releaseUnits b).sequence = s.sequence := rfl
@[simp] theorem State.releaseUnits_lost (s : State) (b : BankId) : (s.releaseUnits b).lost = s.lost := rfl
@[simp] theorem State.releaseUnits_clock (s : State) (b : BankId) : (s.releaseUnits b).clock = s.clock := rfl
@[simp] theorem State.releaseUnits_frame (s : State) (b : BankId) : (s.releaseUnits b).frame = s.frame := rfl
@[simp] theorem State.releaseUnits_frameHeld (s : State) (b : BankId) : (s.releaseUnits b).frameHeld = s.frameHeld := rfl
@[simp] theorem State.releaseUnits_busOut (s : State) (b : BankId) : (s.releaseUnits b).busOut = s.busOut := rfl
@[simp] theorem State.releaseUnits_fillError (s : State) (b : BankId) : (s.releaseUnits b).fillError = s.fillError := rfl
@[simp] theorem State.releaseUnits_pending (s : State) (b : BankId) : (s.releaseUnits b).pending = s.pending := rfl
theorem State.releaseUnits_bank (s : State) (b : BankId) (c : BankId) :
    (s.releaseUnits b).bank c = (s.updBank b fun k => { k with charge := 0 }).bank c := rfl

/-! ### `State.endRamp` -/

@[simp] theorem State.endRamp_global (s : State) (b : BankId) : (s.endRamp b).global = s.global := rfl
@[simp] theorem State.endRamp_waitList (s : State) (b : BankId) : (s.endRamp b).waitList = s.waitList := rfl
@[simp] theorem State.endRamp_fillQueue (s : State) (b : BankId) : (s.endRamp b).fillQueue = s.fillQueue := rfl
@[simp] theorem State.endRamp_fill (s : State) (b : BankId) : (s.endRamp b).fill = s.fill := rfl
@[simp] theorem State.endRamp_windows (s : State) (b : BankId) : (s.endRamp b).windows = s.windows := rfl
@[simp] theorem State.endRamp_links (s : State) (b : BankId) : (s.endRamp b).links = s.links := rfl
@[simp] theorem State.endRamp_tags (s : State) (b : BankId) : (s.endRamp b).tags = s.tags := rfl
@[simp] theorem State.endRamp_responses (s : State) (b : BankId) : (s.endRamp b).responses = s.responses := rfl
@[simp] theorem State.endRamp_presented (s : State) (b : BankId) : (s.endRamp b).presented = s.presented := rfl
@[simp] theorem State.endRamp_linkClosed (s : State) (b : BankId) : (s.endRamp b).linkClosed = s.linkClosed := rfl
@[simp] theorem State.endRamp_resetLow (s : State) (b : BankId) : (s.endRamp b).resetLow = s.resetLow := rfl
@[simp] theorem State.endRamp_parked (s : State) (b : BankId) : (s.endRamp b).parked = s.parked := rfl
@[simp] theorem State.endRamp_events (s : State) (b : BankId) : (s.endRamp b).events = s.events := rfl
@[simp] theorem State.endRamp_sequence (s : State) (b : BankId) : (s.endRamp b).sequence = s.sequence := rfl
@[simp] theorem State.endRamp_lost (s : State) (b : BankId) : (s.endRamp b).lost = s.lost := rfl
@[simp] theorem State.endRamp_clock (s : State) (b : BankId) : (s.endRamp b).clock = s.clock := rfl
@[simp] theorem State.endRamp_frame (s : State) (b : BankId) : (s.endRamp b).frame = s.frame := rfl
@[simp] theorem State.endRamp_frameHeld (s : State) (b : BankId) : (s.endRamp b).frameHeld = s.frameHeld := rfl
@[simp] theorem State.endRamp_busOut (s : State) (b : BankId) : (s.endRamp b).busOut = s.busOut := rfl
@[simp] theorem State.endRamp_fillError (s : State) (b : BankId) : (s.endRamp b).fillError = s.fillError := rfl
@[simp] theorem State.endRamp_pending (s : State) (b : BankId) : (s.endRamp b).pending = s.pending := rfl

/-! ### `State.grantWake` -/

@[simp] theorem State.grantWake_global (s : State) (b : BankId) (rest : List BankId) : (s.grantWake b rest).global = s.global := rfl
@[simp] theorem State.grantWake_fillQueue (s : State) (b : BankId) (rest : List BankId) : (s.grantWake b rest).fillQueue = s.fillQueue := rfl
@[simp] theorem State.grantWake_fill (s : State) (b : BankId) (rest : List BankId) : (s.grantWake b rest).fill = s.fill := rfl
@[simp] theorem State.grantWake_windows (s : State) (b : BankId) (rest : List BankId) : (s.grantWake b rest).windows = s.windows := rfl
@[simp] theorem State.grantWake_links (s : State) (b : BankId) (rest : List BankId) : (s.grantWake b rest).links = s.links := rfl
@[simp] theorem State.grantWake_tags (s : State) (b : BankId) (rest : List BankId) : (s.grantWake b rest).tags = s.tags := rfl
@[simp] theorem State.grantWake_responses (s : State) (b : BankId) (rest : List BankId) : (s.grantWake b rest).responses = s.responses := rfl
@[simp] theorem State.grantWake_presented (s : State) (b : BankId) (rest : List BankId) : (s.grantWake b rest).presented = s.presented := rfl
@[simp] theorem State.grantWake_linkClosed (s : State) (b : BankId) (rest : List BankId) : (s.grantWake b rest).linkClosed = s.linkClosed := rfl
@[simp] theorem State.grantWake_resetLow (s : State) (b : BankId) (rest : List BankId) : (s.grantWake b rest).resetLow = s.resetLow := rfl
@[simp] theorem State.grantWake_parked (s : State) (b : BankId) (rest : List BankId) : (s.grantWake b rest).parked = s.parked := rfl
@[simp] theorem State.grantWake_events (s : State) (b : BankId) (rest : List BankId) : (s.grantWake b rest).events = s.events := rfl
@[simp] theorem State.grantWake_sequence (s : State) (b : BankId) (rest : List BankId) : (s.grantWake b rest).sequence = s.sequence := rfl
@[simp] theorem State.grantWake_lost (s : State) (b : BankId) (rest : List BankId) : (s.grantWake b rest).lost = s.lost := rfl
@[simp] theorem State.grantWake_clock (s : State) (b : BankId) (rest : List BankId) : (s.grantWake b rest).clock = s.clock := rfl
@[simp] theorem State.grantWake_frame (s : State) (b : BankId) (rest : List BankId) : (s.grantWake b rest).frame = s.frame := rfl
@[simp] theorem State.grantWake_frameHeld (s : State) (b : BankId) (rest : List BankId) : (s.grantWake b rest).frameHeld = s.frameHeld := rfl
@[simp] theorem State.grantWake_busOut (s : State) (b : BankId) (rest : List BankId) : (s.grantWake b rest).busOut = s.busOut := rfl
@[simp] theorem State.grantWake_fillError (s : State) (b : BankId) (rest : List BankId) : (s.grantWake b rest).fillError = s.fillError := rfl
@[simp] theorem State.grantWake_pending (s : State) (b : BankId) (rest : List BankId) : (s.grantWake b rest).pending = s.pending := rfl
theorem State.grantWake_bank (s : State) (b : BankId) (rest : List BankId) (c : BankId) :
    (s.grantWake b rest).bank c = (s.updBank b fun k => k.granted (s.bank b).wakeCost).bank c := rfl

/-! ### `State.joinWait` -/

@[simp] theorem State.joinWait_global (s : State) (b : BankId) : (s.joinWait b).global = s.global := rfl
@[simp] theorem State.joinWait_unitsHeld (s : State) (b : BankId) : (s.joinWait b).unitsHeld = s.unitsHeld := rfl
@[simp] theorem State.joinWait_fillQueue (s : State) (b : BankId) : (s.joinWait b).fillQueue = s.fillQueue := rfl
@[simp] theorem State.joinWait_fill (s : State) (b : BankId) : (s.joinWait b).fill = s.fill := rfl
@[simp] theorem State.joinWait_windows (s : State) (b : BankId) : (s.joinWait b).windows = s.windows := rfl
@[simp] theorem State.joinWait_links (s : State) (b : BankId) : (s.joinWait b).links = s.links := rfl
@[simp] theorem State.joinWait_tags (s : State) (b : BankId) : (s.joinWait b).tags = s.tags := rfl
@[simp] theorem State.joinWait_responses (s : State) (b : BankId) : (s.joinWait b).responses = s.responses := rfl
@[simp] theorem State.joinWait_presented (s : State) (b : BankId) : (s.joinWait b).presented = s.presented := rfl
@[simp] theorem State.joinWait_linkClosed (s : State) (b : BankId) : (s.joinWait b).linkClosed = s.linkClosed := rfl
@[simp] theorem State.joinWait_resetLow (s : State) (b : BankId) : (s.joinWait b).resetLow = s.resetLow := rfl
@[simp] theorem State.joinWait_parked (s : State) (b : BankId) : (s.joinWait b).parked = s.parked := rfl
@[simp] theorem State.joinWait_events (s : State) (b : BankId) : (s.joinWait b).events = s.events := rfl
@[simp] theorem State.joinWait_sequence (s : State) (b : BankId) : (s.joinWait b).sequence = s.sequence := rfl
@[simp] theorem State.joinWait_lost (s : State) (b : BankId) : (s.joinWait b).lost = s.lost := rfl
@[simp] theorem State.joinWait_clock (s : State) (b : BankId) : (s.joinWait b).clock = s.clock := rfl
@[simp] theorem State.joinWait_frame (s : State) (b : BankId) : (s.joinWait b).frame = s.frame := rfl
@[simp] theorem State.joinWait_frameHeld (s : State) (b : BankId) : (s.joinWait b).frameHeld = s.frameHeld := rfl
@[simp] theorem State.joinWait_busOut (s : State) (b : BankId) : (s.joinWait b).busOut = s.busOut := rfl
@[simp] theorem State.joinWait_fillError (s : State) (b : BankId) : (s.joinWait b).fillError = s.fillError := rfl
@[simp] theorem State.joinWait_pending (s : State) (b : BankId) : (s.joinWait b).pending = s.pending := rfl
theorem State.joinWait_bank (s : State) (b : BankId) (c : BankId) :
    (s.joinWait b).bank c = (s.updBank b Bank.woken).bank c := rfl

/-! ### `State.hardDraining` -/

@[simp] theorem State.hardDraining_global (s : State) (b : BankId) (t : RestTarget) : (s.hardDraining b t).global = s.global := rfl
@[simp] theorem State.hardDraining_unitsHeld (s : State) (b : BankId) (t : RestTarget) : (s.hardDraining b t).unitsHeld = s.unitsHeld := rfl
@[simp] theorem State.hardDraining_waitList (s : State) (b : BankId) (t : RestTarget) : (s.hardDraining b t).waitList = s.waitList := rfl
@[simp] theorem State.hardDraining_windows (s : State) (b : BankId) (t : RestTarget) : (s.hardDraining b t).windows = s.windows := rfl
@[simp] theorem State.hardDraining_links (s : State) (b : BankId) (t : RestTarget) : (s.hardDraining b t).links = s.links := rfl
@[simp] theorem State.hardDraining_tags (s : State) (b : BankId) (t : RestTarget) : (s.hardDraining b t).tags = s.tags := rfl
@[simp] theorem State.hardDraining_responses (s : State) (b : BankId) (t : RestTarget) : (s.hardDraining b t).responses = s.responses := rfl
@[simp] theorem State.hardDraining_presented (s : State) (b : BankId) (t : RestTarget) : (s.hardDraining b t).presented = s.presented := rfl
@[simp] theorem State.hardDraining_linkClosed (s : State) (b : BankId) (t : RestTarget) : (s.hardDraining b t).linkClosed = s.linkClosed := rfl
@[simp] theorem State.hardDraining_resetLow (s : State) (b : BankId) (t : RestTarget) : (s.hardDraining b t).resetLow = s.resetLow := rfl
@[simp] theorem State.hardDraining_parked (s : State) (b : BankId) (t : RestTarget) : (s.hardDraining b t).parked = s.parked := rfl
@[simp] theorem State.hardDraining_events (s : State) (b : BankId) (t : RestTarget) : (s.hardDraining b t).events = s.events := rfl
@[simp] theorem State.hardDraining_sequence (s : State) (b : BankId) (t : RestTarget) : (s.hardDraining b t).sequence = s.sequence := rfl
@[simp] theorem State.hardDraining_lost (s : State) (b : BankId) (t : RestTarget) : (s.hardDraining b t).lost = s.lost := rfl
@[simp] theorem State.hardDraining_clock (s : State) (b : BankId) (t : RestTarget) : (s.hardDraining b t).clock = s.clock := rfl
@[simp] theorem State.hardDraining_frame (s : State) (b : BankId) (t : RestTarget) : (s.hardDraining b t).frame = s.frame := rfl
@[simp] theorem State.hardDraining_frameHeld (s : State) (b : BankId) (t : RestTarget) : (s.hardDraining b t).frameHeld = s.frameHeld := rfl
@[simp] theorem State.hardDraining_busOut (s : State) (b : BankId) (t : RestTarget) : (s.hardDraining b t).busOut = s.busOut := rfl
@[simp] theorem State.hardDraining_fillError (s : State) (b : BankId) (t : RestTarget) : (s.hardDraining b t).fillError = s.fillError := rfl
@[simp] theorem State.hardDraining_pending (s : State) (b : BankId) (t : RestTarget) : (s.hardDraining b t).pending = s.pending := rfl
theorem State.hardDraining_bank (s : State) (b : BankId) (t : RestTarget) (c : BankId) :
    (s.hardDraining b t).bank c = (s.updBank b fun k => k.draining .hard t).bank c := rfl

/-! ### `State.toFault` -/

@[simp] theorem State.toFault_global (s : State) (b : BankId) : (s.toFault b).global = s.global := rfl
@[simp] theorem State.toFault_unitsHeld (s : State) (b : BankId) : (s.toFault b).unitsHeld = s.unitsHeld := rfl
@[simp] theorem State.toFault_waitList (s : State) (b : BankId) : (s.toFault b).waitList = s.waitList := rfl
@[simp] theorem State.toFault_windows (s : State) (b : BankId) : (s.toFault b).windows = s.windows := rfl
@[simp] theorem State.toFault_links (s : State) (b : BankId) : (s.toFault b).links = s.links := rfl
@[simp] theorem State.toFault_tags (s : State) (b : BankId) : (s.toFault b).tags = s.tags := rfl
@[simp] theorem State.toFault_responses (s : State) (b : BankId) : (s.toFault b).responses = s.responses := rfl
@[simp] theorem State.toFault_presented (s : State) (b : BankId) : (s.toFault b).presented = s.presented := rfl
@[simp] theorem State.toFault_linkClosed (s : State) (b : BankId) : (s.toFault b).linkClosed = s.linkClosed := rfl
@[simp] theorem State.toFault_resetLow (s : State) (b : BankId) : (s.toFault b).resetLow = s.resetLow := rfl
@[simp] theorem State.toFault_parked (s : State) (b : BankId) : (s.toFault b).parked = s.parked := rfl
@[simp] theorem State.toFault_events (s : State) (b : BankId) : (s.toFault b).events = s.events := rfl
@[simp] theorem State.toFault_sequence (s : State) (b : BankId) : (s.toFault b).sequence = s.sequence := rfl
@[simp] theorem State.toFault_lost (s : State) (b : BankId) : (s.toFault b).lost = s.lost := rfl
@[simp] theorem State.toFault_clock (s : State) (b : BankId) : (s.toFault b).clock = s.clock := rfl
@[simp] theorem State.toFault_frame (s : State) (b : BankId) : (s.toFault b).frame = s.frame := rfl
@[simp] theorem State.toFault_frameHeld (s : State) (b : BankId) : (s.toFault b).frameHeld = s.frameHeld := rfl
@[simp] theorem State.toFault_busOut (s : State) (b : BankId) : (s.toFault b).busOut = s.busOut := rfl
@[simp] theorem State.toFault_fillError (s : State) (b : BankId) : (s.toFault b).fillError = s.fillError := rfl
@[simp] theorem State.toFault_pending (s : State) (b : BankId) : (s.toFault b).pending = s.pending := rfl
theorem State.toFault_bank (s : State) (b : BankId) (c : BankId) :
    (s.toFault b).bank c = (s.updBank b Bank.faulted).bank c := rfl

/-! ### `State.failAttempt` -/

@[simp] theorem State.failAttempt_global (s : State) (b : BankId) : (s.failAttempt b).global = s.global := rfl
@[simp] theorem State.failAttempt_waitList (s : State) (b : BankId) : (s.failAttempt b).waitList = s.waitList := rfl
@[simp] theorem State.failAttempt_fillQueue (s : State) (b : BankId) : (s.failAttempt b).fillQueue = s.fillQueue := rfl
@[simp] theorem State.failAttempt_fill (s : State) (b : BankId) : (s.failAttempt b).fill = s.fill := rfl
@[simp] theorem State.failAttempt_windows (s : State) (b : BankId) : (s.failAttempt b).windows = s.windows := rfl
@[simp] theorem State.failAttempt_links (s : State) (b : BankId) : (s.failAttempt b).links = s.links := rfl
@[simp] theorem State.failAttempt_tags (s : State) (b : BankId) : (s.failAttempt b).tags = s.tags := rfl
@[simp] theorem State.failAttempt_responses (s : State) (b : BankId) : (s.failAttempt b).responses = s.responses := rfl
@[simp] theorem State.failAttempt_presented (s : State) (b : BankId) : (s.failAttempt b).presented = s.presented := rfl
@[simp] theorem State.failAttempt_linkClosed (s : State) (b : BankId) : (s.failAttempt b).linkClosed = s.linkClosed := rfl
@[simp] theorem State.failAttempt_resetLow (s : State) (b : BankId) : (s.failAttempt b).resetLow = s.resetLow := rfl
@[simp] theorem State.failAttempt_parked (s : State) (b : BankId) : (s.failAttempt b).parked = s.parked := rfl
@[simp] theorem State.failAttempt_events (s : State) (b : BankId) : (s.failAttempt b).events = s.events := rfl
@[simp] theorem State.failAttempt_sequence (s : State) (b : BankId) : (s.failAttempt b).sequence = s.sequence := rfl
@[simp] theorem State.failAttempt_lost (s : State) (b : BankId) : (s.failAttempt b).lost = s.lost := rfl
@[simp] theorem State.failAttempt_clock (s : State) (b : BankId) : (s.failAttempt b).clock = s.clock := rfl
@[simp] theorem State.failAttempt_frame (s : State) (b : BankId) : (s.failAttempt b).frame = s.frame := rfl
@[simp] theorem State.failAttempt_frameHeld (s : State) (b : BankId) : (s.failAttempt b).frameHeld = s.frameHeld := rfl
@[simp] theorem State.failAttempt_busOut (s : State) (b : BankId) : (s.failAttempt b).busOut = s.busOut := rfl
@[simp] theorem State.failAttempt_fillError (s : State) (b : BankId) : (s.failAttempt b).fillError = s.fillError := rfl
@[simp] theorem State.failAttempt_pending (s : State) (b : BankId) : (s.failAttempt b).pending = s.pending := rfl

/-! ### `State.rejoinWait` -/

@[simp] theorem State.rejoinWait_global (s : State) (b : BankId) : (s.rejoinWait b).global = s.global := rfl
@[simp] theorem State.rejoinWait_unitsHeld (s : State) (b : BankId) : (s.rejoinWait b).unitsHeld = s.unitsHeld := rfl
@[simp] theorem State.rejoinWait_fillQueue (s : State) (b : BankId) : (s.rejoinWait b).fillQueue = s.fillQueue := rfl
@[simp] theorem State.rejoinWait_fill (s : State) (b : BankId) : (s.rejoinWait b).fill = s.fill := rfl
@[simp] theorem State.rejoinWait_windows (s : State) (b : BankId) : (s.rejoinWait b).windows = s.windows := rfl
@[simp] theorem State.rejoinWait_links (s : State) (b : BankId) : (s.rejoinWait b).links = s.links := rfl
@[simp] theorem State.rejoinWait_tags (s : State) (b : BankId) : (s.rejoinWait b).tags = s.tags := rfl
@[simp] theorem State.rejoinWait_responses (s : State) (b : BankId) : (s.rejoinWait b).responses = s.responses := rfl
@[simp] theorem State.rejoinWait_presented (s : State) (b : BankId) : (s.rejoinWait b).presented = s.presented := rfl
@[simp] theorem State.rejoinWait_linkClosed (s : State) (b : BankId) : (s.rejoinWait b).linkClosed = s.linkClosed := rfl
@[simp] theorem State.rejoinWait_resetLow (s : State) (b : BankId) : (s.rejoinWait b).resetLow = s.resetLow := rfl
@[simp] theorem State.rejoinWait_parked (s : State) (b : BankId) : (s.rejoinWait b).parked = s.parked := rfl
@[simp] theorem State.rejoinWait_events (s : State) (b : BankId) : (s.rejoinWait b).events = s.events := rfl
@[simp] theorem State.rejoinWait_sequence (s : State) (b : BankId) : (s.rejoinWait b).sequence = s.sequence := rfl
@[simp] theorem State.rejoinWait_lost (s : State) (b : BankId) : (s.rejoinWait b).lost = s.lost := rfl
@[simp] theorem State.rejoinWait_clock (s : State) (b : BankId) : (s.rejoinWait b).clock = s.clock := rfl
@[simp] theorem State.rejoinWait_frame (s : State) (b : BankId) : (s.rejoinWait b).frame = s.frame := rfl
@[simp] theorem State.rejoinWait_frameHeld (s : State) (b : BankId) : (s.rejoinWait b).frameHeld = s.frameHeld := rfl
@[simp] theorem State.rejoinWait_busOut (s : State) (b : BankId) : (s.rejoinWait b).busOut = s.busOut := rfl
@[simp] theorem State.rejoinWait_fillError (s : State) (b : BankId) : (s.rejoinWait b).fillError = s.fillError := rfl
@[simp] theorem State.rejoinWait_pending (s : State) (b : BankId) : (s.rejoinWait b).pending = s.pending := rfl
theorem State.rejoinWait_bank (s : State) (b : BankId) (c : BankId) :
    (s.rejoinWait b).bank c = (s.updBank b fun k => { k with power := .waiting }).bank c := rfl

/-! ### `State.begin` -/

@[simp] theorem State.begin_banks (s : State) : (s.begin).banks = s.banks := rfl
@[simp] theorem State.begin_global (s : State) : (s.begin).global = s.global := rfl
@[simp] theorem State.begin_unitsHeld (s : State) : (s.begin).unitsHeld = s.unitsHeld := rfl
@[simp] theorem State.begin_waitList (s : State) : (s.begin).waitList = s.waitList := rfl
@[simp] theorem State.begin_fillQueue (s : State) : (s.begin).fillQueue = s.fillQueue := rfl
@[simp] theorem State.begin_fill (s : State) : (s.begin).fill = s.fill := rfl
@[simp] theorem State.begin_windows (s : State) : (s.begin).windows = s.windows := rfl
@[simp] theorem State.begin_links (s : State) : (s.begin).links = s.links := rfl
@[simp] theorem State.begin_tags (s : State) : (s.begin).tags = s.tags := rfl
@[simp] theorem State.begin_responses (s : State) : (s.begin).responses = s.responses := rfl
@[simp] theorem State.begin_presented (s : State) : (s.begin).presented = s.presented := rfl
@[simp] theorem State.begin_linkClosed (s : State) : (s.begin).linkClosed = s.linkClosed := rfl
@[simp] theorem State.begin_resetLow (s : State) : (s.begin).resetLow = s.resetLow := rfl
@[simp] theorem State.begin_parked (s : State) : (s.begin).parked = s.parked := rfl
@[simp] theorem State.begin_events (s : State) : (s.begin).events = s.events := rfl
@[simp] theorem State.begin_sequence (s : State) : (s.begin).sequence = s.sequence := rfl
@[simp] theorem State.begin_lost (s : State) : (s.begin).lost = s.lost := rfl
@[simp] theorem State.begin_clock (s : State) : (s.begin).clock = s.clock := rfl
@[simp] theorem State.begin_frame (s : State) : (s.begin).frame = s.frame := rfl
@[simp] theorem State.begin_frameHeld (s : State) : (s.begin).frameHeld = s.frameHeld := rfl
@[simp] theorem State.begin_pending (s : State) : (s.begin).pending = s.pending := rfl
@[simp] theorem State.begin_bank (s : State) (c : BankId) : (s.begin).bank c = s.bank c := by simp only [State.bank, State.begin_banks]

/-! ### `State.shown` -/

@[simp] theorem State.shown_banks (s : State) (v : Option Request) : (s.shown v).banks = s.banks := rfl
@[simp] theorem State.shown_global (s : State) (v : Option Request) : (s.shown v).global = s.global := rfl
@[simp] theorem State.shown_unitsHeld (s : State) (v : Option Request) : (s.shown v).unitsHeld = s.unitsHeld := rfl
@[simp] theorem State.shown_waitList (s : State) (v : Option Request) : (s.shown v).waitList = s.waitList := rfl
@[simp] theorem State.shown_fillQueue (s : State) (v : Option Request) : (s.shown v).fillQueue = s.fillQueue := rfl
@[simp] theorem State.shown_fill (s : State) (v : Option Request) : (s.shown v).fill = s.fill := rfl
@[simp] theorem State.shown_windows (s : State) (v : Option Request) : (s.shown v).windows = s.windows := rfl
@[simp] theorem State.shown_links (s : State) (v : Option Request) : (s.shown v).links = s.links := rfl
@[simp] theorem State.shown_tags (s : State) (v : Option Request) : (s.shown v).tags = s.tags := rfl
@[simp] theorem State.shown_responses (s : State) (v : Option Request) : (s.shown v).responses = s.responses := rfl
@[simp] theorem State.shown_linkClosed (s : State) (v : Option Request) : (s.shown v).linkClosed = s.linkClosed := rfl
@[simp] theorem State.shown_resetLow (s : State) (v : Option Request) : (s.shown v).resetLow = s.resetLow := rfl
@[simp] theorem State.shown_parked (s : State) (v : Option Request) : (s.shown v).parked = s.parked := rfl
@[simp] theorem State.shown_events (s : State) (v : Option Request) : (s.shown v).events = s.events := rfl
@[simp] theorem State.shown_sequence (s : State) (v : Option Request) : (s.shown v).sequence = s.sequence := rfl
@[simp] theorem State.shown_lost (s : State) (v : Option Request) : (s.shown v).lost = s.lost := rfl
@[simp] theorem State.shown_clock (s : State) (v : Option Request) : (s.shown v).clock = s.clock := rfl
@[simp] theorem State.shown_frame (s : State) (v : Option Request) : (s.shown v).frame = s.frame := rfl
@[simp] theorem State.shown_frameHeld (s : State) (v : Option Request) : (s.shown v).frameHeld = s.frameHeld := rfl
@[simp] theorem State.shown_pending (s : State) (v : Option Request) : (s.shown v).pending = s.pending := rfl
@[simp] theorem State.shown_bank (s : State) (v : Option Request) (c : BankId) : (s.shown v).bank c = s.bank c := by simp only [State.bank, State.shown_banks]

/-! ### `State.ticked` -/

@[simp] theorem State.ticked_global (s : State) : (s.ticked).global = s.global := rfl
@[simp] theorem State.ticked_unitsHeld (s : State) : (s.ticked).unitsHeld = s.unitsHeld := rfl
@[simp] theorem State.ticked_waitList (s : State) : (s.ticked).waitList = s.waitList := rfl
@[simp] theorem State.ticked_fillQueue (s : State) : (s.ticked).fillQueue = s.fillQueue := rfl
@[simp] theorem State.ticked_fill (s : State) : (s.ticked).fill = s.fill := rfl
@[simp] theorem State.ticked_windows (s : State) : (s.ticked).windows = s.windows := rfl
@[simp] theorem State.ticked_links (s : State) : (s.ticked).links = s.links := rfl
@[simp] theorem State.ticked_tags (s : State) : (s.ticked).tags = s.tags := rfl
@[simp] theorem State.ticked_responses (s : State) : (s.ticked).responses = s.responses := rfl
@[simp] theorem State.ticked_presented (s : State) : (s.ticked).presented = s.presented := rfl
@[simp] theorem State.ticked_linkClosed (s : State) : (s.ticked).linkClosed = s.linkClosed := rfl
@[simp] theorem State.ticked_resetLow (s : State) : (s.ticked).resetLow = s.resetLow := rfl
@[simp] theorem State.ticked_events (s : State) : (s.ticked).events = s.events := rfl
@[simp] theorem State.ticked_sequence (s : State) : (s.ticked).sequence = s.sequence := rfl
@[simp] theorem State.ticked_lost (s : State) : (s.ticked).lost = s.lost := rfl
@[simp] theorem State.ticked_frame (s : State) : (s.ticked).frame = s.frame := rfl
@[simp] theorem State.ticked_frameHeld (s : State) : (s.ticked).frameHeld = s.frameHeld := rfl
@[simp] theorem State.ticked_busOut (s : State) : (s.ticked).busOut = s.busOut := rfl
@[simp] theorem State.ticked_fillError (s : State) : (s.ticked).fillError = s.fillError := rfl
@[simp] theorem State.ticked_pending (s : State) : (s.ticked).pending = s.pending := rfl

/-! ### `State.cycled` -/

@[simp] theorem State.cycled_global (s : State) : (s.cycled).global = s.global := by
  unfold State.cycled; split
  · rfl
  · split <;> rfl
@[simp] theorem State.cycled_unitsHeld (s : State) : (s.cycled).unitsHeld = s.unitsHeld := by
  unfold State.cycled; split
  · rfl
  · split <;> rfl
@[simp] theorem State.cycled_waitList (s : State) : (s.cycled).waitList = s.waitList := by
  unfold State.cycled; split
  · rfl
  · split <;> rfl
@[simp] theorem State.cycled_fillQueue (s : State) : (s.cycled).fillQueue = s.fillQueue := by
  unfold State.cycled; split
  · rfl
  · split <;> rfl
@[simp] theorem State.cycled_fill (s : State) : (s.cycled).fill = s.fill := by
  unfold State.cycled; split
  · rfl
  · split <;> rfl
@[simp] theorem State.cycled_windows (s : State) : (s.cycled).windows = s.windows := by
  unfold State.cycled; split
  · rfl
  · split <;> rfl
@[simp] theorem State.cycled_links (s : State) : (s.cycled).links = s.links := by
  unfold State.cycled; split
  · rfl
  · split <;> rfl
@[simp] theorem State.cycled_tags (s : State) : (s.cycled).tags = s.tags := by
  unfold State.cycled; split
  · rfl
  · split <;> rfl
@[simp] theorem State.cycled_responses (s : State) : (s.cycled).responses = s.responses := by
  unfold State.cycled; split
  · rfl
  · split <;> rfl
@[simp] theorem State.cycled_presented (s : State) : (s.cycled).presented = s.presented := by
  unfold State.cycled; split
  · rfl
  · split <;> rfl
@[simp] theorem State.cycled_linkClosed (s : State) : (s.cycled).linkClosed = s.linkClosed := by
  unfold State.cycled; split
  · rfl
  · split <;> rfl
@[simp] theorem State.cycled_resetLow (s : State) : (s.cycled).resetLow = s.resetLow := by
  unfold State.cycled; split
  · rfl
  · split <;> rfl
@[simp] theorem State.cycled_events (s : State) : (s.cycled).events = s.events := by
  unfold State.cycled; split
  · rfl
  · split <;> rfl
@[simp] theorem State.cycled_sequence (s : State) : (s.cycled).sequence = s.sequence := by
  unfold State.cycled; split
  · rfl
  · split <;> rfl
@[simp] theorem State.cycled_lost (s : State) : (s.cycled).lost = s.lost := by
  unfold State.cycled; split
  · rfl
  · split <;> rfl
@[simp] theorem State.cycled_frame (s : State) : (s.cycled).frame = s.frame := by
  unfold State.cycled; split
  · rfl
  · split <;> rfl
@[simp] theorem State.cycled_frameHeld (s : State) : (s.cycled).frameHeld = s.frameHeld := by
  unfold State.cycled; split
  · rfl
  · split <;> rfl
@[simp] theorem State.cycled_busOut (s : State) : (s.cycled).busOut = s.busOut := by
  unfold State.cycled; split
  · rfl
  · split <;> rfl
@[simp] theorem State.cycled_fillError (s : State) : (s.cycled).fillError = s.fillError := by
  unfold State.cycled; split
  · rfl
  · split <;> rfl
@[simp] theorem State.cycled_pending (s : State) : (s.cycled).pending = s.pending := by
  unfold State.cycled; split
  · rfl
  · split <;> rfl

/-! ### `State.idle` -/

@[simp] theorem State.idle_global (s : State) : (s.idle).global = s.global := by simp [State.idle]
@[simp] theorem State.idle_unitsHeld (s : State) : (s.idle).unitsHeld = s.unitsHeld := by simp [State.idle]
@[simp] theorem State.idle_waitList (s : State) : (s.idle).waitList = s.waitList := by simp [State.idle]
@[simp] theorem State.idle_fillQueue (s : State) : (s.idle).fillQueue = s.fillQueue := by simp [State.idle]
@[simp] theorem State.idle_fill (s : State) : (s.idle).fill = s.fill := by simp [State.idle]
@[simp] theorem State.idle_windows (s : State) : (s.idle).windows = s.windows := by simp [State.idle]
@[simp] theorem State.idle_links (s : State) : (s.idle).links = s.links := by simp [State.idle]
@[simp] theorem State.idle_tags (s : State) : (s.idle).tags = s.tags := by simp [State.idle]
@[simp] theorem State.idle_responses (s : State) : (s.idle).responses = s.responses := by simp [State.idle]
@[simp] theorem State.idle_presented (s : State) : (s.idle).presented = s.presented := by simp [State.idle]
@[simp] theorem State.idle_linkClosed (s : State) : (s.idle).linkClosed = s.linkClosed := by simp [State.idle]
@[simp] theorem State.idle_resetLow (s : State) : (s.idle).resetLow = s.resetLow := by simp [State.idle]
@[simp] theorem State.idle_events (s : State) : (s.idle).events = s.events := by simp [State.idle]
@[simp] theorem State.idle_sequence (s : State) : (s.idle).sequence = s.sequence := by simp [State.idle]
@[simp] theorem State.idle_lost (s : State) : (s.idle).lost = s.lost := by simp [State.idle]
@[simp] theorem State.idle_frame (s : State) : (s.idle).frame = s.frame := by simp [State.idle]
@[simp] theorem State.idle_frameHeld (s : State) : (s.idle).frameHeld = s.frameHeld := by simp [State.idle]
@[simp] theorem State.idle_pending (s : State) : (s.idle).pending = s.pending := by simp [State.idle]

/-! ### `State.setWindow` -/

@[simp] theorem State.setWindow_banks (s : State) (i : WindowId) (wc : WindowConfig) : (s.setWindow i wc).banks = s.banks := rfl
@[simp] theorem State.setWindow_global (s : State) (i : WindowId) (wc : WindowConfig) : (s.setWindow i wc).global = s.global := rfl
@[simp] theorem State.setWindow_unitsHeld (s : State) (i : WindowId) (wc : WindowConfig) : (s.setWindow i wc).unitsHeld = s.unitsHeld := rfl
@[simp] theorem State.setWindow_waitList (s : State) (i : WindowId) (wc : WindowConfig) : (s.setWindow i wc).waitList = s.waitList := rfl
@[simp] theorem State.setWindow_fillQueue (s : State) (i : WindowId) (wc : WindowConfig) : (s.setWindow i wc).fillQueue = s.fillQueue := rfl
@[simp] theorem State.setWindow_fill (s : State) (i : WindowId) (wc : WindowConfig) : (s.setWindow i wc).fill = s.fill := rfl
@[simp] theorem State.setWindow_links (s : State) (i : WindowId) (wc : WindowConfig) : (s.setWindow i wc).links = s.links := rfl
@[simp] theorem State.setWindow_tags (s : State) (i : WindowId) (wc : WindowConfig) : (s.setWindow i wc).tags = s.tags := rfl
@[simp] theorem State.setWindow_responses (s : State) (i : WindowId) (wc : WindowConfig) : (s.setWindow i wc).responses = s.responses := rfl
@[simp] theorem State.setWindow_presented (s : State) (i : WindowId) (wc : WindowConfig) : (s.setWindow i wc).presented = s.presented := rfl
@[simp] theorem State.setWindow_linkClosed (s : State) (i : WindowId) (wc : WindowConfig) : (s.setWindow i wc).linkClosed = s.linkClosed := rfl
@[simp] theorem State.setWindow_resetLow (s : State) (i : WindowId) (wc : WindowConfig) : (s.setWindow i wc).resetLow = s.resetLow := rfl
@[simp] theorem State.setWindow_parked (s : State) (i : WindowId) (wc : WindowConfig) : (s.setWindow i wc).parked = s.parked := rfl
@[simp] theorem State.setWindow_events (s : State) (i : WindowId) (wc : WindowConfig) : (s.setWindow i wc).events = s.events := rfl
@[simp] theorem State.setWindow_sequence (s : State) (i : WindowId) (wc : WindowConfig) : (s.setWindow i wc).sequence = s.sequence := rfl
@[simp] theorem State.setWindow_lost (s : State) (i : WindowId) (wc : WindowConfig) : (s.setWindow i wc).lost = s.lost := rfl
@[simp] theorem State.setWindow_clock (s : State) (i : WindowId) (wc : WindowConfig) : (s.setWindow i wc).clock = s.clock := rfl
@[simp] theorem State.setWindow_frame (s : State) (i : WindowId) (wc : WindowConfig) : (s.setWindow i wc).frame = s.frame := rfl
@[simp] theorem State.setWindow_frameHeld (s : State) (i : WindowId) (wc : WindowConfig) : (s.setWindow i wc).frameHeld = s.frameHeld := rfl
@[simp] theorem State.setWindow_busOut (s : State) (i : WindowId) (wc : WindowConfig) : (s.setWindow i wc).busOut = s.busOut := rfl
@[simp] theorem State.setWindow_fillError (s : State) (i : WindowId) (wc : WindowConfig) : (s.setWindow i wc).fillError = s.fillError := rfl
@[simp] theorem State.setWindow_pending (s : State) (i : WindowId) (wc : WindowConfig) : (s.setWindow i wc).pending = s.pending := rfl
@[simp] theorem State.setWindow_bank (s : State) (i : WindowId) (wc : WindowConfig) (c : BankId) : (s.setWindow i wc).bank c = s.bank c := by simp only [State.bank, State.setWindow_banks]

/-! ### `State.cutOffFill` -/

@[simp] theorem State.cutOffFill_banks (s : State) (b : BankId) (n m : Nat) : (s.cutOffFill b n m).banks = s.banks := by
  unfold State.cutOffFill; split
  · split <;> rfl
  · rfl
@[simp] theorem State.cutOffFill_global (s : State) (b : BankId) (n m : Nat) : (s.cutOffFill b n m).global = s.global := by
  unfold State.cutOffFill; split
  · split <;> rfl
  · rfl
@[simp] theorem State.cutOffFill_unitsHeld (s : State) (b : BankId) (n m : Nat) : (s.cutOffFill b n m).unitsHeld = s.unitsHeld := by
  unfold State.cutOffFill; split
  · split <;> rfl
  · rfl
@[simp] theorem State.cutOffFill_waitList (s : State) (b : BankId) (n m : Nat) : (s.cutOffFill b n m).waitList = s.waitList := by
  unfold State.cutOffFill; split
  · split <;> rfl
  · rfl
@[simp] theorem State.cutOffFill_fillQueue (s : State) (b : BankId) (n m : Nat) : (s.cutOffFill b n m).fillQueue = s.fillQueue := by
  unfold State.cutOffFill; split
  · split <;> rfl
  · rfl
@[simp] theorem State.cutOffFill_windows (s : State) (b : BankId) (n m : Nat) : (s.cutOffFill b n m).windows = s.windows := by
  unfold State.cutOffFill; split
  · split <;> rfl
  · rfl
@[simp] theorem State.cutOffFill_links (s : State) (b : BankId) (n m : Nat) : (s.cutOffFill b n m).links = s.links := by
  unfold State.cutOffFill; split
  · split <;> rfl
  · rfl
@[simp] theorem State.cutOffFill_tags (s : State) (b : BankId) (n m : Nat) : (s.cutOffFill b n m).tags = s.tags := by
  unfold State.cutOffFill; split
  · split <;> rfl
  · rfl
@[simp] theorem State.cutOffFill_responses (s : State) (b : BankId) (n m : Nat) : (s.cutOffFill b n m).responses = s.responses := by
  unfold State.cutOffFill; split
  · split <;> rfl
  · rfl
@[simp] theorem State.cutOffFill_presented (s : State) (b : BankId) (n m : Nat) : (s.cutOffFill b n m).presented = s.presented := by
  unfold State.cutOffFill; split
  · split <;> rfl
  · rfl
@[simp] theorem State.cutOffFill_linkClosed (s : State) (b : BankId) (n m : Nat) : (s.cutOffFill b n m).linkClosed = s.linkClosed := by
  unfold State.cutOffFill; split
  · split <;> rfl
  · rfl
@[simp] theorem State.cutOffFill_resetLow (s : State) (b : BankId) (n m : Nat) : (s.cutOffFill b n m).resetLow = s.resetLow := by
  unfold State.cutOffFill; split
  · split <;> rfl
  · rfl
@[simp] theorem State.cutOffFill_parked (s : State) (b : BankId) (n m : Nat) : (s.cutOffFill b n m).parked = s.parked := by
  unfold State.cutOffFill; split
  · split <;> rfl
  · rfl
@[simp] theorem State.cutOffFill_events (s : State) (b : BankId) (n m : Nat) : (s.cutOffFill b n m).events = s.events := by
  unfold State.cutOffFill; split
  · split <;> rfl
  · rfl
@[simp] theorem State.cutOffFill_sequence (s : State) (b : BankId) (n m : Nat) : (s.cutOffFill b n m).sequence = s.sequence := by
  unfold State.cutOffFill; split
  · split <;> rfl
  · rfl
@[simp] theorem State.cutOffFill_lost (s : State) (b : BankId) (n m : Nat) : (s.cutOffFill b n m).lost = s.lost := by
  unfold State.cutOffFill; split
  · split <;> rfl
  · rfl
@[simp] theorem State.cutOffFill_clock (s : State) (b : BankId) (n m : Nat) : (s.cutOffFill b n m).clock = s.clock := by
  unfold State.cutOffFill; split
  · split <;> rfl
  · rfl
@[simp] theorem State.cutOffFill_frame (s : State) (b : BankId) (n m : Nat) : (s.cutOffFill b n m).frame = s.frame := by
  unfold State.cutOffFill; split
  · split <;> rfl
  · rfl
@[simp] theorem State.cutOffFill_frameHeld (s : State) (b : BankId) (n m : Nat) : (s.cutOffFill b n m).frameHeld = s.frameHeld := by
  unfold State.cutOffFill; split
  · split <;> rfl
  · rfl
@[simp] theorem State.cutOffFill_busOut (s : State) (b : BankId) (n m : Nat) : (s.cutOffFill b n m).busOut = s.busOut := by
  unfold State.cutOffFill; split
  · split <;> rfl
  · rfl
@[simp] theorem State.cutOffFill_fillError (s : State) (b : BankId) (n m : Nat) : (s.cutOffFill b n m).fillError = s.fillError := by
  unfold State.cutOffFill; split
  · split <;> rfl
  · rfl
@[simp] theorem State.cutOffFill_pending (s : State) (b : BankId) (n m : Nat) : (s.cutOffFill b n m).pending = s.pending := by
  unfold State.cutOffFill; split
  · split <;> rfl
  · rfl
@[simp] theorem State.cutOffFill_bank (s : State) (b : BankId) (n m : Nat) (c : BankId) : (s.cutOffFill b n m).bank c = s.bank c := by simp only [State.bank, State.cutOffFill_banks]

/-! ### `State.closeLink` -/

@[simp] theorem State.closeLink_banks (s : State) : (s.closeLink).banks = s.banks := rfl
@[simp] theorem State.closeLink_global (s : State) : (s.closeLink).global = s.global := rfl
@[simp] theorem State.closeLink_unitsHeld (s : State) : (s.closeLink).unitsHeld = s.unitsHeld := rfl
@[simp] theorem State.closeLink_waitList (s : State) : (s.closeLink).waitList = s.waitList := rfl
@[simp] theorem State.closeLink_fillQueue (s : State) : (s.closeLink).fillQueue = s.fillQueue := rfl
@[simp] theorem State.closeLink_fill (s : State) : (s.closeLink).fill = s.fill := rfl
@[simp] theorem State.closeLink_links (s : State) : (s.closeLink).links = s.links := rfl
@[simp] theorem State.closeLink_presented (s : State) : (s.closeLink).presented = s.presented := rfl
@[simp] theorem State.closeLink_resetLow (s : State) : (s.closeLink).resetLow = s.resetLow := rfl
@[simp] theorem State.closeLink_parked (s : State) : (s.closeLink).parked = s.parked := rfl
@[simp] theorem State.closeLink_events (s : State) : (s.closeLink).events = s.events := rfl
@[simp] theorem State.closeLink_sequence (s : State) : (s.closeLink).sequence = s.sequence := rfl
@[simp] theorem State.closeLink_lost (s : State) : (s.closeLink).lost = s.lost := rfl
@[simp] theorem State.closeLink_clock (s : State) : (s.closeLink).clock = s.clock := rfl
@[simp] theorem State.closeLink_frame (s : State) : (s.closeLink).frame = s.frame := rfl
@[simp] theorem State.closeLink_frameHeld (s : State) : (s.closeLink).frameHeld = s.frameHeld := rfl
@[simp] theorem State.closeLink_busOut (s : State) : (s.closeLink).busOut = s.busOut := rfl
@[simp] theorem State.closeLink_fillError (s : State) : (s.closeLink).fillError = s.fillError := rfl
@[simp] theorem State.closeLink_pending (s : State) : (s.closeLink).pending = s.pending := rfl
@[simp] theorem State.closeLink_bank (s : State) (c : BankId) : (s.closeLink).bank c = s.bank c := by simp only [State.bank, State.closeLink_banks]

@[simp] theorem State.dropRequests_global (s : State) : s.dropRequests.global = s.global :=
  (State.mapBanks_global _ _).trans ((State.setParked_global _ _).trans (State.closeLink_global _))
@[simp] theorem State.dropRequests_unitsHeld (s : State) : s.dropRequests.unitsHeld = s.unitsHeld :=
  (State.mapBanks_unitsHeld _ _).trans ((State.setParked_unitsHeld _ _).trans (State.closeLink_unitsHeld _))
@[simp] theorem State.dropRequests_waitList (s : State) : s.dropRequests.waitList = s.waitList :=
  (State.mapBanks_waitList _ _).trans ((State.setParked_waitList _ _).trans (State.closeLink_waitList _))
@[simp] theorem State.dropRequests_fillQueue (s : State) : s.dropRequests.fillQueue = s.fillQueue :=
  (State.mapBanks_fillQueue _ _).trans ((State.setParked_fillQueue _ _).trans (State.closeLink_fillQueue _))
@[simp] theorem State.dropRequests_fill (s : State) : s.dropRequests.fill = s.fill :=
  (State.mapBanks_fill _ _).trans ((State.setParked_fill _ _).trans (State.closeLink_fill _))
@[simp] theorem State.dropRequests_links (s : State) : s.dropRequests.links = s.links :=
  (State.mapBanks_links _ _).trans ((State.setParked_links _ _).trans (State.closeLink_links _))
@[simp] theorem State.dropRequests_presented (s : State) : s.dropRequests.presented = s.presented :=
  (State.mapBanks_presented _ _).trans ((State.setParked_presented _ _).trans (State.closeLink_presented _))
@[simp] theorem State.dropRequests_resetLow (s : State) : s.dropRequests.resetLow = s.resetLow :=
  (State.mapBanks_resetLow _ _).trans ((State.setParked_resetLow _ _).trans (State.closeLink_resetLow _))
@[simp] theorem State.dropRequests_events (s : State) : s.dropRequests.events = s.events :=
  (State.mapBanks_events _ _).trans ((State.setParked_events _ _).trans (State.closeLink_events _))
@[simp] theorem State.dropRequests_sequence (s : State) : s.dropRequests.sequence = s.sequence :=
  (State.mapBanks_sequence _ _).trans ((State.setParked_sequence _ _).trans (State.closeLink_sequence _))
@[simp] theorem State.dropRequests_lost (s : State) : s.dropRequests.lost = s.lost :=
  (State.mapBanks_lost _ _).trans ((State.setParked_lost _ _).trans (State.closeLink_lost _))
@[simp] theorem State.dropRequests_clock (s : State) : s.dropRequests.clock = s.clock :=
  (State.mapBanks_clock _ _).trans ((State.setParked_clock _ _).trans (State.closeLink_clock _))
@[simp] theorem State.dropRequests_frame (s : State) : s.dropRequests.frame = s.frame :=
  (State.mapBanks_frame _ _).trans ((State.setParked_frame _ _).trans (State.closeLink_frame _))
@[simp] theorem State.dropRequests_frameHeld (s : State) : s.dropRequests.frameHeld = s.frameHeld :=
  (State.mapBanks_frameHeld _ _).trans ((State.setParked_frameHeld _ _).trans (State.closeLink_frameHeld _))
@[simp] theorem State.dropRequests_busOut (s : State) : s.dropRequests.busOut = s.busOut :=
  (State.mapBanks_busOut _ _).trans ((State.setParked_busOut _ _).trans (State.closeLink_busOut _))
@[simp] theorem State.dropRequests_fillError (s : State) : s.dropRequests.fillError = s.fillError :=
  (State.mapBanks_fillError _ _).trans ((State.setParked_fillError _ _).trans (State.closeLink_fillError _))
@[simp] theorem State.dropRequests_pending (s : State) : s.dropRequests.pending = s.pending :=
  (State.mapBanks_pending _ _).trans ((State.setParked_pending _ _).trans (State.closeLink_pending _))

/-! ### `Bank.withPort` -/

@[simp] theorem Bank.withPort_power (k : Bank) (f : Port → Port) : (k.withPort f).power = k.power := rfl
@[simp] theorem Bank.withPort_wakeKind (k : Bank) (f : Port → Port) : (k.withPort f).wakeKind = k.wakeKind := rfl
@[simp] theorem Bank.withPort_attempts (k : Bank) (f : Port → Port) : (k.withPort f).attempts = k.attempts := rfl
@[simp] theorem Bank.withPort_rampStage (k : Bank) (f : Port → Port) : (k.withPort f).rampStage = k.rampStage := rfl
@[simp] theorem Bank.withPort_drainKind (k : Bank) (f : Port → Port) : (k.withPort f).drainKind = k.drainKind := rfl
@[simp] theorem Bank.withPort_drainTarget (k : Bank) (f : Port → Port) : (k.withPort f).drainTarget = k.drainTarget := rfl
@[simp] theorem Bank.withPort_dwellTimer (k : Bank) (f : Port → Port) : (k.withPort f).dwellTimer = k.dwellTimer := rfl
@[simp] theorem Bank.withPort_wakeTimer (k : Bank) (f : Port → Port) : (k.withPort f).wakeTimer = k.wakeTimer := rfl
@[simp] theorem Bank.withPort_idleTimer (k : Bank) (f : Port → Port) : (k.withPort f).idleTimer = k.idleTimer := rfl
@[simp] theorem Bank.withPort_retainTimer (k : Bank) (f : Port → Port) : (k.withPort f).retainTimer = k.retainTimer := rfl
@[simp] theorem Bank.withPort_pgood (k : Bank) (f : Port → Port) : (k.withPort f).pgood = k.pgood := rfl
@[simp] theorem Bank.withPort_config (k : Bank) (f : Port → Port) : (k.withPort f).config = k.config := rfl
@[simp] theorem Bank.withPort_charge (k : Bank) (f : Port → Port) : (k.withPort f).charge = k.charge := rfl
@[simp] theorem Bank.withPort_marks (k : Bank) (f : Port → Port) : (k.withPort f).marks = k.marks := rfl

/-! ### `Bank.withFill` -/

@[simp] theorem Bank.withFill_power (k : Bank) (x : Slot) : (k.withFill x).power = k.power := rfl
@[simp] theorem Bank.withFill_wakeKind (k : Bank) (x : Slot) : (k.withFill x).wakeKind = k.wakeKind := rfl
@[simp] theorem Bank.withFill_attempts (k : Bank) (x : Slot) : (k.withFill x).attempts = k.attempts := rfl
@[simp] theorem Bank.withFill_rampStage (k : Bank) (x : Slot) : (k.withFill x).rampStage = k.rampStage := rfl
@[simp] theorem Bank.withFill_drainKind (k : Bank) (x : Slot) : (k.withFill x).drainKind = k.drainKind := rfl
@[simp] theorem Bank.withFill_drainTarget (k : Bank) (x : Slot) : (k.withFill x).drainTarget = k.drainTarget := rfl
@[simp] theorem Bank.withFill_dwellTimer (k : Bank) (x : Slot) : (k.withFill x).dwellTimer = k.dwellTimer := rfl
@[simp] theorem Bank.withFill_wakeTimer (k : Bank) (x : Slot) : (k.withFill x).wakeTimer = k.wakeTimer := rfl
@[simp] theorem Bank.withFill_idleTimer (k : Bank) (x : Slot) : (k.withFill x).idleTimer = k.idleTimer := rfl
@[simp] theorem Bank.withFill_retainTimer (k : Bank) (x : Slot) : (k.withFill x).retainTimer = k.retainTimer := rfl
@[simp] theorem Bank.withFill_pgood (k : Bank) (x : Slot) : (k.withFill x).pgood = k.pgood := rfl
@[simp] theorem Bank.withFill_config (k : Bank) (x : Slot) : (k.withFill x).config = k.config := rfl
@[simp] theorem Bank.withFill_charge (k : Bank) (x : Slot) : (k.withFill x).charge = k.charge := rfl
@[simp] theorem Bank.withFill_marks (k : Bank) (x : Slot) : (k.withFill x).marks = k.marks := rfl

/-! ### `Bank.loseAll` -/

@[simp] theorem Bank.loseAll_power (k : Bank) : (k.loseAll).power = k.power := rfl
@[simp] theorem Bank.loseAll_wakeKind (k : Bank) : (k.loseAll).wakeKind = k.wakeKind := rfl
@[simp] theorem Bank.loseAll_attempts (k : Bank) : (k.loseAll).attempts = k.attempts := rfl
@[simp] theorem Bank.loseAll_rampStage (k : Bank) : (k.loseAll).rampStage = k.rampStage := rfl
@[simp] theorem Bank.loseAll_drainKind (k : Bank) : (k.loseAll).drainKind = k.drainKind := rfl
@[simp] theorem Bank.loseAll_drainTarget (k : Bank) : (k.loseAll).drainTarget = k.drainTarget := rfl
@[simp] theorem Bank.loseAll_dwellTimer (k : Bank) : (k.loseAll).dwellTimer = k.dwellTimer := rfl
@[simp] theorem Bank.loseAll_wakeTimer (k : Bank) : (k.loseAll).wakeTimer = k.wakeTimer := rfl
@[simp] theorem Bank.loseAll_idleTimer (k : Bank) : (k.loseAll).idleTimer = k.idleTimer := rfl
@[simp] theorem Bank.loseAll_retainTimer (k : Bank) : (k.loseAll).retainTimer = k.retainTimer := rfl
@[simp] theorem Bank.loseAll_pgood (k : Bank) : (k.loseAll).pgood = k.pgood := rfl
@[simp] theorem Bank.loseAll_config (k : Bank) : (k.loseAll).config = k.config := rfl
@[simp] theorem Bank.loseAll_charge (k : Bank) : (k.loseAll).charge = k.charge := rfl
@[simp] theorem Bank.loseAll_port (k : Bank) : (k.loseAll).port = k.port := rfl

/-! ### `Bank.markRange` -/

@[simp] theorem Bank.markRange_power (k : Bank) (i n : Nat) (x : Mark) : (k.markRange i n x).power = k.power := by rw [Bank.markRange]
@[simp] theorem Bank.markRange_wakeKind (k : Bank) (i n : Nat) (x : Mark) : (k.markRange i n x).wakeKind = k.wakeKind := by rw [Bank.markRange]
@[simp] theorem Bank.markRange_attempts (k : Bank) (i n : Nat) (x : Mark) : (k.markRange i n x).attempts = k.attempts := by rw [Bank.markRange]
@[simp] theorem Bank.markRange_rampStage (k : Bank) (i n : Nat) (x : Mark) : (k.markRange i n x).rampStage = k.rampStage := by rw [Bank.markRange]
@[simp] theorem Bank.markRange_drainKind (k : Bank) (i n : Nat) (x : Mark) : (k.markRange i n x).drainKind = k.drainKind := by rw [Bank.markRange]
@[simp] theorem Bank.markRange_drainTarget (k : Bank) (i n : Nat) (x : Mark) : (k.markRange i n x).drainTarget = k.drainTarget := by rw [Bank.markRange]
@[simp] theorem Bank.markRange_dwellTimer (k : Bank) (i n : Nat) (x : Mark) : (k.markRange i n x).dwellTimer = k.dwellTimer := by rw [Bank.markRange]
@[simp] theorem Bank.markRange_wakeTimer (k : Bank) (i n : Nat) (x : Mark) : (k.markRange i n x).wakeTimer = k.wakeTimer := by rw [Bank.markRange]
@[simp] theorem Bank.markRange_idleTimer (k : Bank) (i n : Nat) (x : Mark) : (k.markRange i n x).idleTimer = k.idleTimer := by rw [Bank.markRange]
@[simp] theorem Bank.markRange_retainTimer (k : Bank) (i n : Nat) (x : Mark) : (k.markRange i n x).retainTimer = k.retainTimer := by rw [Bank.markRange]
@[simp] theorem Bank.markRange_pgood (k : Bank) (i n : Nat) (x : Mark) : (k.markRange i n x).pgood = k.pgood := by rw [Bank.markRange]
@[simp] theorem Bank.markRange_config (k : Bank) (i n : Nat) (x : Mark) : (k.markRange i n x).config = k.config := by rw [Bank.markRange]
@[simp] theorem Bank.markRange_charge (k : Bank) (i n : Nat) (x : Mark) : (k.markRange i n x).charge = k.charge := by rw [Bank.markRange]
@[simp] theorem Bank.markRange_port (k : Bank) (i n : Nat) (x : Mark) : (k.markRange i n x).port = k.port := by rw [Bank.markRange]

/-! ### `Bank.loadIdle` -/

@[simp] theorem Bank.loadIdle_power (k : Bank) (n : Nat) : (k.loadIdle n).power = k.power := rfl
@[simp] theorem Bank.loadIdle_wakeKind (k : Bank) (n : Nat) : (k.loadIdle n).wakeKind = k.wakeKind := rfl
@[simp] theorem Bank.loadIdle_attempts (k : Bank) (n : Nat) : (k.loadIdle n).attempts = k.attempts := rfl
@[simp] theorem Bank.loadIdle_rampStage (k : Bank) (n : Nat) : (k.loadIdle n).rampStage = k.rampStage := rfl
@[simp] theorem Bank.loadIdle_drainKind (k : Bank) (n : Nat) : (k.loadIdle n).drainKind = k.drainKind := rfl
@[simp] theorem Bank.loadIdle_drainTarget (k : Bank) (n : Nat) : (k.loadIdle n).drainTarget = k.drainTarget := rfl
@[simp] theorem Bank.loadIdle_dwellTimer (k : Bank) (n : Nat) : (k.loadIdle n).dwellTimer = k.dwellTimer := rfl
@[simp] theorem Bank.loadIdle_wakeTimer (k : Bank) (n : Nat) : (k.loadIdle n).wakeTimer = k.wakeTimer := rfl
@[simp] theorem Bank.loadIdle_retainTimer (k : Bank) (n : Nat) : (k.loadIdle n).retainTimer = k.retainTimer := rfl
@[simp] theorem Bank.loadIdle_pgood (k : Bank) (n : Nat) : (k.loadIdle n).pgood = k.pgood := rfl
@[simp] theorem Bank.loadIdle_config (k : Bank) (n : Nat) : (k.loadIdle n).config = k.config := rfl
@[simp] theorem Bank.loadIdle_charge (k : Bank) (n : Nat) : (k.loadIdle n).charge = k.charge := rfl
@[simp] theorem Bank.loadIdle_marks (k : Bank) (n : Nat) : (k.loadIdle n).marks = k.marks := rfl
@[simp] theorem Bank.loadIdle_port (k : Bank) (n : Nat) : (k.loadIdle n).port = k.port := rfl

/-! ### `Bank.reloadIdle` -/

@[simp] theorem Bank.reloadIdle_power (k : Bank) : (k.reloadIdle).power = k.power := by
  unfold Bank.reloadIdle; split
  · split <;> rfl
  · rfl
@[simp] theorem Bank.reloadIdle_wakeKind (k : Bank) : (k.reloadIdle).wakeKind = k.wakeKind := by
  unfold Bank.reloadIdle; split
  · split <;> rfl
  · rfl
@[simp] theorem Bank.reloadIdle_attempts (k : Bank) : (k.reloadIdle).attempts = k.attempts := by
  unfold Bank.reloadIdle; split
  · split <;> rfl
  · rfl
@[simp] theorem Bank.reloadIdle_rampStage (k : Bank) : (k.reloadIdle).rampStage = k.rampStage := by
  unfold Bank.reloadIdle; split
  · split <;> rfl
  · rfl
@[simp] theorem Bank.reloadIdle_drainKind (k : Bank) : (k.reloadIdle).drainKind = k.drainKind := by
  unfold Bank.reloadIdle; split
  · split <;> rfl
  · rfl
@[simp] theorem Bank.reloadIdle_drainTarget (k : Bank) : (k.reloadIdle).drainTarget = k.drainTarget := by
  unfold Bank.reloadIdle; split
  · split <;> rfl
  · rfl
@[simp] theorem Bank.reloadIdle_dwellTimer (k : Bank) : (k.reloadIdle).dwellTimer = k.dwellTimer := by
  unfold Bank.reloadIdle; split
  · split <;> rfl
  · rfl
@[simp] theorem Bank.reloadIdle_wakeTimer (k : Bank) : (k.reloadIdle).wakeTimer = k.wakeTimer := by
  unfold Bank.reloadIdle; split
  · split <;> rfl
  · rfl
@[simp] theorem Bank.reloadIdle_retainTimer (k : Bank) : (k.reloadIdle).retainTimer = k.retainTimer := by
  unfold Bank.reloadIdle; split
  · split <;> rfl
  · rfl
@[simp] theorem Bank.reloadIdle_pgood (k : Bank) : (k.reloadIdle).pgood = k.pgood := by
  unfold Bank.reloadIdle; split
  · split <;> rfl
  · rfl
@[simp] theorem Bank.reloadIdle_config (k : Bank) : (k.reloadIdle).config = k.config := by
  unfold Bank.reloadIdle; split
  · split <;> rfl
  · rfl
@[simp] theorem Bank.reloadIdle_charge (k : Bank) : (k.reloadIdle).charge = k.charge := by
  unfold Bank.reloadIdle; split
  · split <;> rfl
  · rfl
@[simp] theorem Bank.reloadIdle_marks (k : Bank) : (k.reloadIdle).marks = k.marks := by
  unfold Bank.reloadIdle; split
  · split <;> rfl
  · rfl
@[simp] theorem Bank.reloadIdle_port (k : Bank) : (k.reloadIdle).port = k.port := by
  unfold Bank.reloadIdle; split
  · split <;> rfl
  · rfl

/-! ### `Bank.syncIdle` -/

@[simp] theorem Bank.syncIdle_power (k : Bank) (n : Nat) : (k.syncIdle n).power = k.power := by
  unfold Bank.syncIdle; split
  · split <;> (try split) <;> rfl
  · rfl
@[simp] theorem Bank.syncIdle_wakeKind (k : Bank) (n : Nat) : (k.syncIdle n).wakeKind = k.wakeKind := by
  unfold Bank.syncIdle; split
  · split <;> (try split) <;> rfl
  · rfl
@[simp] theorem Bank.syncIdle_attempts (k : Bank) (n : Nat) : (k.syncIdle n).attempts = k.attempts := by
  unfold Bank.syncIdle; split
  · split <;> (try split) <;> rfl
  · rfl
@[simp] theorem Bank.syncIdle_rampStage (k : Bank) (n : Nat) : (k.syncIdle n).rampStage = k.rampStage := by
  unfold Bank.syncIdle; split
  · split <;> (try split) <;> rfl
  · rfl
@[simp] theorem Bank.syncIdle_drainKind (k : Bank) (n : Nat) : (k.syncIdle n).drainKind = k.drainKind := by
  unfold Bank.syncIdle; split
  · split <;> (try split) <;> rfl
  · rfl
@[simp] theorem Bank.syncIdle_drainTarget (k : Bank) (n : Nat) : (k.syncIdle n).drainTarget = k.drainTarget := by
  unfold Bank.syncIdle; split
  · split <;> (try split) <;> rfl
  · rfl
@[simp] theorem Bank.syncIdle_dwellTimer (k : Bank) (n : Nat) : (k.syncIdle n).dwellTimer = k.dwellTimer := by
  unfold Bank.syncIdle; split
  · split <;> (try split) <;> rfl
  · rfl
@[simp] theorem Bank.syncIdle_wakeTimer (k : Bank) (n : Nat) : (k.syncIdle n).wakeTimer = k.wakeTimer := by
  unfold Bank.syncIdle; split
  · split <;> (try split) <;> rfl
  · rfl
@[simp] theorem Bank.syncIdle_retainTimer (k : Bank) (n : Nat) : (k.syncIdle n).retainTimer = k.retainTimer := by
  unfold Bank.syncIdle; split
  · split <;> (try split) <;> rfl
  · rfl
@[simp] theorem Bank.syncIdle_pgood (k : Bank) (n : Nat) : (k.syncIdle n).pgood = k.pgood := by
  unfold Bank.syncIdle; split
  · split <;> (try split) <;> rfl
  · rfl
@[simp] theorem Bank.syncIdle_config (k : Bank) (n : Nat) : (k.syncIdle n).config = k.config := by
  unfold Bank.syncIdle; split
  · split <;> (try split) <;> rfl
  · rfl
@[simp] theorem Bank.syncIdle_charge (k : Bank) (n : Nat) : (k.syncIdle n).charge = k.charge := by
  unfold Bank.syncIdle; split
  · split <;> (try split) <;> rfl
  · rfl
@[simp] theorem Bank.syncIdle_marks (k : Bank) (n : Nat) : (k.syncIdle n).marks = k.marks := by
  unfold Bank.syncIdle; split
  · split <;> (try split) <;> rfl
  · rfl
@[simp] theorem Bank.syncIdle_port (k : Bank) (n : Nat) : (k.syncIdle n).port = k.port := by
  unfold Bank.syncIdle; split
  · split <;> (try split) <;> rfl
  · rfl

/-! ### `Bank.forwarded` -/

@[simp] theorem Bank.forwarded_power (k : Bank) (x : Slot) : (k.forwarded x).power = k.power := by
  simp [Bank.forwarded]
@[simp] theorem Bank.forwarded_wakeKind (k : Bank) (x : Slot) : (k.forwarded x).wakeKind = k.wakeKind := by
  simp [Bank.forwarded]
@[simp] theorem Bank.forwarded_attempts (k : Bank) (x : Slot) : (k.forwarded x).attempts = k.attempts := by
  simp [Bank.forwarded]
@[simp] theorem Bank.forwarded_rampStage (k : Bank) (x : Slot) : (k.forwarded x).rampStage = k.rampStage := by
  simp [Bank.forwarded]
@[simp] theorem Bank.forwarded_drainKind (k : Bank) (x : Slot) : (k.forwarded x).drainKind = k.drainKind := by
  simp [Bank.forwarded]
@[simp] theorem Bank.forwarded_drainTarget (k : Bank) (x : Slot) : (k.forwarded x).drainTarget = k.drainTarget := by
  simp [Bank.forwarded]
@[simp] theorem Bank.forwarded_dwellTimer (k : Bank) (x : Slot) : (k.forwarded x).dwellTimer = k.dwellTimer := by
  simp [Bank.forwarded]
@[simp] theorem Bank.forwarded_wakeTimer (k : Bank) (x : Slot) : (k.forwarded x).wakeTimer = k.wakeTimer := by
  simp [Bank.forwarded]
@[simp] theorem Bank.forwarded_retainTimer (k : Bank) (x : Slot) : (k.forwarded x).retainTimer = k.retainTimer := by
  simp [Bank.forwarded]
@[simp] theorem Bank.forwarded_pgood (k : Bank) (x : Slot) : (k.forwarded x).pgood = k.pgood := by
  simp [Bank.forwarded]
@[simp] theorem Bank.forwarded_config (k : Bank) (x : Slot) : (k.forwarded x).config = k.config := by
  simp [Bank.forwarded]
@[simp] theorem Bank.forwarded_charge (k : Bank) (x : Slot) : (k.forwarded x).charge = k.charge := by
  simp [Bank.forwarded]
@[simp] theorem Bank.forwarded_marks (k : Bank) (x : Slot) : (k.forwarded x).marks = k.marks := by
  simp [Bank.forwarded]

/-! ### `Bank.turnedOn` -/

@[simp] theorem Bank.turnedOn_wakeKind (k : Bank) (n : Nat) : (k.turnedOn n).wakeKind = k.wakeKind := rfl
@[simp] theorem Bank.turnedOn_attempts (k : Bank) (n : Nat) : (k.turnedOn n).attempts = k.attempts := rfl
@[simp] theorem Bank.turnedOn_rampStage (k : Bank) (n : Nat) : (k.turnedOn n).rampStage = k.rampStage := rfl
@[simp] theorem Bank.turnedOn_dwellTimer (k : Bank) (n : Nat) : (k.turnedOn n).dwellTimer = k.dwellTimer := rfl
@[simp] theorem Bank.turnedOn_wakeTimer (k : Bank) (n : Nat) : (k.turnedOn n).wakeTimer = k.wakeTimer := rfl
@[simp] theorem Bank.turnedOn_retainTimer (k : Bank) (n : Nat) : (k.turnedOn n).retainTimer = k.retainTimer := rfl
@[simp] theorem Bank.turnedOn_pgood (k : Bank) (n : Nat) : (k.turnedOn n).pgood = k.pgood := rfl
@[simp] theorem Bank.turnedOn_config (k : Bank) (n : Nat) : (k.turnedOn n).config = k.config := rfl
@[simp] theorem Bank.turnedOn_charge (k : Bank) (n : Nat) : (k.turnedOn n).charge = k.charge := rfl
@[simp] theorem Bank.turnedOn_marks (k : Bank) (n : Nat) : (k.turnedOn n).marks = k.marks := rfl
@[simp] theorem Bank.turnedOn_port (k : Bank) (n : Nat) : (k.turnedOn n).port = k.port := rfl

/-! ### `Bank.granted` -/

@[simp] theorem Bank.granted_wakeKind (k : Bank) (n : Nat) : (k.granted n).wakeKind = k.wakeKind := rfl
@[simp] theorem Bank.granted_attempts (k : Bank) (n : Nat) : (k.granted n).attempts = k.attempts := rfl
@[simp] theorem Bank.granted_drainKind (k : Bank) (n : Nat) : (k.granted n).drainKind = k.drainKind := rfl
@[simp] theorem Bank.granted_drainTarget (k : Bank) (n : Nat) : (k.granted n).drainTarget = k.drainTarget := rfl
@[simp] theorem Bank.granted_idleTimer (k : Bank) (n : Nat) : (k.granted n).idleTimer = k.idleTimer := rfl
@[simp] theorem Bank.granted_retainTimer (k : Bank) (n : Nat) : (k.granted n).retainTimer = k.retainTimer := rfl
@[simp] theorem Bank.granted_pgood (k : Bank) (n : Nat) : (k.granted n).pgood = k.pgood := rfl
@[simp] theorem Bank.granted_config (k : Bank) (n : Nat) : (k.granted n).config = k.config := rfl
@[simp] theorem Bank.granted_marks (k : Bank) (n : Nat) : (k.granted n).marks = k.marks := rfl
@[simp] theorem Bank.granted_port (k : Bank) (n : Nat) : (k.granted n).port = k.port := rfl

/-! ### `Bank.woken` -/

@[simp] theorem Bank.woken_rampStage (k : Bank) : (k.woken).rampStage = k.rampStage := rfl
@[simp] theorem Bank.woken_drainKind (k : Bank) : (k.woken).drainKind = k.drainKind := rfl
@[simp] theorem Bank.woken_drainTarget (k : Bank) : (k.woken).drainTarget = k.drainTarget := rfl
@[simp] theorem Bank.woken_dwellTimer (k : Bank) : (k.woken).dwellTimer = k.dwellTimer := rfl
@[simp] theorem Bank.woken_wakeTimer (k : Bank) : (k.woken).wakeTimer = k.wakeTimer := rfl
@[simp] theorem Bank.woken_idleTimer (k : Bank) : (k.woken).idleTimer = k.idleTimer := rfl
@[simp] theorem Bank.woken_pgood (k : Bank) : (k.woken).pgood = k.pgood := rfl
@[simp] theorem Bank.woken_config (k : Bank) : (k.woken).config = k.config := rfl
@[simp] theorem Bank.woken_charge (k : Bank) : (k.woken).charge = k.charge := rfl
@[simp] theorem Bank.woken_marks (k : Bank) : (k.woken).marks = k.marks := rfl
@[simp] theorem Bank.woken_port (k : Bank) : (k.woken).port = k.port := rfl

/-! ### `Bank.lowered` -/

@[simp] theorem Bank.lowered_wakeKind (k : Bank) : (k.lowered).wakeKind = k.wakeKind := by
  unfold Bank.lowered; split <;> rfl
@[simp] theorem Bank.lowered_attempts (k : Bank) : (k.lowered).attempts = k.attempts := by
  unfold Bank.lowered; split <;> rfl
@[simp] theorem Bank.lowered_dwellTimer (k : Bank) : (k.lowered).dwellTimer = k.dwellTimer := by
  unfold Bank.lowered; split <;> rfl
@[simp] theorem Bank.lowered_wakeTimer (k : Bank) : (k.lowered).wakeTimer = k.wakeTimer := by
  unfold Bank.lowered; split <;> rfl
@[simp] theorem Bank.lowered_idleTimer (k : Bank) : (k.lowered).idleTimer = k.idleTimer := by
  unfold Bank.lowered; split <;> rfl
@[simp] theorem Bank.lowered_pgood (k : Bank) : (k.lowered).pgood = k.pgood := by
  unfold Bank.lowered; split <;> rfl
@[simp] theorem Bank.lowered_config (k : Bank) : (k.lowered).config = k.config := by
  unfold Bank.lowered; split <;> rfl
@[simp] theorem Bank.lowered_charge (k : Bank) : (k.lowered).charge = k.charge := by
  unfold Bank.lowered; split <;> rfl
@[simp] theorem Bank.lowered_port (k : Bank) : (k.lowered).port = k.port := by
  unfold Bank.lowered; split <;> rfl

/-! ### `Bank.draining` -/

@[simp] theorem Bank.draining_wakeKind (k : Bank) (x : DrainKind) (t : RestTarget) : (k.draining x t).wakeKind = k.wakeKind := rfl
@[simp] theorem Bank.draining_attempts (k : Bank) (x : DrainKind) (t : RestTarget) : (k.draining x t).attempts = k.attempts := rfl
@[simp] theorem Bank.draining_rampStage (k : Bank) (x : DrainKind) (t : RestTarget) : (k.draining x t).rampStage = k.rampStage := rfl
@[simp] theorem Bank.draining_dwellTimer (k : Bank) (x : DrainKind) (t : RestTarget) : (k.draining x t).dwellTimer = k.dwellTimer := rfl
@[simp] theorem Bank.draining_wakeTimer (k : Bank) (x : DrainKind) (t : RestTarget) : (k.draining x t).wakeTimer = k.wakeTimer := rfl
@[simp] theorem Bank.draining_retainTimer (k : Bank) (x : DrainKind) (t : RestTarget) : (k.draining x t).retainTimer = k.retainTimer := rfl
@[simp] theorem Bank.draining_pgood (k : Bank) (x : DrainKind) (t : RestTarget) : (k.draining x t).pgood = k.pgood := rfl
@[simp] theorem Bank.draining_config (k : Bank) (x : DrainKind) (t : RestTarget) : (k.draining x t).config = k.config := rfl
@[simp] theorem Bank.draining_charge (k : Bank) (x : DrainKind) (t : RestTarget) : (k.draining x t).charge = k.charge := rfl
@[simp] theorem Bank.draining_marks (k : Bank) (x : DrainKind) (t : RestTarget) : (k.draining x t).marks = k.marks := rfl
@[simp] theorem Bank.draining_port (k : Bank) (x : DrainKind) (t : RestTarget) : (k.draining x t).port = k.port := rfl

/-! ### `Bank.retainToOff` -/

@[simp] theorem Bank.retainToOff_wakeKind (k : Bank) : (k.retainToOff).wakeKind = k.wakeKind := rfl
@[simp] theorem Bank.retainToOff_attempts (k : Bank) : (k.retainToOff).attempts = k.attempts := rfl
@[simp] theorem Bank.retainToOff_rampStage (k : Bank) : (k.retainToOff).rampStage = k.rampStage := rfl
@[simp] theorem Bank.retainToOff_drainKind (k : Bank) : (k.retainToOff).drainKind = k.drainKind := rfl
@[simp] theorem Bank.retainToOff_drainTarget (k : Bank) : (k.retainToOff).drainTarget = k.drainTarget := rfl
@[simp] theorem Bank.retainToOff_dwellTimer (k : Bank) : (k.retainToOff).dwellTimer = k.dwellTimer := rfl
@[simp] theorem Bank.retainToOff_wakeTimer (k : Bank) : (k.retainToOff).wakeTimer = k.wakeTimer := rfl
@[simp] theorem Bank.retainToOff_idleTimer (k : Bank) : (k.retainToOff).idleTimer = k.idleTimer := rfl
@[simp] theorem Bank.retainToOff_pgood (k : Bank) : (k.retainToOff).pgood = k.pgood := rfl
@[simp] theorem Bank.retainToOff_config (k : Bank) : (k.retainToOff).config = k.config := rfl
@[simp] theorem Bank.retainToOff_charge (k : Bank) : (k.retainToOff).charge = k.charge := rfl
@[simp] theorem Bank.retainToOff_port (k : Bank) : (k.retainToOff).port = k.port := rfl

/-! ### `Bank.faulted` -/

@[simp] theorem Bank.faulted_attempts (k : Bank) : (k.faulted).attempts = k.attempts := rfl
@[simp] theorem Bank.faulted_pgood (k : Bank) : (k.faulted).pgood = k.pgood := rfl
@[simp] theorem Bank.faulted_config (k : Bank) : (k.faulted).config = k.config := rfl
@[simp] theorem Bank.faulted_charge (k : Bank) : (k.faulted).charge = k.charge := rfl

/-! ### `Bank.orphaned` -/

@[simp] theorem Bank.orphaned_power (k : Bank) : (k.orphaned).power = k.power := rfl
@[simp] theorem Bank.orphaned_wakeKind (k : Bank) : (k.orphaned).wakeKind = k.wakeKind := rfl
@[simp] theorem Bank.orphaned_attempts (k : Bank) : (k.orphaned).attempts = k.attempts := rfl
@[simp] theorem Bank.orphaned_rampStage (k : Bank) : (k.orphaned).rampStage = k.rampStage := rfl
@[simp] theorem Bank.orphaned_drainKind (k : Bank) : (k.orphaned).drainKind = k.drainKind := rfl
@[simp] theorem Bank.orphaned_drainTarget (k : Bank) : (k.orphaned).drainTarget = k.drainTarget := rfl
@[simp] theorem Bank.orphaned_dwellTimer (k : Bank) : (k.orphaned).dwellTimer = k.dwellTimer := rfl
@[simp] theorem Bank.orphaned_wakeTimer (k : Bank) : (k.orphaned).wakeTimer = k.wakeTimer := rfl
@[simp] theorem Bank.orphaned_idleTimer (k : Bank) : (k.orphaned).idleTimer = k.idleTimer := rfl
@[simp] theorem Bank.orphaned_retainTimer (k : Bank) : (k.orphaned).retainTimer = k.retainTimer := rfl
@[simp] theorem Bank.orphaned_pgood (k : Bank) : (k.orphaned).pgood = k.pgood := rfl
@[simp] theorem Bank.orphaned_config (k : Bank) : (k.orphaned).config = k.config := rfl
@[simp] theorem Bank.orphaned_charge (k : Bank) : (k.orphaned).charge = k.charge := rfl
@[simp] theorem Bank.orphaned_marks (k : Bank) : (k.orphaned).marks = k.marks := rfl

/-! ### `Bank.tick` -/

@[simp] theorem Bank.tick_power (k : Bank) : (k.tick).power = k.power := rfl
@[simp] theorem Bank.tick_wakeKind (k : Bank) : (k.tick).wakeKind = k.wakeKind := rfl
@[simp] theorem Bank.tick_attempts (k : Bank) : (k.tick).attempts = k.attempts := rfl
@[simp] theorem Bank.tick_rampStage (k : Bank) : (k.tick).rampStage = k.rampStage := rfl
@[simp] theorem Bank.tick_drainKind (k : Bank) : (k.tick).drainKind = k.drainKind := rfl
@[simp] theorem Bank.tick_drainTarget (k : Bank) : (k.tick).drainTarget = k.drainTarget := rfl
@[simp] theorem Bank.tick_pgood (k : Bank) : (k.tick).pgood = k.pgood := rfl
@[simp] theorem Bank.tick_config (k : Bank) : (k.tick).config = k.config := rfl
@[simp] theorem Bank.tick_charge (k : Bank) : (k.tick).charge = k.charge := rfl
@[simp] theorem Bank.tick_marks (k : Bank) : (k.tick).marks = k.marks := rfl
@[simp] theorem Bank.tick_port (k : Bank) : (k.tick).port = k.port := rfl

/-! ### `Bank.nextStage` -/

@[simp] theorem Bank.nextStage_power (k : Bank) : (k.nextStage).power = k.power := rfl
@[simp] theorem Bank.nextStage_wakeKind (k : Bank) : (k.nextStage).wakeKind = k.wakeKind := rfl
@[simp] theorem Bank.nextStage_attempts (k : Bank) : (k.nextStage).attempts = k.attempts := rfl
@[simp] theorem Bank.nextStage_drainKind (k : Bank) : (k.nextStage).drainKind = k.drainKind := rfl
@[simp] theorem Bank.nextStage_drainTarget (k : Bank) : (k.nextStage).drainTarget = k.drainTarget := rfl
@[simp] theorem Bank.nextStage_wakeTimer (k : Bank) : (k.nextStage).wakeTimer = k.wakeTimer := rfl
@[simp] theorem Bank.nextStage_idleTimer (k : Bank) : (k.nextStage).idleTimer = k.idleTimer := rfl
@[simp] theorem Bank.nextStage_retainTimer (k : Bank) : (k.nextStage).retainTimer = k.retainTimer := rfl
@[simp] theorem Bank.nextStage_pgood (k : Bank) : (k.nextStage).pgood = k.pgood := rfl
@[simp] theorem Bank.nextStage_config (k : Bank) : (k.nextStage).config = k.config := rfl
@[simp] theorem Bank.nextStage_charge (k : Bank) : (k.nextStage).charge = k.charge := rfl
@[simp] theorem Bank.nextStage_marks (k : Bank) : (k.nextStage).marks = k.marks := rfl
@[simp] theorem Bank.nextStage_port (k : Bank) : (k.nextStage).port = k.port := rfl

/-! ### `Bank.attemptFailed` -/

@[simp] theorem Bank.attemptFailed_power (k : Bank) : (k.attemptFailed).power = k.power := by
  unfold Bank.attemptFailed; dsimp only; split <;> rfl
@[simp] theorem Bank.attemptFailed_drainKind (k : Bank) : (k.attemptFailed).drainKind = k.drainKind := by
  unfold Bank.attemptFailed; dsimp only; split <;> rfl
@[simp] theorem Bank.attemptFailed_drainTarget (k : Bank) : (k.attemptFailed).drainTarget = k.drainTarget := by
  unfold Bank.attemptFailed; dsimp only; split <;> rfl
@[simp] theorem Bank.attemptFailed_idleTimer (k : Bank) : (k.attemptFailed).idleTimer = k.idleTimer := by
  unfold Bank.attemptFailed; dsimp only; split <;> rfl
@[simp] theorem Bank.attemptFailed_retainTimer (k : Bank) : (k.attemptFailed).retainTimer = k.retainTimer := by
  unfold Bank.attemptFailed; dsimp only; split <;> rfl
@[simp] theorem Bank.attemptFailed_pgood (k : Bank) : (k.attemptFailed).pgood = k.pgood := by
  unfold Bank.attemptFailed; dsimp only; split <;> rfl
@[simp] theorem Bank.attemptFailed_config (k : Bank) : (k.attemptFailed).config = k.config := by
  unfold Bank.attemptFailed; dsimp only; split <;> rfl
@[simp] theorem Bank.attemptFailed_charge (k : Bank) : (k.attemptFailed).charge = k.charge := by
  unfold Bank.attemptFailed; dsimp only; split <;> rfl
@[simp] theorem Bank.attemptFailed_port (k : Bank) : (k.attemptFailed).port = k.port := by
  unfold Bank.attemptFailed; dsimp only; split <;> rfl

/-! ### `Bank.cleared` -/

@[simp] theorem Bank.cleared_wakeKind (k : Bank) : (k.cleared).wakeKind = k.wakeKind := rfl
@[simp] theorem Bank.cleared_rampStage (k : Bank) : (k.cleared).rampStage = k.rampStage := rfl
@[simp] theorem Bank.cleared_drainKind (k : Bank) : (k.cleared).drainKind = k.drainKind := rfl
@[simp] theorem Bank.cleared_drainTarget (k : Bank) : (k.cleared).drainTarget = k.drainTarget := rfl
@[simp] theorem Bank.cleared_dwellTimer (k : Bank) : (k.cleared).dwellTimer = k.dwellTimer := rfl
@[simp] theorem Bank.cleared_wakeTimer (k : Bank) : (k.cleared).wakeTimer = k.wakeTimer := rfl
@[simp] theorem Bank.cleared_idleTimer (k : Bank) : (k.cleared).idleTimer = k.idleTimer := rfl
@[simp] theorem Bank.cleared_retainTimer (k : Bank) : (k.cleared).retainTimer = k.retainTimer := rfl
@[simp] theorem Bank.cleared_pgood (k : Bank) : (k.cleared).pgood = k.pgood := rfl
@[simp] theorem Bank.cleared_config (k : Bank) : (k.cleared).config = k.config := rfl
@[simp] theorem Bank.cleared_charge (k : Bank) : (k.cleared).charge = k.charge := rfl
@[simp] theorem Bank.cleared_marks (k : Bank) : (k.cleared).marks = k.marks := rfl

/-! ### What the updates write -/

@[simp] theorem Bank.forwarded_slots (k : Bank) (x : Slot) : (k.forwarded x).port.slots = k.port.slots ++ [x] := by
  unfold Bank.forwarded Bank.reloadIdle; split
  · split <;> rfl
  · rfl

@[simp] theorem Bank.forwarded_ignoring (k : Bank) (x : Slot) : (k.forwarded x).port.ignoring = k.port.ignoring := by
  unfold Bank.forwarded Bank.reloadIdle; split
  · split <;> rfl
  · rfl

@[simp] theorem Bank.syncIdle_off (k : Bank) (n : Nat) (h : k.power ≠ .on) : k.syncIdle n = k := by
  simp [Bank.syncIdle, h]

@[simp] theorem Bank.reloadIdle_off (k : Bank) (h : k.power ≠ .on) : k.reloadIdle = k := by
  simp [Bank.reloadIdle, h]

@[simp] theorem State.setParked_parked (s : State) (q : List Entry) : (s.setParked q).parked = q := rfl

@[simp] theorem State.setParked_bank (s : State) (q : List Entry) (b : BankId) :
    (s.setParked q).bank b = (s.bank b).syncIdle (parkedCount q b) := by
  simp only [State.setParked, State.bank_mapBanks]; rfl

@[simp] theorem State.dropRequests_bank (s : State) (c : BankId) :
    s.dropRequests.bank c = ((s.bank c).syncIdle 0).orphaned := by
  simp [State.dropRequests, State.setParked_bank, parkedCount]

theorem Bank.forwarded_fillSlots (k : Bank) (x : Slot) :
    (k.forwarded x).port.fillSlots = k.port.fillSlots + if x.holder = .fill then 1 else 0 := by
  simp only [Port.fillSlots, Bank.forwarded_slots, List.countP_append, List.countP_cons, List.countP_nil, Nat.zero_add,
    decide_eq_true_eq]

/-- What an answer does: nothing where the tag is not PENDING, else the record and the response (R163). -/
theorem State.answer_cases (s : State) (t : Tag) (x : Status) (d : List Byte) :
    (s.tags[t].state ≠ .pending ∧ s.answer t x d = s) ∨
    (s.tags[t].state = .pending ∧ s.answer t x d =
      { s with tags := s.tags.set t { s.tags[t] with state := .answered }
               responses := s.responses ++ [{ tag := t, status := x, data := d }] }) := by
  unfold State.answer; split
  · exact .inr ⟨‹_›, rfl⟩
  · exact .inl ⟨‹_›, rfl⟩

/-- A frame that the port takes (R182). -/
theorem State.framed_live {s : State} (h : s.frameHeld = false) (t : State) (received reply : List Byte) :
    s.framed t received reply = { t with frame := { mcsLow := true, received := received, reply := reply } } := by
  simp [State.framed, h]

/-- A port that takes no frame leaves everything as it was (R186). -/
theorem State.framed_held {s : State} (h : s.frameHeld = true) (t : State) (received reply : List Byte) :
    s.framed t received reply = s := by simp [State.framed, h]

/-- What issuing a fill write does: nothing, or one fill write of the head bank (R99). -/
theorem State.issueFill_cases (s : State) : s.issueFill = s ∨ ∃ b g a, s.fillsBank b = true ∧ s.fill.current = some g ∧
    s.fill.nextWrite = some a ∧ (s.bank b).takesFill = true ∧ s.issueFill = s.placeFill b g a := by
  unfold State.issueFill; split
  · rename_i b g a hq hc hn
    by_cases h : (s.bank b).takesFill = true
    · exact .inr ⟨b, g, a, by simp [State.fillsBank, hq], hc, hn, h, if_pos h⟩
    · exact .inl (if_neg h)
  · exact .inl rfl

/-- What posting an event does, by its kind's enable and the room in the queue (R174). -/
theorem State.post_cases (s : State) (k : EventKind) (a : About) :
    (s.enables k = false ∧ s.post k a = s) ∨
    (s.enables k = true ∧ s.events.length < Config.eventCapacity ∧ s.post k a =
      { s with sequence := s.sequence + 1
               events := s.events ++ [{ sequence := s.sequence, kind := k, time := s.clock.micros, about := a }] }) ∨
    (s.enables k = true ∧ Config.eventCapacity ≤ s.events.length ∧ s.post k a =
      { s with sequence := s.sequence + 1, lost := if s.lost = 0xFFFF then s.lost else s.lost + 1 }) := by
  unfold State.post
  by_cases h : s.enables k
  · by_cases h' : s.events.length < Config.eventCapacity
    · exact .inr (.inl ⟨h, h', by simp [h, h']⟩)
    · exact .inr (.inr ⟨h, Nat.le_of_not_lt h', by simp [h, h']⟩)
  · exact .inl ⟨by simpa using h, by simp [h]⟩

/-! ### REFCLK cycles -/

theorem State.cycles_low : ∀ (n : Nat) {s : State}, s.resetLow = true → s.cycles n = s
  | 0, _, _ => rfl
  | n + 1, s, h => by
    have : s.cycled = s := by simp [State.cycled, h]
    rw [State.cycles, this]; exact State.cycles_low n h

/-- The cycles up to the end of the present tick make one tick (R189). -/
theorem State.cycles_end : ∀ (n : Nat) {s : State}, s.resetLow = false → s.clock.tickCycles ≤ s.clock.cycles + (n + 1) →
    (n = 0 ∨ s.clock.cycles + (n + 1) = s.clock.tickCycles) → s.cycles (n + 1) = s.ticked
  | 0, s, h, le, _ => by
    have : ¬ s.clock.cycles + 1 < s.clock.tickCycles := by omega
    simp [State.cycles, State.cycled, h, this]
  | n + 1, s, h, _, hn => by
    have ends : s.clock.cycles + (n + 1 + 1) = s.clock.tickCycles := hn.resolve_left (by omega)
    have : s.clock.cycles + 1 < s.clock.tickCycles := by omega
    have one : s.cycled = { s with clock := { s.clock with cycles := s.clock.cycles + 1 } } := by
      simp [State.cycled, h, this]
    rw [State.cycles, one]
    refine (State.cycles_end n (s := { s with clock := { s.clock with cycles := s.clock.cycles + 1 } }) h ?_ (.inr ?_)).trans rfl
    · show s.clock.tickCycles ≤ s.clock.cycles + 1 + (n + 1); omega
    · show s.clock.cycles + 1 + (n + 1) = s.clock.tickCycles; omega

/-- What TICK does: nothing while RESET_N is low, and otherwise the end of the tick (R189). -/
theorem execTick_eq (s : State) : execTick s = proceed (if s.resetLow then s.begin else s.begin.ticked) := by
  unfold execTick
  cases h : s.resetLow with
  | true => rw [State.cycles_low _ (s := s.begin) h]; rfl
  | false =>
    obtain ⟨n, hn⟩ : ∃ n, s.clock.left = n + 1 := ⟨s.clock.left - 1, by unfold Timebase.left; omega⟩
    have left := hn
    unfold Timebase.left at left
    rw [hn, State.cycles_end n (s := s.begin) h (show s.clock.tickCycles ≤ s.clock.cycles + (n + 1) by omega)
      (show n = 0 ∨ s.clock.cycles + (n + 1) = s.clock.tickCycles by omega)]
    rfl

/-! ### MDO, and the error of a fill write -/

theorem State.mdo_undriven {s : State} (h : s.resetLow = true ∨ s.frame.mcsLow = false) (position : Nat) :
    s.mdo position = none := by simp [State.mdo, h]

theorem State.mdo_frame {s : State} (high : s.resetLow = false) (low : s.frame.mcsLow = true) (taken : s.frameHeld = false)
    (position : Nat) : s.mdo position = some (s.frame.mdo position) := by simp [State.mdo, high, low, taken]

@[simp] theorem State.leftLost_none {s : State} (h : s.fillError = none) (b : BankId) (first count : Nat) :
    s.leftLost b first count = none := by simp [State.leftLost, h]

/-- A segment that a MARK SEGMENTS leaves LOST is that of the fill error of the latest step (R108). -/
theorem State.leftLost_some {s : State} {b : BankId} {first count : Nat} {g : Segment}
    (h : s.leftLost b first count = some g) : s.fillError = some (b, g) ∧ (s.bank b).lostWithin first count = true := by
  unfold State.leftLost at h; split at h
  · split at h
    · rename_i failed meets
      cases h; exact ⟨by rw [failed, meets.1], meets.2⟩
    · cases h
  · cases h

/-! ### An event at work -/

@[simp] theorem Work.on_st (w : Work) (f : State → State) : (w.on f).st = f w.st := rfl
@[simp] theorem Work.on_offered (w : Work) (f : State → State) : (w.on f).offered = w.offered := rfl
@[simp] theorem Work.on_crossings (w : Work) (f : State → State) : (w.on f).crossings = w.crossings := rfl
@[simp] theorem Work.on_fired (w : Work) (f : State → State) : (w.on f).fired = w.fired := rfl
@[simp] theorem Work.bank_st (w : Work) (b : BankId) (f : Bank → Bank) : (w.bank b f).st = w.st.updBank b f := rfl
@[simp] theorem Work.bank_offered (w : Work) (b : BankId) (f : Bank → Bank) : (w.bank b f).offered = w.offered := rfl
@[simp] theorem Work.offer_st (w : Work) (b : BankId) (t : Trigger) : (w.offer b t).st = w.st := rfl
@[simp] theorem Work.offer_offered (w : Work) (b : BankId) (t : Trigger) : (w.offer b t).offered = w.offered ++ [(b, t)] := rfl
@[simp] theorem Work.offer_fired (w : Work) (b : BankId) (t : Trigger) : (w.offer b t).fired = w.fired := rfl
@[simp] theorem Work.forward_st (w : Work) (r : Routed) : (w.forward r).st = w.st.sendRequest r := rfl
@[simp] theorem Work.start_st (s : State) : (Work.start s).st = s := rfl

end Sys2Proof.Machine
end

