-- ==== Sys2Proof/Laws/Calm.lean ====
section
/-! SUPPORT. What an event can do once its first move is made: the CALM moves. Release scans, the fill engine, the
arbiter, drains and link actions change the state by these moves and by no others (`…_calm`), so a property that every
calm move keeps is kept by all of them. -/

namespace Sys2Proof.Machine

/-- One calm move of the part. Each constructor carries what the operation has checked before it makes the move. -/
inductive Calm : State → State → Prop
  | post (s : State) (k : EventKind) (a : About) : Calm s (s.post k a)
  | fewer (s : State) (q : List Entry) (h : q.Sublist s.parked) : Calm s (s.setParked q)
  | send (s : State) (r : Routed) (room : (s.bank r.bank).port.hasRoom = true)
      (up : (s.bank r.bank).power = .on ∨ (s.bank r.bank).power = .filling) : Calm s (s.sendRequest r)
  | reload (s : State) (b : BankId) : Calm s (s.updBank b Bank.reloadIdle)
  | cancel (s : State) (b : BankId) (h : (s.bank b).power = .draining) (soft : (s.bank b).drainKind = .soft) :
      Calm s (s.turnOn b)
  | release (s : State) (b : BankId) (h : (s.bank b).rampDone = true) : Calm s (s.releaseUnits b)
  | rampToFilling (s : State) (b : BankId) (h : (s.bank b).rampDone = true) : Calm s ((s.endRamp b).joinFill b)
  | rampToOn (s : State) (b : BankId) (h : (s.bank b).rampDone = true) : Calm s ((s.endRamp b).turnOn b)
  | fillOver (s : State) (b : BankId) (k : EventKind) (a : About)
      (h : s.fillsBank b = true ∨ (s.bank b).power = .filling) : Calm s (((s.unqueueFill b).post k a).turnOn b)
  | setFill (s : State) (f : FillProgress) : Calm s { s with fill := f }
  | issueFill (s : State) : Calm s s.issueFill
  | grantWake (s : State) (b : BankId) (rest : List BankId) (h : s.waitList = b :: rest)
      (fits : s.unitsHeld + (s.bank b).wakeCost ≤ s.global.budget.toNat) : Calm s (s.grantWake b rest)
  | joinWait (s : State) (b : BankId) (present : (s.bank b).config.present = true)
      (low : (s.bank b).power = .off ∨ (s.bank b).power = .retain) : Calm s (s.joinWait b)
  | asleep (s : State) (b : BankId) (h : (s.bank b).power = .draining) (empty : (s.bank b).port.slots = [])
      (stays : parkedCount s.parked b = 0 ∨ (s.bank b).config.present = false) : Calm s (s.updBank b Bank.lowered)
  | asleepAndWoken (s : State) (b : BankId) (h : (s.bank b).power = .draining) (empty : (s.bank b).port.slots = [])
      (present : (s.bank b).config.present = true) : Calm s ((s.updBank b Bank.lowered).joinWait b)
  | softDrain (s : State) (b : BankId) (h : (s.bank b).power = .on) :
      Calm s (s.updBank b fun k => k.draining .soft k.config.idleTarget)
  | hardDrain (s : State) (b : BankId) (t : RestTarget) (h : (s.bank b).power = .on ∨ (s.bank b).power = .filling) :
      Calm s (s.hardDraining b t)
  | retarget (s : State) (b : BankId) (t : RestTarget) (h : (s.bank b).power = .draining) :
      Calm s (s.updBank b fun k => { k with drainKind := .hard, drainTarget := t.drain })
  | toOff (s : State) (b : BankId) (h : (s.bank b).power = .retain) : Calm s (s.updBank b Bank.retainToOff)
  | countLink (s : State) (l : LinkId) : Calm s { s with links := s.links.set l s.links[l].firedOnce }

/-- A run of calm moves. -/
abbrev CalmRun : State → State → Prop := Relation.ReflTransGen Calm

theorem Calm.run {s t : State} (h : Calm s t) : CalmRun s t := .single h

/-! ### Release scans -/

theorem Work.forward_calm (w : Work) (r : Routed) (room : (w.st.bank r.bank).port.hasRoom = true)
    (up : (w.st.bank r.bank).power = .on ∨ (w.st.bank r.bank).power = .filling) : CalmRun w.st (w.forward r).st :=
  (Calm.send w.st r room up).run

/-- An entry with no reason has a free slot at its bank (R31). -/
theorem State.releasable_room {s : State} {earlier : List Entry} {e : Entry} (h : s.releasable earlier e = true) :
    (s.bank e.req.bank).port.hasRoom = true := by
  have h' := (of_decide_eq_true h).1
  unfold State.reason at h'
  by_contra hr
  simp only [Bool.not_eq_true] at hr
  simp only [hr, if_true] at h'
  repeat' split at h'
  all_goals simp at h'

theorem State.releasable_up {s : State} {earlier : List Entry} {e : Entry} (h : s.releasable earlier e = true) :
    (s.bank e.req.bank).power = .on ∨ (s.bank e.req.bank).power = .filling := (of_decide_eq_true h).2

/-- A release takes the entry out of the queue and forwards it (R45). -/
theorem Work.release_calm (w : Work) (rest : List Entry) (e : Entry) (sub : rest.Sublist w.st.parked)
    (room : (w.st.bank e.req.bank).port.hasRoom = true)
    (up : (w.st.bank e.req.bank).power = .on ∨ (w.st.bank e.req.bank).power = .filling) :
    CalmRun w.st (w.release rest e).st := by
  refine (Calm.fewer w.st rest sub).run.trans (Calm.send _ e.req ?_ ?_).run
  · simpa [Port.hasRoom] using room
  · simpa using up

@[simp] theorem Work.release_parked (w : Work) (rest : List Entry) (e : Entry) : (w.release rest e).st.parked = rest := rfl

theorem Work.walk_calm : ∀ (ahead kept : List Entry) (w : Work), w.st.parked = kept ++ ahead →
    CalmRun w.st (w.walk kept ahead).st
  | [], _, w, _ => .refl
  | e :: ahead, kept, w, h => by
    unfold Work.walk; split
    · rename_i hr
      refine (w.release_calm (kept ++ ahead) e ?_ (State.releasable_room hr) (State.releasable_up hr)).trans
        (Work.walk_calm ahead kept _ (by simp))
      rw [h]; exact List.Sublist.append (List.Sublist.refl _) (List.sublist_cons_self _ _)
    · exact Work.walk_calm ahead (kept ++ [e]) w (by simp [h])

/-- A release scan releases entries and does nothing else (R44). -/
theorem Work.scan_calm (w : Work) : CalmRun w.st w.scan.st := Work.walk_calm w.st.parked [] w rfl

/-! ### Entry into ON and the fill engine -/

theorem Work.cancelDrain_calm (w : Work) (b : BankId) (h : (w.st.bank b).power = .draining)
    (soft : (w.st.bank b).drainKind = .soft) : CalmRun w.st (w.cancelDrain b).st :=
  (Calm.cancel w.st b h soft).run.trans (Work.scan_calm (w.on fun s => s.turnOn b))

theorem Work.fillDone_calm (w : Work) (b : BankId) (h : w.st.fillsBank b = true ∨ (w.st.bank b).power = .filling) :
    CalmRun w.st (w.fillDone b).st := by
  have h1 := (Calm.fillOver w.st b .fillDone { bank := some b } h).run
  exact h1.trans (Work.scan_calm
    (((w.on fun s => (s.unqueueFill b).post .fillDone { bank := some b }).on fun s => s.turnOn b).offer b .ready))

theorem State.issueFills_calm (s : State) : CalmRun s s.issueFills :=
  (Calm.issueFill s).run.trans (Calm.issueFill s.issueFill).run

theorem Work.startHeads_calm : ∀ (n : Nat) (w : Work), CalmRun w.st (w.startHeads n).st
  | 0, _ => .refl
  | n + 1, w => by
    unfold Work.startHeads; split
    · exact (Calm.setFill _ _).run
    · rename_i b rest hq
      split
      · exact (Calm.setFill w.st _).run.trans (State.issueFills_calm _)
      · exact (w.fillDone_calm b (.inl (by simp [State.fillsBank, hq]))).trans (Work.startHeads_calm n _)

theorem Work.startHead_calm (w : Work) : CalmRun w.st w.startHead.st := Work.startHeads_calm _ w

theorem Work.fillStep_calm (w : Work) (b : BankId) (x : FillStep) : CalmRun w.st (w.fillStep b x).st := by
  cases x with
  | issue =>
    simp only [Work.fillStep]; split
    · exact State.issueFills_calm _
    · exact .refl
  | nextSegment => exact w.startHead_calm

/-! ### The arbiter and the ramp -/

theorem Work.completeRamp_calm (w : Work) (b : BankId) : CalmRun w.st (w.completeRamp b).st := by
  unfold Work.completeRamp; split
  case isFalse => exact .refl
  rename_i h
  dsimp only; split
  · have h1 := (Calm.rampToFilling w.st b h).run
    unfold Work.enterFilling; dsimp only; split
    · exact (h1.trans (Work.scan_calm ((w.on fun s => s.endRamp b).on fun s => s.joinFill b))).trans (Work.startHead_calm _)
    · exact h1.trans (Work.scan_calm ((w.on fun s => s.endRamp b).on fun s => s.joinFill b))
  · exact (Calm.rampToOn w.st b h).run.trans
      (Work.scan_calm (((w.on fun s => s.endRamp b).on fun s => s.turnOn b).offer b .ready))

theorem State.grantHeads_calm : ∀ (n : Nat) (s : State), CalmRun s (s.grantHeads n).1
  | 0, _ => .refl
  | n + 1, s => by
    unfold State.grantHeads; split
    · exact .refl
    · rename_i b rest hl
      split
      · rename_i fits
        have h1 := (Calm.grantWake s b rest hl fits).run
        dsimp only; split
        · rename_i done
          exact (h1.trans (Calm.release _ b done).run).trans (State.grantHeads_calm n ((s.grantWake b rest).releaseUnits b))
        · exact h1.trans (State.grantHeads_calm n (s.grantWake b rest))
      · exact .refl

theorem Work.completeRamps_calm : ∀ (q : List BankId) (w : Work), CalmRun w.st (w.completeRamps q).st
  | [], _ => .refl
  | b :: q, w => (w.completeRamp_calm b).trans (Work.completeRamps_calm q (w.completeRamp b))

/-- A grant attempt (R79). -/
theorem Work.tryGrant_calm (w : Work) : CalmRun w.st w.tryGrant.st :=
  (State.grantHeads_calm _ w.st).trans (Work.completeRamps_calm _ (w.on fun _ => w.st.grants.1))

theorem Work.wake_calm (w : Work) (b : BankId) (l : Bool) : CalmRun w.st (w.wake b l).st := by
  unfold Work.wake; dsimp only; split
  · rename_i h
    refine (Calm.joinWait w.st b h.1 h.2).run.trans ?_
    split
    · exact Work.tryGrant_calm (w.on fun s => s.joinWait b)
    · exact Work.tryGrant_calm ((w.on fun s => s.joinWait b).offer b .wakeBegun)
  · exact .refl

theorem Work.finishRamp_calm (w : Work) (b : BankId) : CalmRun w.st (w.finishRamp b).st := by
  unfold Work.finishRamp; split
  · exact ((Calm.release w.st b ‹_›).run.trans (State.grantHeads_calm _ (w.st.releaseUnits b))).trans
      (Work.completeRamps_calm _ (w.on fun _ => (w.st.releaseUnits b).grants.1))
  · exact .refl

/-! ### Drains -/

theorem Work.completeDrain_calm (w : Work) (b : BankId) (h : (w.st.bank b).power = .draining)
    (empty : (w.st.bank b).port.slots = []) : CalmRun w.st (w.completeDrain b).st := by
  have low : ((w.st.bank b).lowered).power = .off ∨ ((w.st.bank b).lowered).power = .retain := by
    unfold Bank.lowered; dsimp only; split <;> simp
  unfold Work.completeDrain; dsimp only; split
  · by_cases hp : (w.st.bank b).config.present = true
    · have h1 := (Calm.asleepAndWoken w.st b h empty hp).run
      unfold Work.wake; dsimp only
      rw [if_pos (by simp [hp, low])]
      exact h1.trans (Work.tryGrant_calm
        ((((w.bank b Bank.lowered).offer b .asleep).on fun s => s.joinWait b).offer b .wakeBegun))
    · unfold Work.wake; dsimp only
      rw [if_neg (by simp [hp])]
      exact (Calm.asleep w.st b h empty (.inr (by simpa using hp))).run
  · rename_i hc
    exact (Calm.asleep w.st b h empty (.inl (by simpa using hc))).run

theorem Work.drainIfEmpty_calm (w : Work) (b : BankId) : CalmRun w.st (w.drainIfEmpty b).st := by
  unfold Work.drainIfEmpty; split
  · rename_i h; exact w.completeDrain_calm b h.1 h.2
  · exact .refl

theorem Work.softDrain_calm (w : Work) (b : BankId) (h : (w.st.bank b).power = .on) :
    CalmRun w.st (w.softDrain b).st :=
  (Calm.softDrain w.st b h).run.trans
    (Work.drainIfEmpty_calm ((w.bank b fun k => k.draining .soft k.config.idleTarget).offer b .drainBegun) b)

theorem Work.hardDrain_calm (w : Work) (b : BankId) (t : RestTarget) (l : Bool)
    (h : (w.st.bank b).power = .on ∨ (w.st.bank b).power = .filling) : CalmRun w.st (w.hardDrain b t l).st := by
  have h1 := (Calm.hardDrain w.st b t h).run
  have key : ∀ x : Work, CalmRun w.st x.st → CalmRun w.st ((if l then x else x.offer b .drainBegun).drainIfEmpty b).st := by
    intro x hx
    cases l
    · exact hx.trans (Work.drainIfEmpty_calm (x.offer b .drainBegun) b)
    · exact hx.trans (Work.drainIfEmpty_calm x b)
  unfold Work.hardDrain; dsimp only
  refine key _ ?_
  split
  · exact h1.trans (Work.startHead_calm (w.on fun s => s.hardDraining b t))
  · exact h1

theorem Work.sleep_calm (w : Work) (b : BankId) (t : RestTarget) (l : Bool) : CalmRun w.st (w.sleep b t l).st := by
  unfold Work.sleep; split
  · exact w.hardDrain_calm b t l (.inl ‹_›)
  · exact w.hardDrain_calm b t l (.inr ‹_›)
  · exact (Calm.retarget w.st b t ‹_›).run
  · split
    · exact (Calm.toOff w.st b ‹_›).run
    · exact .refl
  all_goals exact .refl

/-! ### The link unit, and the end of an event -/

theorem Work.act_calm (w : Work) (l : LinkId) (b : BankId) (t : Trigger) : CalmRun w.st (w.act l b t).st := by
  unfold Work.act; dsimp only; split
  · split
    · rename_i h; exact w.cancelDrain_calm _ h.1 h.2
    · exact w.wake_calm _ _
  · split
    · rename_i h; exact w.cancelDrain_calm _ h.1 h.2
    · exact (Calm.reload w.st _).run
  · exact w.sleep_calm _ _ _
  · exact w.sleep_calm _ _ _
  · exact (Calm.post w.st _ _).run

theorem Work.settleFrom_calm : ∀ (q : List (BankId × Tag × Stream)) (w : Work), CalmRun w.st (w.settleFrom q).st
  | [], _ => .refl
  | (b, t, st) :: q, w => (Calm.post w.st _ _).run.trans (Work.settleFrom_calm q
      ((w.on fun s => s.post .countReached { bank := some b, tag := some t, stream := some st }).offer b .count))

theorem Work.settle_calm (w : Work) : CalmRun w.st w.settle.st := Work.settleFrom_calm w.crossings { w with crossings := [] }

theorem Work.fire_calm (w : Work) (l : LinkId) (o : BankId × Trigger) (still : List (BankId × Trigger)) :
    CalmRun w.st (w.fire l o still).st := by
  refine ((Calm.countLink w.st l).run.trans ?_).trans (Work.settle_calm _)
  exact Work.act_calm { (w.on fun s => { s with links := s.links.set l s.links[l].firedOnce }) with
    offered := still, fired := l :: w.fired } l o.1 o.2

theorem Work.fireUpTo_calm : ∀ (n : Nat) (w : Work), CalmRun w.st (w.fireUpTo n).st
  | 0, _ => .refl
  | n + 1, w => by
    unfold Work.fireUpTo; split
    · exact .refl
    · exact (w.fire_calm _ _ _).trans (Work.fireUpTo_calm n _)

/-- The end of an event makes calm moves only (R135, R143). -/
theorem Work.takeTriggers_calm (w : Work) : CalmRun w.st w.takeTriggers.st :=
  w.settle_calm.trans (Work.fireUpTo_calm 8 _)

/-- An event is its own moves, and then calm moves. -/
theorem State.event_calm (s : State) (moves : Work → Work) : CalmRun (moves (Work.start s)).st (s.event moves) :=
  Work.takeTriggers_calm _

theorem State.event_run {s t : State} {moves : Work → Work} (h : CalmRun s (moves (Work.start t)).st) :
    CalmRun s (t.event moves) := h.trans (t.event_calm moves)

end Sys2Proof.Machine
end

