-- ==== Sys2Proof/Laws/Setup.lean ====
section
/-! SUPPORT. What a run of calm moves leaves as it was: everything that software, the upstream controller and the
timebase own. -/

namespace Sys2Proof.Machine

/-- Two states that differ only in what the bank controllers, the arbiter, the fill engine, the marks, the ports, the
parking queue, the event queue and the fire counts hold. -/
structure SameSetup (s t : State) : Prop where
  windows : t.windows = s.windows
  global : t.global = s.global
  tags : t.tags = s.tags
  responses : t.responses = s.responses
  presented : t.presented = s.presented
  linkClosed : t.linkClosed = s.linkClosed
  resetLow : t.resetLow = s.resetLow
  frameHeld : t.frameHeld = s.frameHeld
  clock : t.clock = s.clock
  frame : t.frame = s.frame
  pending : t.pending = s.pending
  links : ∀ l : LinkId, t.links[l].config = s.links[l].config
  config : ∀ b, (t.bank b).config = (s.bank b).config
  pgood : ∀ b, (t.bank b).pgood = (s.bank b).pgood

theorem SameSetup.refl (s : State) : SameSetup s s := by constructor <;> intros <;> rfl

theorem SameSetup.trans {s t u : State} (h : SameSetup s t) (h' : SameSetup t u) : SameSetup s u where
  windows := h'.windows.trans h.windows
  global := h'.global.trans h.global
  tags := h'.tags.trans h.tags
  responses := h'.responses.trans h.responses
  presented := h'.presented.trans h.presented
  linkClosed := h'.linkClosed.trans h.linkClosed
  resetLow := h'.resetLow.trans h.resetLow
  frameHeld := h'.frameHeld.trans h.frameHeld
  clock := h'.clock.trans h.clock
  frame := h'.frame.trans h.frame
  pending := h'.pending.trans h.pending
  links l := (h'.links l).trans (h.links l)
  config b := (h'.config b).trans (h.config b)
  pgood b := (h'.pgood b).trans (h.pgood b)

/-- A change of one bank's record that keeps its configuration and its PGOOD level. -/
theorem SameSetup.updBank (s : State) (b : BankId) (f : Bank → Bank) (hc : (f (s.bank b)).config = (s.bank b).config)
    (hp : (f (s.bank b)).pgood = (s.bank b).pgood) : SameSetup s (s.updBank b f) := by
  constructor
  all_goals intros
  all_goals try rfl
  all_goals simp only [State.bank_updBank]; split
  all_goals simp_all

/-- A state whose fields, but for those a calm move changes, are those of a state of the same setup. -/
theorem SameSetup.of_banks {s t u : State} (h : SameSetup s t)
    (hbanks : u.banks = t.banks := by first | rfl | simp)
    (hwindows : u.windows = t.windows := by first | rfl | simp)
    (hglobal : u.global = t.global := by first | rfl | simp)
    (htags : u.tags = t.tags := by first | rfl | simp)
    (hresponses : u.responses = t.responses := by first | rfl | simp)
    (hpresented : u.presented = t.presented := by first | rfl | simp)
    (hlinkClosed : u.linkClosed = t.linkClosed := by first | rfl | simp)
    (hresetLow : u.resetLow = t.resetLow := by first | rfl | simp)
    (hclock : u.clock = t.clock := by first | rfl | simp)
    (hframe : u.frame = t.frame := by first | rfl | simp)
    (hframeHeld : u.frameHeld = t.frameHeld := by first | rfl | simp)
    (hpending : u.pending = t.pending := by first | rfl | simp)
    (hlinks : u.links = t.links := by first | rfl | simp) : SameSetup s u :=
  h.trans (by constructor <;> intros <;> simp [*, State.bank])

/-- A change of one bank's record that keeps its configuration and its PGOOD level, beside changes of what calm moves
change. -/
theorem SameSetup.ofBank (s : State) (b : BankId) (f : Bank → Bank) (hc : (f (s.bank b)).config = (s.bank b).config)
    (hp : (f (s.bank b)).pgood = (s.bank b).pgood) {u : State}
    (hbanks : u.banks = (s.updBank b f).banks := by first | rfl | simp)
    (hwindows : u.windows = (s.updBank b f).windows := by first | rfl | simp)
    (hglobal : u.global = (s.updBank b f).global := by first | rfl | simp)
    (htags : u.tags = (s.updBank b f).tags := by first | rfl | simp)
    (hresponses : u.responses = (s.updBank b f).responses := by first | rfl | simp)
    (hpresented : u.presented = (s.updBank b f).presented := by first | rfl | simp)
    (hlinkClosed : u.linkClosed = (s.updBank b f).linkClosed := by first | rfl | simp)
    (hresetLow : u.resetLow = (s.updBank b f).resetLow := by first | rfl | simp)
    (hclock : u.clock = (s.updBank b f).clock := by first | rfl | simp)
    (hframe : u.frame = (s.updBank b f).frame := by first | rfl | simp)
    (hframeHeld : u.frameHeld = (s.updBank b f).frameHeld := by first | rfl | simp)
    (hpending : u.pending = (s.updBank b f).pending := by first | rfl | simp)
    (hlinks : u.links = (s.updBank b f).links := by first | rfl | simp) : SameSetup s u :=
  (SameSetup.updBank s b f hc hp).of_banks hbanks hwindows hglobal htags hresponses hpresented hlinkClosed hresetLow hclock hframe hframeHeld hpending hlinks

theorem SameSetup.post (s : State) (k : EventKind) (a : About) : SameSetup s (s.post k a) := (SameSetup.refl s).of_banks

theorem SameSetup.setParked (s : State) (q : List Entry) : SameSetup s (s.setParked q) := by
  constructor <;> intros <;> simp

theorem SameSetup.endRamp (s : State) (b : BankId) : SameSetup s (s.endRamp b) :=
  (SameSetup.updBank s b (fun k => { k with wakeKind := .none, dwellTimer := none, wakeTimer := none }) rfl rfl).trans
    (SameSetup.ofBank _ b (fun k => { k with charge := 0 }) rfl rfl)

theorem Calm.setup {s t : State} (h : Calm s t) : SameSetup s t := by
  cases h with
  | post k a => exact .post s k a
  | fewer q _ => exact .setParked s q
  | send r _ _ =>
    exact SameSetup.ofBank s r.bank (fun k => k.forwarded (s.requestSlot r)) (by simp) (by simp)
  | reload b => exact .updBank s b _ (by simp) (by simp)
  | cancel b _ _ => exact .updBank s b _ (by simp) (by simp)
  | release b _ => exact SameSetup.ofBank s b (fun k => { k with charge := 0 }) rfl rfl
  | rampToFilling b _ =>
    refine (SameSetup.endRamp s b).trans ?_
    exact SameSetup.ofBank (s.endRamp b) b (fun k => { k with power := .filling }) rfl rfl
  | rampToOn b _ =>
    refine (SameSetup.endRamp s b).trans ?_
    exact .updBank _ b _ (by simp) (by simp)
  | fillOver b k a _ =>
    refine SameSetup.trans (.of_banks (t := s) (.refl s) (u := s.unqueueFill b))
      ((SameSetup.post _ k a).trans (.updBank _ b _ (by simp) (by simp)))
  | setFill f => exact (SameSetup.refl s).of_banks
  | issueFill =>
    rcases s.issueFill_cases with h | ⟨b, g, a, _, _, _, _, h⟩ <;> rw [h]
    · exact .refl s
    · exact SameSetup.ofBank s b (fun k => k.withFill (s.fillSlot g a)) rfl rfl
  | grantWake b rest _ _ =>
    exact SameSetup.ofBank s b (fun k => k.granted (s.bank b).wakeCost) (by simp) (by simp)
  | joinWait b _ _ => exact SameSetup.ofBank s b Bank.woken (by simp) (by simp)
  | asleep b _ _ _ => exact .updBank s b _ (by simp) (by simp)
  | asleepAndWoken b _ _ _ =>
    exact (SameSetup.updBank s b _ (by simp) (by simp)).trans
      (SameSetup.ofBank (s.updBank b Bank.lowered) b Bank.woken (by simp) (by simp))
  | softDrain b _ => exact .updBank s b _ (by simp) (by simp)
  | hardDrain b t _ =>
    exact SameSetup.ofBank s b (fun k => k.draining .hard t) (by simp) (by simp)
  | retarget b t _ => exact .updBank s b _ rfl rfl
  | toOff b _ => exact .updBank s b _ (by simp) (by simp)
  | countLink l =>
    constructor
    all_goals intros
    all_goals try rfl
    rename_i m
    by_cases hm : l = m
    · subst hm; simp [Link.firedOnce]
    · have : l.val ≠ m.val := fun h => hm (Fin.ext h)
      simp [this]

/-- A run of calm moves keeps the setup. -/
theorem CalmRun.setup {s t : State} (h : CalmRun s t) : SameSetup s t := by
  induction h with
  | refl => exact .refl s
  | tail _ hm ih => exact ih.trans hm.setup

end Sys2Proof.Machine
end

