-- ==== Sys2Proof/Laws/Queues.lean ====
section
/-! SUPPORT. Calm moves keep the wake-wait list and the fill queue in step with the banks (R78, R96), and leave alone a
bank whose wake attempt has just failed. -/

namespace Sys2Proof.Machine

/-! ### What the moves of one bank do to the two queues -/

/-- A change that keeps both queues and every bank's power keeps the queues in step. -/
theorem State.QueuesHold.of_power {s t : State} (h : s.QueuesHold) (hw : t.waitList = s.waitList)
    (hf : t.fillQueue = s.fillQueue) (hp : ∀ b, (t.bank b).power = (s.bank b).power) : t.QueuesHold where
  waitOnce := hw ▸ h.waitOnce
  wait b := by rw [hw, hp]; exact h.wait b
  fillOnce := hf ▸ h.fillOnce
  fill b := by rw [hf, hp]; exact h.fill b

/-- A bank neither in WAITING nor in FILLING that moves to such a state keeps the queues in step. -/
theorem State.QueuesHold.updBank {s : State} (h : s.QueuesHold) (b : BankId) (f : Bank → Bank)
    (hw : (s.bank b).power = .waiting ↔ (f (s.bank b)).power = .waiting)
    (hf : (s.bank b).power = .filling ↔ (f (s.bank b)).power = .filling) : (s.updBank b f).QueuesHold where
  waitOnce := h.waitOnce
  wait c := by
    rw [State.bank_updBank]; split
    · rename_i hc; subst hc; exact (h.wait c).trans hw
    · exact h.wait c
  fillOnce := h.fillOnce
  fill c := by
    rw [State.bank_updBank]; split
    · rename_i hc; subst hc; exact (h.fill c).trans hf
    · exact h.fill c

/-- A bank that joins the wake-wait list as it enters WAITING. -/
theorem State.QueuesHold.joinWait {s : State} (h : s.QueuesHold) (b : BankId) (f : Bank → Bank)
    (hw : (f (s.bank b)).power = .waiting) (hn : (s.bank b).power ≠ .waiting) (hf : (s.bank b).power ≠ .filling) :
    State.QueuesHold { s.updBank b f with waitList := s.waitList ++ [b] } where
  waitOnce := by
    have : b ∉ s.waitList := fun hb => hn ((h.wait b).1 hb)
    exact List.nodup_append.2 ⟨h.waitOnce, by simp, by intro x hx y hy; simp at hy; subst hy; intro he; exact this (he ▸ hx)⟩
  wait c := by
    show c ∈ s.waitList ++ [b] ↔ ((s.updBank b f).bank c).power = .waiting
    rw [State.bank_updBank]; split
    · rename_i hc; subst hc; simp [hw]
    · rename_i hc; simp [hc, h.wait c]
  fillOnce := h.fillOnce
  fill c := by
    show c ∈ s.fillQueue ↔ ((s.updBank b f).bank c).power = .filling
    rw [State.bank_updBank]; split
    · rename_i hc; subst hc; simp [hw, h.fill c, hf]
    · exact h.fill c

/-- A bank that leaves the fill queue as it leaves FILLING, or was in neither. -/
theorem State.QueuesHold.leaveFill {s t : State} (h : s.QueuesHold) (b : BankId) (hwl : t.waitList = s.waitList)
    (hfq : t.fillQueue = s.fillQueue.filter fun x => x ≠ b) (hb : ∀ c, c ≠ b → (t.bank c).power = (s.bank c).power)
    (hw : (s.bank b).power = .waiting ↔ (t.bank b).power = .waiting) (hf : (t.bank b).power ≠ .filling) :
    t.QueuesHold where
  waitOnce := hwl ▸ h.waitOnce
  wait c := by
    rw [hwl]
    by_cases hc : c = b
    · subst hc; exact (h.wait c).trans hw
    · rw [hb c hc]; exact h.wait c
  fillOnce := hfq ▸ h.fillOnce.filter _
  fill c := by
    rw [hfq]
    by_cases hc : c = b
    · subst hc; simp [hf]
    · rw [hb c hc]; simp [hc, h.fill c]

@[simp] theorem Bank.turnedOn_power (k : Bank) (n : Nat) : (k.turnedOn n).power = .on := rfl
@[simp] theorem Bank.woken_power (k : Bank) : k.woken.power = .waiting := rfl
@[simp] theorem Bank.granted_power (k : Bank) (n : Nat) : (k.granted n).power = .ramping := rfl
@[simp] theorem Bank.draining_power (k : Bank) (x : DrainKind) (t : RestTarget) : (k.draining x t).power = .draining := rfl
@[simp] theorem Bank.retainToOff_power (k : Bank) : k.retainToOff.power = .off := rfl
@[simp] theorem Bank.faulted_power (k : Bank) : k.faulted.power = .fault := rfl

theorem Bank.lowered_power (k : Bank) : k.lowered.power = .off ∨ k.lowered.power = .retain := by
  unfold Bank.lowered; dsimp only; split <;> simp

theorem Bank.rampDone_ramping {k : Bank} (h : k.rampDone = true) : k.power = .ramping := (of_decide_eq_true h).1

theorem Bank.rampDone_timer {k : Bank} (h : k.rampDone = true) : k.wakeTimer ≠ none := by
  have h' := (of_decide_eq_true h).2.2.2
  intro hn; simp [hn] at h'

theorem State.endRamp_bank (s : State) (b c : BankId) : (s.endRamp b).bank c =
    if c = b then { s.bank b with wakeKind := .none, dwellTimer := none, wakeTimer := none, charge := 0 } else s.bank c := by
  rw [State.endRamp, State.releaseUnits_bank, State.bank_updBank]
  by_cases hc : c = b
  · subst hc; simp
  · simp [hc, State.bank_updBank]

theorem State.post_updBank_bank (s : State) (k : EventKind) (a : About) (b c : BankId) (f : Bank → Bank) :
    (((s.post k a).updBank b f).bank c) = (s.updBank b f).bank c := by
  simp [State.bank_updBank]

/-- The head of the fill queue is in FILLING (R96). -/
theorem State.QueuesHold.head {s : State} (h : s.QueuesHold) {b : BankId} (hb : s.fillsBank b = true) :
    (s.bank b).power = .filling := by
  refine (h.fill b).1 ?_
  have := of_decide_eq_true hb
  exact List.mem_of_mem_head? (by simp [this])

theorem State.issueFill_power (s : State) (c : BankId) : (s.issueFill.bank c).power = (s.bank c).power := by
  rcases s.issueFill_cases with h | ⟨b, g, a, _, _, _, _, h⟩ <;> rw [h]
  rw [State.placeFill_bank, State.bank_updBank]; split
  · rename_i hc; subst hc; rfl
  · rfl

/-- A calm move keeps the queues in step (R78, R96). -/
theorem Calm.queues {s t : State} (h : Calm s t) (hs : s.QueuesHold) : t.QueuesHold := by
  cases h with
  | post k a => exact hs.of_power (by simp) (by simp) (by simp)
  | fewer q _ => exact hs.of_power (by simp) (by simp) (by simp)
  | send r _ _ =>
    exact (hs.updBank r.bank (fun k => k.forwarded (s.requestSlot r)) (by simp) (by simp)).of_power rfl rfl fun _ => rfl
  | reload b => exact hs.updBank b _ (by simp) (by simp)
  | cancel b h _ => exact hs.updBank b _ (by simp [h]) (by simp [h])
  | release b _ => exact (hs.updBank b (fun k => { k with charge := 0 }) Iff.rfl Iff.rfl).of_power rfl rfl fun _ => rfl
  | rampToFilling b h =>
    have hr := Bank.rampDone_ramping h
    have hnf : b ∉ s.fillQueue := fun hb => by simpa [hr] using (hs.fill b).1 hb
    have bk : ∀ c, (((s.endRamp b).joinFill b).bank c).power = if c = b then .filling else (s.bank c).power := by
      intro c
      rw [State.joinFill_bank, State.bank_updBank]
      by_cases hc : c = b
      · simp [hc]
      · simp [hc, State.endRamp_bank]
    refine ⟨hs.waitOnce, fun c => ?_, ?_, fun c => ?_⟩
    · rw [bk]; split
      · rename_i hc; subst hc; exact (hs.wait c).trans (by simp [hr])
      · exact hs.wait c
    · refine List.nodup_append.2 ⟨hs.fillOnce, by simp, ?_⟩
      intro x hx y hy; simp at hy; subst hy; intro he; exact hnf (he ▸ hx)
    · show c ∈ s.fillQueue ++ [b] ↔ _
      rw [bk]; split
      · rename_i hc; simp [hc]
      · rename_i hc; simp [hc, hs.fill c]
  | rampToOn b h =>
    have hr := Bank.rampDone_ramping h
    refine hs.leaveFill b rfl ?_ ?_ ?_ ?_
    · show s.fillQueue = _
      refine (List.filter_eq_self.2 fun x hx => ?_).symm
      have : x ≠ b := fun he => by subst he; simpa [hr] using (hs.fill x).1 hx
      simpa using this
    · intro c hc; rw [State.turnOn_bank, State.bank_updBank]; simp [hc, State.endRamp_bank]
    · rw [State.turnOn_bank]; simp [hr]
    · rw [State.turnOn_bank]; simp
  | fillOver b k a h =>
    have hr : (s.bank b).power = .filling := h.elim hs.head id
    refine hs.leaveFill b (by simp) ?_ ?_ ?_ ?_
    · show (((s.unqueueFill b).post k a)).fillQueue = _; rw [State.post_fillQueue]; rfl
    · intro c hc; rw [State.turnOn_bank, State.bank_updBank]; simp [hc]
    · rw [State.turnOn_bank]; simp [hr]
    · rw [State.turnOn_bank]; simp
  | setFill f => exact hs.of_power rfl rfl fun _ => rfl
  | issueFill => exact hs.of_power (by simp) (by simp) (State.issueFill_power s)
  | grantWake b rest hl _ =>
    have hb : (s.bank b).power = .waiting := (hs.wait b).1 (by simp [hl])
    have nd := hs.waitOnce; rw [hl] at nd
    have hnr : b ∉ rest := (List.nodup_cons.1 nd).1
    have bk : ∀ c, ((s.grantWake b rest).bank c).power = if c = b then .ramping else (s.bank c).power := by
      intro c; rw [State.grantWake_bank, State.bank_updBank]; split <;> rfl
    refine ⟨(List.nodup_cons.1 nd).2, fun c => ?_, hs.fillOnce, fun c => ?_⟩
    · show c ∈ rest ↔ _
      rw [bk]; split
      · rename_i hc; subst hc; simp [hnr]
      · rename_i hc; have := hs.wait c; rw [hl] at this; simpa [hc] using this
    · show c ∈ s.fillQueue ↔ _
      rw [bk]; split
      · rename_i hc; subst hc; simp [hs.fill c, hb]
      · exact hs.fill c
  | joinWait b _ low =>
    exact hs.joinWait b Bank.woken rfl (by rcases low with h | h <;> simp [h]) (by rcases low with h | h <;> simp [h])
  | asleep b h _ _ =>
    refine hs.updBank b _ ?_ ?_ <;> rcases (s.bank b).lowered_power with h' | h' <;> simp [h, h']
  | asleepAndWoken b h _ _ =>
    have h1 : (s.updBank b Bank.lowered).QueuesHold := by
      refine hs.updBank b _ ?_ ?_ <;> rcases (s.bank b).lowered_power with h' | h' <;> simp [h, h']
    refine h1.joinWait b Bank.woken rfl ?_ ?_ <;>
      · rw [State.bank_updBank_self]; rcases (s.bank b).lowered_power with h' | h' <;> simp [h']
  | softDrain b h => exact hs.updBank b _ (by simp [h]) (by simp [h])
  | hardDrain b t h =>
    refine hs.leaveFill b rfl rfl ?_ ?_ ?_
    · intro c hc; rw [State.hardDraining_bank, State.bank_updBank]; simp [hc]
    · rw [State.hardDraining_bank]; rcases h with h | h <;> simp [h]
    · rw [State.hardDraining_bank]; simp
  | retarget b t h => exact hs.updBank b _ Iff.rfl Iff.rfl
  | toOff b h => exact hs.updBank b _ (by simp [h]) (by simp [h])
  | countLink l => exact hs.of_power rfl rfl fun _ => rfl

theorem CalmRun.queues {s t : State} (h : CalmRun s t) (hs : s.QueuesHold) : t.QueuesHold := by
  induction h with
  | refl => exact hs
  | tail _ hm ih => exact hm.queues ih

/-! ### A bank whose attempt has failed -/

/-- A bank between the failure of its attempt and its retry or fault (R13, R81). -/
structure Bank.AttemptOver (k : Bank) : Prop where
  ramping : k.power = .ramping
  timer : k.wakeTimer = none
  charge : k.charge = 0

theorem Bank.AttemptOver.other {s : State} {b c : BankId} {f : Bank → Bank} (h : (s.bank b).AttemptOver)
    (hf : c = b → (f (s.bank c)).AttemptOver) : ((s.updBank c f).bank b).AttemptOver := by
  rw [State.bank_updBank]; split
  · rename_i hb; subst hb; exact hf rfl
  · exact h

/-- Calm moves leave a bank whose attempt has failed where it is. -/
theorem Calm.attemptOver {s t : State} (h : Calm s t) (hs : s.QueuesHold) {b : BankId} (hb : (s.bank b).AttemptOver) :
    (t.bank b).AttemptOver := by
  have no : ∀ {c : BankId} {p : Power}, (s.bank c).power = p → p ≠ .ramping → ∀ {P : Prop}, c = b → P :=
    fun hp hn _ hc => absurd (hp ▸ (hc ▸ hb.ramping : (s.bank _).power = _)) hn
  cases h with
  | post k a => simpa using hb
  | fewer q _ => rw [State.setParked_bank]; exact ⟨by simp [hb.ramping], by simp [hb.timer], by simp [hb.charge]⟩
  | send r _ up =>
    rw [State.sendRequest_bank]
    exact hb.other fun hc => up.elim (fun h => no h (by decide) hc) fun h => no h (by decide) hc
  | reload c =>
    exact hb.other fun hc => by subst hc; rw [Bank.reloadIdle_off _ (by simp [hb.ramping])]; exact hb
  | cancel c h _ => rw [State.turnOn_bank]; exact hb.other (no h (by decide))
  | release c _ => rw [State.releaseUnits_bank]; exact hb.other fun hc => by subst hc; exact ⟨hb.ramping, hb.timer, rfl⟩
  | rampToFilling c h =>
    have hc : b ≠ c := fun hc => Bank.rampDone_timer h (hc ▸ hb.timer)
    rw [State.joinFill_bank, State.bank_updBank_ne _ _ hc, State.endRamp_bank, if_neg hc]; exact hb
  | rampToOn c h =>
    have hc : b ≠ c := fun hc => Bank.rampDone_timer h (hc ▸ hb.timer)
    rw [State.turnOn_bank, State.bank_updBank_ne _ _ hc, State.endRamp_bank, if_neg hc]; exact hb
  | fillOver c k a h =>
    have hc : b ≠ c := fun hc => by
      have := h.elim hs.head id; rw [← hc, hb.ramping] at this; cases this
    rw [State.turnOn_bank, State.bank_updBank_ne _ _ hc]; simpa using hb
  | setFill f => exact hb
  | issueFill =>
    rcases s.issueFill_cases with h | ⟨c, g, a, hq, _, _, _, h⟩ <;> rw [h]
    · exact hb
    · rw [State.placeFill_bank]; exact hb.other (no (hs.head hq) (by decide))
  | grantWake c rest hl _ =>
    rw [State.grantWake_bank]; exact hb.other (no ((hs.wait c).1 (by simp [hl])) (by decide))
  | joinWait c _ low =>
    rw [State.joinWait_bank]
    exact hb.other fun hc => low.elim (fun h => no h (by decide) hc) fun h => no h (by decide) hc
  | asleep c h _ _ => exact hb.other (no h (by decide))
  | asleepAndWoken c h _ _ =>
    have hc : b ≠ c := fun hc => by rw [← hc, hb.ramping] at h; cases h
    rw [State.joinWait_bank, State.bank_updBank_ne _ _ hc, State.bank_updBank_ne _ _ hc]; exact hb
  | softDrain c h => exact hb.other (no h (by decide))
  | hardDrain c t h =>
    rw [State.hardDraining_bank]
    exact hb.other fun hc => h.elim (fun h => no h (by decide) hc) fun h => no h (by decide) hc
  | retarget c t h => exact hb.other (no h (by decide))
  | toOff c h => exact hb.other (no h (by decide))
  | countLink l => exact hb

theorem CalmRun.attemptOver {s t : State} (h : CalmRun s t) (hs : s.QueuesHold) {b : BankId}
    (hb : (s.bank b).AttemptOver) : (t.bank b).AttemptOver := by
  induction h with
  | refl => exact hb
  | tail hr hm ih => exact hm.attemptOver (CalmRun.queues hr hs) ih

end Sys2Proof.Machine
end

