-- ==== Sys2Proof/Laws/Moves.lean ====
section
/-! SUPPORT. Everything that a command can do, said once: every meaning is a run of MOVES, each a calm move or one of the
moves below with what the meaning has checked before it. A property that every move keeps is kept by every step. -/

namespace Sys2Proof.Machine

/-- One move of a command. `intake` says that the command is an acceptance, which alone parks requests. -/
inductive Move (intake : Prop) : State → State → Prop
  | calm {s t : State} (h : Calm s t) : Move intake s t
  | outside (s : State) (busOut : List BusCommand) (fillError : Option (BankId × Segment)) (frame : Frame)
      (presented : Option Request) (lost : BitVec 16)
      (clock : Timebase) (linkClosed resetLow frameHeld : Bool) (pending : List Instr)
      (closes : s.ResetCloses → resetLow = true → linkClosed = true ∧ frameHeld = true) :
      Move intake s { s with busOut := busOut, fillError := fillError, frame := frame, presented := presented, lost := lost, clock := clock
                             linkClosed := linkClosed, resetLow := resetLow, frameHeld := frameHeld
                             pending := pending }
  | pop (s : State) (r : Record) (rest : List Record) (h : s.events = r :: rest) : Move intake s { s with events := rest }
  | answer (s : State) (t : Tag) (x : Status) (d : List Byte) : Move intake s (s.answer t x d)
  | bind (s : State) (t : Tag) (n : Nat) (free : s.tags[t].state = .free) : Move intake s (s.bindTag t n none)
  | hold (s : State) (r : Request) (i : WindowId) (free : s.tags[r.tag].state = .free) : Move intake s (s.hold r i)
  | pass (s : State) (x : Response) (rest : List Response) (h : s.responses = x :: rest) :
      Move intake s (s.passResponse x rest)
  | drop (s : State) : Move intake s s.dropRequests
  | park (s : State) (r : Routed) (hi : intake) (up : (s.bank r.bank).power ≠ .off ∧ (s.bank r.bank).power ≠ .retain
      ∧ (s.bank r.bank).power ≠ .fault) : Move intake s (s.setParked (s.parked ++ [s.entryFor r]))
  | parkAndWake (s : State) (r : Routed) (hi : intake) (present : (s.bank r.bank).config.present = true)
      (low : (s.bank r.bank).power = .off ∨ (s.bank r.bank).power = .retain) :
      Move intake s ((s.setParked (s.parked ++ [s.entryFor r])).joinWait r.bank)
  | parkAbsent (s : State) (r : Routed) (hi : intake) (absent : (s.bank r.bank).config.present = false)
      (named : s.windows[r.window].config.enabled = true ∧ s.windows[r.window].config.bank = r.bank) :
      Move intake s (s.setParked (s.parked ++ [s.entryFor r]))
  | free (s : State) (b : BankId) (x : Slot) (rest : List Slot) (h : (s.bank b).port.slots = x :: rest) :
      Move intake s (s.updBank b fun k => k.withPort fun p => { p with slots := rest })
  | fillMark (s : State) (b : BankId) (g : Segment) (h : s.fillsBank b = true) :
      Move intake s (s.updBank b fun k => k.markRange g.val 1 .valid)
  | mark (s : State) (b : BankId) (first count : Nat) (m : Mark) (h : (s.bank b).markable = true) :
      Move intake s (s.updBank b fun k => k.markRange first count m)
  | pgood (s : State) (b : BankId) (v : Bool) : Move intake s (s.updBank b fun k => { k with pgood := v })
  | nextStage (s : State) (b : BankId) (h : (s.bank b).power = .ramping) (due : (s.bank b).dwellTimer = some 0) :
      Move intake s (s.updBank b Bank.nextStage)
  | failAttempt (s : State) (b : BankId) (h : (s.bank b).power = .ramping) : Move intake s (s.failAttempt b)
  | rejoin (s : State) (b : BankId) (h : (s.bank b).AttemptOver) : Move intake s (s.rejoinWait b)
  | fault (s : State) (b : BankId) (cause : FaultCause) (h : (s.bank b).AttemptOver ∨ (s.bank b).railUp = true) :
      Move intake s ((s.toFault b).faultAnswers b cause (s.bank b).port.slots)
  | setGlobal (s : State) (g : Global) (range : g.inRange = true) (budget : s.budgetInRange g.budget.toNat = true)
      (held : s.unitsHeld ≤ g.budget.toNat) : Move intake s { s with global := g }
  | configure (s : State) (b : BankId) (c : BankConfig) (h : (s.bank b).configurable = true)
      (range : c.inRange s.global.budget.toNat = true) (names : s.namingRefuses b c = false) :
      Move intake s (s.updBank b fun k => k.configured c)
  | setWindow (s : State) (i : WindowId) (c : WindowConfig) (held : s.windows[i].held = 0)
      (check : c.enabled = true → s.checkWindow i c = none) : Move intake s (s.setWindow i c)
  | setLink (s : State) (l : LinkId) (c : LinkConfig) (check : c.enabled = true →
      (s.bank c.source).config.present = true ∧ (s.bank c.target).config.present = true) :
      Move intake s { s with links := s.links.set l { config := c, fireCount := 0 } }
  | expel (s : State) (before : List Entry) (e : Entry) (after : List Entry) (h : s.parked = before ++ e :: after)
      (x : Status) : Move intake s (s.expel before e after x)
  | reload (s : State) (b : BankId) : Move intake s (s.updBank b Bank.reloadIdle)
  | clearFault (s : State) (b : BankId) (h : (s.bank b).power = .fault) : Move intake s (s.updBank b Bank.cleared)
  | clearCount (s : State) (b : BankId) :
      Move intake s (s.updBank b fun k => k.withPort fun p => { p with counter := 0, reached := false })
  | tick (s : State) (clock : Timebase) :
      Move intake s { s.mapBanks (fun _ k => k.tick) with clock := clock, parked := s.parked.map Entry.tick }
  | pinReset (s : State) (pins : PinLevels) : Move intake s { State.afterPinReset pins with pending := s.pending }

/-- A run of moves. -/
abbrev MoveRun (intake : Prop) : State → State → Prop := Relation.ReflTransGen (Move intake)

theorem Move.run {i : Prop} {s t : State} (h : Move i s t) : MoveRun i s t := .single h

theorem CalmRun.moves {s t : State} (h : CalmRun s t) (i : Prop) : MoveRun i s t :=
  Relation.ReflTransGen.mono (fun _ _ h => Move.calm h) _ _ h

/-- The moves that belong to what stands outside the blocks: the buses, the frame, the channel and the clock. -/
theorem Move.begin (i : Prop) (s : State) : Move i s s.begin :=
  .outside s [] none s.frame s.presented s.lost s.clock s.linkClosed s.resetLow s.frameHeld s.pending id

theorem Move.frame (i : Prop) (s : State) (f : Frame) : Move i s { s with frame := f } :=
  .outside s s.busOut s.fillError f s.presented s.lost s.clock s.linkClosed s.resetLow s.frameHeld s.pending id

theorem State.begin_run {i : Prop} {s t : State} (h : MoveRun i s.begin t) : MoveRun i s t := (Move.begin i s).run.trans h

theorem proceed_inj {s t : State} (h : proceed s = .next t) : s = t := Host.Outcome.next.inj h

/-! ### Entry into FAULT -/

/-- An event whose own moves are done is a run of moves. -/
theorem State.event_moves {i : Prop} {s : State} {moves : Work → Work} {t : State}
    (h : MoveRun i t (moves (Work.start s)).st) : MoveRun i t (s.event moves) :=
  h.trans ((s.event_calm moves).moves i)

theorem Work.enterFault_moves {i : Prop} (w : Work) (b : BankId) (cause : FaultCause)
    (h : (w.st.bank b).AttemptOver ∨ (w.st.bank b).railUp = true) : MoveRun i w.st (w.enterFault b cause).st := by
  refine (Move.fault w.st b cause h).run.trans (CalmRun.moves ?_ i)
  unfold Work.enterFault; dsimp only
  refine Relation.ReflTransGen.trans ?_ (Calm.post _ _ _).run
  have h1 := Work.scan_calm (w.on fun s => (s.toFault b).faultAnswers b cause (w.st.bank b).port.slots)
  split
  · exact h1.trans (Work.startHead_calm _)
  · exact h1

/-! ### The queue around an entry -/

/-- The oldest entry that meets a test, and what stands around it. -/
theorem splitOldest_some {p : Entry → Bool} : ∀ {q before : List Entry} {e : Entry} {after : List Entry},
    splitOldest p q = some (before, e, after) →
      q = before ++ e :: after ∧ p e = true ∧ ∀ x ∈ before, p x = false
  | [], _, _, _, h => by simp [splitOldest] at h
  | x :: q, before, e, after, h => by
    unfold splitOldest at h; split at h
    · simp only [Option.some.injEq, Prod.mk.injEq] at h
      obtain ⟨rfl, rfl, rfl⟩ := h
      exact ⟨rfl, ‹_›, by simp⟩
    · split at h
      · cases h
      · rename_i hp _ b' x' a' hq
        simp only [Option.some.injEq, Prod.mk.injEq] at h
        obtain ⟨rfl, rfl, rfl⟩ := h
        obtain ⟨h1, h2, h3⟩ := splitOldest_some hq
        refine ⟨by simp [h1], h2, ?_⟩
        intro y hy
        rcases List.mem_cons.1 hy with rfl | hy
        · simpa using hp
        · exact h3 y hy

theorem splitOldest_none {p : Entry → Bool} : ∀ {q : List Entry}, splitOldest p q = none → ∀ e ∈ q, p e = false
  | [], _, e, he => by simp at he
  | x :: q, h, e, he => by
    unfold splitOldest at h; split at h
    · cases h
    · split at h
      · rename_i hp _ hq
        rcases List.mem_cons.1 he with rfl | he
        · simpa using hp
        · exact splitOldest_none hq e he
      · cases h

theorem State.expelBank_moves {i : Prop} (b : BankId) (x : Status) : ∀ (n : Nat) (s : State),
    MoveRun i s (s.expelBank b x n)
  | 0, _ => .refl
  | n + 1, s => by
    unfold State.expelBank; split
    · exact .refl
    · rename_i before e after h
      exact (Move.expel s before e after (splitOldest_some h).1 x).run.trans (State.expelBank_moves b x n _)

theorem State.flushParked_moves {i : Prop} (s : State) (b : BankId) (x : Status) : MoveRun i s (s.flushParked b x) :=
  State.expelBank_moves b x _ s

/-! ### The meanings of the resets, the link and the clock -/

/-- While RESET_N is low the part stands as after a pin reset, but for what its pins close and hold (R27, R170, R186). -/
theorem State.inPinReset_eq : State.inPinReset =
    { State.afterPinReset ⟨false, Vector.replicate 8 false, false⟩ with
      resetLow := true, linkClosed := true, frameHeld := true
      clock := { micros := 0, cycles := 0, tickCycles := 0 } } := by
  decide +kernel

theorem execPinReset_moves {i : Prop} {s t : State} {e : ResetEdge} {p : PinLevels} (h : execPinReset e p s = .next t) :
    MoveRun i s t := by
  unfold execPinReset at h; split at h
  · cases proceed_inj h
    rw [State.inPinReset_eq]
    exact (Move.pinReset s _).run.trans (Move.outside _ [] none _ _ _ _ true true true _ fun _ _ => ⟨rfl, rfl⟩).run
  · split at h <;> cases proceed_inj h
    · exact (Move.pinReset s p).run
    · exact (Move.begin i s).run

theorem execLinkReset_moves {i : Prop} {s t : State} (h : execLinkReset s = .next t) : MoveRun i s t := by
  unfold execLinkReset at h; split at h <;> cases proceed_inj h
  · exact (Move.begin i s).run
  · exact State.begin_run ((Move.drop _).run.trans ((Calm.post _ _ _).run.moves i))

theorem execLinkOpen_moves {i : Prop} {s t : State} (h : execLinkOpen s = .next t) : MoveRun i s t := by
  cases proceed_inj h
  exact (Move.outside s [] none s.frame s.presented s.lost s.clock s.resetLow s.resetLow s.frameHeld s.pending
    fun hs hl => ⟨hl, (hs hl).2⟩).run

theorem execTick_moves {i : Prop} {s t : State} (h : execTick s = .next t) : MoveRun i s t := by
  rw [execTick_eq] at h
  cases proceed_inj h
  split
  · exact (Move.begin i s).run
  · exact State.begin_run (Move.tick s.begin s.begin.nextTick).run

/-! ### The meanings of the upstream link -/

theorem Work.park_moves {w : Work} {r : Routed} (up : (w.st.bank r.bank).power ≠ .fault)
    (named : w.st.windows[r.window].config.enabled = true ∧ w.st.windows[r.window].config.bank = r.bank) :
    MoveRun True w.st (w.park r).st := by
  have base : ∀ c, ((w.st.setParked (w.st.parked ++ [w.st.entryFor r])).bank c).power = (w.st.bank c).power := by simp
  have cfg : ∀ c, ((w.st.setParked (w.st.parked ++ [w.st.entryFor r])).bank c).config = (w.st.bank c).config := by simp
  unfold Work.park Work.wake; dsimp only [Work.on_st]
  split
  · rename_i h
    rw [base, cfg] at h
    refine (Move.parkAndWake w.st r trivial h.1 h.2).run.trans (CalmRun.moves ?_ True)
    exact Work.tryGrant_calm (((w.on fun s => s.setParked (s.parked ++ [s.entryFor r])).on fun s =>
      s.joinWait r.bank).offer r.bank .wakeBegun)
  · rename_i h
    rw [base, cfg] at h
    by_cases hp : (w.st.bank r.bank).config.present = true
    · refine (Move.park w.st r trivial ⟨?_, ?_, up⟩).run <;> intro hq <;> exact h ⟨hp, by simp [hq]⟩
    · exact (Move.parkAbsent w.st r trivial (by simpa using hp) named).run

theorem Work.place_moves {w : Work} {r : Routed} (up : (w.st.bank r.bank).power ≠ .fault)
    (named : w.st.windows[r.window].config.enabled = true ∧ w.st.windows[r.window].config.bank = r.bank) :
    MoveRun True w.st (w.place r).st := by
  unfold Work.place; split
  · rename_i h
    have h' := of_decide_eq_true h
    refine (Work.forward_calm w r h'.2.1 ?_).moves _
    exact h'.2.2.imp id (·.1)
  · exact Work.park_moves up named

/-- A calm run that ends a soft drain's cancel leaves the bank out of FAULT. -/
theorem Calm.noFault {s t : State} (h : Calm s t) {b : BankId} (hb : (s.bank b).power ≠ .fault) :
    (t.bank b).power ≠ .fault := by
  have upd : ∀ (x : State) (c : BankId) (f : Bank → Bank), (x.bank b).power ≠ .fault →
      (∀ k : Bank, k.power ≠ .fault → (f k).power ≠ .fault) → ((x.updBank c f).bank b).power ≠ .fault := by
    intro x c f hx hf
    rw [State.bank_updBank]; split
    · rename_i hc; subst hc; exact hf _ hx
    · exact hx
  cases h with
  | post k a => simpa using hb
  | fewer q _ => simpa using hb
  | send r _ _ => rw [State.sendRequest_bank]; exact upd s _ _ hb fun k hk => by simpa using hk
  | reload c => exact upd s _ _ hb fun k hk => by simpa using hk
  | cancel c _ _ => rw [State.turnOn_bank]; exact upd s _ _ hb fun k _ => by simp
  | release c _ => rw [State.releaseUnits_bank]; exact upd s _ _ hb fun k hk => hk
  | rampToFilling c _ =>
    rw [State.joinFill_bank]
    refine upd _ _ _ ?_ fun k _ => by simp
    rw [State.endRamp_bank]; split
    · rename_i hc; subst hc; exact hb
    · exact hb
  | rampToOn c _ =>
    rw [State.turnOn_bank]
    refine upd _ _ _ ?_ fun k _ => by simp
    rw [State.endRamp_bank]; split
    · rename_i hc; subst hc; exact hb
    · exact hb
  | fillOver c k a _ => rw [State.turnOn_bank]; exact upd _ _ _ (by simpa using hb) fun k _ => by simp
  | setFill f => exact hb
  | issueFill => rw [State.issueFill_power]; exact hb
  | grantWake c rest _ _ => rw [State.grantWake_bank]; exact upd s _ _ hb fun k _ => by simp
  | joinWait c _ _ => rw [State.joinWait_bank]; exact upd s _ _ hb fun k _ => by simp
  | asleep c _ _ _ => exact upd s _ _ hb fun k _ => by rcases k.lowered_power with h | h <;> simp [h]
  | asleepAndWoken c _ _ _ =>
    rw [State.joinWait_bank]
    exact upd _ _ _ (upd s _ _ hb fun k _ => by rcases k.lowered_power with h | h <;> simp [h]) fun k _ => by simp
  | softDrain c _ => exact upd s _ _ hb fun k _ => by simp
  | hardDrain c t _ => rw [State.hardDraining_bank]; exact upd s _ _ hb fun k _ => by simp
  | retarget c t _ => exact upd s _ _ hb fun k hk => hk
  | toOff c _ => exact upd s _ _ hb fun k _ => by simp
  | countLink l => exact hb

theorem CalmRun.noFault {s t : State} (h : CalmRun s t) {b : BankId} (hb : (s.bank b).power ≠ .fault) :
    (t.bank b).power ≠ .fault := by
  induction h with
  | refl => exact hb
  | tail _ hm ih => exact hm.noFault ih

theorem Work.intake_moves (w : Work) (r : Routed)
    (named : w.st.windows[r.window].config.enabled = true ∧ w.st.windows[r.window].config.bank = r.bank) :
    MoveRun True w.st (w.intake r).st := by
  unfold Work.intake; dsimp only; split
  · exact (Move.answer w.st r.tag .faulted []).run
  · rename_i hf
    split
    · rename_i h
      have hc := w.cancelDrain_calm r.bank h.1 h.2
      exact (hc.moves _).trans (Work.place_moves (hc.noFault hf) (by rw [hc.setup.windows]; exact named))
    · exact Work.place_moves hf named

/-- A permitted request was decoded through an enabled window that names its bank (R111, R112). -/
theorem State.decode_named {s : State} {r : Request} {x : Routed} (h : s.decode r = .permitted x) :
    s.windows[x.window].config.enabled = true ∧ s.windows[x.window].config.bank = x.bank := by
  unfold State.decode at h; split at h
  · cases h
  · rename_i i hi
    split at h
    · cases h
    · split at h
      · cases h
      · cases h
        have := List.find?_some hi
        simp only [decide_eq_true_eq] at this
        exact ⟨this.1, rfl⟩

theorem State.hold_config (s : State) (r : Request) (i j : WindowId) :
    (s.hold r i).windows[j].config = s.windows[j].config := by
  simp only [State.hold, State.updHeld, State.bindTag]
  by_cases hj : i = j
  · subst hj; simp
  · have : i.val ≠ j.val := fun h => hj (Fin.ext h)
    simp [this]

theorem State.take_moves (s : State) (r : Request) : MoveRun True s (s.take r) := by
  unfold State.take; split
  · exact (Calm.post s _ _).run.moves _
  · rename_i hfree
    have free : s.tags[r.tag].state = .free := by simpa using hfree
    split
    · exact ((Move.bind s r.tag r.length free).run.trans (Move.answer _ _ _ _).run).trans ((Calm.post _ _ _).run.moves _)
    · split
      · exact ((Move.bind s r.tag r.length free).run.trans (Move.answer _ _ _ _).run).trans ((Calm.post _ _ _).run.moves _)
      · exact ((Move.hold s r _ free).run.trans (Move.answer _ _ _ _).run).trans ((Calm.post _ _ _).run.moves _)
      · rename_i x hx
        refine (Move.hold s r x.window free).run.trans (State.event_moves ?_)
        refine Work.intake_moves (Work.start (s.hold r x.window)) x ?_
        rw [Work.start_st, State.hold_config]; exact State.decode_named hx

theorem Move.shown (i : Prop) (s : State) (v : Option Request) : Move i s (s.shown v) :=
  .outside s [] none s.frame v s.lost s.clock s.linkClosed s.resetLow s.frameHeld s.pending id

theorem execAcceptance_moves {s t : State} {c : Channel} (h : execAcceptance c s = .next t) : MoveRun True s t := by
  unfold execAcceptance at h; split at h
  · cases proceed_inj h; exact (Move.shown _ s _).run
  · cases proceed_inj h; exact (Move.shown _ s _).run
  · split at h <;> cases proceed_inj h
    · exact (Move.shown _ s _).run.trans (State.take_moves _ _)
    · exact (Move.shown _ s _).run

theorem execResponseTaken_moves {i : Prop} {s t : State} (h : execResponseTaken s = .next t) : MoveRun i s t := by
  unfold execResponseTaken at h; split at h
  · cases proceed_inj h; exact (Move.begin i s).run
  · split at h <;> cases proceed_inj h
    · exact (Move.begin i s).run
    · rename_i x rest hx
      exact State.begin_run (Move.pass s.begin x rest hx).run

/-! ### The meanings of the power events -/

theorem execStageDwellExpiry_moves {i : Prop} {s t : State} {b : BankId} (h : execStageDwellExpiry b s = .next t) :
    MoveRun i s t := by
  unfold execStageDwellExpiry at h; split at h <;> cases proceed_inj h
  · rename_i hd
    refine State.begin_run (State.event_moves ((Move.nextStage s.begin b hd.1 hd.2).run.trans ?_))
    exact (Work.finishRamp_calm ((Work.start s.begin).bank b Bank.nextStage) b).moves i
  · exact (Move.begin i s).run

theorem execRampCompletion_moves {i : Prop} {s t : State} {b : BankId} (h : execRampCompletion b s = .next t) :
    MoveRun i s t := by
  cases proceed_inj h
  refine State.begin_run (State.event_moves ((Move.pgood s.begin b true).run.trans ?_))
  exact (Work.finishRamp_calm ((Work.start s.begin).bank b fun k => { k with pgood := true }) b).moves i

theorem execGrant_moves {i : Prop} {s t : State} (h : execGrant s = .next t) : MoveRun i s t := by
  cases proceed_inj h
  exact State.begin_run (State.event_moves ((Work.tryGrant_calm (Work.start s.begin)).moves i))

theorem State.failAttempt_bank (s : State) (b : BankId) :
    (s.failAttempt b).bank b = { (s.bank b).attemptFailed with charge := 0 } := by
  rw [State.failAttempt, State.releaseUnits_bank]; simp

theorem State.failAttempt_over {s : State} {b : BankId} (h : (s.bank b).power = .ramping) :
    ((s.failAttempt b).bank b).AttemptOver := by
  rw [State.failAttempt_bank]
  refine ⟨by simp [h], ?_, rfl⟩
  unfold Bank.attemptFailed; dsimp only; split <;> rfl

theorem State.failAttempt_queues {s : State} {b : BankId} (hs : s.QueuesHold) : (s.failAttempt b).QueuesHold := by
  refine hs.of_power (by simp) (by simp) fun c => ?_
  rw [State.failAttempt, State.releaseUnits_bank, State.bank_updBank, State.bank_updBank]
  by_cases hc : c = b
  · subst hc; simp
  · simp [hc, State.bank_updBank]

theorem Work.failAttempt_moves {i : Prop} (w : Work) (b : BankId) (h : (w.st.bank b).power = .ramping)
    (hs : w.st.QueuesHold) : MoveRun i w.st (w.failAttempt b).st := by
  refine (Move.failAttempt w.st b h).run.trans ?_
  have ended := State.failAttempt_over h
  unfold Work.failAttempt; dsimp only; split
  · unfold Work.retry
    refine ((Calm.post (w.st.failAttempt b) _ _).run.moves i).trans ((Move.rejoin _ b ?_).run.trans
      ((Work.tryGrant_calm ((w.on fun s => s.failAttempt b).on fun s => (s.post .wakeRetry
        { bank := some b, detail := some (.count (s.bank b).attempts) }).rejoinWait b)).moves i))
    simpa using ended
  · have hc := Work.tryGrant_calm (w.on fun s => s.failAttempt b)
    exact (hc.moves i).trans (Work.enterFault_moves _ b _ (.inl (hc.attemptOver (State.failAttempt_queues hs) ended)))

theorem execWakeLimitExpiry_moves {i : Prop} {s t : State} {b : BankId} (hs : s.QueuesHold)
    (h : execWakeLimitExpiry b s = .next t) : MoveRun i s t := by
  unfold execWakeLimitExpiry at h; split at h <;> cases proceed_inj h
  · rename_i hd
    exact State.begin_run (State.event_moves (Work.failAttempt_moves (Work.start s.begin) b hd.1
      (hs.of_power rfl rfl fun _ => rfl)))
  · exact (Move.begin i s).run

theorem execRailDrop_moves {i : Prop} {s t : State} {b : BankId} (h : execRailDrop b s = .next t) : MoveRun i s t := by
  cases proceed_inj h
  refine State.begin_run (State.event_moves ((Move.pgood s.begin b false).run.trans ?_))
  dsimp only; split
  · rename_i hu
    refine Work.enterFault_moves ((Work.start s.begin).bank b fun k => { k with pgood := false }) b _ (.inr ?_)
    rw [Work.bank_st, State.bank_updBank_self]
    exact hu
  · exact .refl

theorem execResponseTimeout_moves {i : Prop} {s t : State} {b : BankId} (h : execResponseTimeout b s = .next t) :
    MoveRun i s t := by
  unfold execResponseTimeout at h; split at h <;> cases proceed_inj h
  · rename_i hd
    exact State.begin_run (State.event_moves (Work.enterFault_moves (Work.start s.begin) b _ (.inr hd.1)))
  · exact (Move.begin i s).run

/-! ### The meanings of the port and fill events -/

theorem State.completeRequest_moves {i : Prop} (s : State) (b : BankId) (x : Slot) (t : Tag) (st : Stream) (r : BankResult)
    (d : Vector Byte 64) : MoveRun i s (s.completeRequest b x t st r d) := by
  unfold State.completeRequest; dsimp only; split
  · exact (Move.answer s _ _ _).run
  · exact (Move.answer s _ _ _).run.trans ((Calm.post _ _ _).run.moves i)

theorem Work.abandonFill_calm (w : Work) (b : BankId) (g : Segment) (h : w.st.fillsBank b = true) :
    CalmRun w.st (w.abandonFill b g).st := by
  refine (Calm.fillOver w.st b .fillError { bank := some b, detail := some (.segment g) } (.inl h)).run.trans ?_
  exact (Work.scan_calm (((w.on fun s => (s.unqueueFill b).post .fillError
    { bank := some b, detail := some (.segment g) }).on fun s => s.turnOn b).offer b .ready)).trans (Work.startHead_calm _)

/-- Counting a fill write changes the fill in progress only. -/
theorem State.countFillWrite_fill (s : State) (b : BankId) : ∃ f, (s.countFillWrite b).1 = { s with fill := f } :=
  ⟨_, rfl⟩

theorem State.markFilled_moves {i : Prop} {s : State} {b : BankId} {g : Segment} (h : s.fillsBank b = true) :
    MoveRun i s (s.markFilled b g) := by
  unfold State.markFilled; split
  · exact .refl
  · exact (Move.fillMark s b g h).run

theorem Work.completeFillWrite_moves {i : Prop} (w : Work) (b : BankId) (x : Slot) (r : BankResult) :
    MoveRun i w.st (w.completeFillWrite b x r).1.st := by
  unfold Work.completeFillWrite; split
  · rename_i hc
    have hb : w.st.fillsBank b = true := (of_decide_eq_true hc).1
    split
    · exact (w.abandonFill_calm b x.segment hb).moves i
    · obtain ⟨f, hf⟩ := w.st.countFillWrite_fill b
      have h1 : MoveRun i w.st (w.st.countFillWrite b).1 := by rw [hf]; exact (Calm.setFill w.st f).run.moves i
      dsimp only; split
      · exact h1
      · refine h1.trans (State.markFilled_moves ?_)
        rw [hf]; exact hb
  · exact .refl

theorem Work.holderAction_moves {i : Prop} (w : Work) (b : BankId) (x : Slot) (r : BankResult) (d : Vector Byte 64) :
    MoveRun i w.st (w.holderAction b x r d).1.st := by
  unfold Work.holderAction; split
  · exact State.completeRequest_moves _ _ _ _ _ _ _
  · exact .refl
  · exact w.completeFillWrite_moves b x r

theorem Work.complete_moves {i : Prop} (w : Work) (b : BankId) (x : Slot) (rest : List Slot) (r : BankResult)
    (d : Vector Byte 64) (h : (w.st.bank b).port.slots = x :: rest) : MoveRun i w.st (w.complete b x rest r d).st := by
  refine (Move.free w.st b x rest h).run.trans ?_
  refine (Work.holderAction_moves (w.bank b fun k => k.withPort fun p => { p with slots := rest }) b x r d).trans
    (CalmRun.moves ?_ i)
  exact (Work.scan_calm _).trans ((Work.fillStep_calm _ b _).trans (Work.drainIfEmpty_calm _ b))

theorem Work.watchOldest_moves {i : Prop} (w : Work) (b : BankId) : MoveRun i w.st (w.watchOldest b).st := by
  unfold Work.watchOldest; split
  · rename_i h
    exact (w.enterFault_moves b _ (.inr h.1)).trans ((Work.takeTriggers_calm _).moves i)
  · exact .refl

theorem execCompletion_moves {i : Prop} {s t : State} {b : BankId} {r : BankResult} {d : Vector Byte 64}
    (h : execCompletion b r d s = .next t) : MoveRun i s t := by
  unfold execCompletion at h; split at h
  · cases proceed_inj h; exact (Move.begin i s).run
  · split at h <;> cases proceed_inj h
    · exact (Move.begin i s).run
    · rename_i x rest hx
      have begun : MoveRun i s { s.begin with fillError := s.fillErrorOf b x r } :=
        (Move.outside s [] (s.fillErrorOf b x r) s.frame s.presented s.lost s.clock s.linkClosed s.resetLow s.frameHeld
          s.pending id).run
      refine begun.trans ((Work.complete_moves (Work.start { s.begin with fillError := s.fillErrorOf b x r }) b x rest r d
        hx).trans ?_)
      exact ((Work.takeTriggers_calm _).moves i).trans (Work.watchOldest_moves _ b)

theorem execFillWriteIssue_moves {i : Prop} {s t : State} (h : execFillWriteIssue s = .next t) : MoveRun i s t := by
  cases proceed_inj h; exact State.begin_run ((Calm.issueFill s.begin).run.moves i)

theorem execDrainCompletion_moves {i : Prop} {s t : State} {b : BankId} (h : execDrainCompletion b s = .next t) :
    MoveRun i s t := by
  cases proceed_inj h
  exact State.begin_run (State.event_moves ((Work.drainIfEmpty_calm (Work.start s.begin) b).moves i))

/-! ### The meanings of the expiries -/

theorem execParkExpiry_moves {i : Prop} {s t : State} {g : Tag} (h : execParkExpiry g s = .next t) : MoveRun i s t := by
  unfold execParkExpiry at h; split at h <;> cases proceed_inj h
  · exact (Move.begin i s).run
  · rename_i before e after hq
    refine State.begin_run (State.event_moves ((Move.expel s.begin before e after (splitOldest_some hq).1 .expired).run.trans ?_))
    refine CalmRun.moves (Relation.ReflTransGen.trans ?_ (Work.scan_calm _)) i
    exact (Calm.post _ _ _).run

theorem execIdleExpiry_moves {i : Prop} {s t : State} {b : BankId} (h : execIdleExpiry b s = .next t) : MoveRun i s t := by
  unfold execIdleExpiry at h; split at h <;> cases proceed_inj h
  · rename_i hd
    exact State.begin_run (State.event_moves ((Work.softDrain_calm (Work.start s.begin) b hd.1).moves i))
  · exact (Move.begin i s).run

theorem execRetainExpiry_moves {i : Prop} {s t : State} {b : BankId} (h : execRetainExpiry b s = .next t) :
    MoveRun i s t := by
  unfold execRetainExpiry at h; split at h <;> cases proceed_inj h
  · rename_i hd
    exact State.begin_run (CalmRun.moves ((Calm.toOff s.begin b hd.1).run.trans (Calm.post _ _ _).run) i)
  · exact (Move.begin i s).run

/-! ### Management commands -/

/-- A frame is a run of moves when what its command does is one. -/
theorem State.framed_moves {i : Prop} {s t : State} (h : MoveRun i s t) (received reply : List Byte) :
    MoveRun i s (s.framed t received reply) := by
  unfold State.framed; split
  · exact .refl
  · exact h.trans (Move.frame i t _).run

/-- A management command is a run of moves when the state that a DONE answer leaves is reached by one. -/
theorem State.serve_moves {i : Prop} {s t : State} {c : FrameCommand} {index : Byte} {args : List Byte}
    {result : Except ResponseCode (State × List Byte)} (h : proceed (s.serve c index args result) = .next t)
    (hr : ∀ u body, result = .ok (u, body) → MoveRun i s u) : MoveRun i s t := by
  cases proceed_inj h
  unfold State.serve; split
  · exact State.framed_moves (hr _ _ rfl) _ _
  · exact State.framed_moves .refl _ _

theorem withoutIndex_ok {index : Byte} {body : Except ResponseCode (State × List Byte)} {u : State × List Byte}
    (h : withoutIndex index body = .ok u) : body = .ok u := by
  unfold withoutIndex at h; split at h
  · exact h
  · cases h

theorem withBank_ok {index : Byte} {body : BankId → Except ResponseCode (State × List Byte)} {u : State × List Byte}
    (h : withBank index body = .ok u) : ∃ b, bankOf index = some b ∧ body b = .ok u := by
  unfold withBank at h; split at h
  · exact ⟨_, ‹_›, h⟩
  · cases h

theorem withWindow_ok {index : Byte} {body : WindowId → Except ResponseCode (State × List Byte)} {u : State × List Byte}
    (h : withWindow index body = .ok u) : ∃ i, windowOf index = some i ∧ body i = .ok u := by
  unfold withWindow at h; split at h
  · exact ⟨_, ‹_›, h⟩
  · cases h

theorem withLink_ok {index : Byte} {body : LinkId → Except ResponseCode (State × List Byte)} {u : State × List Byte}
    (h : withLink index body = .ok u) : ∃ l, linkOf index = some l ∧ body l = .ok u := by
  unfold withLink at h; split at h
  · exact ⟨_, ‹_›, h⟩
  · cases h

theorem Except.ok_fst {ε : Type} {s u : State} {a b : List Byte} (h : (Except.ok (s, a) : Except ε (State × List Byte)) = .ok (u, b)) :
    s = u := by cases h; rfl

theorem execUnknownCommand_moves {i : Prop} {s t : State} {c x : Byte} (h : execUnknownCommand c x s = .next t) :
    MoveRun i s t := by
  cases proceed_inj h; exact State.begin_run (State.framed_moves .refl _ _)

theorem execFrameDiscarded_moves {i : Prop} {s t : State} {r : List Byte} (h : execFrameDiscarded r s = .next t) :
    MoveRun i s t := by
  cases proceed_inj h
  exact (Move.outside s [] none Frame.empty s.presented s.lost s.clock s.linkClosed s.resetLow (s.frameHeld && s.resetLow)
    s.pending fun hs hl => ⟨(hs hl).1, by simp [hl, (hs hl).2]⟩).run

theorem execReadGlobal_moves {i : Prop} {s t : State} {x : Byte} (h : execReadGlobal x s = .next t) : MoveRun i s t :=
  State.begin_run (State.serve_moves h fun _ _ hu => by cases withoutIndex_ok hu; exact .refl)

theorem State.writeGlobal_moves {i : Prop} {s u : State} {a : Vector Byte 7} {body : List Byte}
    (h : s.writeGlobal a = .ok (u, body)) : MoveRun i s u := by
  unfold State.writeGlobal at h; split at h
  · cases h
  · split at h
    · cases h
    · split at h
      · cases h
      · split at h
        · cases h
        · rename_i g _ hr hb hh
          cases h
          refine (Move.setGlobal s g (by simpa using hr) (by simpa using hb) (by omega)).run.trans (State.event_moves ?_)
          exact (Work.tryGrant_calm (Work.start { s with global := g })).moves i

theorem execWriteGlobal_moves {i : Prop} {s t : State} {x : Byte} {a : Vector Byte 7}
    (h : execWriteGlobal x a s = .next t) : MoveRun i s t :=
  State.begin_run (State.serve_moves h fun _ _ hu => State.writeGlobal_moves (withoutIndex_ok hu))

theorem execReadStatus_moves {i : Prop} {s t : State} {x : Byte} (h : execReadStatus x s = .next t) : MoveRun i s t :=
  State.begin_run (State.serve_moves h fun _ _ hu => by
    cases withoutIndex_ok hu
    exact (Move.outside s.begin [] none s.frame s.presented 0 s.clock s.linkClosed s.resetLow s.frameHeld s.pending id).run)

theorem execPopEvent_moves {i : Prop} {s t : State} {x : Byte} (h : execPopEvent x s = .next t) : MoveRun i s t :=
  State.begin_run (State.serve_moves h fun u body hu => by
    have h1 := withoutIndex_ok hu
    unfold State.popEvent at h1; split at h1 <;> cases h1
    · exact .refl
    · rename_i r rest hr; exact (Move.pop s.begin r rest hr).run)

theorem execReadBankConfig_moves {i : Prop} {s t : State} {x : Byte} (h : execReadBankConfig x s = .next t) :
    MoveRun i s t :=
  State.begin_run (State.serve_moves h fun _ _ hu => by obtain ⟨b, _, hb⟩ := withBank_ok hu; cases hb; exact .refl)

theorem execWriteBankConfig_moves {i : Prop} {s t : State} {x : Byte} {a : Vector Byte 22}
    (h : execWriteBankConfig x a s = .next t) : MoveRun i s t :=
  State.begin_run (State.serve_moves h fun _ _ hu => by
    obtain ⟨b, _, hb⟩ := withBank_ok hu
    unfold State.writeBankConfig at hb; split at hb
    · cases hb
    · split at hb
      · cases hb
      · split at hb
        · cases hb
        · split at hb
          · cases hb
          · rename_i hc _ c _ hr hn
            cases hb
            exact (Move.configure s.begin b c (by simpa using hc) (by simpa using hr) (by simpa using hn)).run)

theorem execReadBankStatus_moves {i : Prop} {s t : State} {x : Byte} (h : execReadBankStatus x s = .next t) :
    MoveRun i s t :=
  State.begin_run (State.serve_moves h fun _ _ hu => by obtain ⟨b, _, hb⟩ := withBank_ok hu; cases hb; exact .refl)

theorem execReadWindow_moves {i : Prop} {s t : State} {x : Byte} (h : execReadWindow x s = .next t) : MoveRun i s t :=
  State.begin_run (State.serve_moves h fun _ _ hu => by obtain ⟨b, _, hb⟩ := withWindow_ok hu; cases hb; exact .refl)

theorem execWriteWindow_moves {i : Prop} {s t : State} {x : Byte} {a : Vector Byte 15}
    (h : execWriteWindow x a s = .next t) : MoveRun i s t :=
  State.begin_run (State.serve_moves h fun _ _ hu => by
    obtain ⟨w, _, hw⟩ := withWindow_ok hu
    unfold State.writeWindow at hw; split at hw
    · cases hw
    · split at hw
      · cases hw
      · rename_i hh _ c _
        split at hw
        · cases hw
        · rename_i hc
          cases hw
          refine (Move.setWindow s.begin w c (by omega) fun he => ?_).run
          rwa [if_pos he] at hc)

theorem execReadLink_moves {i : Prop} {s t : State} {x : Byte} (h : execReadLink x s = .next t) : MoveRun i s t :=
  State.begin_run (State.serve_moves h fun _ _ hu => by obtain ⟨b, _, hb⟩ := withLink_ok hu; cases hb; exact .refl)

theorem execWriteLink_moves {i : Prop} {s t : State} {x : Byte} {a : Vector Byte 5} (h : execWriteLink x a s = .next t) :
    MoveRun i s t :=
  State.begin_run (State.serve_moves h fun _ _ hu => by
    obtain ⟨l, _, hl⟩ := withLink_ok hu
    unfold State.writeLink at hl; split at hl
    · cases hl
    · split at hl
      · cases hl
      · rename_i c _ hc
        cases hl
        refine (Move.setLink s.begin l c fun he => ?_).run
        simp only [not_and, not_or, he, Bool.not_eq_false, true_implies] at hc
        exact hc)

theorem execReadParked_moves {i : Prop} {s t : State} {x : Byte} (h : execReadParked x s = .next t) : MoveRun i s t :=
  State.begin_run (State.serve_moves h fun _ _ hu => by
    split at hu <;> cases hu
    exact .refl)

theorem State.wakeBank_moves {i : Prop} {s u : State} {b : BankId} {body : List Byte} (h : s.wakeBank b = .ok (u, body)) :
    MoveRun i s u := by
  unfold State.wakeBank at h; dsimp only at h; split at h
  · cases h
  · split at h
    · cases h; exact State.event_moves ((Work.wake_calm (Work.start s) b false).moves i)
    · cases h; exact State.event_moves ((Work.wake_calm (Work.start s) b false).moves i)
    · cases h; exact .refl
    · cases h; exact .refl
    · cases h; exact .refl
    · cases h; exact (Move.reload s b).run
    · split at h <;> cases h
      exact State.event_moves ((Work.cancelDrain_calm (Work.start s) b ‹_› ‹_›).moves i)
    · cases h

theorem execWakeBank_moves {i : Prop} {s t : State} {x : Byte} (h : execWakeBank x s = .next t) : MoveRun i s t :=
  State.begin_run (State.serve_moves h fun _ _ hu => by
    obtain ⟨b, _, hb⟩ := withBank_ok hu; exact State.wakeBank_moves hb)

theorem execSleepBank_moves {i : Prop} {s t : State} {x y : Byte} (h : execSleepBank x y s = .next t) : MoveRun i s t :=
  State.begin_run (State.serve_moves h fun _ _ hu => by
    obtain ⟨b, _, hb⟩ := withBank_ok hu
    unfold State.sleepBank at hb; split at hb
    · cases hb
    · dsimp only at hb; split at hb
      · cases hb
      · split at hb <;> cases hb
        exact State.event_moves ((Work.sleep_calm (Work.start s.begin) b _ false).moves i))

theorem execFlushBank_moves {i : Prop} {s t : State} {x : Byte} (h : execFlushBank x s = .next t) : MoveRun i s t :=
  State.begin_run (State.serve_moves h fun _ _ hu => by
    obtain ⟨b, _, hb⟩ := withBank_ok hu
    unfold State.flushBank at hb; split at hb
    · cases hb
    · dsimp only at hb; cases hb
      exact (State.flushParked_moves _ b _).trans (State.event_moves ((Work.scan_calm (Work.start _)).moves i)))

theorem execClearFault_moves {i : Prop} {s t : State} {x : Byte} (h : execClearFault x s = .next t) : MoveRun i s t :=
  State.begin_run (State.serve_moves h fun _ _ hu => by
    obtain ⟨b, _, hb⟩ := withBank_ok hu
    unfold State.clearFault at hb; split at hb <;> cases hb
    rename_i hn
    exact (Move.clearFault s.begin b (by simpa using (not_or.1 hn).2)).run)

theorem State.cutOffFill_calm (s : State) (b : BankId) (n m : Nat) : CalmRun s (s.cutOffFill b n m) := by
  unfold State.cutOffFill; split
  · split
    · exact (Calm.setFill s _).run
    · exact .refl
  · exact .refl

theorem Work.moveFillOn_calm (w : Work) (b : BankId) (h : (w.st.bank b).power = .filling) :
    CalmRun w.st (w.moveFillOn b).st := by
  unfold Work.moveFillOn; split
  · split
    · exact w.startHead_calm
    · exact .refl
  · split
    · exact w.fillDone_calm b (.inr h)
    · exact .refl

theorem State.markable_markRange (s : State) (b : BankId) (n m : Nat) (x : Mark) (h : (s.bank b).markable = true) :
    ((s.updBank b fun k => k.markRange n m x).bank b).markable = true := by
  rw [State.bank_updBank_self]; unfold Bank.markable Bank.markRange; exact h

theorem Work.markValid_moves {i : Prop} (w : Work) (b : BankId) (n m : Nat) (stays : Option Segment)
    (h : (w.st.bank b).markable = true) : MoveRun i w.st (w.markValid b n m stays).st := by
  have h1 := (Move.mark (intake := i) w.st b n m .valid h).run
  cases stays with
  | none => exact h1
  | some g => exact h1.trans (Move.mark _ b g.val 1 .lost (w.st.markable_markRange b n m .valid h)).run

theorem Work.mark_moves {i : Prop} (w : Work) (b : BankId) (n m : Nat) (x : Mark) (stays : Option Segment)
    (h : (w.st.bank b).markable = true) : MoveRun i w.st (w.mark b n m x stays).st := by
  cases x with
  | lost => exact (Move.mark w.st b n m .lost h).run
  | valid =>
    refine (w.markValid_moves b n m stays h).trans (CalmRun.moves ?_ i)
    unfold Work.mark; dsimp only
    have h1 := (State.cutOffFill_calm (w.markValid b n m stays).st b n m).trans
      (Work.scan_calm ((w.markValid b n m stays).on fun s => s.cutOffFill b n m))
    split
    · exact h1.trans (Work.moveFillOn_calm _ b ‹_›)
    · exact h1

theorem execMarkSegments_moves {i : Prop} {s t : State} {x f c v : Byte} (h : execMarkSegments x f c v s = .next t) :
    MoveRun i s t :=
  State.begin_run (State.serve_moves h fun _ _ hu => by
    obtain ⟨b, _, hb⟩ := withBank_ok hu
    unfold State.markSegments at hb; split at hb
    · cases hb
    · split at hb
      · cases hb
      · split at hb
        · cases hb
        · split at hb <;> cases hb
          rename_i hm
          exact State.event_moves (Work.mark_moves (Work.start s.begin) b _ _ _ _ (by simpa using hm)))

theorem execClearCount_moves {i : Prop} {s t : State} {x : Byte} (h : execClearCount x s = .next t) : MoveRun i s t :=
  State.begin_run (State.serve_moves h fun _ _ hu => by
    obtain ⟨b, _, hb⟩ := withBank_ok hu
    unfold State.clearCount at hb; split at hb <;> cases hb
    exact (Move.clearCount s.begin b).run)

/-! ### Every command -/

/-- Every command is a run of moves, with the queues in step; and only an acceptance parks. -/
theorem exec_moves {i : Instr} {s t : State} (hs : s.QueuesHold) (h : exec i s = .next t) :
    MoveRun (∃ r, i = .acceptance r) s t := by
  cases i with
  | pinReset _ _ => exact execPinReset_moves h
  | linkReset => exact execLinkReset_moves h
  | linkOpen => exact execLinkOpen_moves h
  | tick => exact execTick_moves h
  | acceptance r =>
    have : (∃ r', Instr.acceptance r = .acceptance r') = True := eq_true ⟨r, rfl⟩
    rw [this]; exact execAcceptance_moves h
  | responseTaken => exact execResponseTaken_moves h
  | stageDwellExpiry _ => exact execStageDwellExpiry_moves h
  | rampCompletion _ => exact execRampCompletion_moves h
  | grant => exact execGrant_moves h
  | wakeLimitExpiry _ => exact execWakeLimitExpiry_moves hs h
  | railDrop _ => exact execRailDrop_moves h
  | responseTimeout _ => exact execResponseTimeout_moves h
  | completion _ _ _ => exact execCompletion_moves h
  | fillWriteIssue => exact execFillWriteIssue_moves h
  | drainCompletion _ => exact execDrainCompletion_moves h
  | parkExpiry _ => exact execParkExpiry_moves h
  | idleExpiry _ => exact execIdleExpiry_moves h
  | retainExpiry _ => exact execRetainExpiry_moves h
  | unknownCommand _ _ => exact execUnknownCommand_moves h
  | readGlobal _ => exact execReadGlobal_moves h
  | writeGlobal _ _ => exact execWriteGlobal_moves h
  | readStatus _ => exact execReadStatus_moves h
  | popEvent _ => exact execPopEvent_moves h
  | readBankConfig _ => exact execReadBankConfig_moves h
  | writeBankConfig _ _ => exact execWriteBankConfig_moves h
  | readBankStatus _ => exact execReadBankStatus_moves h
  | wakeBank _ => exact execWakeBank_moves h
  | sleepBank _ _ => exact execSleepBank_moves h
  | flushBank _ => exact execFlushBank_moves h
  | clearFault _ => exact execClearFault_moves h
  | markSegments _ _ _ _ => exact execMarkSegments_moves h
  | clearCount _ => exact execClearCount_moves h
  | readWindow _ => exact execReadWindow_moves h
  | writeWindow _ _ => exact execWriteWindow_moves h
  | readLink _ => exact execReadLink_moves h
  | writeLink _ _ => exact execWriteLink_moves h
  | readParked _ => exact execReadParked_moves h
  | frameDiscarded r => exact execFrameDiscarded_moves (r := r) h

end Sys2Proof.Machine
end

