-- ==== Sys2Proof/Laws/Banks.lean ====
section
/-! SUPPORT. What a step can do to one bank: every step takes each bank's record through a run of the changes below, each
with what was checked before it. A property of one bank that every change keeps is kept by every step. -/

namespace Sys2Proof.Machine

/-- One change of a bank's record. -/
inductive BankMove : Bank → Bank → Prop
  | sync (k : Bank) (n : Nat) : BankMove k (k.syncIdle n)
  | reload (k : Bank) : BankMove k k.reloadIdle
  | send (k : Bank) (x : Slot) (room : k.port.hasRoom = true) (up : k.power = .on ∨ k.power = .filling)
      (request : x.holder ≠ .fill) : BankMove k (k.forwarded x)
  | fillWrite (k : Bank) (x : Slot) (takes : k.takesFill = true) (up : k.power = .filling) : BankMove k (k.withFill x)
  | free (k : Bank) (x : Slot) (rest : List Slot) (h : k.port.slots = x :: rest) :
      BankMove k (k.withPort fun p => { p with slots := rest })
  | orphan (k : Bank) : BankMove k k.orphaned
  | clearCount (k : Bank) : BankMove k (k.withPort fun p => { p with counter := 0, reached := false })
  | woken (k : Bank) (present : k.config.present = true) (low : k.power = .off ∨ k.power = .retain) : BankMove k k.woken
  | granted (k : Bank) (n : Nat) (h : k.power = .waiting) : BankMove k (k.granted n)
  | nextStage (k : Bank) (h : k.power = .ramping) : BankMove k k.nextStage
  | release (k : Bank) (h : k.rampDone = true) : BankMove k { k with charge := 0 }
  | rampToFilling (k : Bank) (h : k.rampDone = true) : BankMove k
      { k with power := .filling, wakeKind := .none, dwellTimer := none, wakeTimer := none, charge := 0 }
  | rampToOn (k : Bank) (n : Nat) (h : k.rampDone = true) : BankMove k
      (Bank.turnedOn { k with wakeKind := .none, dwellTimer := none, wakeTimer := none, charge := 0 } n)
  | attemptFailed (k : Bank) (h : k.power = .ramping) : BankMove k { k.attemptFailed with charge := 0 }
  | retry (k : Bank) (h : k.AttemptOver) : BankMove k { k with power := .waiting }
  | filled (k : Bank) (n : Nat) (h : k.power = .filling) : BankMove k (k.turnedOn n)
  | cancelled (k : Bank) (n : Nat) (h : k.power = .draining) : BankMove k (k.turnedOn n)
  | drain (k : Bank) (x : DrainKind) (t : RestTarget) (hx : x ≠ .none) (h : k.power = .on ∨ k.power = .filling) :
      BankMove k (k.draining x t)
  | retarget (k : Bank) (t : RestTarget) (h : k.power = .draining) :
      BankMove k { k with drainKind := .hard, drainTarget := t.drain }
  | lowered (k : Bank) (h : k.power = .draining) (empty : k.port.slots = []) : BankMove k k.lowered
  | toOff (k : Bank) (h : k.power = .retain) : BankMove k k.retainToOff
  | fault (k : Bank) (h : k.AttemptOver ∨ k.railUp = true) : BankMove k k.faulted
  | cleared (k : Bank) (h : k.power = .fault) : BankMove k k.cleared
  | mark (k : Bank) (first count : Nat) (m : Mark) (h : k.markable = true) : BankMove k (k.markRange first count m)
  | configured (k : Bank) (c : BankConfig) (budget : Nat) (h : k.configurable = true) (range : c.inRange budget = true)
      (stays : k.power = .fault → k.config.present = true → c.present = true) : BankMove k (k.configured c)
  | tick (k : Bank) : BankMove k k.tick
  | pgood (k : Bank) (v : Bool) : BankMove k { k with pgood := v }
  | reset (k : Bank) (v : Bool) : BankMove k { Bank.reset with pgood := v }

/-- A run of changes of a bank's record. -/
abbrev BankRun : Bank → Bank → Prop := Relation.ReflTransGen BankMove

theorem BankMove.run {k k' : Bank} (h : BankMove k k') : BankRun k k' := .single h

theorem BankRun.updBank {s : State} (c b : BankId) {f : Bank → Bank} (h : BankRun (s.bank c) (f (s.bank c))) :
    BankRun (s.bank b) ((s.updBank c f).bank b) := by
  rw [State.bank_updBank]; split
  · rename_i hb; subst hb; exact h
  · exact .refl

/-- What a calm move does to a bank. -/
theorem Calm.bank {s t : State} (h : Calm s t) (hs : s.QueuesHold) (b : BankId) : BankRun (s.bank b) (t.bank b) := by
  cases h with
  | post k a => rw [State.post_bank]
  | fewer q _ => rw [State.setParked_bank]; exact (BankMove.sync _ _).run
  | send r room up =>
    rw [State.sendRequest_bank]; exact .updBank _ _ (BankMove.send _ _ room up (by simp [State.requestSlot])).run
  | reload c => exact .updBank _ _ (BankMove.reload _).run
  | cancel c h _ => rw [State.turnOn_bank]; exact .updBank _ _ (BankMove.cancelled _ _ h).run
  | release c h => rw [State.releaseUnits_bank]; exact .updBank _ _ (BankMove.release _ h).run
  | rampToFilling c h =>
    rw [State.joinFill_bank, State.bank_updBank]; split
    · rename_i hb; subst hb
      rw [State.endRamp_bank, if_pos rfl]; exact (BankMove.rampToFilling _ h).run
    · rename_i hb; rw [State.endRamp_bank, if_neg hb]
  | rampToOn c h =>
    rw [State.turnOn_bank, State.bank_updBank]; split
    · rename_i hb; subst hb
      rw [State.endRamp_bank, if_pos rfl]; exact (BankMove.rampToOn _ _ h).run
    · rename_i hb; rw [State.endRamp_bank, if_neg hb]
  | fillOver c k a h =>
    rw [State.turnOn_bank]
    have : ((s.unqueueFill c).post k a).bank b = s.bank b := by simp
    rw [← this]
    exact .updBank _ _ (BankMove.filled _ _ (by simpa using h.elim hs.head id)).run
  | setFill f => exact .refl
  | issueFill =>
    rcases s.issueFill_cases with h | ⟨c, g, a, hq, _, _, ht, h⟩ <;> rw [h]
    rw [State.placeFill_bank]; exact .updBank _ _ (BankMove.fillWrite _ _ ht (hs.head hq)).run
  | grantWake c rest hl _ =>
    rw [State.grantWake_bank]
    exact .updBank _ _ (BankMove.granted _ _ ((hs.wait c).1 (by simp [hl]))).run
  | joinWait c present low => rw [State.joinWait_bank]; exact .updBank _ _ (BankMove.woken _ present low).run
  | asleep c h empty _ => exact .updBank _ _ (BankMove.lowered _ h empty).run
  | asleepAndWoken c h empty present =>
    rw [State.joinWait_bank]
    refine (BankRun.updBank (s := s) c b (BankMove.lowered _ h empty).run).trans
      (BankRun.updBank c b (BankMove.woken _ ?_ ?_).run)
    · simpa using present
    · simpa using Bank.lowered_power _
  | softDrain c h => exact .updBank _ _ (BankMove.drain _ .soft _ (by decide) (.inl h)).run
  | hardDrain c t h => rw [State.hardDraining_bank]; exact .updBank _ _ (BankMove.drain _ .hard _ (by decide) h).run
  | retarget c t h => exact .updBank _ _ (BankMove.retarget _ t h).run
  | toOff c h => exact .updBank _ _ (BankMove.toOff _ h).run
  | countLink l => exact .refl

/-! ### Answers -/

/-- Answers change no bank. -/
theorem State.answerEntries_bank (x : Status) : ∀ (q : List Entry) (s : State) (b : BankId),
    (s.answerEntries x q).bank b = s.bank b
  | [], _, _ => rfl
  | e :: q, s, b => by rw [State.answerEntries, State.answerEntries_bank x q]; simp

theorem State.answerSlots_bank : ∀ (q : List Slot) (s : State) (x : Status) (b : BankId),
    (s.answerSlots x q).bank b = s.bank b
  | [], _, _, _ => rfl
  | e :: q, s, x, b => by
    rw [State.answerSlots, State.answerSlots_bank q]; split <;> simp

theorem State.expel_bank (s : State) (before : List Entry) (e : Entry) (after : List Entry) (x : Status) (b : BankId) :
    (s.expel before e after x).bank b = (s.bank b).syncIdle (parkedCount (withoutCascade before e after) b) := by
  rw [State.expel, State.answerEntries_bank, State.setParked_bank]

theorem State.expelBank_bank (c : BankId) (x : Status) : ∀ (n : Nat) (s : State) (b : BankId),
    BankRun (s.bank b) ((s.expelBank c x n).bank b)
  | 0, _, _ => .refl
  | n + 1, s, b => by
    unfold State.expelBank; split
    · exact .refl
    · refine Relation.ReflTransGen.trans ?_ (State.expelBank_bank c x n _ b)
      rw [State.expel_bank]; exact (BankMove.sync _ _).run

theorem State.passResponse_banks (s : State) (x : Response) (rest : List Response) :
    (s.passResponse x rest).banks = s.banks := by
  unfold State.passResponse; dsimp only; split <;> simp

theorem State.passResponse_bank (s : State) (x : Response) (rest : List Response) (b : BankId) :
    (s.passResponse x rest).bank b = s.bank b := by simp only [State.bank, State.passResponse_banks]

/-- What a move does to a bank. -/
theorem Move.bank {i : Prop} {s t : State} (h : Move i s t) (hs : s.QueuesHold) (b : BankId) :
    BankRun (s.bank b) (t.bank b) := by
  cases h with
  | calm h => exact h.bank hs b
  | outside => exact .refl
  | pop => exact .refl
  | answer g x d => rw [State.answer_bank]
  | bind g n _ => rw [State.bindTag_bank]
  | hold r w _ => rw [State.hold_bank]
  | pass x rest _ => rw [State.passResponse_bank]
  | drop => rw [State.dropRequests_bank]; exact (BankMove.sync _ _).run.trans (BankMove.orphan _).run
  | park r _ _ => rw [State.setParked_bank]; exact (BankMove.sync _ _).run
  | parkAndWake r _ present low =>
    rw [State.joinWait_bank]
    refine Relation.ReflTransGen.trans ?_ (BankRun.updBank r.bank b (BankMove.woken _ ?_ ?_).run)
    · rw [State.setParked_bank]; exact (BankMove.sync _ _).run
    · simpa using present
    · simpa using low
  | parkAbsent r _ _ _ => rw [State.setParked_bank]; exact (BankMove.sync _ _).run
  | free c x rest h => exact .updBank _ _ (BankMove.free _ x rest h).run
  | fillMark c g h =>
    exact .updBank _ _ (BankMove.mark _ _ _ _ (by simp [Bank.markable, hs.head h])).run
  | mark c first count m h => exact .updBank _ _ (BankMove.mark _ _ _ _ h).run
  | pgood c v => exact .updBank _ _ (BankMove.pgood _ v).run
  | nextStage c h _ => exact .updBank _ _ (BankMove.nextStage _ h).run
  | failAttempt c h =>
    by_cases hb : b = c
    · subst hb; rw [State.failAttempt_bank]; exact (BankMove.attemptFailed _ h).run
    · rw [State.failAttempt, State.releaseUnits_bank]; simp only [State.bank_updBank, if_neg hb]; exact .refl
  | rejoin c h => rw [State.rejoinWait_bank]; exact .updBank _ _ (BankMove.retry _ h).run
  | fault c cause h =>
    refine Relation.ReflTransGen.trans ?_ (State.expelBank_bank c .faulted _ _ b)
    rw [State.answerSlots_bank, State.toFault_bank]
    exact BankRun.updBank _ _ (BankMove.fault _ h).run
  | setGlobal => exact .refl
  | configure c x h range names =>
    refine .updBank _ _ (BankMove.configured _ x _ h range fun hf hp => ?_).run
    by_contra hx
    simp [State.namingRefuses, hf, hp, hx] at names
  | setWindow w x _ _ => rw [State.setWindow_bank]
  | setLink => exact .refl
  | expel before e after _ x => rw [State.expel_bank]; exact (BankMove.sync _ _).run
  | reload c => exact .updBank _ _ (BankMove.reload _).run
  | clearFault c h => exact .updBank _ _ (BankMove.cleared _ h).run
  | clearCount c => exact .updBank _ _ (BankMove.clearCount _).run
  | tick clock => 
    have : State.bank { s.mapBanks (fun _ k => k.tick) with clock := clock, parked := s.parked.map Entry.tick } b
        = (s.bank b).tick := State.bank_mapBanks s _ b
    rw [this]; exact (BankMove.tick _).run
  | pinReset p =>
    have : State.bank { State.afterPinReset p with pending := s.pending } b = { Bank.reset with pgood := p.pgood[b] } := by
      simp [State.bank, State.afterPinReset]
    rw [this]; exact (BankMove.reset _ _).run

end Sys2Proof.Machine
end

