-- ==== Sys2Proof/Laws/Keep.lean ====
section
/-! SUPPORT. Properties of one bank, and of the queues of banks, that every move keeps. -/

namespace Sys2Proof.Machine

/-! ### The wake-wait list and the fill queue -/

theorem Move.queues {i : Prop} {s t : State} (h : Move i s t) (hs : s.QueuesHold) : t.QueuesHold := by
  have same : ∀ {u : State}, u.waitList = s.waitList → u.fillQueue = s.fillQueue →
      (∀ b, (u.bank b).power = (s.bank b).power) → u.QueuesHold := hs.of_power
  cases h with
  | calm h => exact h.queues hs
  | outside => exact same rfl rfl fun _ => rfl
  | pop => exact same rfl rfl fun _ => rfl
  | answer g x d => exact same (by simp) (by simp) (by simp)
  | bind g n _ => exact same (by simp) (by simp) (by simp)
  | hold r w _ => exact same (by simp) (by simp) (by simp)
  | pass x rest _ =>
    refine same ?_ ?_ fun b => by rw [State.passResponse_bank]
    all_goals unfold State.passResponse; dsimp only; split <;> simp
  | drop => exact same (by simp) (by simp) (by simp)
  | park r _ _ => exact same (by simp) (by simp) (by simp)
  | parkAndWake r _ present low =>
    have h1 : (s.setParked (s.parked ++ [s.entryFor r])).QueuesHold := same (by simp) (by simp) (by simp)
    refine h1.joinWait r.bank Bank.woken rfl ?_ ?_ <;> rcases low with h | h <;> simp [h]
  | parkAbsent r _ _ _ => exact same (by simp) (by simp) (by simp)
  | free c x rest _ => exact hs.updBank c _ Iff.rfl Iff.rfl
  | fillMark c g _ => exact hs.updBank c _ (by simp) (by simp)
  | mark c first count m _ => exact hs.updBank c _ (by simp) (by simp)
  | pgood c v => exact hs.updBank c _ Iff.rfl Iff.rfl
  | nextStage c _ _ => exact hs.updBank c _ (by simp) (by simp)
  | failAttempt c _ => exact State.failAttempt_queues hs
  | rejoin c h =>
    exact hs.joinWait c (fun k => { k with power := .waiting }) rfl (by simp [h.ramping]) (by simp [h.ramping])
  | fault c cause h =>
    have h1 : (s.toFault c).QueuesHold := by
      refine hs.leaveFill c rfl rfl ?_ ?_ ?_
      · intro b hb; rw [State.toFault_bank, State.bank_updBank]; simp [hb]
      · rw [State.toFault_bank]
        have : (s.bank c).power ≠ .waiting := by
          rcases h with h | h
          · simp [h.ramping]
          · intro hw; simp [Bank.railUp, hw] at h
        simp [this]
      · rw [State.toFault_bank]; simp
    have power : ∀ (n : Nat) (u : State) (b : BankId), ((u.expelBank c .faulted n).bank b).power = (u.bank b).power := by
      intro n
      induction n with
      | zero => intro u b; rfl
      | succ n ih =>
        intro u b; unfold State.expelBank; split
        · rfl
        · rw [ih, State.expel_bank]; simp
    have fields : ∀ (n : Nat) (u : State), (u.expelBank c .faulted n).waitList = u.waitList ∧
        (u.expelBank c .faulted n).fillQueue = u.fillQueue := by
      have ans : ∀ (q : List Entry) (u : State), (u.answerEntries .faulted q).waitList = u.waitList ∧
          (u.answerEntries .faulted q).fillQueue = u.fillQueue := by
        intro q
        induction q with
        | nil => intro u; exact ⟨rfl, rfl⟩
        | cons e q ih => intro u; unfold State.answerEntries; simpa using ih (u.answer e.req.tag .faulted [])
      intro n
      induction n with
      | zero => intro u; exact ⟨rfl, rfl⟩
      | succ n ih =>
        intro u; unfold State.expelBank; split
        · exact ⟨rfl, rfl⟩
        · rename_i before e after _
          have h2 := ih (u.expel before e after .faulted)
          unfold State.expel at h2 ⊢
          rw [h2.1, h2.2, (ans _ _).1, (ans _ _).2]; exact ⟨rfl, rfl⟩
    have slots : ∀ (q : List Slot) (u : State) (x : Status), (u.answerSlots x q).waitList = u.waitList ∧
        (u.answerSlots x q).fillQueue = u.fillQueue := by
      intro q
      induction q with
      | nil => intro u x; exact ⟨rfl, rfl⟩
      | cons e q ih => intro u x; unfold State.answerSlots; rw [(ih _ _).1, (ih _ _).2]; split <;> simp
    refine h1.of_power ?_ ?_ ?_
    · exact ((fields _ _).1).trans (slots _ _ _).1
    · exact ((fields _ _).2).trans (slots _ _ _).2
    · intro b; exact (power _ _ b).trans (by rw [State.answerSlots_bank])
  | setGlobal => exact same rfl rfl fun _ => rfl
  | configure c x h _ _ =>
    have hc : (s.bank c).power = .off ∨ (s.bank c).power = .retain ∨ (s.bank c).power = .fault := of_decide_eq_true h
    have hp : ((s.bank c).configured x).power = (s.bank c).power ∨
        ((s.bank c).power = .retain ∧ ((s.bank c).configured x).power = .off) := by
      unfold Bank.configured; dsimp only
      split
      · split
        · exact .inr ⟨‹_›, rfl⟩
        · left; split <;> split <;> simp
      · exact .inl rfl
    refine hs.updBank c _ ?_ ?_ <;> rcases hp with hp | ⟨h1, h2⟩
    · rw [hp]
    · simp [h1, h2]
    · rw [hp]
    · simp [h1, h2]
  | setWindow w x _ _ => exact same (by simp) (by simp) (by simp)
  | setLink => exact same rfl rfl fun _ => rfl
  | expel before e after _ x =>
    have ans : ∀ (q : List Entry) (u : State), (u.answerEntries x q).waitList = u.waitList ∧
        (u.answerEntries x q).fillQueue = u.fillQueue := by
      intro q
      induction q with
      | nil => intro u; exact ⟨rfl, rfl⟩
      | cons e q ih => intro u; unfold State.answerEntries; simpa using ih (u.answer e.req.tag x [])
    refine same ?_ ?_ fun b => by rw [State.expel_bank]; simp
    · exact (ans _ _).1.trans (by simp)
    · exact (ans _ _).2.trans (by simp)
  | reload c => exact hs.updBank c _ (by simp) (by simp)
  | clearFault c h => exact hs.updBank c _ (by simp [h, Bank.cleared]) (by simp [h, Bank.cleared])
  | clearCount c => exact hs.updBank c _ Iff.rfl Iff.rfl
  | tick clock =>
    refine same rfl rfl fun b => ?_
    have : State.bank { s.mapBanks (fun _ k => k.tick) with clock := clock, parked := s.parked.map Entry.tick } b
        = (s.bank b).tick := State.bank_mapBanks s _ b
    rw [this]; simp
  | pinReset p =>
    have hb : ∀ b, (State.bank { State.afterPinReset p with pending := s.pending } b).power = .off := by
      intro b; simp [State.bank, State.afterPinReset, Bank.reset]
    refine ⟨List.nodup_nil, fun b => ?_, List.nodup_nil, fun b => ?_⟩ <;> rw [hb] <;>
      simp [State.afterPinReset, State.reset]

theorem MoveRun.queues {i : Prop} {s t : State} (h : MoveRun i s t) (hs : s.QueuesHold) : t.QueuesHold := by
  induction h with
  | refl => exact hs
  | tail _ hm ih => exact hm.queues ih

/-- What a run of moves does to a bank. -/
theorem MoveRun.bank {i : Prop} {s t : State} (h : MoveRun i s t) (hs : s.QueuesHold) (b : BankId) :
    BankRun (s.bank b) (t.bank b) := by
  induction h with
  | refl => exact .refl
  | tail hr hm ih => exact ih.trans (hm.bank (MoveRun.queues hr hs) b)

/-- What a command does to a bank. -/
theorem exec_bank {c : Instr} {s t : State} (hs : s.QueuesHold) (h : exec c s = .next t) (b : BankId) :
    BankRun (s.bank b) (t.bank b) := (exec_moves hs h).bank hs b

/-- A property of a bank that every change keeps is kept by a run of changes. -/
theorem BankRun.keep {P : Bank → Prop} (hP : ∀ {k k'}, BankMove k k' → P k → P k') {k k' : Bank} (h : BankRun k k')
    (hk : P k) : P k' := by
  induction h with
  | refl => exact hk
  | tail _ hm ih => exact hP hm ih

/-! ### Properties of one bank -/

theorem Bank.configured_cases (k : Bank) (c : BankConfig) : (k.configured c).config = c ∧ (k.configured c).port = k.port ∧
    (k.configured c).drainKind = k.drainKind ∧ (k.configured c).drainTarget = k.drainTarget ∧
    (k.configured c).wakeKind = k.wakeKind ∧ (k.configured c).charge = k.charge ∧
    ((k.configured c).power = k.power ∨ (k.power = .retain ∧ (k.configured c).power = .off)) ∧
    ((k.configured c).marks = k.marks ∨ (k.configured c).marks = Vector.replicate 32 .lost) ∧
    (k.power = .retain → (k.configured c).power = .off → (k.configured c).marks = Vector.replicate 32 .lost) ∧
    (k.power = .retain → c.present = false → (k.configured c).power = .off) := by
  unfold Bank.configured; dsimp only
  split
  · rename_i hr
    split
    · rename_i hp
      refine ⟨rfl, rfl, rfl, rfl, rfl, rfl, .inr ⟨hr, rfl⟩, .inr rfl, fun _ _ => rfl, fun _ _ => rfl⟩
    · rename_i hp
      split <;> split <;>
        simp_all [Bank.loseAll]
  · rename_i hr
    simp_all

theorem BankMove.portBounded {k k' : Bank} (h : BankMove k k') (hk : k.PortBounded) : k'.PortBounded := by
  have same : ∀ {j : Bank}, j.port.slots = k.port.slots → j.PortBounded := by
    intro j hj; unfold Bank.PortBounded Port.fillSlots at *; rw [hj]; exact hk
  have fewer : ∀ {j : Bank}, j.port.slots.Sublist k.port.slots → j.PortBounded := by
    intro j hj
    exact ⟨hj.length_le.trans hk.1, (hj.countP_le).trans hk.2⟩
  cases h with
  | send x room _ hx =>
    have hr : k.port.slots.length < Config.slotCapacity := of_decide_eq_true room
    refine ⟨by simp; omega, ?_⟩
    rw [Bank.forwarded_fillSlots, if_neg hx]; exact hk.2
  | fillWrite x takes _ =>
    have ht := of_decide_eq_true takes
    have hr : k.port.slots.length < Config.slotCapacity := of_decide_eq_true ht.2
    have h1 : k.port.fillSlots < Config.fillSlotCapacity := ht.1
    refine ⟨by simp [Bank.withFill, Bank.withPort]; omega, ?_⟩
    have : (k.withFill x).port.fillSlots ≤ k.port.fillSlots + 1 := by
      simp only [Bank.withFill, Bank.withPort, Port.fillSlots, List.countP_append, List.countP_cons, List.countP_nil]
      split <;> omega
    omega
  | free x rest h => exact fewer (by rw [h]; exact List.sublist_cons_self x rest)
  | orphan =>
    refine ⟨by simpa [Bank.orphaned, Bank.withPort] using hk.1, ?_⟩
    have : k.orphaned.port.fillSlots = k.port.fillSlots := by
      simp only [Bank.orphaned, Bank.withPort, Port.fillSlots, List.countP_map]
      congr 1; funext x
      rcases x with ⟨h, _⟩; cases h <;> simp [Slot.orphaned]
    rw [this]; exact hk.2
  | sync n => exact same (by simp)
  | reload => exact same (by simp)
  | clearCount => exact same rfl
  | woken _ _ => exact same (by simp)
  | granted n _ => exact same (by simp)
  | nextStage _ => exact same (by simp)
  | release _ => exact same rfl
  | rampToFilling _ => exact same rfl
  | rampToOn n _ => exact same (by simp)
  | attemptFailed _ => exact same (by simp)
  | retry _ => exact same rfl
  | filled n _ => exact same (by simp)
  | cancelled n _ => exact same (by simp)
  | drain x t _ _ => exact same (by simp)
  | retarget t _ => exact same rfl
  | lowered _ _ => exact same (by simp)
  | toOff _ => exact same (by simp)
  | fault _ => exact fewer (by simp [Bank.faulted, Bank.loseAll])
  | cleared _ => exact same rfl
  | mark _ _ m _ => exact same (by simp)
  | configured c _ _ _ => exact same (by rw [(k.configured_cases c).2.1])
  | tick => exact same (by simp)
  | pgood v => exact same rfl
  | reset v => exact ⟨by simp [Bank.reset, Port.reset], by simp [Bank.reset, Port.reset, Port.fillSlots]⟩

theorem allLost (g : Segment) : (Vector.replicate 32 Mark.lost)[g] = .lost := by simp

theorem BankMove.marksHold {k k' : Bank} (h : BankMove k k') (hk : k.MarksHold) : k'.MarksHold := by
  have same : ∀ {j : Bank}, j.marks = k.marks → (j.power = .off ∨ j.power = .fault → k.power = .off ∨ k.power = .fault) →
      j.MarksHold := fun hm hp hj g => by rw [hm]; exact hk (hp hj) g
  have up : ∀ {j : Bank}, j.power ≠ .off → j.power ≠ .fault → j.MarksHold :=
    fun h1 h2 hj => absurd hj (not_or.2 ⟨h1, h2⟩)
  have lost : ∀ {j : Bank}, j.marks = Vector.replicate 32 .lost → j.MarksHold := fun hm _ g => by rw [hm]; exact allLost g
  cases h with
  | sync n => exact same (by simp) (by simp)
  | reload => exact same (by simp) (by simp)
  | send x _ up _ => exact same (by simp) (by simp)
  | fillWrite x _ _ => exact same (by simp) (by simp)
  | free x rest _ => exact same rfl id
  | orphan => exact same (by simp) (by simp)
  | clearCount => exact same rfl id
  | woken _ _ => exact up (by simp) (by simp)
  | granted n _ => exact up (by simp) (by simp)
  | nextStage h => exact up (by simp [h]) (by simp [h])
  | release _ => exact same rfl id
  | rampToFilling _ => exact up (by simp) (by simp)
  | rampToOn n _ => exact up (by simp) (by simp)
  | attemptFailed h => exact up (by simp [h]) (by simp [h])
  | retry _ => exact up (by simp) (by simp)
  | filled n _ => exact up (by simp) (by simp)
  | cancelled n _ => exact up (by simp) (by simp)
  | drain x t _ _ => exact up (by simp) (by simp)
  | retarget t h => exact up (by simp [h]) (by simp [h])
  | lowered h _ =>
    unfold Bank.lowered; dsimp only; split
    · exact lost rfl
    · exact up (by simp) (by simp)
    · exact up (by simp) (by simp)
  | toOff _ => exact lost rfl
  | fault _ => exact lost rfl
  | cleared h => exact same rfl fun _ => .inr h
  | mark n m x h =>
    have := of_decide_eq_true h
    refine up ?_ ?_ <;> rcases this with h | h | h | h <;> simp [h]
  | configured c _ _ _ =>
    obtain ⟨_, _, _, _, _, _, hp, hm, hl, _⟩ := k.configured_cases c
    rcases hp with hp | ⟨h1, h2⟩
    · rcases hm with hm | hm
      · exact same hm (by rw [hp]; exact id)
      · exact lost hm
    · exact lost (hl h1 h2)
  | tick => exact same (by simp) (by simp)
  | pgood v => exact same rfl id
  | reset v => exact lost rfl

theorem Bank.railUp_iff {k : Bank} : k.railUp = true ↔ k.power = .filling ∨ k.power = .on ∨ k.power = .draining := by
  simp [Bank.railUp]

theorem BankMove.portHolds {k k' : Bank} (h : BankMove k k') (hk : k.PortHolds) : k'.PortHolds := by
  have low : k.power ≠ .filling → k.power ≠ .on → k.power ≠ .draining → k.port.slots = [] := by
    intro h1 h2 h3
    refine hk.empty ?_
    rw [Bool.eq_false_iff]; intro h'; rcases Bank.railUp_iff.1 h' with h | h | h <;> contradiction
  have same : ∀ {j : Bank}, j.port.slots = k.port.slots → j.port.ignoring = k.port.ignoring → j.power = k.power →
      j.PortHolds := by
    intro j h1 h2 h3
    refine ⟨fun h' => h1.trans (hk.empty ?_), by rw [h2, h3]; exact hk.ignoring⟩
    rw [Bank.railUp, h3] at h'; exact h'
  have up : ∀ {j : Bank}, j.port.ignoring = k.port.ignoring → k.power ≠ .fault →
      (j.power = .filling ∨ j.power = .on ∨ j.power = .draining) → j.PortHolds := by
    intro j h1 h2 h3
    refine ⟨fun h' => absurd (Bank.railUp_iff.2 h3) (by simp [h']), ?_⟩
    rw [h1, hk.ignoring]
    refine ⟨fun h => absurd h h2, fun h => ?_⟩
    rcases h3 with h3 | h3 | h3 <;> rw [h] at h3 <;> cases h3
  have down : ∀ {j : Bank}, j.port.slots = [] → j.port.ignoring = k.port.ignoring → k.power ≠ .fault →
      j.power ≠ .fault → j.PortHolds := by
    intro j h0 h1 h2 h3
    refine ⟨fun _ => h0, ?_⟩
    rw [h1, hk.ignoring]; exact ⟨fun h => absurd h h2, fun h => absurd h h3⟩
  cases h with
  | sync n => exact same (by simp) (by simp) (by simp)
  | reload => exact same (by simp) (by simp) (by simp)
  | send x _ h _ =>
    refine up (by simp) ?_ ?_ <;> rcases h with h | h <;> simp [h]
  | fillWrite x _ h => exact up rfl (by simp [h]) (by simp [h])
  | free x rest h =>
    have : k.railUp = true := by
      by_contra hn; have := hk.empty (by simpa using hn); rw [h] at this; cases this
    have h3 := Bank.railUp_iff.1 this
    refine up rfl ?_ h3
    rcases h3 with h3 | h3 | h3 <;> simp [h3]
  | orphan =>
    refine ⟨fun h' => ?_, by simpa [Bank.orphaned, Bank.withPort] using hk.ignoring⟩
    have : k.port.slots = [] := hk.empty h'
    simp [Bank.orphaned, Bank.withPort, this]
  | clearCount => exact same rfl rfl rfl
  | woken _ h =>
    refine down (low ?_ ?_ ?_) rfl ?_ (by simp) <;> rcases h with h | h <;> simp [h]
  | granted n h => exact down (low (by simp [h]) (by simp [h]) (by simp [h])) rfl (by simp [h]) (by simp)
  | nextStage h => exact same (by simp) (by simp) (by simp)
  | release h => exact same rfl rfl rfl
  | rampToFilling h => exact up rfl (by simp [Bank.rampDone_ramping h]) (by simp)
  | rampToOn n h => exact up rfl (by simp [Bank.rampDone_ramping h]) (by simp)
  | attemptFailed h => exact same (by simp) (by simp) (by simp)
  | retry h =>
    exact down (low (by simp [h.ramping]) (by simp [h.ramping]) (by simp [h.ramping])) rfl (by simp [h.ramping]) (by simp)
  | filled n h => exact up rfl (by simp [h]) (by simp)
  | cancelled n h => exact up rfl (by simp [h]) (by simp)
  | drain x t _ h => exact up rfl (by rcases h with h | h <;> simp [h]) (by simp)
  | retarget t h => exact up rfl (by simp [h]) (by simp [h])
  | lowered h empty =>
    refine down (by simpa using empty) (by simp) (by simp [h]) ?_
    rcases k.lowered_power with h' | h' <;> simp [h']
  | toOff h => exact down (by simpa using low (by simp [h]) (by simp [h]) (by simp [h])) (by simp) (by simp [h]) (by simp)
  | fault h => exact ⟨fun _ => rfl, by simp [Bank.faulted, Bank.loseAll]⟩
  | cleared h =>
    refine ⟨fun _ => low (by simp [h]) (by simp [h]) (by simp [h]), ?_⟩
    simp [Bank.cleared, Bank.withPort]
  | mark n m x h => exact same (by simp) (by simp) (by simp)
  | configured c _ _ _ =>
    obtain ⟨_, hport, _, _, _, _, hp, _⟩ := k.configured_cases c
    rcases hp with hp | ⟨h1, h2⟩
    · exact same (by rw [hport]) (by rw [hport]) hp
    · exact down (by rw [hport]; exact low (by simp [h1]) (by simp [h1]) (by simp [h1])) (by rw [hport]) (by simp [h1])
        (by simp [h2])
  | tick => exact same (by simp) (by simp) (by simp)
  | pgood v => exact same rfl rfl rfl
  | reset v => exact ⟨fun _ => rfl, by simp [Bank.reset, Port.reset]⟩

theorem RestTarget.drain_ne (t : RestTarget) : t.drain ≠ .none := by cases t <;> decide

theorem BankMove.kindsHold {k k' : Bank} (h : BankMove k k') (hk : k.KindsHold) : k'.KindsHold := by
  have same : ∀ {j : Bank}, j.power = k.power → j.drainKind = k.drainKind → j.drainTarget = k.drainTarget →
      j.wakeKind = k.wakeKind → j.KindsHold := by
    intro j h1 h2 h3 h4
    exact ⟨by rw [h1, h2]; exact hk.kind, by rw [h1, h3]; exact hk.target, by rw [h1, h4]; exact hk.wake⟩
  have dk : k.power ≠ .draining → k.drainKind = .none := fun h => by
    by_contra hn; exact h (hk.kind.1 hn)
  have dt : k.power ≠ .draining → k.drainTarget = .none := fun h => by
    by_contra hn; exact h (hk.target.1 hn)
  have wk : k.power ≠ .waiting → k.power ≠ .ramping → k.wakeKind = .none := fun h h' => by
    by_contra hn; rcases hk.wake.1 hn with hw | hw <;> contradiction
  cases h with
  | sync n => exact same (by simp) (by simp) (by simp) (by simp)
  | reload => exact same (by simp) (by simp) (by simp) (by simp)
  | send x _ _ _ => exact same (by simp) (by simp) (by simp) (by simp)
  | fillWrite x _ _ => exact same rfl rfl rfl rfl
  | free x rest _ => exact same rfl rfl rfl rfl
  | orphan => exact same rfl rfl rfl rfl
  | clearCount => exact same rfl rfl rfl rfl
  | woken _ h =>
    have hd : k.power ≠ .draining := by rcases h with h | h <;> simp [h]
    refine ⟨by simp [dk hd], by simp [dt hd], ?_⟩
    simp only [Bank.woken]; split <;> simp
  | granted n h =>
    have hd : k.power ≠ .draining := by simp [h]
    exact ⟨by simp [dk hd], by simp [dt hd], by simpa using hk.wake.2 (.inl h)⟩
  | nextStage h => exact same (by simp) (by simp) (by simp) (by simp)
  | release h => exact same rfl rfl rfl rfl
  | rampToFilling h =>
    have hd : k.power ≠ .draining := by simp [Bank.rampDone_ramping h]
    exact ⟨by simp [dk hd], by simp [dt hd], by simp⟩
  | rampToOn n h => exact ⟨by simp [Bank.turnedOn, Bank.loadIdle], by simp [Bank.turnedOn, Bank.loadIdle], by simp⟩
  | attemptFailed h =>
    have hd : k.power ≠ .draining := by simp [h]
    refine ⟨by simp [dk hd, h], by simp [dt hd, h], ?_⟩
    have hw := hk.wake.2 (.inr h)
    simp only [Bank.attemptFailed_power, h]
    refine ⟨fun _ => .inr trivial, fun _ => ?_⟩
    unfold Bank.attemptFailed; dsimp only; split
    · simp
    · exact hw
  | retry h =>
    have hd : k.power ≠ .draining := by simp [h.ramping]
    exact ⟨by simp [dk hd], by simp [dt hd], by simpa using hk.wake.2 (.inr h.ramping)⟩
  | filled n h =>
    exact ⟨by simp [Bank.turnedOn, Bank.loadIdle], by simp [Bank.turnedOn, Bank.loadIdle],
      by simp [wk (by simp [h]) (by simp [h])]⟩
  | cancelled n h =>
    exact ⟨by simp [Bank.turnedOn, Bank.loadIdle], by simp [Bank.turnedOn, Bank.loadIdle],
      by simp [wk (by simp [h]) (by simp [h])]⟩
  | drain x t hx h =>
    have : k.power ≠ .waiting ∧ k.power ≠ .ramping := by rcases h with h | h <;> simp [h]
    exact ⟨by simpa [Bank.draining] using hx, by simpa [Bank.draining] using t.drain_ne, by simp [wk this.1 this.2]⟩
  | retarget t h => exact ⟨by simp [h], by simpa [h] using t.drain_ne, by simp [h, wk (by simp [h]) (by simp [h])]⟩
  | lowered h _ =>
    have hw := wk (by simp [h]) (by simp [h])
    unfold Bank.lowered; dsimp only
    split <;> exact ⟨by simp [Bank.loseAll], by simp [Bank.loseAll], by simp [hw, Bank.loseAll]⟩
  | toOff h =>
    have hd : k.power ≠ .draining := by simp [h]
    exact ⟨by simp [dk hd], by simp [dt hd], by simp [wk (by simp [h]) (by simp [h])]⟩
  | fault _ => exact ⟨by simp [Bank.faulted, Bank.loseAll], by simp [Bank.faulted, Bank.loseAll], by simp [Bank.faulted, Bank.loseAll]⟩
  | cleared h =>
    have hd : k.power ≠ .draining := by simp [h]
    exact ⟨by simp [Bank.cleared, Bank.withPort, dk hd], by simp [Bank.cleared, Bank.withPort, dt hd],
      by simp [Bank.cleared, Bank.withPort, wk (by simp [h]) (by simp [h])]⟩
  | mark _ _ m _ => exact same (by simp) (by simp) (by simp) (by simp)
  | configured c _ _ _ =>
    obtain ⟨_, _, h1, h2, h3, _, hp, _⟩ := k.configured_cases c
    rcases hp with hp | ⟨h4, h5⟩
    · exact same hp h1 h2 h3
    · have hd : k.power ≠ .draining := by simp [h4]
      exact ⟨by simp [h1, h5, dk hd], by simp [h2, h5, dt hd], by simp [h3, h5, wk (by simp [h4]) (by simp [h4])]⟩
  | tick => exact same (by simp) (by simp) (by simp) (by simp)
  | pgood v => exact same rfl rfl rfl rfl
  | reset v => exact ⟨by simp [Bank.reset], by simp [Bank.reset], by simp [Bank.reset]⟩

/-- A bank whose present flag is no is in OFF (R3). -/
def Bank.AbsentOff (k : Bank) : Prop := k.config.present = false → k.power = .off

theorem BankMove.absentOff {k k' : Bank} (h : BankMove k k') (hk : k.AbsentOff) : k'.AbsentOff := by
  have same : ∀ {j : Bank}, j.config = k.config → j.power = k.power → j.AbsentOff := by
    intro j h1 h2 h3; rw [h2]; exact hk (by rw [← h1]; exact h3)
  have awake : ∀ {j : Bank}, j.config = k.config → k.power ≠ .off → j.AbsentOff := by
    intro j h1 h2 h3; exact absurd (hk (by rw [← h1]; exact h3)) h2
  cases h with
  | sync n => exact same (by simp) (by simp)
  | reload => exact same (by simp) (by simp)
  | send x _ _ _ => exact same (by simp) (by simp)
  | fillWrite x _ _ => exact same rfl rfl
  | free x rest _ => exact same rfl rfl
  | orphan => exact same rfl rfl
  | clearCount => exact same rfl rfl
  | woken present _ => intro h; simp [present] at h
  | granted n h => exact awake (by simp) (by simp [h])
  | nextStage h => exact same (by simp) (by simp)
  | release h => exact same rfl rfl
  | rampToFilling h => exact awake rfl (by simp [Bank.rampDone_ramping h])
  | rampToOn n h => exact awake (by simp) (by simp [Bank.rampDone_ramping h])
  | attemptFailed h => exact awake (by simp) (by simp [h])
  | retry h => exact awake rfl (by simp [h.ramping])
  | filled n h => exact awake (by simp) (by simp [h])
  | cancelled n h => exact awake (by simp) (by simp [h])
  | drain x t _ h => exact awake (by simp) (by rcases h with h | h <;> simp [h])
  | retarget t h => exact awake rfl (by simp [h])
  | lowered h _ => exact awake (by simp) (by simp [h])
  | toOff h => exact awake (by simp) (by simp [h])
  | fault h =>
    refine awake (by simp) ?_
    rcases h with h | h
    · simp [h.ramping]
    · rcases Bank.railUp_iff.1 h with h | h | h <;> simp [h]
  | cleared h => exact awake rfl (by simp [h])
  | mark _ _ m _ => exact same (by simp) (by simp)
  | configured c budget h _ stays =>
    intro hp
    obtain ⟨hc, _, _, _, _, _, hpow, _, _, hr⟩ := k.configured_cases c
    rw [hc] at hp
    have hconf : k.power = .off ∨ k.power = .retain ∨ k.power = .fault := of_decide_eq_true h
    rcases hconf with h | h | h
    · rcases hpow with h' | ⟨h', _⟩
      · rw [h', h]
      · rw [h] at h'; cases h'
    · exact hr h hp
    · by_cases hpr : k.config.present = true
      · have := stays h hpr; rw [hp] at this; cases this
      · have := hk (by simpa using hpr); rw [h] at this; cases this
  | tick => exact same (by simp) (by simp)
  | pgood v => exact same rfl rfl
  | reset v => intro _; rfl

end Sys2Proof.Machine
end

