-- ==== Sys2Proof/Laws/Hold.lean ====
section
/-! SUPPORT. Properties of the whole state that moves keep: the bounds of the queues, the windows and links, and the
parking queue's banks. -/

namespace Sys2Proof.Machine

/-! ### Answers as runs of single answers and removals -/

/-- One answer, or one shrinking of the parking queue. -/
inductive Ans : State → State → Prop
  | answer (s : State) (t : Tag) (x : Status) (d : List Byte) : Ans s (s.answer t x d)
  | fewer (s : State) (q : List Entry) (h : q.Sublist s.parked) : Ans s (s.setParked q)

abbrev AnsRun : State → State → Prop := Relation.ReflTransGen Ans

theorem State.answerEntries_ans (x : Status) : ∀ (q : List Entry) (s : State), AnsRun s (s.answerEntries x q)
  | [], _ => .refl
  | e :: q, s => Relation.ReflTransGen.head (Ans.answer s e.req.tag x []) (State.answerEntries_ans x q _)

theorem State.answerSlots_ans : ∀ (q : List Slot) (s : State) (x : Status), AnsRun s (s.answerSlots x q)
  | [], _, _ => .refl
  | e :: q, s, x => by
    unfold State.answerSlots; split
    · exact Relation.ReflTransGen.head (Ans.answer s _ x []) (State.answerSlots_ans q _ _)
    · exact State.answerSlots_ans q s _
    · exact State.answerSlots_ans q s _

theorem withoutCascade_sublist (before : List Entry) (e : Entry) (after : List Entry) :
    (withoutCascade before e after).Sublist (before ++ e :: after) :=
  List.Sublist.append (List.Sublist.refl _) ((List.filter_sublist).trans (List.sublist_cons_self _ _))

theorem State.expel_ans {s : State} {before : List Entry} {e : Entry} {after : List Entry} (x : Status)
    (h : s.parked = before ++ e :: after) : AnsRun s (s.expel before e after x) :=
  Relation.ReflTransGen.head (Ans.fewer s _ (by rw [h]; exact withoutCascade_sublist _ _ _)) (State.answerEntries_ans x _ _)

theorem State.expelBank_ans (b : BankId) (x : Status) : ∀ (n : Nat) (s : State), AnsRun s (s.expelBank b x n)
  | 0, _ => .refl
  | n + 1, s => by
    unfold State.expelBank; split
    · exact .refl
    · exact (State.expel_ans x (splitOldest_some ‹_›).1).trans (State.expelBank_ans b x n _)

/-- The answers of an entry into FAULT (R19). -/
theorem State.faultAnswers_ans (s : State) (b : BankId) (cause : FaultCause) (q : List Slot) :
    AnsRun s (s.faultAnswers b cause q) :=
  (State.answerSlots_ans q s _).trans (State.expelBank_ans b .faulted _ _)

theorem AnsRun.keep {P : State → Prop} (hP : ∀ {s t}, Ans s t → P s → P t) {s t : State} (h : AnsRun s t) (hs : P s) : P t := by
  induction h with
  | refl => exact hs
  | tail _ hm ih => exact hP hm ih

/-! ### Fields that answers leave -/

/-- The fields that answers do not write. -/
structure SameBlocks (s t : State) : Prop where
  windows : t.windows = s.windows
  links : t.links = s.links
  global : t.global = s.global
  events : t.events = s.events
  unitsHeld : t.unitsHeld = s.unitsHeld
  linkClosed : t.linkClosed = s.linkClosed
  resetLow : t.resetLow = s.resetLow
  frameHeld : t.frameHeld = s.frameHeld
  power : ∀ b, (t.bank b).power = (s.bank b).power
  config : ∀ b, (t.bank b).config = (s.bank b).config
  charge : ∀ b, (t.bank b).charge = (s.bank b).charge

theorem Ans.blocks {s t : State} (h : Ans s t) : SameBlocks s t := by
  cases h <;> constructor <;> simp

theorem AnsRun.blocks {s t : State} (h : AnsRun s t) : SameBlocks s t := by
  induction h with
  | refl => constructor <;> simp
  | tail _ hm ih =>
    have := hm.blocks
    constructor <;> simp [this.windows, this.links, this.global, this.events, this.unitsHeld, this.linkClosed, this.resetLow,
      this.frameHeld, this.power, this.config, this.charge,
      ih.linkClosed, ih.resetLow, ih.frameHeld, ih.windows, ih.links, ih.global, ih.events, ih.unitsHeld, ih.power, ih.config, ih.charge]

theorem AnsRun.parked {s t : State} (h : AnsRun s t) : t.parked.Sublist s.parked := by
  induction h with
  | refl => exact List.Sublist.refl _
  | tail _ hm ih =>
    cases hm with
    | answer g x d => simpa using ih
    | fewer q h => exact h.trans ih

/-! ### The event queue -/

theorem State.post_events (s : State) (k : EventKind) (a : About) (h : s.EventsBounded) : (s.post k a).EventsBounded := by
  rcases s.post_cases k a with ⟨_, h'⟩ | ⟨_, hl, h'⟩ | ⟨_, _, h'⟩ <;> rw [h']
  · exact h
  · show (s.events ++ [_]).length ≤ _
    simp only [List.length_append, List.length_cons, List.length_nil]; omega
  · exact h

theorem Calm.eventsBounded {s t : State} (h : Calm s t) (hs : s.EventsBounded) : t.EventsBounded := by
  have same : ∀ {u v : State}, v.EventsBounded → u.events = v.events → u.EventsBounded := by
    intro u v h h'; unfold State.EventsBounded at *; rw [h']; exact h
  cases h with
  | post k a => exact s.post_events k a hs
  | fillOver b k a _ => exact same (State.post_events (s.unqueueFill b) k a (same hs (by simp))) (by simp)
  | _ => exact same hs (by simp)

theorem Move.eventsBounded {i : Prop} {s t : State} (h : Move i s t) (hs : s.EventsBounded) : t.EventsBounded := by
  have same : ∀ {u : State}, u.events = s.events → u.EventsBounded := by
    intro u h'; unfold State.EventsBounded at *; rw [h']; exact hs
  cases h with
  | calm h => exact h.eventsBounded hs
  | pop r rest h =>
    have : s.events.length ≤ Config.eventCapacity := hs
    rw [h] at this
    show rest.length ≤ _
    simp only [List.length_cons] at this; omega
  | pass x rest _ => exact same (by unfold State.passResponse; dsimp only; split <;> simp)
  | fault b cause _ => exact same ((State.faultAnswers_ans (s.toFault b) b cause _).blocks.events.trans (by simp))
  | expel before e after h x => exact same (State.expel_ans x h).blocks.events
  | tick => exact same rfl
  | pinReset => exact Nat.zero_le _
  | setLink | setGlobal | outside => exact same rfl
  | _ => exact same (by simp)

/-! ### The held part (R153, R170, R186) -/

/-- Every move keeps the link closed and the management port held while RESET_N is low. -/
theorem Move.resetCloses {i : Prop} {s t : State} (h : Move i s t) (hs : s.ResetCloses) : t.ResetCloses := by
  have same : ∀ {u : State}, u.resetLow = s.resetLow → (s.linkClosed = true → u.linkClosed = true) →
      u.frameHeld = s.frameHeld → u.ResetCloses := by
    intro u h1 h2 h3 hl
    have := hs (h1.symm.trans hl)
    exact ⟨h2 this.1, h3.trans this.2⟩
  cases h with
  | calm h => exact same h.setup.resetLow (by rw [h.setup.linkClosed]; exact id) h.setup.frameHeld
  | outside _ _ _ _ _ _ _ _ _ _ closes => exact closes hs
  | drop => exact same (by simp) (fun _ => rfl) (by simp)
  | pinReset => intro hl; cases hl
  | pass x rest _ =>
    refine same (u := s.passResponse x rest) ?_ ?_ ?_ <;> unfold State.passResponse <;> dsimp only <;> split <;>
      first | rfl | exact id
  | fault b cause _ =>
    have h := (State.faultAnswers_ans (s.toFault b) b cause (s.bank b).port.slots).blocks
    exact same h.resetLow (by rw [h.linkClosed]; exact id) h.frameHeld
  | expel before e after h x =>
    have h := (State.expel_ans x h).blocks
    exact same h.resetLow (by rw [h.linkClosed]; exact id) h.frameHeld
  | answer t x d => exact same (by simp) (by simp) (by simp)
  | _ => exact same rfl id rfl

/-! ### Windows and links -/

/-- The windows and the banks they name, as far as their soundness reads them. -/
theorem State.WindowsSound.of_config {s t : State} (h : s.WindowsSound)
    (hw : ∀ i : WindowId, t.windows[i].config = s.windows[i].config)
    (hp : ∀ b, (s.bank b).config.present = true → (t.bank b).config.present = true)
    (hc : ∀ (i : WindowId), s.windows[i].config.enabled = true →
      (s.bank s.windows[i].config.bank).config.capacityBytes ≤ (t.bank s.windows[i].config.bank).config.capacityBytes ) :
    t.WindowsSound where
  sound i := by
    unfold State.WindowSound; rw [hw]; intro he
    obtain ⟨h1, h2, h3⟩ := h.sound i he
    exact ⟨h1, hp _ h2, h3.trans (hc i he)⟩
  apart i j hij := by rw [hw, hw]; exact h.apart i j hij

theorem State.WindowsSound.of_same {s t : State} (h : s.WindowsSound)
    (hw : ∀ i : WindowId, t.windows[i].config = s.windows[i].config)
    (hc : ∀ b, (t.bank b).config = (s.bank b).config) : t.WindowsSound :=
  h.of_config hw (fun b hb => by rw [hc]; exact hb) fun i _ => by rw [hc]

theorem State.passResponse_window (s : State) (x : Response) (rest : List Response) (i : WindowId) :
    (s.passResponse x rest).windows[i].config = s.windows[i].config := by
  unfold State.passResponse; dsimp only; split
  · rfl
  · rename_i j _
    simp only [State.updHeld]
    by_cases hj : j = i
    · subst hj; simp
    · have : j.val ≠ i.val := fun h => hj (Fin.ext h)
      simp [this]

theorem State.dropRequests_window (s : State) (i : WindowId) :
    s.dropRequests.windows[i].config = s.windows[i].config := by
  have : s.dropRequests.windows = s.windows.map Window.emptied := rfl
  rw [this]; simp [Window.emptied]

theorem State.setWindow_window (s : State) (i j : WindowId) (c : WindowConfig) :
    (s.setWindow i c).windows[j].config = if j = i then c else s.windows[j].config := by
  simp only [State.setWindow]
  by_cases hj : i = j
  · subst hj; simp
  · have h1 : i.val ≠ j.val := fun h => hj (Fin.ext h)
    have h2 : ¬ j = i := fun h => hj h.symm
    simp [h1, h2]

theorem State.updBank_config (s : State) (b c : BankId) (f : Bank → Bank) :
    ((s.updBank b f).bank c).config = if c = b then (f (s.bank b)).config else (s.bank c).config := by
  rw [State.bank_updBank]; split <;> rfl

theorem State.failAttempt_config (s : State) (c b : BankId) : ((s.failAttempt c).bank b).config = (s.bank b).config := by
  by_cases hb : b = c
  · subst hb; rw [State.failAttempt_bank]; simp
  · rw [State.failAttempt, State.releaseUnits_bank]; simp only [State.updBank_config, if_neg hb]

theorem WindowConfig.overlaps_comm (c d : WindowConfig) : c.overlaps d = d.overlaps c := by
  simp only [WindowConfig.overlaps]; exact decide_eq_decide.2 and_comm

theorem Move.windowsSound {i : Prop} {s t : State} (h : Move i s t) (hs : s.WindowsSound) : t.WindowsSound := by
  have same : ∀ {u : State}, (∀ j : WindowId, u.windows[j].config = s.windows[j].config) →
      (∀ b, (u.bank b).config = (s.bank b).config) → u.WindowsSound := hs.of_same
  have bank : ∀ (c : BankId) (f : Bank → Bank), (∀ k, (f k).config = k.config) → (s.updBank c f).WindowsSound := by
    intro c f hf
    refine same (fun _ => rfl) fun b => ?_
    rw [State.updBank_config, hf]; split
    · rename_i hb; subst hb; rfl
    · rfl
  cases h with
  | calm h => exact same (fun j => by rw [h.setup.windows]) h.setup.config
  | outside => exact same (fun _ => rfl) fun _ => rfl
  | pop => exact same (fun _ => rfl) fun _ => rfl
  | answer g x d => exact same (fun j => by rw [State.answer_windows]) fun b => by simp
  | bind g n _ => exact same (fun j => rfl) fun b => rfl
  | hold r w _ => exact same (fun j => State.hold_config s r w j) fun b => rfl
  | pass x rest _ => exact same (s.passResponse_window x rest) fun b => by rw [State.passResponse_bank]
  | drop => exact same s.dropRequests_window fun b => by simp
  | park r _ _ => exact same (fun _ => rfl) fun b => by simp
  | parkAndWake r _ _ _ =>
    refine same (fun _ => rfl) fun b => ?_
    rw [State.joinWait_bank, State.updBank_config, State.setParked_bank, State.setParked_bank]; split
    · rename_i hb; subst hb; simp
    · simp
  | parkAbsent r _ _ => exact same (fun _ => rfl) fun b => by simp
  | free c x rest _ => exact bank c _ fun _ => rfl
  | fillMark c g _ => exact bank c _ fun _ => by simp
  | mark c first count m _ => exact bank c _ fun _ => by simp
  | pgood c v => exact bank c _ fun _ => rfl
  | nextStage c _ _ => exact bank c _ fun _ => by simp
  | failAttempt c _ =>
    exact same (fun _ => rfl) (s.failAttempt_config c)
  | rejoin c _ =>
    refine same (fun _ => rfl) fun b => ?_
    rw [State.rejoinWait_bank, State.updBank_config]; split
    · rename_i hb; subst hb; rfl
    · rfl
  | fault c cause _ =>
    have hb := (State.faultAnswers_ans (s.toFault c) c cause (s.bank c).port.slots).blocks
    refine same (fun j => by rw [hb.windows]; rfl) fun b => ?_
    rw [hb.config, State.toFault_bank, State.updBank_config]; split
    · rename_i hb; subst hb; simp
    · rfl
  | setGlobal => exact same (fun _ => rfl) fun _ => rfl
  | configure c x _ _ names =>
    have hcfg : ∀ b, ((s.updBank c fun k => k.configured x).bank b).config = if b = c then x else (s.bank b).config := by
      intro b; rw [State.updBank_config, ((s.bank c).configured_cases x).1]
    have hnames : ∀ j : WindowId, s.windows[j].config.enabled = true → s.windows[j].config.bank = c →
        s.windowNames c = true := by
      intro j h1 h2
      unfold State.windowNames
      exact List.any_eq_true.2 ⟨j, List.mem_finRange j, by simp only [decide_eq_true_eq]; exact ⟨h1, h2⟩⟩
    refine ⟨fun j => ?_, hs.apart⟩
    intro he
    obtain ⟨h1, h2, h3⟩ := hs.sound j he
    have hwin : (s.updBank c fun k => k.configured x).windows[j] = s.windows[j] := rfl
    rw [hwin, hcfg]
    by_cases hb : s.windows[j].config.bank = c
    · have hn := hnames j he hb
      rw [if_pos hb]
      rw [hb] at h2 h3
      simp only [State.namingRefuses, h2, hn, decide_eq_false_iff_not, not_or, true_or, Bool.not_eq_false,
        true_and, and_true, not_not] at names
      exact ⟨h1, names.1, by unfold BankConfig.capacityBytes at *; rw [names.2]; exact h3⟩
    · rw [if_neg hb]; exact ⟨h1, h2, h3⟩
  | setWindow w x held check =>
    have hb : ∀ b, ((s.setWindow w x).bank b) = s.bank b := by simp
    refine ⟨fun j => ?_, ?_⟩
    · unfold State.WindowSound
      rw [State.setWindow_window]; split
      · intro he
        have hc := check he
        unfold State.checkWindow at hc
        split at hc
        · cases hc
        · split at hc
          · cases hc
          · split at hc
            · cases hc
            · rename_i h1 h2 h3
              rw [hb]
              exact ⟨by simpa using h1, by simpa using h2, Nat.le_of_not_lt h3⟩
      · intro he; rw [hb]; exact hs.sound j he
    · intro j k hjk
      have apart : ∀ m : WindowId, m ≠ w → x.enabled = true → s.windows[m].config.enabled = true →
          s.windows[m].config.overlaps x = false := by
        intro m hm hx hme
        have hc := check hx
        unfold State.checkWindow at hc
        split at hc
        · cases hc
        · split at hc
          · cases hc
          · split at hc
            · cases hc
            · split at hc
              · cases hc
              · rename_i ho
                by_contra hov
                refine ho ?_
                unfold State.overlapsOther
                exact List.any_eq_true.2 ⟨m, List.mem_finRange m, by
                  simp only [decide_eq_true_eq]; exact ⟨hm, hme, by simpa using hov⟩⟩
      rw [State.setWindow_window, State.setWindow_window]
      by_cases hj : j = w
      · have hk : k ≠ w := fun h => hjk (hj.trans h.symm)
        rw [if_pos hj, if_neg hk]; intro h1 h2
        rw [WindowConfig.overlaps_comm]; exact apart k hk h1 h2
      · rw [if_neg hj]
        by_cases hk : k = w
        · rw [if_pos hk]; intro h1 h2; exact apart j hj h2 h1
        · rw [if_neg hk]; exact hs.apart j k hjk
  | setLink => exact same (fun _ => rfl) fun _ => rfl
  | expel before e after h x =>
    have hb := (State.expel_ans x h).blocks
    exact same (fun j => by rw [hb.windows]) hb.config
  | reload c => exact bank c _ fun _ => by simp
  | clearFault c _ => exact bank c _ fun _ => by simp
  | clearCount c => exact bank c _ fun _ => rfl
  | tick clock =>
    refine same (fun _ => rfl) fun b => ?_
    have : State.bank { s.mapBanks (fun _ k => k.tick) with clock := clock, parked := s.parked.map Entry.tick } b
        = (s.bank b).tick := State.bank_mapBanks s _ b
    rw [this]; simp
  | pinReset p =>
    have hw : ∀ j : WindowId, (State.windows { State.afterPinReset p with pending := s.pending })[j].config.enabled
        = false := by intro j; simp [State.afterPinReset, State.reset, Window.reset]
    refine ⟨fun j he => ?_, fun j k _ he => ?_⟩
    · rw [hw] at he; cases he
    · rw [hw] at he; cases he

/-- A change that sets no present flag to no keeps the links sound. -/
theorem State.LinksSound.of_present {s t : State} (h : s.LinksSound) (hl : ∀ l : LinkId, t.links[l].config = s.links[l].config)
    (hp : ∀ b, (s.bank b).config.present = true → s.linkNames b = true → (t.bank b).config.present = true) :
    t.LinksSound := by
  intro l; rw [hl]; intro he
  have names : ∀ b, s.links[l].config.source = b ∨ s.links[l].config.target = b → s.linkNames b = true := by
    intro b hb
    exact List.any_eq_true.2 ⟨l, List.mem_finRange l, by simp only [decide_eq_true_eq]; exact ⟨he, hb⟩⟩
  exact ⟨hp _ (h l he).1 (names _ (.inl rfl)), hp _ (h l he).2 (names _ (.inr rfl))⟩

theorem Move.linksSound {i : Prop} {s t : State} (h : Move i s t) (hs : s.LinksSound) : t.LinksSound := by
  have same : ∀ {u : State}, (∀ l : LinkId, u.links[l].config = s.links[l].config) →
      (∀ b, (u.bank b).config = (s.bank b).config) → u.LinksSound :=
    fun h1 h2 => hs.of_present h1 fun b hb _ => by rw [h2]; exact hb
  have bank : ∀ (c : BankId) (f : Bank → Bank), (∀ k, (f k).config = k.config) → (s.updBank c f).LinksSound := by
    intro c f hf
    refine same (fun _ => rfl) fun b => ?_
    rw [State.updBank_config, hf]; split
    · rename_i hb; subst hb; rfl
    · rfl
  cases h with
  | calm h => exact same h.setup.links h.setup.config
  | outside => exact same (fun _ => rfl) fun _ => rfl
  | pop => exact same (fun _ => rfl) fun _ => rfl
  | answer g x d => exact same (fun j => by rw [State.answer_links]) fun b => by simp
  | bind g n _ => exact same (fun j => rfl) fun b => rfl
  | hold r w _ => exact same (fun j => rfl) fun b => rfl
  | pass x rest _ =>
    refine same (fun j => ?_) fun b => by rw [State.passResponse_bank]
    unfold State.passResponse; dsimp only; split <;> rfl
  | drop => exact same (fun _ => by rw [State.dropRequests_links]) fun b => by simp
  | park r _ _ => exact same (fun _ => rfl) fun b => by simp
  | parkAndWake r _ _ _ =>
    refine same (fun _ => rfl) fun b => ?_
    rw [State.joinWait_bank, State.updBank_config, State.setParked_bank, State.setParked_bank]; split
    · rename_i hb; subst hb; simp
    · simp
  | parkAbsent r _ _ => exact same (fun _ => rfl) fun b => by simp
  | free c x rest _ => exact bank c _ fun _ => rfl
  | fillMark c g _ => exact bank c _ fun _ => by simp
  | mark c first count m _ => exact bank c _ fun _ => by simp
  | pgood c v => exact bank c _ fun _ => rfl
  | nextStage c _ _ => exact bank c _ fun _ => by simp
  | failAttempt c _ =>
    exact same (fun _ => rfl) (s.failAttempt_config c)
  | rejoin c _ =>
    refine same (fun _ => rfl) fun b => ?_
    rw [State.rejoinWait_bank, State.updBank_config]; split
    · rename_i hb; subst hb; rfl
    · rfl
  | fault c cause _ =>
    have hb := (State.faultAnswers_ans (s.toFault c) c cause (s.bank c).port.slots).blocks
    refine same (fun j => by rw [hb.links]; rfl) fun b => ?_
    rw [hb.config, State.toFault_bank, State.updBank_config]; split
    · rename_i hb; subst hb; simp
    · rfl
  | setGlobal => exact same (fun _ => rfl) fun _ => rfl
  | configure c x _ _ names =>
    refine hs.of_present (fun _ => rfl) fun b hb hn => ?_
    rw [State.updBank_config, ((s.bank c).configured_cases x).1]; split
    · rename_i hbc; subst hbc
      by_contra hx
      simp [State.namingRefuses, hb, hn, hx] at names
    · exact hb
  | setWindow w x _ _ => exact same (fun _ => rfl) fun b => by simp
  | setLink m x check =>
    have hb : ∀ b, State.bank { s with links := s.links.set m { config := x, fireCount := 0 } } b = s.bank b := fun _ => rfl
    intro l
    have hl : (State.links { s with links := s.links.set m { config := x, fireCount := 0 } })[l].config
        = if l = m then x else s.links[l].config := by
      by_cases hm : m = l
      · subst hm; simp
      · have h1 : m.val ≠ l.val := fun h => hm (Fin.ext h)
        have h2 : ¬ l = m := fun h => hm h.symm
        simp [h1, h2]
    rw [hl, hb, hb]; split
    · exact check
    · exact hs l
  | expel before e after h x =>
    have hb := (State.expel_ans x h).blocks
    exact same (fun j => by rw [hb.links]) hb.config
  | reload c => exact bank c _ fun _ => by simp
  | clearFault c _ => exact bank c _ fun _ => by simp
  | clearCount c => exact bank c _ fun _ => rfl
  | tick clock =>
    refine same (fun _ => rfl) fun b => ?_
    have : State.bank { s.mapBanks (fun _ k => k.tick) with clock := clock, parked := s.parked.map Entry.tick } b
        = (s.bank b).tick := State.bank_mapBanks s _ b
    rw [this]; simp
  | pinReset p =>
    intro l he
    have : (State.links { State.afterPinReset p with pending := s.pending })[l].config.enabled = false := by
      simp [State.afterPinReset, State.reset, Link.reset]
    rw [this] at he; cases he

/-- Answers leave the parking queue as it is. -/
theorem State.answerEntries_parked (x : Status) : ∀ (q : List Entry) (s : State), (s.answerEntries x q).parked = s.parked
  | [], _ => rfl
  | e :: q, s => by rw [State.answerEntries, State.answerEntries_parked x q]; simp

end Sys2Proof.Machine
end

