-- ==== Sys2Proof/Laws/Counts.lean ====
section
/-! SUPPORT. Counts that moves keep: responses against tag records, held counts against tag records, and units held
against charges; and the banks that parked entries wait for. -/

namespace Sys2Proof.Machine

/-! ### Tags and responses -/

theorem tags_set (v : Vector TagRecord 32) (t u : Tag) (r : TagRecord) : (v.set t r)[u] = if u = t then r else v[u] := by
  by_cases h : t = u
  · subst h; simp
  · have h1 : t.val ≠ u.val := fun h' => h (Fin.ext h')
    have h2 : ¬ u = t := fun h' => h h'.symm
    simp [h1, h2]

theorem State.TagsAnswered.of_same {s t : State} (h : s.TagsAnswered) (ht : t.tags = s.tags)
    (hr : t.responses = s.responses) : t.TagsAnswered := by
  unfold State.TagsAnswered; rw [ht, hr]; exact h

theorem State.TagsAnswered.answer {s : State} (h : s.TagsAnswered) (t : Tag) (x : Status) (d : List Byte) :
    (s.answer t x d).TagsAnswered := by
  rcases s.answer_cases t x d with ⟨_, h'⟩ | ⟨hp, h'⟩ <;> rw [h']
  · exact h
  · intro u
    show (s.responses ++ [_]).countP _ = if (s.tags.set t _)[u].state = _ then _ else _
    rw [tags_set, List.countP_append, h u]
    by_cases hu : u = t
    · subst hu; simp only [Fin.getElem_fin] at hp ⊢; simp [hp]
    · have hu' : ¬ t = u := fun h' => hu h'.symm
      simp [hu, hu']

theorem Ans.tagsAnswered {s t : State} (h : Ans s t) (hs : s.TagsAnswered) : t.TagsAnswered := by
  cases h with
  | answer g x d => exact hs.answer g x d
  | fewer q _ => exact hs.of_same (by simp) (by simp)

theorem State.passResponse_tags (s : State) (x : Response) (rest : List Response) :
    (s.passResponse x rest).tags = s.tags.set x.tag { s.tags[x.tag] with state := .free } := by
  unfold State.passResponse; dsimp only; split <;> simp

theorem State.passResponse_responses (s : State) (x : Response) (rest : List Response) :
    (s.passResponse x rest).responses = rest := by
  unfold State.passResponse; dsimp only; split <;> simp

theorem Move.tagsAnswered {i : Prop} {s t : State} (h : Move i s t) (hs : s.TagsAnswered) : t.TagsAnswered := by
  have same : ∀ {u : State}, u.tags = s.tags → u.responses = s.responses → u.TagsAnswered := hs.of_same
  have bind : ∀ (g : Tag) (n : Nat) (w : Option WindowId), s.tags[g].state = .free → (s.bindTag g n w).TagsAnswered := by
    intro g n w free u
    show s.responses.countP _ = if (s.tags.set g _)[u].state = _ then _ else _
    rw [tags_set, hs u]
    by_cases hu : u = g
    · subst hu; simp only [Fin.getElem_fin] at free ⊢; simp [free]
    · simp [hu]
  cases h with
  | calm h => exact same h.setup.tags h.setup.responses
  | answer g x d => exact hs.answer g x d
  | bind g n free => exact bind g n none free
  | hold r w free => exact (bind r.tag r.length (some w) free).of_same rfl rfl
  | pass x rest hx =>
    intro u
    rw [State.passResponse_tags, State.passResponse_responses, tags_set]
    have h1 := hs u
    rw [hx, List.countP_cons] at h1
    by_cases hu : u = x.tag
    · subst hu
      simp only [decide_true, if_true] at h1 ⊢
      simp only [reduceCtorEq, if_false]
      split at h1 <;> omega
    · have hu' : ¬ x.tag = u := fun h' => hu h'.symm
      simpa [hu, hu'] using h1
  | drop =>
    intro u
    have h1 : s.dropRequests.responses = [] := rfl
    have h2 : s.dropRequests.tags = s.tags.map TagRecord.freed := rfl
    rw [h1, h2]; simp [TagRecord.freed]
  | parkAndWake r _ _ _ => exact same (by simp) (by simp)
  | fault b cause _ =>
    exact (State.faultAnswers_ans (s.toFault b) b cause _).keep Ans.tagsAnswered (same (by simp) (by simp))
  | expel before e after h x => exact (State.expel_ans x h).keep Ans.tagsAnswered hs
  | tick => exact same rfl rfl
  | pinReset =>
    intro u
    simp [State.afterPinReset, State.reset, TagRecord.reset]
  | setLink | setGlobal | outside | pop => exact same rfl rfl
  | _ => exact same (by simp) (by simp)

/-! ### Held counts -/

theorem State.HeldCounts.of_same {s t : State} (h : s.HeldCounts) (hw : ∀ i : WindowId, t.windows[i].held = s.windows[i].held)
    (ht : t.tags = s.tags) : t.HeldCounts := by
  intro i; rw [hw, h i]; unfold State.heldThrough; rw [ht]

/-- The count of held requests after one record has changed. -/
theorem countP_finRange_set {n : Nat} (p q : Fin n → Bool) (g : Fin n) (h : ∀ u, u ≠ g → q u = p u) :
    (List.finRange n).countP q + (if p g then 1 else 0) = (List.finRange n).countP p + (if q g then 1 else 0) := by
  have key : ∀ l : List (Fin n), l.Nodup → (g ∈ l →
      l.countP q + (if p g then 1 else 0) = l.countP p + (if q g then 1 else 0)) ∧ (g ∉ l → l.countP q = l.countP p) := by
    intro l
    induction l with
    | nil => intro _; simp
    | cons a l ih =>
      intro nd
      obtain ⟨ha, nd'⟩ := List.nodup_cons.1 nd
      obtain ⟨ih1, ih2⟩ := ih nd'
      refine ⟨fun hg => ?_, fun hg => ?_⟩
      · simp only [List.countP_cons]
        rcases List.mem_cons.1 hg with rfl | hg
        · rw [ih2 ha]; omega
        · have hne : a ≠ g := fun h' => ha (h' ▸ hg)
          rw [h a hne]
          have := ih1 hg
          split at this <;> split at this <;> split <;> omega
      · have hne : a ≠ g := fun h' => hg (h' ▸ List.mem_cons_self)
        simp only [List.countP_cons, h a hne, ih2 fun h' => hg (List.mem_cons_of_mem _ h')]
  exact (key _ (List.nodup_finRange n)).1 (List.mem_finRange g)

theorem State.heldThrough_set {s t : State} (g : Tag) (r : TagRecord) (ht : t.tags = s.tags.set g r) (i : WindowId) :
    t.heldThrough i + (if s.tags[g].state ≠ .free ∧ s.tags[g].window = some i then 1 else 0)
      = s.heldThrough i + (if r.state ≠ .free ∧ r.window = some i then 1 else 0) := by
  have := countP_finRange_set (fun u : Tag => decide (s.tags[u].state ≠ .free ∧ s.tags[u].window = some i))
    (fun u : Tag => decide (t.tags[u].state ≠ .free ∧ t.tags[u].window = some i)) g (by
      intro u hu; simp only [ht, tags_set, if_neg hu])
  unfold State.heldThrough
  simp only [ht, tags_set, if_true, decide_eq_true_eq] at this ⊢
  exact this

theorem State.HeldCounts.answer {s : State} (h : s.HeldCounts) (t : Tag) (x : Status) (d : List Byte) :
    (s.answer t x d).HeldCounts := by
  rcases s.answer_cases t x d with ⟨_, h'⟩ | ⟨hp, h'⟩
  · rw [h']; exact h
  · intro i
    have hs := State.heldThrough_set (s := s) (t := s.answer t x d) t { s.tags[t] with state := .answered }
      (by rw [h']) i
    have hw : (s.answer t x d).windows = s.windows := by simp
    rw [hw, h i]
    simp only [hp, ne_eq, reduceCtorEq, not_false_eq_true, true_and] at hs
    omega

theorem Ans.heldCounts {s t : State} (h : Ans s t) (hs : s.HeldCounts) : t.HeldCounts := by
  cases h with
  | answer g x d => exact hs.answer g x d
  | fewer q _ => exact hs.of_same (fun _ => rfl) (by simp)

theorem State.updHeld_held (s : State) (i j : WindowId) (f : Nat → Nat) :
    (s.updHeld i f).windows[j].held = if j = i then f s.windows[i].held else s.windows[j].held := by
  simp only [State.updHeld]
  by_cases h : i = j
  · subst h; simp
  · have h1 : i.val ≠ j.val := fun h' => h (Fin.ext h')
    have h2 : ¬ j = i := fun h' => h h'.symm
    simp [h1, h2]

theorem Move.heldCounts {i : Prop} {s t : State} (h : Move i s t) (ha : s.TagsAnswered) (hs : s.HeldCounts) :
    t.HeldCounts := by
  have same : ∀ {u : State}, (∀ j : WindowId, u.windows[j].held = s.windows[j].held) → u.tags = s.tags → u.HeldCounts :=
    hs.of_same
  cases h with
  | calm h => exact same (fun j => by rw [h.setup.windows]) h.setup.tags
  | outside => exact same (fun _ => rfl) rfl
  | pop => exact same (fun _ => rfl) rfl
  | answer g x d => exact hs.answer g x d
  | bind g n free =>
    intro j
    have h1 := State.heldThrough_set (s := s) (t := s.bindTag g n none) g { state := .pending, length := n, window := none }
      rfl j
    have hw : (s.bindTag g n none).windows = s.windows := rfl
    rw [hw, hs j]; simp only [free, ne_eq, not_true, false_and, if_false, reduceCtorEq, and_false] at h1; omega
  | hold r w free =>
    intro j
    have h1 := State.heldThrough_set (s := s) (t := s.hold r w) r.tag
      { state := .pending, length := r.length, window := some w } rfl j
    have hw : (s.hold r w).windows[j].held = if j = w then s.windows[w].held + 1 else s.windows[j].held :=
      (s.bindTag r.tag r.length (some w)).updHeld_held w j _
    rw [hw]; simp only [free, ne_eq, not_true, false_and, if_false, reduceCtorEq, not_false_eq_true, true_and] at h1
    split
    · rename_i hj; subst hj; rw [hs j]; simp at h1; omega
    · rename_i hj
      have hj' : ¬ w = j := fun h' => hj h'.symm
      rw [hs j]; simp [hj'] at h1; omega
  | pass x rest hx =>
    have hans : s.tags[x.tag].state = .answered := by
      have h1 := ha x.tag
      rw [hx, List.countP_cons] at h1
      by_contra hn
      rw [if_neg hn] at h1; simp at h1
    intro j
    have h1 := State.heldThrough_set (s := s) (t := s.passResponse x rest) x.tag { s.tags[x.tag] with state := .free }
      (s.passResponse_tags x rest) j
    simp only [hans, ne_eq, not_true, false_and, if_false, reduceCtorEq, not_false_eq_true, true_and] at h1
    have hw : (s.passResponse x rest).windows[j].held
        = if s.tags[x.tag].window = some j then s.windows[j].held - 1 else s.windows[j].held := by
      unfold State.passResponse; dsimp only
      cases hwin : s.tags[x.tag].window with
      | none => simp
      | some w =>
        rw [State.updHeld_held]
        by_cases hj : j = w
        · subst hj; simp
        · have hj' : ¬ w = j := fun h' => hj h'.symm
          simp [hj, hj']
    rw [hw]; split
    · rename_i he; simp only [he, if_true] at h1; rw [hs j]; omega
    · rename_i he; simp only [he, if_false] at h1; rw [hs j]; omega
  | drop =>
    intro j
    have h2 : s.dropRequests.tags = s.tags.map TagRecord.freed := rfl
    have h1 : s.dropRequests.windows = s.windows.map Window.emptied := rfl
    have : s.dropRequests.heldThrough j = 0 := by
      unfold State.heldThrough; rw [h2]; simp [TagRecord.freed]
    rw [this, h1]; simp [Window.emptied]
  | park r _ _ => exact same (fun _ => rfl) (by simp)
  | parkAndWake r _ _ _ => exact same (fun _ => rfl) (by simp)
  | parkAbsent r _ _ _ => exact same (fun _ => rfl) (by simp)
  | fault b cause _ =>
    exact (State.faultAnswers_ans (s.toFault b) b cause _).keep Ans.heldCounts (same (fun _ => rfl) (by simp))
  | expel before e after h x => exact (State.expel_ans x h).keep Ans.heldCounts hs
  | setWindow w c _ _ =>
    refine same (fun j => ?_) (by simp)
    simp only [State.setWindow]
    by_cases hj : w = j
    · subst hj; simp
    · have : w.val ≠ j.val := fun h' => hj (Fin.ext h')
      simp [this]
  | pinReset =>
    intro j
    simp [State.heldThrough, State.afterPinReset, State.reset, TagRecord.reset, Window.reset]
  | tick => exact same (fun _ => rfl) rfl
  | setLink | setGlobal => exact same (fun _ => rfl) rfl
  | _ => exact same (fun _ => rfl) rfl

end Sys2Proof.Machine
end

