-- ==== Sys2Proof/Laws/Awake.lean ====
section
/-! SUPPORT. The units held against the charges, the banks that parked entries wait for, and the bound of the parking
queue. -/

namespace Sys2Proof.Machine

/-! ### Units -/

theorem sum_finRange_set {n : Nat} (p q : Fin n → Nat) (g : Fin n) (h : ∀ u, u ≠ g → q u = p u) :
    ((List.finRange n).map q).sum + p g = ((List.finRange n).map p).sum + q g := by
  have key : ∀ l : List (Fin n), l.Nodup → (g ∈ l → (l.map q).sum + p g = (l.map p).sum + q g) ∧
      (g ∉ l → (l.map q).sum = (l.map p).sum) := by
    intro l
    induction l with
    | nil => intro _; simp
    | cons a l ih =>
      intro nd
      obtain ⟨ha, nd'⟩ := List.nodup_cons.1 nd
      obtain ⟨ih1, ih2⟩ := ih nd'
      refine ⟨fun hg => ?_, fun hg => ?_⟩
      · simp only [List.map_cons, List.sum_cons]
        rcases List.mem_cons.1 hg with rfl | hg
        · rw [ih2 ha]; omega
        · have hne : a ≠ g := fun h' => ha (h' ▸ hg)
          rw [h a hne]
          have := ih1 hg
          omega
      · have hne : a ≠ g := fun h' => hg (h' ▸ List.mem_cons_self)
        simp only [List.map_cons, List.sum_cons, h a hne, ih2 fun h' => hg (List.mem_cons_of_mem _ h')]
  exact (key _ (List.nodup_finRange n)).1 (List.mem_finRange g)

theorem State.charges_updBank (s : State) (b : BankId) (f : Bank → Bank) :
    (s.updBank b f).charges + (s.bank b).charge = s.charges + (f (s.bank b)).charge := by
  have := sum_finRange_set (fun c => (s.bank c).charge) (fun c => ((s.updBank b f).bank c).charge) b (by
    intro u hu; simp only [State.bank_updBank, if_neg hu])
  simpa [State.charges] using this

theorem State.charges_congr {s t : State} (h : ∀ b, (t.bank b).charge = (s.bank b).charge) : t.charges = s.charges := by
  unfold State.charges; congr 1; exact List.map_congr_left fun b _ => h b

theorem State.UnitsHold.of_same {s t : State} (h : s.UnitsHold) (hu : t.unitsHeld = s.unitsHeld)
    (hg : t.global = s.global) (hc : ∀ b, (t.bank b).charge = (s.bank b).charge)
    (hp : ∀ b, (s.bank b).power = .ramping → (s.bank b).charge ≠ 0 → (t.bank b).power = .ramping) : t.UnitsHold where
  sum := by rw [hu, State.charges_congr hc]; exact h.sum
  within := by rw [hu, hg]; exact h.within
  ramping b hb := by rw [hc] at hb; exact hp b (h.ramping b hb) hb

/-- A change of one bank that keeps its charge, and RAMPING where it has one. -/
theorem State.UnitsHold.updBank {s t : State} (h : s.UnitsHold) (b : BankId) (f : Bank → Bank)
    (hu : t.unitsHeld = s.unitsHeld) (hg : t.global = s.global) (hb : ∀ c, t.bank c = (s.updBank b f).bank c)
    (hc : (f (s.bank b)).charge = (s.bank b).charge)
    (hp : (s.bank b).power = .ramping → (s.bank b).charge ≠ 0 → (f (s.bank b)).power = .ramping) : t.UnitsHold := by
  refine h.of_same hu hg (fun c => ?_) fun c => ?_
  · rw [hb, State.bank_updBank]; split
    · rename_i h'; subst h'; exact hc
    · rfl
  · rw [hb, State.bank_updBank]; split
    · rename_i h'; subst h'; exact hp
    · exact fun h' _ => h'

/-- The release of a bank's units (R81). -/
theorem State.UnitsHold.release {s t : State} (h : s.UnitsHold) (b : BankId) (f : Bank → Bank)
    (hu : t.unitsHeld = s.unitsHeld - (s.bank b).charge) (hg : t.global = s.global)
    (hb : ∀ c, t.bank c = (s.updBank b f).bank c) (hc : (f (s.bank b)).charge = 0) : t.UnitsHold where
  sum := by
    have h1 := s.charges_updBank b f
    have h2 : t.charges = (s.updBank b f).charges := State.charges_congr fun c => by rw [hb]
    rw [hu, h2, h.sum]; omega
  within := by rw [hu, hg]; exact (Nat.sub_le _ _).trans h.within
  ramping c := by
    rw [hb, State.bank_updBank]; split
    · rename_i h'; subst h'; intro hn; exact absurd hc hn
    · exact h.ramping c

theorem Bank.turnedOn_charge' (k : Bank) (n : Nat) : (k.turnedOn n).charge = k.charge := by simp

theorem Calm.unitsHold {s t : State} (h : Calm s t) (hq : s.QueuesHold) (hs : s.UnitsHold) : t.UnitsHold := by
  have no : ∀ {c : BankId} {p : Power}, (s.bank c).power = p → p ≠ .ramping → ∀ {P : Prop},
      (s.bank c).power = .ramping → P := fun h1 h2 _ h3 => absurd (h1 ▸ h3) h2
  cases h with
  | post k a => exact hs.of_same (by simp) (by simp) (by simp) fun b h _ => by simpa using h
  | fewer q _ => exact hs.of_same (by simp) (by simp) (by simp) fun b h _ => by simpa using h
  | send r _ up =>
    exact hs.updBank r.bank (fun k => k.forwarded (s.requestSlot r)) rfl rfl (s.sendRequest_bank r) (by simp)
      fun h _ => by simpa using h
  | reload b => exact hs.updBank b Bank.reloadIdle rfl rfl (fun _ => rfl) (by simp) fun h _ => by simpa using h
  | cancel b h _ =>
    exact hs.updBank b _ rfl rfl (fun _ => rfl) (by simp) fun h' _ => no h (by decide) h'
  | release b h => exact hs.release b (fun k => { k with charge := 0 }) rfl rfl (s.releaseUnits_bank b) rfl
  | rampToFilling b h =>
    refine hs.release b
      (fun k => { k with power := .filling, wakeKind := .none, dwellTimer := none, wakeTimer := none, charge := 0 }) ?_ rfl (fun c => ?_) rfl
    · show s.unitsHeld - ((s.updBank b _).bank b).charge = _
      rw [State.bank_updBank_self]
    · rw [State.joinFill_bank, State.bank_updBank, State.bank_updBank, State.endRamp_bank, State.endRamp_bank]
      by_cases hc : c = b
      · subst hc; simp
      · simp [hc]
  | rampToOn b h =>
    refine hs.release b
      (fun k => Bank.turnedOn { k with wakeKind := .none, dwellTimer := none, wakeTimer := none, charge := 0 }
        (parkedCount (s.endRamp b).parked b)) ?_ rfl (fun c => ?_) (by simp)
    · show s.unitsHeld - ((s.updBank b _).bank b).charge = _
      rw [State.bank_updBank_self]
    · rw [State.turnOn_bank, State.bank_updBank, State.bank_updBank, State.endRamp_bank, State.endRamp_bank]
      by_cases hc : c = b
      · subst hc; simp
      · simp [hc]
  | fillOver b k a h =>
    have hf : (s.bank b).power = .filling := h.elim hq.head id
    refine hs.updBank b (fun j => j.turnedOn (parkedCount ((s.unqueueFill b).post k a).parked b)) (by simp) (by simp)
      (fun c => ?_) (by simp) fun h' _ => no hf (by decide) h'
    rw [State.turnOn_bank, State.bank_updBank, State.bank_updBank]
    simp
  | setFill f => exact hs.of_same rfl rfl (fun _ => rfl) fun b h _ => h
  | issueFill =>
    rcases s.issueFill_cases with h | ⟨c, g, a, hc, _, _, ht, h⟩ <;> rw [h]
    · exact hs
    · exact hs.updBank c _ rfl rfl (s.placeFill_bank c g a) rfl fun h' _ => h'
  | grantWake b rest hl fits =>
    have hw : (s.bank b).power = .waiting := (hq.wait b).1 (by simp [hl])
    have h0 : (s.bank b).charge = 0 := by
      by_contra hn; have := hs.ramping b hn; rw [hw] at this; cases this
    have h1 := s.charges_updBank b fun k => k.granted (s.bank b).wakeCost
    have h2 : (s.grantWake b rest).charges = (s.updBank b fun k => k.granted (s.bank b).wakeCost).charges := rfl
    refine ⟨?_, fits, fun c => ?_⟩
    · show s.unitsHeld + _ = _
      rw [h2]; have := hs.sum; simp only [Bank.granted] at h1 ⊢; omega
    · rw [State.grantWake_bank, State.bank_updBank]; split
      · intro _; rfl
      · exact hs.ramping c
  | joinWait b _ low =>
    refine hs.updBank b Bank.woken rfl rfl (s.joinWait_bank b) (by simp) fun h' _ => ?_
    rcases low with h | h <;> exact no h (by decide) h'
  | asleep b h _ _ => exact hs.updBank b _ rfl rfl (fun _ => rfl) (by simp) fun h' _ => no h (by decide) h'
  | asleepAndWoken b h _ _ =>
    refine hs.updBank b (fun k => k.lowered.woken) rfl rfl (fun c => ?_) (by simp) fun h' _ => no h (by decide) h'
    rw [State.joinWait_bank, State.bank_updBank, State.bank_updBank, State.bank_updBank]
    by_cases hc : c = b
    · subst hc; simp
    · simp [hc, State.bank_updBank]
  | softDrain b h => exact hs.updBank b _ rfl rfl (fun _ => rfl) (by simp) fun h' _ => no h (by decide) h'
  | hardDrain b t h =>
    refine hs.updBank b _ rfl rfl (s.hardDraining_bank b t) (by simp) fun h' _ => ?_
    rcases h with h | h <;> exact no h (by decide) h'
  | retarget b t h =>
    exact hs.updBank b (fun k => { k with drainKind := .hard, drainTarget := t.drain }) rfl rfl (fun _ => rfl) rfl
      fun h' _ => no h (by decide) h'
  | toOff b h => exact hs.updBank b _ rfl rfl (fun _ => rfl) (by simp) fun h' _ => no h (by decide) h'
  | countLink l => exact hs.of_same rfl rfl (fun _ => rfl) fun b h _ => h

theorem Move.unitsHold {i : Prop} {s t : State} (h : Move i s t) (hq : s.QueuesHold) (hs : s.UnitsHold) : t.UnitsHold := by
  have same : ∀ {u : State}, u.unitsHeld = s.unitsHeld → u.global = s.global →
      (∀ b, (u.bank b).charge = (s.bank b).charge) → (∀ b, (u.bank b).power = (s.bank b).power) → u.UnitsHold :=
    fun h1 h2 h3 h4 => hs.of_same h1 h2 h3 fun b h _ => by rw [h4]; exact h
  have upd : ∀ (b : BankId) (f : Bank → Bank), (f (s.bank b)).charge = (s.bank b).charge →
      (f (s.bank b)).power = (s.bank b).power → (s.updBank b f).UnitsHold :=
    fun b f h1 h2 => hs.updBank b f rfl rfl (fun _ => rfl) h1 fun h _ => by rw [h2]; exact h
  have faulted : ∀ b, ((s.bank b).AttemptOver ∨ (s.bank b).railUp = true) → (s.toFault b).UnitsHold := by
    intro b h
    refine hs.updBank b Bank.faulted rfl rfl (s.toFault_bank b) (by simp) fun h' hn => ?_
    rcases h with h | h
    · exact absurd h.charge hn
    · simp [Bank.railUp, h'] at h
  cases h with
  | calm h => exact h.unitsHold hq hs
  | outside => exact same rfl rfl (fun _ => rfl) fun _ => rfl
  | pop => exact same rfl rfl (fun _ => rfl) fun _ => rfl
  | answer g x d => exact same (by simp) (by simp) (by simp) (by simp)
  | bind g n _ => exact same (by simp) (by simp) (by simp) (by simp)
  | hold r w _ => exact same (by simp) (by simp) (by simp) (by simp)
  | pass x rest _ =>
    refine same ?_ ?_ (fun b => by rw [State.passResponse_bank]) fun b => by rw [State.passResponse_bank]
    all_goals unfold State.passResponse; dsimp only; split <;> simp
  | drop => exact same (by simp) (by simp) (fun b => by simp) fun b => by simp
  | park r _ _ => exact same (by simp) (by simp) (by simp) (by simp)
  | parkAndWake r _ _ low =>
    have h1 : (s.setParked (s.parked ++ [s.entryFor r])).UnitsHold := same (by simp) (by simp) (by simp) (by simp)
    refine h1.updBank r.bank Bank.woken rfl rfl (State.joinWait_bank _ r.bank) (by simp) fun h' _ => ?_
    rw [State.setParked_bank, Bank.syncIdle_power] at h'
    rcases low with h | h <;> rw [h] at h' <;> cases h'
  | parkAbsent r _ _ _ => exact same (by simp) (by simp) (by simp) (by simp)
  | free c x rest _ => exact upd c _ rfl rfl
  | fillMark c g _ => exact upd c _ (by simp) (by simp)
  | mark c first count m _ => exact upd c _ (by simp) (by simp)
  | pgood c v => exact upd c _ rfl rfl
  | nextStage c _ _ => exact upd c _ (by simp) (by simp)
  | failAttempt c _ =>
    refine hs.release c (fun k => { k.attemptFailed with charge := 0 }) ?_ rfl (fun b => ?_) rfl
    · show s.unitsHeld - ((s.updBank c _).bank c).charge = _
      rw [State.bank_updBank_self]; simp
    · rw [State.bank_updBank]
      by_cases hb : b = c
      · subst hb; rw [State.failAttempt_bank]; simp
      · rw [State.failAttempt, State.releaseUnits_bank]; simp only [State.bank_updBank, if_neg hb]
  | rejoin c h =>
    exact hs.updBank c (fun k => { k with power := .waiting }) rfl rfl (s.rejoinWait_bank c) rfl
      fun _ hn => absurd h.charge hn
  | fault c cause h =>
    have hb := (State.faultAnswers_ans (s.toFault c) c cause (s.bank c).port.slots).blocks
    exact (faulted c h).of_same hb.unitsHeld hb.global hb.charge fun b h _ => by rw [hb.power]; exact h
  | setGlobal g _ _ held => exact ⟨hs.sum, held, hs.ramping⟩
  | configure c x h _ _ =>
    have hc := (s.bank c).configured_cases x
    refine hs.updBank c _ rfl rfl (fun _ => rfl) hc.2.2.2.2.2.1 fun h' _ => ?_
    have : (s.bank c).power = .off ∨ (s.bank c).power = .retain ∨ (s.bank c).power = .fault := of_decide_eq_true h
    rcases this with h | h | h <;> rw [h] at h' <;> cases h'
  | setWindow w x _ _ => exact same (by simp) (by simp) (by simp) (by simp)
  | setLink => exact same rfl rfl (fun _ => rfl) fun _ => rfl
  | expel before e after h x =>
    have hb := (State.expel_ans x h).blocks
    exact same hb.unitsHeld hb.global hb.charge hb.power
  | reload c => exact upd c _ (by simp) (by simp)
  | clearFault c h =>
    refine hs.updBank c Bank.cleared rfl rfl (fun _ => rfl) (by simp) fun h' _ => ?_
    rw [h] at h'; cases h'
  | clearCount c => exact upd c _ rfl rfl
  | tick clock =>
    have hb : ∀ b, State.bank { s.mapBanks (fun _ k => k.tick) with clock := clock, parked := s.parked.map Entry.tick } b
        = (s.bank b).tick := fun b => State.bank_mapBanks s _ b
    exact same rfl rfl (fun b => by rw [hb]; simp) fun b => by rw [hb]; simp
  | pinReset p =>
    have hb : ∀ b, State.bank { State.afterPinReset p with pending := s.pending } b
        = { Bank.reset with pgood := p.pgood[b] } := fun b => by simp [State.bank, State.afterPinReset]
    refine ⟨?_, Nat.zero_le _, fun b hn => ?_⟩
    · show 0 = _
      unfold State.charges; simp only [hb]; decide
    · rw [hb] at hn; exact absurd rfl hn

/-! ### Parked entries and their banks -/

theorem Calm.parked {s t : State} (h : Calm s t) : t.parked.Sublist s.parked := by
  cases h with
  | fewer q h => exact h
  | _ => simp

theorem CalmRun.parked {s t : State} (h : CalmRun s t) : t.parked.Sublist s.parked := by
  induction h with
  | refl => exact List.Sublist.refl _
  | tail _ hm ih => exact hm.parked.trans ih

/-- The bank states in which a parked entry can wait (R32). -/
def Bank.awake (k : Bank) : Prop := k.power ≠ .off ∧ k.power ≠ .retain ∧ k.power ≠ .fault

theorem parkedCount_zero {q : List Entry} {b : BankId} (h : parkedCount q b = 0) : ∀ e ∈ q, e.req.bank ≠ b := by
  intro e he hb
  have := List.countP_eq_zero.1 h e he
  simp [hb] at this

/-- A change of one bank keeps R32 where the bank stays awake, or no entry is parked for it. -/
theorem State.ParkedAwake.updBank {s t : State} (h : s.ParkedAwake) (hp : t.parked.Sublist s.parked) (b : BankId)
    (f : Bank → Bank) (hb : ∀ c, (t.bank c).power = ((s.updBank b f).bank c).power)
    (hf : (s.bank b).awake → (f (s.bank b)).awake ∨ ∀ e ∈ s.parked, e.req.bank ≠ b) : t.ParkedAwake := by
  intro e he
  have hes := hp.subset he
  rw [hb, State.bank_updBank]; split
  · rename_i hc
    have hk := h e hes
    rw [hc] at hk
    rcases hf hk with h' | h'
    · exact h'
    · exact absurd hc (h' e hes)
  · exact h e hes

theorem State.ParkedAwake.of_same {s t : State} (h : s.ParkedAwake) (hp : t.parked.Sublist s.parked)
    (hb : ∀ c, (t.bank c).power = (s.bank c).power) : t.ParkedAwake := by
  intro e he; rw [hb]; exact h e (hp.subset he)

theorem Calm.parkedAwake {s t : State} (h : Calm s t) (ha : s.AbsentOff) (hs : s.ParkedAwake) : t.ParkedAwake := by
  have sub := h.parked
  have up : ∀ {k : Bank}, k.power = .ramping ∨ k.power = .filling ∨ k.power = .on ∨ k.power = .draining ∨ k.power = .waiting →
      k.awake := by
    intro k hk; unfold Bank.awake; rcases hk with h | h | h | h | h <;> simp [h]
  cases h with
  | post k a => exact hs.of_same sub (by simp)
  | fewer q _ => exact hs.of_same sub (by simp)
  | send r _ _ => exact hs.updBank sub r.bank (fun k => k.forwarded (s.requestSlot r)) (fun c => by rw [State.sendRequest_bank]) fun h => .inl (by simpa [Bank.awake] using h)
  | reload b => exact hs.updBank sub b _ (fun _ => rfl) fun h => .inl (by simpa [Bank.awake] using h)
  | cancel b _ _ => exact hs.updBank sub b _ (fun c => by rw [State.turnOn_bank]) fun _ => .inl (up (by simp))
  | release b _ =>
    exact hs.updBank sub b (fun k => { k with charge := 0 }) (fun c => by rw [State.releaseUnits_bank])
      fun h => .inl (by simpa [Bank.awake] using h)
  | rampToFilling b _ =>
    refine hs.updBank sub b (fun k => { k with power := .filling }) (fun c => ?_) fun _ => .inl (up (by simp))
    rw [State.joinFill_bank, State.bank_updBank, State.bank_updBank, State.endRamp_bank, State.endRamp_bank]
    by_cases hc : c = b
    · subst hc; simp
    · simp [hc]
  | rampToOn b _ =>
    refine hs.updBank sub b (fun k => k.turnedOn 0) (fun c => ?_) fun _ => .inl (up (by simp))
    rw [State.turnOn_bank, State.bank_updBank, State.bank_updBank, State.endRamp_bank, State.endRamp_bank]
    by_cases hc : c = b
    · subst hc; simp
    · simp [hc]
  | fillOver b k a _ =>
    refine hs.updBank sub b (fun k => k.turnedOn 0) (fun c => ?_) fun _ => .inl (up (by simp))
    rw [State.turnOn_bank, State.bank_updBank, State.bank_updBank]
    by_cases hc : c = b
    · subst hc; simp
    · simp [hc]
  | setFill f => exact hs.of_same sub fun _ => rfl
  | issueFill => exact hs.of_same sub (State.issueFill_power s)
  | grantWake b rest _ _ => exact hs.updBank sub b _ (fun c => by rw [State.grantWake_bank]) fun _ => .inl (up (by simp))
  | joinWait b _ _ => exact hs.updBank sub b _ (fun c => by rw [State.joinWait_bank]) fun _ => .inl (up (by simp))
  | asleep b h _ stays =>
    refine hs.updBank sub b _ (fun _ => rfl) fun _ => .inr ?_
    rcases stays with h' | h'
    · exact parkedCount_zero h'
    · have := ha b h'; rw [h] at this; cases this
  | asleepAndWoken b _ _ _ =>
    refine hs.updBank sub b (fun k => k.lowered.woken) (fun c => ?_) fun _ => .inl (up (by simp))
    rw [State.joinWait_bank, State.bank_updBank, State.bank_updBank, State.bank_updBank]
    by_cases hc : c = b
    · subst hc; simp
    · simp [hc, State.bank_updBank]
  | softDrain b _ => exact hs.updBank sub b _ (fun _ => rfl) fun _ => .inl (up (by simp))
  | hardDrain b t _ => exact hs.updBank sub b _ (fun c => by rw [State.hardDraining_bank]) fun _ => .inl (up (by simp))
  | retarget b t _ => exact hs.updBank sub b _ (fun _ => rfl) fun h => .inl h
  | toOff b h => exact hs.updBank sub b _ (fun _ => rfl) fun h' => absurd h h'.2.1
  | countLink l => exact hs.of_same sub fun _ => rfl

theorem Ans.parkedAwake {s t : State} (h : Ans s t) (hs : s.ParkedAwake) : t.ParkedAwake := by
  cases h with
  | answer g x d => exact hs.of_same (by simp) (by simp)
  | fewer q h => exact hs.of_same h (by simp)

/-- After the entries for a bank have been answered, none is parked for it (R52, R53). -/
theorem State.expelBank_none (b : BankId) (x : Status) : ∀ (n : Nat) (s : State), s.parked.length ≤ n →
    ∀ e ∈ (s.expelBank b x n).parked, e.req.bank ≠ b
  | 0, s, hn, e, he => by
    have : s.parked = [] := List.length_eq_zero_iff.1 (Nat.le_zero.1 hn)
    rw [State.expelBank, this] at he; cases he
  | n + 1, s, hn, e, he => by
    unfold State.expelBank at he; split at he
    · rename_i h
      have := splitOldest_none h e he
      simpa using this
    · rename_i before x' after h
      refine State.expelBank_none b x n _ ?_ e he
      have hp := (splitOldest_some h).1
      have hq : (s.expel before x' after x).parked = withoutCascade before x' after := by
        rw [State.expel, State.answerEntries_parked]; rfl
      have hl : (after.filter fun y => decide (y.req.stream ≠ x'.req.stream)).length ≤ after.length := List.length_filter_le _ _
      rw [hq]; rw [hp] at hn
      simp only [withoutCascade, List.length_append, List.length_cons] at *
      omega

theorem Move.parkedAwake {i : Prop} {s t : State} (h : Move i s t) (ha : s.AbsentOff) (hw : s.WindowsSound)
    (hs : s.ParkedAwake) : t.ParkedAwake := by
  have sub := List.Sublist.refl s.parked
  cases h with
  | calm h => exact h.parkedAwake ha hs
  | outside => exact hs.of_same sub fun _ => rfl
  | pop => exact hs.of_same sub fun _ => rfl
  | answer g x d => exact hs.of_same (by simp) (by simp)
  | bind g n _ => exact hs.of_same (by simp) (by simp)
  | hold r w _ => exact hs.of_same (by simp) (by simp)
  | pass x rest _ =>
    refine hs.of_same ?_ fun b => by rw [State.passResponse_bank]
    have : (s.passResponse x rest).parked = s.parked := by unfold State.passResponse; dsimp only; split <;> simp
    rw [this]
  | drop => intro e he; have : s.dropRequests.parked = [] := rfl; rw [this] at he; cases he
  | park r _ up =>
    intro e he
    rw [State.setParked_parked] at he
    simp only [State.setParked_bank, Bank.syncIdle_power]
    rcases List.mem_append.1 he with he | he
    · exact hs e he
    · rcases List.mem_singleton.1 he with rfl; exact up
  | parkAndWake r _ _ _ =>
    intro e he
    have he' : e ∈ s.parked ++ [s.entryFor r] := he
    rw [State.joinWait_bank, State.bank_updBank]; split
    · simp
    · rename_i hc
      simp only [State.setParked_bank, Bank.syncIdle_power]
      rcases List.mem_append.1 he' with he' | he'
      · exact hs e he'
      · rcases List.mem_singleton.1 he' with rfl; exact absurd rfl hc
  | parkAbsent r _ absent named =>
    have := (hw.sound _ named.1).2.1
    rw [named.2, absent] at this; cases this
  | free c x rest _ => exact hs.updBank sub c _ (fun _ => rfl) fun h => .inl h
  | fillMark c g _ => exact hs.updBank sub c _ (fun _ => rfl) fun h => .inl (by simpa [Bank.awake] using h)
  | mark c first count m _ => exact hs.updBank sub c _ (fun _ => rfl) fun h => .inl (by simpa [Bank.awake] using h)
  | pgood c v => exact hs.updBank sub c _ (fun _ => rfl) fun h => .inl h
  | nextStage c _ _ => exact hs.updBank sub c _ (fun _ => rfl) fun h => .inl (by simpa [Bank.awake] using h)
  | failAttempt c _ =>
    refine hs.of_same (by simp) fun b => ?_
    by_cases hb : b = c
    · subst hb; rw [State.failAttempt_bank]; simp
    · rw [State.failAttempt, State.releaseUnits_bank]; simp only [State.bank_updBank, if_neg hb]
  | rejoin c _ =>
    exact hs.updBank (by simp) c _ (fun b => by rw [State.rejoinWait_bank]) fun _ => .inl (by simp [Bank.awake])
  | fault c cause _ =>
    have hr := State.faultAnswers_ans (s.toFault c) c cause (s.bank c).port.slots
    intro e he
    have hne : e.req.bank ≠ c := State.expelBank_none c .faulted _ _ (Nat.le_refl _) e he
    rw [hr.blocks.power, State.toFault_bank, State.bank_updBank_ne _ _ hne]
    exact hs e (by simpa using hr.parked.subset he)
  | setGlobal => exact hs.of_same sub fun _ => rfl
  | configure c x h _ _ =>
    have hp := ((s.bank c).configured_cases x).2.2.2.2.2.2.1
    refine hs.updBank sub c _ (fun _ => rfl) fun h' => ?_
    rcases hp with hp | ⟨h1, _⟩
    · left; unfold Bank.awake at *; rw [hp]; exact h'
    · exact absurd h1 h'.2.1
  | setWindow w x _ _ => exact hs.of_same (by simp) (by simp)
  | setLink => exact hs.of_same sub fun _ => rfl
  | expel before e after h x => exact (State.expel_ans x h).keep Ans.parkedAwake hs
  | reload c => exact hs.updBank sub c _ (fun _ => rfl) fun h => .inl (by simpa [Bank.awake] using h)
  | clearFault c h => exact hs.updBank sub c _ (fun _ => rfl) fun h' => absurd h h'.2.2
  | clearCount c => exact hs.updBank sub c _ (fun _ => rfl) fun h => .inl h
  | tick clock =>
    intro e he
    have he' : e ∈ s.parked.map Entry.tick := he
    obtain ⟨e', hm, rfl⟩ := List.mem_map.1 he'
    have : State.bank { s.mapBanks (fun _ k => k.tick) with clock := clock, parked := s.parked.map Entry.tick }
        e'.req.bank = (s.bank e'.req.bank).tick := State.bank_mapBanks s _ _
    have hb : e'.tick.req = e'.req := rfl
    rw [hb, this]; simpa using hs e' hm
  | pinReset p => intro e he; cases he

end Sys2Proof.Machine
end

