-- ==== Sys2Proof/Laws/Begins.lean ====
section
/-! SUPPORT. What the fill engine does when a bank comes to the head of its queue: one segment fill is set up, and the
fill writes that the port takes are issued (R97, R99, R128). -/

namespace Sys2Proof.Machine

/-- A fill write is issued where the three conditions of R99 hold. -/
theorem State.issueFill_places {s : State} {b : BankId} {g : Segment} {a : BankAddr} (hq : s.fillQueue.head? = some b)
    (hg : s.fill.current = some g) (ha : s.fill.nextWrite = some a) (ht : (s.bank b).takesFill = true) :
    s.issueFill = s.placeFill b g a := by
  unfold State.issueFill; rw [hq, hg, ha]; simp [ht]

/-- No fill write is issued to a port that takes none (R99). -/
theorem State.issueFill_waits {s : State} {b : BankId} (hq : s.fillQueue.head? = some b)
    (ht : (s.bank b).takesFill = false) : s.issueFill = s := by
  unfold State.issueFill; rw [hq]; split
  · rename_i h _ _; cases h; simp [ht]
  · rfl

theorem Port.noFill {p : Port} (h : ∀ x ∈ p.slots, x.holder ≠ .fill) : p.fillSlots = 0 := by
  simpa [Port.fillSlots, List.countP_eq_zero] using h

/-- A segment is 32 KiB to 8 MiB (R88). -/
theorem BankConfig.segment_range (c : BankConfig) :
    32768 ≤ 2 ^ (c.capacity.val + 15) ∧ 2 ^ (c.capacity.val + 15) ≤ 8388608 := by
  generalize c.capacity = k; revert k; decide

/-- The next write after the first or second block of a segment (R99). -/
theorem nextWriteAfter_begin (c : BankConfig) (g : Segment) (n : Nat) (hn : n ≤ 1) :
    nextWriteAfter c (BitVec.ofNat 28 (g.val * c.segmentBytes + 64 * n))
      = some (BitVec.ofNat 28 (g.val * c.segmentBytes + 64 * (n + 1))) := by
  obtain ⟨hp, hc⟩ := c.segment_range
  unfold nextWriteAfter BankConfig.segmentBytes Config.fillBytes
  generalize 2 ^ (c.capacity.val + 15) = z at hp hc ⊢
  have hg : g.val * z ≤ 31 * z := Nat.mul_le_mul_right _ (by omega)
  have hlt : g.val * z + 64 * n < 268435456 := by omega
  rw [BitVec.toNat_ofNat, Nat.mod_eq_of_lt (show _ < 2 ^ 28 from hlt), if_neg]
  · congr 1
    apply BitVec.eq_of_toNat_eq
    simp only [BitVec.toNat_add, BitVec.toNat_ofNat]
    omega
  · rw [Nat.add_assoc, Nat.mul_comm g.val, Nat.mul_add_mod, Nat.mod_eq_of_lt (by omega)]; omega
theorem State.placeFill_fill (s : State) (b : BankId) (g : Segment) (a : BankAddr) : (s.placeFill b g a).fill =
    { s.fill with nextWrite := nextWriteAfter (s.bank b).config a, inFlight := s.fill.inFlight + 1 } := rfl

/-- Two changes of one bank's record are one. -/
theorem State.updBank_updBank (s : State) (b : BankId) (f g : Bank → Bank) :
    (s.updBank b f).updBank b g = s.updBank b fun k => g (f k) := by simp [State.updBank, State.bank]

theorem State.updBank_self (s : State) (b : BankId) : (s.updBank b fun _ => s.bank b) = s := by
  simp [State.updBank, State.bank]

/-- The next two bank records that differ from `s` in bank `b` only, and agree there, are the same banks. -/
theorem State.updBank_congr {s : State} {b : BankId} {f g : Bank → Bank} (h : f (s.bank b) = g (s.bank b)) :
    s.updBank b f = s.updBank b g := by simp [State.updBank, h]

/-- A segment fill set up at a port with no fill write, with the writes issued at once (R97, R99, R128). -/
theorem State.beginSegment_issueFills {s : State} {b : BankId} (g : Segment) (hq : s.fillQueue.head? = some b)
    (hn : ∀ x ∈ (s.bank b).port.slots, x.holder ≠ .fill) : (s.beginSegment b g).issueFills = s.fillBegun b g := by
  have hf := Port.noFill hn
  have h0 := nextWriteAfter_begin (s.bank b).config g 0 (by omega)
  have h1 := nextWriteAfter_begin (s.bank b).config g 1 (by omega)
  rw [Nat.mul_zero, Nat.add_zero] at h0
  have hb : (s.beginSegment b g).bank b = s.bank b := rfl
  unfold State.issueFills
  by_cases hr : (s.bank b).port.slots.length < 4
  · have ht : (s.bank b).takesFill = true := by
      simp [Bank.takesFill, hf, Port.hasRoom, Config.slotCapacity, Config.fillSlotCapacity, hr]
    rw [State.issueFill_places (s := s.beginSegment b g) (b := b) (g := g) hq rfl rfl (hb ▸ ht)]
    generalize hp : (s.beginSegment b g).placeFill b g (BitVec.ofNat 28 (g.val * (s.bank b).config.segmentBytes)) = p
    have hk : p.bank b
        = (s.bank b).withFill (s.fillSlot g (BitVec.ofNat 28 (g.val * (s.bank b).config.segmentBytes))) := by
      rw [← hp, State.placeFill_bank, State.bank_updBank_self]; rfl
    have hpq : p.fillQueue.head? = some b := by rw [← hp]; exact hq
    have hpg : p.fill.current = some g := by rw [← hp, State.placeFill_fill]; rfl
    have hpa : p.fill.nextWrite = some (BitVec.ofNat 28 (g.val * (s.bank b).config.segmentBytes + 64 * (0 + 1))) := by
      rw [← hp, State.placeFill_fill, hb]; dsimp only; rw [h0]
    by_cases hr2 : (s.bank b).port.slots.length < 3
    · rw [State.issueFill_places hpq hpg hpa]
      · have hw : min 2 (4 - (s.bank b).port.slots.length) = 2 := by omega
        have hw' : min 2 (4 - s.banks[b.val].port.slots.length) = 2 := hw
        rw [← hp]
        refine State.ext ?_ rfl rfl rfl rfl ?_ rfl rfl rfl rfl rfl rfl rfl rfl rfl rfl rfl rfl rfl rfl ?_ rfl rfl
        · simp [hw', State.placeFill, State.updBank, State.fillBegun, State.bank, State.beginSegment, Bank.withFill,
            Bank.withPort, State.fillSlot, List.range_succ, BankConfig.segmentBytes, Config.fillBytes]
        · simp only [State.placeFill_fill, State.fillBegun, hw]
          rw [show (((s.beginSegment b g).placeFill b g (BitVec.ofNat 28 (g.val * (s.bank b).config.segmentBytes))).bank b).config
            = (s.bank b).config by rw [hp, hk]; rfl, h1]
          rfl
        · simp [hw', State.placeFill, State.updBank, State.fillBegun, State.bank, State.beginSegment, List.range_succ,
            BankConfig.segmentBytes, Config.fillBytes, -List.reduceReplicate]
      · rw [hk]
        have : ((s.bank b).port.slots.countP fun x => x.holder = .fill) = 0 := hf
        simp [Bank.takesFill, Bank.withFill, Bank.withPort, Port.fillSlots, Port.hasRoom, Config.slotCapacity,
          Config.fillSlotCapacity, State.fillSlot, List.countP_append, this]
        omega
    · rw [State.issueFill_waits hpq]
      · have hw : min 2 (4 - (s.bank b).port.slots.length) = 1 := by omega
        have hw' : min 2 (4 - s.banks[b.val].port.slots.length) = 1 := hw
        rw [← hp]
        refine State.ext ?_ rfl rfl rfl rfl ?_ rfl rfl rfl rfl rfl rfl rfl rfl rfl rfl rfl rfl rfl rfl ?_ rfl rfl
        · simp [hw', State.placeFill, State.updBank, State.fillBegun, State.bank, State.beginSegment, Bank.withFill,
            Bank.withPort, State.fillSlot, List.range_succ, BankConfig.segmentBytes, Config.fillBytes]
        · simp only [State.placeFill_fill, State.fillBegun, hw]
          rw [hb, h0]
          rfl
        · simp [hw', State.placeFill, State.updBank, State.fillBegun, State.bank, State.beginSegment, List.range_succ,
            BankConfig.segmentBytes, Config.fillBytes, -List.reduceReplicate]
      · rw [hk]
        simp [Bank.takesFill, Bank.withFill, Bank.withPort, Port.hasRoom, Config.slotCapacity]
        omega
  · have ht : (s.bank b).takesFill = false := by
      have : ¬ (s.bank b).port.slots.length < 4 := hr
      simp [Bank.takesFill, Port.hasRoom, Config.slotCapacity, this]
    rw [State.issueFill_waits (s := s.beginSegment b g) (b := b) hq (hb ▸ ht),
      State.issueFill_waits (s := s.beginSegment b g) (b := b) hq (hb ▸ ht)]
    have hw : min 2 (4 - (s.bank b).port.slots.length) = 0 := by omega
    have hw' : min 2 (4 - s.banks[b.val].port.slots.length) = 0 := hw
    refine State.ext ?_ rfl rfl rfl rfl ?_ rfl rfl rfl rfl rfl rfl rfl rfl rfl rfl rfl rfl rfl rfl ?_ rfl rfl
    · simp [hw', State.updBank, State.fillBegun, State.bank, State.beginSegment]
      exact (Vector.set_getElem_self _).symm
    · simp [hw, State.fillBegun, State.beginSegment, BankConfig.segmentBytes]
    · simp [hw', State.fillBegun, State.bank, State.beginSegment]

/-- The segment chosen with nothing parked is the lowest LOST one (R98). -/
theorem State.chooseSegment_lowest {s : State} {b : BankId} {g : Segment} (hp : s.parked = [])
    (h : (s.bank b).LowestLost g) : s.chooseSegment b = g := by
  have hf : (s.bank b).lowestLost = some g := by
    unfold Bank.lowestLost
    rw [List.find?_eq_some_iff_getElem]
    refine ⟨by simpa using h.1, g.val, by simp, by simp, fun j hj => ?_⟩
    have hj' : j < 32 := Nat.lt_trans hj g.isLt
    simp only [List.getElem_finRange, Bool.not_eq_true', decide_eq_false_iff_not]
    intro hl
    have := h.2 ⟨j, hj'⟩ (by simpa using hl)
    simp at this; omega
  unfold State.chooseSegment; rw [hp]
  simp [State.demandFrom, hf]

theorem Bank.LowestLost.any {k : Bank} {g : Segment} (h : k.LowestLost g) : k.anyLost = true := by
  simp only [Bank.anyLost, List.any_eq_true]
  exact ⟨g, List.mem_finRange g, by simpa using h.1⟩

/-- A segment fill begun for the head bank, whose port holds no fill write, with its chosen segment (R97 to R99). -/
theorem Work.startHead_begins {w : Work} {b : BankId} {more : List BankId} {g : Segment} (hq : w.st.fillQueue = b :: more)
    (ha : (w.st.bank b).anyLost = true) (hc : w.st.chooseSegment b = g)
    (hn : ∀ x ∈ (w.st.bank b).port.slots, x.holder ≠ .fill) : w.startHead = { w with st := w.st.fillBegun b g } := by
  unfold Work.startHead Work.startHeads; rw [hq]; simp only [ha, if_true]
  unfold Work.on; dsimp only; rw [hc]
  exact congrArg (fun u => ({ w with st := u } : Work)) (State.beginSegment_issueFills g (by simp [hq]) hn)

end Sys2Proof.Machine
end

