-- ==== Sys2Proof/Laws/Bound.lean ====
section
/-! SUPPORT. The bound of the parking queue (R28), and the run lemmas of the properties that every move keeps. -/

namespace Sys2Proof.Machine

/-! ### The parking queue -/

theorem AnsRun.length {s t : State} (h : AnsRun s t) : t.parked.length ≤ s.parked.length := h.parked.length_le

/-- Only an acceptance adds to the parking queue. -/
theorem Move.length {i : Prop} (ni : ¬ i) {s t : State} (h : Move i s t) : t.parked.length ≤ s.parked.length := by
  cases h with
  | calm h => exact h.parked.length_le
  | pass x rest _ =>
    have : (s.passResponse x rest).parked = s.parked := by unfold State.passResponse; dsimp only; split <;> simp
    rw [this]
  | drop => exact Nat.zero_le _
  | park r hi _ => exact absurd hi ni
  | parkAndWake r hi _ _ => exact absurd hi ni
  | parkAbsent r hi _ _ => exact absurd hi ni
  | failAttempt c _ => simp
  | rejoin c _ => simp
  | fault c cause _ => simpa using (State.faultAnswers_ans (s.toFault c) c cause (s.bank c).port.slots).length
  | expel before e after h x => exact (State.expel_ans x h).length
  | tick clock => exact (List.length_map Entry.tick).le
  | pinReset p => exact Nat.zero_le _
  | _ => simp

theorem MoveRun.length {i : Prop} (ni : ¬ i) {s t : State} (h : MoveRun i s t) : t.parked.length ≤ s.parked.length := by
  induction h with
  | refl => exact Nat.le_refl _
  | tail _ hm ih => exact (hm.length ni).trans ih

theorem CalmRun.length {s t : State} (h : CalmRun s t) : t.parked.length ≤ s.parked.length := h.parked.length_le

/-- A scan that releases nothing leaves everything as it is; any other scan shortens the queue (R44, R45). -/
theorem Work.walk_cases : ∀ (ahead kept : List Entry) (w : Work), w.st.parked = kept ++ ahead →
    w.walk kept ahead = w ∨ (w.walk kept ahead).st.parked.length < w.st.parked.length
  | [], _, w, _ => .inl rfl
  | e :: ahead, kept, w, h => by
    unfold Work.walk; split
    · right
      have h1 := (Work.walk_calm ahead kept (w.release (kept ++ ahead) e) (by simp)).length
      rw [Work.release_parked] at h1
      rw [h]; simp only [List.length_append, List.length_cons] at *; omega
    · exact Work.walk_cases ahead (kept ++ [e]) w (by simp [h])

theorem Work.scan_cases (w : Work) : w.scan = w ∨ w.scan.st.parked.length < w.st.parked.length :=
  Work.walk_cases w.st.parked [] w rfl

theorem Work.park_length (w : Work) (r : Routed) : (w.park r).st.parked.length ≤ w.st.parked.length + 1 := by
  have := (Work.wake_calm (w.on fun s => s.setParked (s.parked ++ [s.entryFor r])) r.bank false).length
  simpa [Work.park] using this

theorem Work.forward_parked (w : Work) (r : Routed) : (w.forward r).st.parked = w.st.parked := rfl

/-- An intake lengthens the queue by one at most, and only where it would park (R35 to R37, R41). -/
theorem Work.intake_length (w : Work) (r : Routed) :
    (w.intake r).st.parked.length ≤ w.st.parked.length
      ∨ (w.st.wouldPark r = true ∧ (w.intake r).st.parked.length ≤ w.st.parked.length + 1) := by
  unfold Work.intake; dsimp only; split
  · left; simp
  · rename_i hf
    split
    · rename_i h
      rcases Work.scan_cases (w.on fun s => s.turnOn r.bank) with hc | hc
      · have hcd : w.cancelDrain r.bank = w.on fun s => s.turnOn r.bank := hc
        unfold Work.place; rw [hcd]; split
        · left; rfl
        · rename_i hn
          right
          refine ⟨?_, Work.park_length (w.on fun s => s.turnOn r.bank) r⟩
          unfold State.wouldPark; dsimp only; rw [if_neg hf, if_pos h]
          simp only [decide_eq_true_eq]
          by_contra hc'
          rw [not_or] at hc'
          apply hn
          unfold State.forwardsDirectly
          refine decide_eq_true ⟨by simpa [State.streamParked] using hc'.1, ?_, .inl ?_⟩
          · rw [Work.on_st, State.turnOn_bank, State.bank_updBank_self]; simpa using hc'.2
          · rw [Work.on_st, State.turnOn_bank, State.bank_updBank_self]; simp
      · left
        have hlt : (w.cancelDrain r.bank).st.parked.length < w.st.parked.length := hc
        unfold Work.place; split
        · exact Nat.le_of_lt hlt
        · exact (Work.park_length _ r).trans hlt
    · rename_i h
      unfold Work.place; split
      · left; rfl
      · rename_i hn
        right
        refine ⟨?_, Work.park_length w r⟩
        unfold State.wouldPark; dsimp only; rw [if_neg hf, if_neg h]
        simpa using hn

theorem State.hold_wouldPark (s : State) (r : Request) (i : WindowId) (x : Routed) :
    (s.hold r i).wouldPark x = s.wouldPark x := rfl

/-- The acceptance of a request keeps the queue within its bound (R28, R41). -/
theorem execAcceptance_bounded {s t : State} {c : Channel} (h : execAcceptance c s = .next t) (hs : s.QueueBounded) :
    t.QueueBounded := by
  unfold execAcceptance at h; split at h
  · cases proceed_inj h; exact hs
  · cases proceed_inj h; exact hs
  rename_i r
  split at h <;> cases proceed_inj h
  · rename_i ha
    unfold State.take; split
    · simpa [State.QueueBounded] using hs
    · rename_i h1
      have h1' : ¬ s.tags[r.tag].state ≠ .free := h1
      split
      · simpa [State.QueueBounded] using hs
      · rename_i h2
        split
        · simpa [State.QueueBounded] using hs
        · simpa [State.QueueBounded] using hs
        · rename_i x hx
          have hx' : s.decode r = .permitted x := hx
          have he := (State.event_calm ((s.shown none).hold r x.window)
            fun w => w.intake x).length
          rcases Work.intake_length (Work.start ((s.shown none).hold r x.window)) x with h | h
          · exact he.trans (h.trans hs)
          · refine he.trans (h.2.trans ?_)
            have hw : s.wouldPark x = true := h.1
            unfold State.accepts at ha
            rw [if_neg h1', if_neg h2, hx'] at ha
            split at ha
            · cases ha
            · simp only [hw, true_and, decide_eq_true_eq] at ha
              have : ¬ Config.parkCapacity ≤ s.parked.length := by simpa using ha
              show s.parked.length + 1 ≤ Config.parkCapacity
              omega
  · exact hs

/-- Every command keeps the parking queue within its bound (R28). -/
theorem exec_bounded {c : Instr} {s t : State} (hq : s.QueuesHold) (h : exec c s = .next t) (hs : s.QueueBounded) :
    t.QueueBounded := by
  by_cases hc : ∃ r, c = .acceptance r
  · obtain ⟨r, rfl⟩ := hc; exact execAcceptance_bounded h hs
  · exact ((exec_moves hq h).length hc).trans hs

/-! ### Runs -/

/-- A property of the state that every move keeps, given another that every run keeps, is kept by every run. -/
theorem MoveRun.keep {i : Prop} {P Q : State → Prop} (hP : ∀ {s t}, MoveRun i s t → P s → P t)
    (hQ : ∀ {s t}, Move i s t → P s → Q s → Q t) {s t : State} (h : MoveRun i s t) (hs : P s) (hq : Q s) : Q t := by
  induction h with
  | refl => exact hq
  | tail hr hm ih => exact hQ hm (hP hr hs) ih

theorem MoveRun.unitsHold {i : Prop} {s t : State} (h : MoveRun i s t) (hq : s.QueuesHold) (hs : s.UnitsHold) : t.UnitsHold :=
  h.keep MoveRun.queues (fun hm hp => hm.unitsHold hp) hq hs

theorem MoveRun.resetCloses {i : Prop} {s t : State} (h : MoveRun i s t) (hs : s.ResetCloses) : t.ResetCloses := by
  induction h with
  | refl => exact hs
  | tail _ hm ih => exact hm.resetCloses ih

theorem MoveRun.eventsBounded {i : Prop} {s t : State} (h : MoveRun i s t) (hs : s.EventsBounded) : t.EventsBounded := by
  induction h with
  | refl => exact hs
  | tail _ hm ih => exact hm.eventsBounded ih

theorem MoveRun.windowsSound {i : Prop} {s t : State} (h : MoveRun i s t) (hs : s.WindowsSound) : t.WindowsSound := by
  induction h with
  | refl => exact hs
  | tail _ hm ih => exact hm.windowsSound ih

theorem MoveRun.linksSound {i : Prop} {s t : State} (h : MoveRun i s t) (hs : s.LinksSound) : t.LinksSound := by
  induction h with
  | refl => exact hs
  | tail _ hm ih => exact hm.linksSound ih

theorem MoveRun.tagsAnswered {i : Prop} {s t : State} (h : MoveRun i s t) (hs : s.TagsAnswered) : t.TagsAnswered := by
  induction h with
  | refl => exact hs
  | tail _ hm ih => exact hm.tagsAnswered ih

theorem MoveRun.heldCounts {i : Prop} {s t : State} (h : MoveRun i s t) (ha : s.TagsAnswered) (hs : s.HeldCounts) :
    t.HeldCounts := h.keep MoveRun.tagsAnswered (fun hm hp => hm.heldCounts hp) ha hs

theorem MoveRun.absentOff {i : Prop} {s t : State} (h : MoveRun i s t) (hq : s.QueuesHold) (hs : s.AbsentOff) :
    t.AbsentOff := fun b => (h.bank hq b).keep (P := Bank.AbsentOff) BankMove.absentOff (hs b)

theorem MoveRun.parkedAwake {i : Prop} {s t : State} (h : MoveRun i s t) (hq : s.QueuesHold) (ha : s.AbsentOff)
    (hw : s.WindowsSound) (hs : s.ParkedAwake) : t.ParkedAwake :=
  h.keep (P := fun u => u.QueuesHold ∧ u.AbsentOff ∧ u.WindowsSound)
    (fun hr hp => ⟨hr.queues hp.1, hr.absentOff hp.1 hp.2.1, hr.windowsSound hp.2.2⟩)
    (fun hm hp => hm.parkedAwake hp.2.1 hp.2.2) ⟨hq, ha, hw⟩ hs

end Sys2Proof.Machine
end

