-- ==== Sys2Proof/Laws/Fires.lean ====
section
/-! SUPPORT. Which operations fire links: none but a firing. So each link fires at most once in an event, and its fire
count stays or rises by one (R142, R143). -/

namespace Sys2Proof.Machine

/-- Two points of an event between which no link has fired. -/
structure NoFiring (w v : Work) : Prop where
  links : v.st.links = w.st.links
  fired : v.fired = w.fired

theorem NoFiring.refl (w : Work) : NoFiring w w := ⟨rfl, rfl⟩

theorem NoFiring.trans {u v w : Work} (h : NoFiring u v) (h' : NoFiring v w) : NoFiring u w :=
  ⟨h'.links.trans h.links, h'.fired.trans h.fired⟩

theorem NoFiring.on {u w : Work} (h : NoFiring u w) (f : State → State)
    (hf : ∀ s, (f s).links = s.links := by intro s; first | rfl | simp) : NoFiring u (w.on f) := ⟨(hf _).trans h.links, h.fired⟩

theorem NoFiring.bank {u w : Work} (h : NoFiring u w) (b : BankId) (f : Bank → Bank) : NoFiring u (w.bank b f) :=
  h.on fun s => s.updBank b f

theorem NoFiring.offer {u w : Work} (h : NoFiring u w) (b : BankId) (t : Trigger) : NoFiring u (w.offer b t) :=
  ⟨h.links, h.fired⟩

theorem Work.forward_noFiring (w : Work) (r : Routed) : NoFiring w (w.forward r) := ⟨rfl, rfl⟩

theorem Work.release_noFiring (w : Work) (rest : List Entry) (e : Entry) : NoFiring w (w.release rest e) :=
  ((NoFiring.refl w).on fun s => s.setParked rest).trans (Work.forward_noFiring _ _)

theorem Work.walk_noFiring : ∀ (ahead kept : List Entry) (w : Work), NoFiring w (w.walk kept ahead)
  | [], _, w => .refl w
  | e :: ahead, kept, w => by
    unfold Work.walk; split
    · exact (w.release_noFiring _ e).trans (Work.walk_noFiring ahead kept _)
    · exact Work.walk_noFiring ahead _ w

theorem NoFiring.scan {u w : Work} (h : NoFiring u w) : NoFiring u w.scan := h.trans (Work.walk_noFiring _ _ w)

theorem NoFiring.enterOn {u w : Work} (h : NoFiring u w) (b : BankId) : NoFiring u (w.enterOn b) :=
  ((h.on fun s => s.turnOn b).offer b .ready).scan

theorem NoFiring.fillDone {u w : Work} (h : NoFiring u w) (b : BankId) : NoFiring u (w.fillDone b) :=
  (h.on fun s => (s.unqueueFill b).post .fillDone { bank := some b }).enterOn b

theorem Work.startHeads_noFiring : ∀ (n : Nat) (w : Work), NoFiring w (w.startHeads n)
  | 0, w => .refl w
  | n + 1, w => by
    unfold Work.startHeads; split
    · exact (NoFiring.refl w).on fun s => { s with fill := FillProgress.idle }
    · rename_i b _ _
      split
      · exact (NoFiring.refl w).on _ fun s => by simp [State.issueFills]
      · exact ((NoFiring.refl w).fillDone b).trans (Work.startHeads_noFiring n _)

theorem NoFiring.startHead {u w : Work} (h : NoFiring u w) : NoFiring u w.startHead :=
  h.trans (Work.startHeads_noFiring _ w)

theorem NoFiring.fillStep {u w : Work} (h : NoFiring u w) (b : BankId) (x : FillStep) : NoFiring u (w.fillStep b x) := by
  unfold Work.fillStep; split
  · split
    · exact h.on _ fun s => by simp [State.issueFills]
    · exact h
  · exact h.startHead

theorem NoFiring.enterFilling {u w : Work} (h : NoFiring u w) (b : BankId) : NoFiring u (w.enterFilling b) := by
  unfold Work.enterFilling; dsimp only; split
  · exact ((h.on fun s => s.joinFill b).scan).startHead
  · exact (h.on fun s => s.joinFill b).scan

theorem NoFiring.completeRamp {u w : Work} (h : NoFiring u w) (b : BankId) : NoFiring u (w.completeRamp b) := by
  unfold Work.completeRamp; dsimp only; split
  · split
    · exact (h.on fun s => s.endRamp b).enterFilling b
    · exact (h.on fun s => s.endRamp b).enterOn b
  · exact h

theorem Work.completeRamps_noFiring : ∀ (q : List BankId) (w : Work), NoFiring w (w.completeRamps q)
  | [], w => .refl w
  | b :: q, w => ((NoFiring.refl w).completeRamp b).trans (Work.completeRamps_noFiring q _)

theorem State.grantHeads_links : ∀ (n : Nat) (s : State), (s.grantHeads n).1.links = s.links
  | 0, _ => rfl
  | n + 1, s => by
    unfold State.grantHeads; split
    · rfl
    · split
      · dsimp only; split
        · rw [State.grantHeads_links n]; simp
        · rw [State.grantHeads_links n]; simp
      · rfl

theorem NoFiring.tryGrant {u w : Work} (h : NoFiring u w) : NoFiring u w.tryGrant := by
  have h1 : NoFiring u (w.on fun _ => w.st.grants.1) := ⟨(State.grantHeads_links _ _).trans h.links, h.fired⟩
  exact h1.trans (Work.completeRamps_noFiring _ _)

theorem NoFiring.wake {u w : Work} (h : NoFiring u w) (b : BankId) (l : Bool) : NoFiring u (w.wake b l) := by
  unfold Work.wake; dsimp only; split
  · have hw := h.on fun s => s.joinWait b
    split
    · exact hw.tryGrant
    · exact (hw.offer b .wakeBegun).tryGrant
  · exact h

theorem NoFiring.finishRamp {u w : Work} (h : NoFiring u w) (b : BankId) : NoFiring u (w.finishRamp b) := by
  unfold Work.finishRamp; split
  · have h1 : NoFiring u (w.on fun _ => (w.st.releaseUnits b).grants.1) :=
      ⟨((State.grantHeads_links _ _).trans (by simp)).trans h.links, h.fired⟩
    exact h1.trans (Work.completeRamps_noFiring _ _)
  · exact h

theorem NoFiring.completeDrain {u w : Work} (h : NoFiring u w) (b : BankId) : NoFiring u (w.completeDrain b) := by
  unfold Work.completeDrain; dsimp only; split
  · exact ((h.bank b _).offer b .asleep).wake b false
  · exact (h.bank b _).offer b .asleep

theorem NoFiring.drainIfEmpty {u w : Work} (h : NoFiring u w) (b : BankId) : NoFiring u (w.drainIfEmpty b) := by
  unfold Work.drainIfEmpty; split
  · exact h.completeDrain b
  · exact h

theorem NoFiring.softDrain {u w : Work} (h : NoFiring u w) (b : BankId) : NoFiring u (w.softDrain b) :=
  ((h.bank b _).offer b .drainBegun).drainIfEmpty b

theorem NoFiring.cancelDrain {u w : Work} (h : NoFiring u w) (b : BankId) : NoFiring u (w.cancelDrain b) :=
  (h.on fun s => s.turnOn b).scan

theorem NoFiring.hardDrain {u w : Work} (h : NoFiring u w) (b : BankId) (t : RestTarget) (l : Bool) :
    NoFiring u (w.hardDrain b t l) := by
  unfold Work.hardDrain; dsimp only
  have hd := h.on fun s => s.hardDraining b t
  split <;> split
  · exact hd.startHead.drainIfEmpty b
  · exact hd.drainIfEmpty b
  · exact (hd.startHead.offer b .drainBegun).drainIfEmpty b
  · exact (hd.offer b .drainBegun).drainIfEmpty b

theorem NoFiring.sleep {u w : Work} (h : NoFiring u w) (b : BankId) (t : RestTarget) (l : Bool) :
    NoFiring u (w.sleep b t l) := by
  unfold Work.sleep; split
  any_goals exact h
  · exact h.hardDrain b t l
  · exact h.hardDrain b t l
  · exact h.bank b _
  · split
    · exact h.bank b _
    · exact h

theorem NoFiring.enterFault {u w : Work} (h : NoFiring u w) (b : BankId) (cause : FaultCause) :
    NoFiring u (w.enterFault b cause) := by
  unfold Work.enterFault; dsimp only
  have ha : NoFiring u (w.on fun s => (s.toFault b).faultAnswers b cause (w.st.bank b).port.slots) :=
    h.on _ fun s => (State.faultAnswers_ans (s.toFault b) b cause _).blocks.links.trans (by simp)
  refine (NoFiring.on ?_ _ fun s => by simp).offer b .faulted
  split
  · exact ha.scan.startHead
  · exact ha.scan

theorem NoFiring.act {u w : Work} (h : NoFiring u w) (l : LinkId) (b : BankId) (t : Trigger) :
    NoFiring u (w.act l b t) := by
  unfold Work.act; dsimp only; split
  · split
    · exact h.cancelDrain _
    · exact h.wake _ true
  · split
    · exact h.cancelDrain _
    · exact h.bank _ _
  · exact h.sleep _ .retain true
  · exact h.sleep _ .off true
  · exact h.on _ fun s => by simp

theorem Work.settleFrom_noFiring : ∀ (q : List (BankId × Tag × Stream)) (w : Work), NoFiring w (w.settleFrom q)
  | [], w => .refl w
  | (b, t, st) :: later, w =>
    (((NoFiring.refl w).on _ fun s => by simp).offer b .count).trans (Work.settleFrom_noFiring later _)

theorem NoFiring.settle {u w : Work} (h : NoFiring u w) : NoFiring u w.settle :=
  have h' : NoFiring u { w with crossings := [] } := ⟨h.links, h.fired⟩
  h'.trans (Work.settleFrom_noFiring w.crossings { w with crossings := [] })

/-! ### Each link at most once -/

/-- The fire counts of an event: a link that has fired stands one higher than at the start, and any other as at the start
(R142). -/
def Counted (s : State) (w : Work) : Prop :=
  ∀ l : LinkId, w.st.links[l].fireCount = if l ∈ w.fired then s.links[l].fireCountRaised else s.links[l].fireCount

theorem Counted.start (s : State) : Counted s (Work.start s) := fun l => by simp [Work.start]

theorem Counted.keep {s : State} {w v : Work} (h : Counted s w) (hv : NoFiring w v) : Counted s v := by
  unfold Counted; rw [hv.links, hv.fired]; exact h

/-- A firing counts a link that has not fired in this event (R143). -/
theorem Counted.fire {s : State} {w : Work} (h : Counted s w) {l : LinkId} (hl : l ∉ w.fired) (o : BankId × Trigger)
    (still : List (BankId × Trigger)) : Counted s (w.fire l o still) := by
  refine Counted.keep (w := ({ w.on (fun s => { s with links := s.links.set l s.links[l].firedOnce }) with
    offered := still, fired := l :: w.fired } : Work)) ?_ (((NoFiring.refl _).act l o.1 o.2).settle)
  intro m
  have hm := h m
  by_cases e : m = l
  · subst e
    rw [if_neg hl] at hm
    simp only [Work.on_st, List.mem_cons, true_or, if_true, Link.fireCountRaised, ← hm]
    simp only [Link.firedOnce, Fin.getElem_fin, Vector.getElem_set_self]
    split <;> simp_all
  · have : l.val ≠ m.val := fun h => e (Fin.ext h).symm
    simpa [this, e] using hm

theorem State.nextFiring_fresh {s : State} {fired : List LinkId} {l : LinkId} {o : BankId × Trigger}
    {still : List (BankId × Trigger)} : ∀ {q : List (BankId × Trigger)}, s.nextFiring fired q = some (l, o, still) → l ∉ fired
  | [], h => by simp [State.nextFiring] at h
  | x :: later, h => by
    unfold State.nextFiring at h; split at h
    · rename_i m hm
      cases h
      have := List.find?_some hm
      simp only [decide_eq_true_eq] at this
      exact this.2.2.2
    · exact State.nextFiring_fresh h

theorem Counted.fireUpTo {s : State} : ∀ (n : Nat) {w : Work}, Counted s w → Counted s (w.fireUpTo n)
  | 0, _, h => h
  | n + 1, w, h => by
    unfold Work.fireUpTo; split
    · exact h
    · rename_i l o still hn
      exact Counted.fireUpTo n (h.fire (State.nextFiring_fresh hn) o still)

theorem Counted.takeTriggers {s : State} {w : Work} (h : Counted s w) : Counted s w.takeTriggers :=
  Counted.fireUpTo 8 (h.keep (NoFiring.refl w).settle)

theorem Counted.watchOldest {s : State} {w : Work} (h : Counted s w) (b : BankId) : Counted s (w.watchOldest b) := by
  unfold Work.watchOldest; split
  · exact (h.keep ((NoFiring.refl w).enterFault b .timedOut)).takeTriggers
  · exact h

/-- A link fires at most once in an event whose own moves fire none (R143). -/
theorem State.event_counted {s : State} {moves : Work → Work} (h : NoFiring (Work.start s) (moves (Work.start s)))
    (l : LinkId) : (s.event moves).links[l].fireCount = s.links[l].fireCount
      ∨ (s.event moves).links[l].fireCount = s.links[l].fireCountRaised := by
  have := ((Counted.start s).keep h).takeTriggers l
  unfold State.event; rw [this]; split
  · exact .inr rfl
  · exact .inl rfl

end Sys2Proof.Machine
end

