-- ==== Sys2Proof/Laws/Flush.lean ====
section
/-! SUPPORT. The order in which the parked entries of a bank are answered, with their cascades, and what is left of the
queue (R50, R52, R53). -/

namespace Sys2Proof.Machine

/-- Entries of streams already answered are as if gone from the queue. -/
theorem flushOrder_gone (b : BankId) : ∀ (q : List Entry) (all out kept : List Stream),
    (∀ x, x ∈ all ↔ x ∈ out ∨ x ∈ kept) →
    flushOrder b all q = flushOrder b kept (q.filter fun x => x.req.stream ∉ out)
  | [], _, _, _, _ => by simp [flushOrder]
  | e :: later, all, out, kept, h => by
    by_cases ho : e.req.stream ∈ out
    · rw [flushOrder, if_pos ((h _).2 (.inl ho)), List.filter_cons_of_neg (by simpa using ho)]
      exact flushOrder_gone b later all out kept h
    · rw [List.filter_cons_of_pos (by simpa using ho), flushOrder, flushOrder]
      by_cases hk : e.req.stream ∈ kept
      · rw [if_pos ((h _).2 (.inr hk)), if_pos hk]; exact flushOrder_gone b later all out kept h
      · rw [if_neg (fun ha => ((h _).1 ha).elim ho hk), if_neg hk]
        by_cases hb : e.req.bank = b
        · rw [if_pos hb, if_pos hb, List.filter_filter, flushOrder_gone b later (e.req.stream :: all) out (e.req.stream :: kept)
            fun x => by simp only [List.mem_cons, h x]; tauto]
          congr 2
          refine List.filter_congr fun x _ => ?_
          by_cases hx : x.req.stream = e.req.stream <;> simp [hx, ho]
        · rw [if_neg hb, if_neg hb]; exact flushOrder_gone b later all out kept h

theorem flushRest_gone (b : BankId) : ∀ (q : List Entry) (all out kept : List Stream),
    (∀ x, x ∈ all ↔ x ∈ out ∨ x ∈ kept) →
    flushRest b all q = flushRest b kept (q.filter fun x => x.req.stream ∉ out)
  | [], _, _, _, _ => by simp [flushRest]
  | e :: later, all, out, kept, h => by
    by_cases ho : e.req.stream ∈ out
    · rw [flushRest, if_pos ((h _).2 (.inl ho)), List.filter_cons_of_neg (by simpa using ho)]
      exact flushRest_gone b later all out kept h
    · rw [List.filter_cons_of_pos (by simpa using ho), flushRest, flushRest]
      by_cases hk : e.req.stream ∈ kept
      · rw [if_pos ((h _).2 (.inr hk)), if_pos hk]; exact flushRest_gone b later all out kept h
      · rw [if_neg (fun ha => ((h _).1 ha).elim ho hk), if_neg hk]
        by_cases hb : e.req.bank = b
        · rw [if_pos hb, if_pos hb]
          exact flushRest_gone b later (e.req.stream :: all) out (e.req.stream :: kept)
            fun x => by simp only [List.mem_cons, h x]; tauto
        · rw [if_neg hb, if_neg hb, flushRest_gone b later all out kept h]

/-- The oldest entry of the bank comes first, its cascade next, and then those of the queue that they leave. -/
theorem flushOrder_split {b : BankId} {e : Entry} {after : List Entry} (he : e.req.bank = b) : ∀ {before : List Entry},
    (∀ x ∈ before, x.req.bank ≠ b) →
    flushOrder b [] (before ++ e :: after) = e :: cascadeOf e after ++ flushOrder b [] (withoutCascade before e after)
  | [], _ => by
    simp only [List.nil_append, flushOrder, List.not_mem_nil, if_false, he, if_true, cascadeOf, withoutCascade]
    rw [flushOrder_gone b after [e.req.stream] [e.req.stream] [] (by simp)]
    simp
  | x :: before, h => by
    have hx := h x List.mem_cons_self
    simp only [List.cons_append, flushOrder, List.not_mem_nil, if_false, hx, withoutCascade]
    exact flushOrder_split he fun y hy => h y (List.mem_cons_of_mem _ hy)

theorem flushRest_split {b : BankId} {e : Entry} {after : List Entry} (he : e.req.bank = b) : ∀ {before : List Entry},
    (∀ x ∈ before, x.req.bank ≠ b) →
    flushRest b [] (before ++ e :: after) = flushRest b [] (withoutCascade before e after)
  | [], _ => by
    simp only [List.nil_append, flushRest, List.not_mem_nil, if_false, he, if_true, withoutCascade]
    rw [flushRest_gone b after [e.req.stream] [e.req.stream] [] (by simp)]
    simp
  | x :: before, h => by
    have hx := h x List.mem_cons_self
    simp only [List.cons_append, flushRest, List.not_mem_nil, if_false, hx, withoutCascade]
    rw [flushRest_split he fun y hy => h y (List.mem_cons_of_mem _ hy)]; rfl

theorem flushOrder_none (b : BankId) : ∀ {q : List Entry}, (∀ e ∈ q, e.req.bank ≠ b) →
    flushOrder b [] q = [] ∧ flushRest b [] q = q
  | [], _ => by simp [flushOrder, flushRest]
  | x :: q, h => by
    have hx := h x List.mem_cons_self
    have := flushOrder_none b (q := q) fun y hy => h y (List.mem_cons_of_mem _ hy)
    simp [flushOrder, flushRest, hx, this]

/-- Two states with the same tag table and the same response queue. -/
structure SameAnswers (s t : State) : Prop where
  tags : t.tags = s.tags
  responses : t.responses = s.responses

theorem SameAnswers.answer {s t : State} (h : SameAnswers s t) (g : Tag) (x : Status) (d : List Byte) :
    SameAnswers (s.answer g x d) (t.answer g x d) := by
  unfold State.answer; rw [h.tags, h.responses]; split
  · exact ⟨rfl, rfl⟩
  · exact h

theorem SameAnswers.answerEntries (x : Status) : ∀ (q : List Entry) {s t : State}, SameAnswers s t →
    SameAnswers (s.answerEntries x q) (t.answerEntries x q)
  | [], _, _, h => h
  | e :: q, _, _, h => SameAnswers.answerEntries x q (h.answer e.req.tag x [])

theorem State.answerEntries_append (x : Status) : ∀ (p q : List Entry) (s : State),
    s.answerEntries x (p ++ q) = (s.answerEntries x p).answerEntries x q
  | [], _, _ => rfl
  | e :: p, q, s => by
    rw [List.cons_append, State.answerEntries, State.answerEntries]; exact State.answerEntries_append x p q _

/-- What `n` answers of the entries of a bank do, the queue holding no more than `n`: the queue keeps the rest, and the
answers are made in the order of R50 and R53. -/
theorem State.expelBank_order (b : BankId) (x : Status) : ∀ (n : Nat) (s : State), s.parked.length ≤ n →
    (s.expelBank b x n).parked = flushRest b [] s.parked
      ∧ SameAnswers (s.answerEntries x (flushOrder b [] s.parked)) (s.expelBank b x n)
  | 0, s, h => by
    have : s.parked = [] := by simpa using h
    rw [this]; exact ⟨by simp [State.expelBank, this, flushRest], ⟨rfl, rfl⟩⟩
  | n + 1, s, h => by
    unfold State.expelBank; split
    · rename_i hs
      have := flushOrder_none b (q := s.parked) fun e he hb => by
        have := splitOldest_none hs e he; simp [hb] at this
      rw [this.1, this.2]; exact ⟨rfl, rfl, rfl⟩
    · rename_i before e after hs
      obtain ⟨hq, he, hbefore⟩ := splitOldest_some hs
      have he' : e.req.bank = b := by simpa using he
      have hb' : ∀ y ∈ before, y.req.bank ≠ b := fun y hy => by simpa using hbefore y hy
      have hp : (s.expel before e after x).parked = withoutCascade before e after := by
        unfold State.expel; rw [State.answerEntries_parked, State.setParked_parked]
      have hl : (s.expel before e after x).parked.length ≤ n := by
        rw [hp]
        have := List.length_filter_le (fun y : Entry => y.req.stream ≠ e.req.stream) after
        rw [hq] at h
        simp only [withoutCascade, List.length_append, List.length_cons] at h ⊢; omega
      obtain ⟨h1, h2⟩ := State.expelBank_order b x n _ hl
      rw [hp] at h1 h2
      rw [hq, flushOrder_split he' hb', flushRest_split he' hb']
      refine ⟨h1, ?_⟩
      rw [State.answerEntries_append]
      have h3 : SameAnswers (s.answerEntries x (e :: cascadeOf e after)) (s.expel before e after x) :=
        SameAnswers.answerEntries x _ ⟨by simp, by simp⟩
      have h4 := h3.answerEntries x (flushOrder b [] (withoutCascade before e after))
      exact ⟨h2.tags.trans h4.tags, h2.responses.trans h4.responses⟩

/-- What answering every parked entry of a bank does (R52, R53). -/
theorem State.flushParked_order (s : State) (b : BankId) (x : Status) :
    (s.flushParked b x).parked = flushRest b [] s.parked
      ∧ SameAnswers (s.answerEntries x (flushOrder b [] s.parked)) (s.flushParked b x) :=
  State.expelBank_order b x _ s (Nat.le_refl _)

end Sys2Proof.Machine
end

