-- ==== Sys2Proof/Laws/PerInstr.lean ====
section
/-! SUPPORT. For each command: the frame that sends it spells it, whatever bytes follow (R182, R183). -/

namespace Sys2Proof.Laws.FrameCodec

/-- A frame of the command, with any bytes after its taking, decodes to the command. -/
def Statement (i : Instr) : Prop :=
  i.wellFormed = true → ∀ bytes, frameBytes i = some bytes → ∀ more, decodeFrame (bytes ++ more) = some i

/-- What is no frame command has no frame. -/
theorem no_frame {i : Instr} (h : frameBytes i = none) : Statement i := by
  intro _ bytes hb
  rw [h] at hb
  cases hb

/-- A command of the table, sent with its argument bytes. -/
theorem table_frame {i : Instr} (c : FrameCommand) (index : Byte) (args : List Byte)
    (hf : frameBytes i = some (c.code :: index :: args)) (hl : args.length = c.argBytes)
    (hi : ∀ more, c.instr index (args ++ more) = i) : Statement i := by
  intro _ bytes hb more
  obtain rfl : c.code :: index :: args = bytes := Option.some.inj (hf.symm.trans hb)
  have hc : FrameCommand.ofCode c.code = some c := by cases c <;> decide
  have hn : ¬ (args ++ more).length < c.argBytes := by
    rw [List.length_append, hl]
    omega
  simp only [List.cons_append, decodeFrame, hc, if_neg hn, hi]

/-- The argument bytes of a vector are the vector. -/
theorem argVector_append {n : Nat} (a : Vector Byte n) (more : List Byte) : argVector n (a.toList ++ more) = a := by
  apply Vector.ext
  intro j hj
  have h : j < a.toList.length := by simpa using hj
  simp only [argVector, Vector.getElem_ofFn, List.getD_eq_getElem?_getD, List.getElem?_append_left h]
  simp [hj]

theorem pinReset (e : ResetEdge) (p : PinLevels) : Statement (.pinReset e p) := no_frame rfl

theorem linkReset : Statement (.linkReset) := no_frame rfl

theorem linkOpen : Statement (.linkOpen) := no_frame rfl

theorem tick : Statement (.tick) := no_frame rfl

theorem acceptance (c : Channel) : Statement (.acceptance c) := no_frame rfl

theorem responseTaken : Statement (.responseTaken) := no_frame rfl

theorem stageDwellExpiry (b : BankId) : Statement (.stageDwellExpiry b) := no_frame rfl

theorem rampCompletion (b : BankId) : Statement (.rampCompletion b) := no_frame rfl

theorem grant : Statement (.grant) := no_frame rfl

theorem wakeLimitExpiry (b : BankId) : Statement (.wakeLimitExpiry b) := no_frame rfl

theorem railDrop (b : BankId) : Statement (.railDrop b) := no_frame rfl

theorem responseTimeout (b : BankId) : Statement (.responseTimeout b) := no_frame rfl

theorem completion (b : BankId) (r : BankResult) (d : Vector Byte 64) : Statement (.completion b r d) := no_frame rfl

theorem fillWriteIssue : Statement (.fillWriteIssue) := no_frame rfl

theorem drainCompletion (b : BankId) : Statement (.drainCompletion b) := no_frame rfl

theorem parkExpiry (g : Tag) : Statement (.parkExpiry g) := no_frame rfl

theorem idleExpiry (b : BankId) : Statement (.idleExpiry b) := no_frame rfl

theorem retainExpiry (b : BankId) : Statement (.retainExpiry b) := no_frame rfl

theorem unknownCommand (c i : Byte) : Statement (.unknownCommand c i) := by
  intro h bytes hb more
  obtain rfl : [c, i] = bytes := Option.some.inj hb
  have hc : FrameCommand.ofCode c = none := by simpa [Instr.wellFormed] using h
  simp only [List.cons_append, decodeFrame, hc]

theorem readGlobal (i : Byte) : Statement (.readGlobal i) := table_frame .readGlobal i [] rfl rfl fun _ => rfl

theorem writeGlobal (i : Byte) (a : Vector Byte 7) : Statement (.writeGlobal i a) :=
  table_frame .writeGlobal i a.toList rfl a.length_toList fun more =>
    congrArg (Instr.writeGlobal i) (argVector_append a more)

theorem readStatus (i : Byte) : Statement (.readStatus i) := table_frame .readStatus i [] rfl rfl fun _ => rfl

theorem popEvent (i : Byte) : Statement (.popEvent i) := table_frame .popEvent i [] rfl rfl fun _ => rfl

theorem readBankConfig (i : Byte) : Statement (.readBankConfig i) :=
  table_frame .readBankConfig i [] rfl rfl fun _ => rfl

theorem writeBankConfig (i : Byte) (a : Vector Byte 22) : Statement (.writeBankConfig i a) :=
  table_frame .writeBankConfig i a.toList rfl a.length_toList fun more =>
    congrArg (Instr.writeBankConfig i) (argVector_append a more)

theorem readBankStatus (i : Byte) : Statement (.readBankStatus i) :=
  table_frame .readBankStatus i [] rfl rfl fun _ => rfl

theorem wakeBank (i : Byte) : Statement (.wakeBank i) := table_frame .wakeBank i [] rfl rfl fun _ => rfl

theorem sleepBank (i t : Byte) : Statement (.sleepBank i t) := table_frame .sleepBank i [t] rfl rfl fun _ => rfl

theorem flushBank (i : Byte) : Statement (.flushBank i) := table_frame .flushBank i [] rfl rfl fun _ => rfl

theorem clearFault (i : Byte) : Statement (.clearFault i) := table_frame .clearFault i [] rfl rfl fun _ => rfl

theorem markSegments (i f c v : Byte) : Statement (.markSegments i f c v) :=
  table_frame .markSegments i [f, c, v] rfl rfl fun _ => rfl

theorem clearCount (i : Byte) : Statement (.clearCount i) := table_frame .clearCount i [] rfl rfl fun _ => rfl

theorem readWindow (i : Byte) : Statement (.readWindow i) := table_frame .readWindow i [] rfl rfl fun _ => rfl

theorem writeWindow (i : Byte) (a : Vector Byte 15) : Statement (.writeWindow i a) :=
  table_frame .writeWindow i a.toList rfl a.length_toList fun more =>
    congrArg (Instr.writeWindow i) (argVector_append a more)

theorem readLink (i : Byte) : Statement (.readLink i) := table_frame .readLink i [] rfl rfl fun _ => rfl

theorem writeLink (i : Byte) (a : Vector Byte 5) : Statement (.writeLink i a) :=
  table_frame .writeLink i a.toList rfl a.length_toList fun more =>
    congrArg (Instr.writeLink i) (argVector_append a more)

theorem readParked (i : Byte) : Statement (.readParked i) := table_frame .readParked i [] rfl rfl fun _ => rfl

theorem frameDiscarded (received : List Byte) : Statement (.frameDiscarded received) := no_frame rfl

end Sys2Proof.Laws.FrameCodec
end

