-- ==== Sys2Proof/Laws/Quiet.lean ====
section
/-! SUPPORT. What the shared operations come to where nothing stands ready to act beside the command: no link enabled, no
request parked, no bank waiting for a grant. And the index bytes that name an object. -/

namespace Sys2Proof.Machine

/-! ### Index bytes -/

theorem byteOf_toNat {n : Nat} (h : n < 256) : (byteOf n).toNat = n := by
  simp [byteOf]; omega

theorem bankOf_byteOf (b : BankId) : bankOf (byteOf b.val) = some b := by
  have := byteOf_toNat (n := b.val) (by omega)
  simp [bankOf, this]

theorem windowOf_byteOf (i : WindowId) : windowOf (byteOf i.val) = some i := by
  have := byteOf_toNat (n := i.val) (by omega)
  simp [windowOf, this]

theorem linkOf_byteOf (l : LinkId) : linkOf (byteOf l.val) = some l := by
  have := byteOf_toNat (n := l.val) (by omega)
  simp [linkOf, this]

theorem bankOf_none {i : Byte} (h : 8 ≤ i.toNat) : bankOf i = none := by simp [bankOf, Nat.not_lt.2 h]

theorem windowOf_none {i : Byte} (h : 16 ≤ i.toNat) : windowOf i = none := by simp [windowOf, Nat.not_lt.2 h]

theorem linkOf_none {i : Byte} (h : 8 ≤ i.toNat) : linkOf i = none := by simp [linkOf, Nat.not_lt.2 h]

/-! ### Scans, grants and triggers that find nothing -/

theorem Work.scan_empty {w : Work} (h : w.st.parked = []) : w.scan = w := by
  unfold Work.scan; rw [h]; rfl

/-- A scan releases nothing where no entry is releasable as the queue stands. -/
theorem Work.walk_still : ∀ (ahead kept : List Entry) (w : Work),
    (∀ e ∈ ahead, (w.st.bank e.req.bank).power ≠ .on ∧ (w.st.bank e.req.bank).power ≠ .filling) → w.walk kept ahead = w
  | [], _, _, _ => rfl
  | e :: ahead, kept, w, h => by
    unfold Work.walk; rw [if_neg]
    · exact Work.walk_still ahead (kept ++ [e]) w fun x hx => h x (List.mem_cons_of_mem _ hx)
    · intro hr
      have := State.releasable_up hr
      rcases this with h' | h'
      · exact (h e List.mem_cons_self).1 h'
      · exact (h e List.mem_cons_self).2 h'

theorem Work.scan_still {w : Work}
    (h : ∀ e ∈ w.st.parked, (w.st.bank e.req.bank).power ≠ .on ∧ (w.st.bank e.req.bank).power ≠ .filling) : w.scan = w :=
  Work.walk_still _ _ w h

theorem State.grantHeads_empty {s : State} (h : s.waitList = []) (n : Nat) : s.grantHeads n = (s, []) := by
  cases n with
  | zero => rfl
  | succ n => unfold State.grantHeads; rw [h]

/-- A grant attempt ends at a head that does not fit (R79). -/
theorem State.grantHeads_waits {s : State} (n : Nat)
    (h : ∀ b, s.waitList.head? = some b → s.global.budget.toNat < s.unitsHeld + (s.bank b).wakeCost) :
    s.grantHeads n = (s, []) := by
  cases n with
  | zero => rfl
  | succ n =>
    unfold State.grantHeads
    split
    · rfl
    · rename_i b rest hl
      have := h b (by simp [hl])
      rw [if_neg (by omega)]

theorem Work.tryGrant_empty {w : Work} (h : w.st.waitList = []) : w.tryGrant = w := by
  unfold Work.tryGrant State.grants; rw [State.grantHeads_empty h]; rfl

theorem Work.tryGrant_waits {w : Work}
    (h : ∀ b, w.st.waitList.head? = some b → w.st.global.budget.toNat < w.st.unitsHeld + (w.st.bank b).wakeCost) :
    w.tryGrant = w := by
  unfold Work.tryGrant State.grants; rw [State.grantHeads_waits _ h]; rfl

/-- A grant attempt whose head fits grants it and goes on with the rest; the units of a ramp that completes with the grant are
released there (R79, R80). -/
theorem State.grants_fits {s : State} {b : BankId} {rest : List BankId} (hl : s.waitList = b :: rest)
    (fits : s.unitsHeld + (s.bank b).wakeCost ≤ s.global.budget.toNat) :
    s.grants =
      let granted := s.grantWake b rest
      if (granted.bank b).rampDone then
        (((granted.releaseUnits b).grantHeads rest.length).1, b :: ((granted.releaseUnits b).grantHeads rest.length).2)
      else granted.grantHeads rest.length := by
  unfold State.grants; rw [hl]
  simp only [List.length_cons]
  conv => lhs; unfold State.grantHeads
  simp only [hl, fits, if_true]

theorem State.matchingLink_unlinked {s : State} (h : s.Unlinked) (fired : List LinkId) (b : BankId) (t : Trigger) :
    s.matchingLink fired b t = none := by
  unfold State.matchingLink
  rw [List.find?_eq_none]
  intro l _ hl
  have h' := of_decide_eq_true hl
  rw [h l] at h'; cases h'.1

theorem State.nextFiring_unlinked {s : State} (h : s.Unlinked) (fired : List LinkId) :
    ∀ q : List (BankId × Trigger), s.nextFiring fired q = none
  | [] => rfl
  | o :: later => by
    unfold State.nextFiring; rw [State.matchingLink_unlinked h]; exact State.nextFiring_unlinked h fired later

theorem Work.fireUpTo_unlinked {w : Work} (h : w.st.Unlinked) (n : Nat) : (w.fireUpTo n).st = w.st := by
  cases n with
  | zero => rfl
  | succ n => unfold Work.fireUpTo; rw [State.nextFiring_unlinked h]

theorem Work.fireUpTo_nothing {w : Work} (h : w.offered = []) (n : Nat) : (w.fireUpTo n).st = w.st := by
  cases n with
  | zero => rfl
  | succ n => unfold Work.fireUpTo; rw [h]; rfl

theorem Work.settle_nothing {w : Work} (h : w.crossings = []) : w.settle = w := by
  cases w; cases h; rfl

/-- With no trigger offered and no crossing made, an event ends with its moves. -/
theorem Work.takeTriggers_nothing {w : Work} (ho : w.offered = []) (hc : w.crossings = []) : w.takeTriggers.st = w.st := by
  unfold Work.takeTriggers; rw [Work.settle_nothing hc]; exact Work.fireUpTo_nothing ho 8

/-- With no link enabled and no crossing made, an event ends with its moves. -/
theorem Work.takeTriggers_unlinked {w : Work} (h : w.st.Unlinked) (hc : w.crossings = []) : w.takeTriggers.st = w.st := by
  unfold Work.takeTriggers; rw [Work.settle_nothing hc]; exact Work.fireUpTo_unlinked h 8

/-- With no link enabled, one crossing ends in one COUNT_REACHED (R135). -/
theorem Work.takeTriggers_crossing {w : Work} (h : w.st.Unlinked) {b : BankId} {t : Tag} {st : Stream}
    (hc : w.crossings = [(b, t, st)]) :
    w.takeTriggers.st = w.st.post .countReached { bank := some b, tag := some t, stream := some st } := by
  unfold Work.takeTriggers Work.settle; rw [hc]
  refine Work.fireUpTo_unlinked ?_ 8
  intro l
  have := h l
  simpa [Work.settleFrom] using this

theorem State.Unlinked.of_links {s t : State} (h : s.Unlinked) (hl : t.links = s.links) : t.Unlinked := by
  intro l; rw [hl]; exact h l

/-! ### Forwards -/

@[simp] theorem Work.forward_offered (w : Work) (r : Routed) : (w.forward r).offered = w.offered := rfl

theorem Work.forward_crossings (w : Work) (r : Routed) : (w.forward r).crossings =
    if (w.st.bank r.bank).crosses then w.crossings ++ [(r.bank, r.tag, r.stream)] else w.crossings := rfl

/-! ### Bank records -/

theorem parkedCount_nil (b : BankId) : parkedCount [] b = 0 := rfl

theorem parkedCount_eq_zero {q : List Entry} {b : BankId} (h : ∀ e ∈ q, e.req.bank ≠ b) : parkedCount q b = 0 := by
  unfold parkedCount; rw [List.countP_eq_zero]; intro e he; simpa using h e he

theorem Bank.turnedOn_eq (k : Bank) : k.turnedOn 0 = k.readied := by
  simp [Bank.turnedOn, Bank.loadIdle, Bank.readied, Bank.idleTicks, Config.idleStep]

theorem Bank.lowered_eq (k : Bank) : k.lowered = k.rested := by
  unfold Bank.lowered Bank.rested
  cases h : k.drainTarget <;> simp [Bank.loseAll, BankConfig.retainPeriod, Config.retainStep]

theorem Bank.faulted_eq (k : Bank) : k.faulted = k.failed := rfl

theorem Bank.anyLost_iff {k : Bank} : k.anyLost = true ↔ ∃ g : Segment, k.marks[g] = .lost := by
  simp [Bank.anyLost]

theorem Bank.anyLost_false {k : Bank} (h : ∀ g : Segment, k.marks[g] = .valid) : k.anyLost = false := by
  rw [Bool.eq_false_iff]; intro h'
  obtain ⟨g, hg⟩ := Bank.anyLost_iff.1 h'
  rw [h g] at hg; cases hg

/-- An update by a function of the present record is an update by the record it gives. -/
theorem State.updBank_const (s : State) (b : BankId) (f : Bank → Bank) : s.updBank b f = s.updBank b fun _ => f (s.bank b) := rfl

/-- The three ways a posting can go (R174), each as one record update. -/
theorem State.post_off {s : State} {k : EventKind} (a : About) (h : s.global.mask.getLsbD k.code = false) :
    s.post k a = s := by
  unfold State.post State.enables; rw [if_neg (by simp [h])]

theorem State.post_stored {s : State} {k : EventKind} (a : About) (h : s.global.mask.getLsbD k.code = true)
    (room : s.events.length < 32) : s.post k a =
      { s with
        sequence := s.sequence + 1
        events := s.events ++ [{ sequence := s.sequence, kind := k, time := s.clock.micros, about := a }] } := by
  unfold State.post State.enables; rw [if_pos h]; exact if_pos room

theorem State.post_lost {s : State} {k : EventKind} (a : About) (h : s.global.mask.getLsbD k.code = true)
    (full : 32 ≤ s.events.length) : s.post k a =
      { s with sequence := s.sequence + 1, lost := if s.lost = 0xFFFF then s.lost else s.lost + 1 } := by
  unfold State.post State.enables; rw [if_pos h]; exact if_neg (Nat.not_lt.2 full)

/-- A posting and a change that neither reads nor writes what a posting does can be made in either order. -/
theorem State.post_comm {f : State → State} (k : EventKind) (a : About) (s : State)
    (mask : (f s).global.mask = s.global.mask) (events : (f s).events = s.events) (seq : (f s).sequence = s.sequence)
    (lost : (f s).lost = s.lost) (micros : (f s).clock.micros = s.clock.micros)
    (comm : ∀ (q : BitVec 16) (e : List Record) (l : BitVec 16), f { s with sequence := q, events := e, lost := l }
      = { f s with sequence := q, events := e, lost := l }) : (f s).post k a = f (s.post k a) := by
  cases hm : s.global.mask.getLsbD k.code with
  | false => rw [State.post_off a hm, State.post_off a (by rw [mask]; exact hm)]
  | true =>
    rcases Nat.lt_or_ge s.events.length 32 with h | h
    · rw [State.post_stored a hm h, State.post_stored a (by rw [mask]; exact hm) (by rw [events]; exact h)]
      have := comm (s.sequence + 1)
        (s.events ++ [{ sequence := s.sequence, kind := k, time := s.clock.micros, about := a }]) s.lost
      rw [events, seq, micros]
      rw [show ({ s with sequence := s.sequence + 1, events := s.events ++
        [{ sequence := s.sequence, kind := k, time := s.clock.micros, about := a }] } : State)
        = { s with sequence := s.sequence + 1, events := s.events ++
          [{ sequence := s.sequence, kind := k, time := s.clock.micros, about := a }], lost := s.lost } from rfl, this, ← lost]
    · rw [State.post_lost a hm h, State.post_lost a (by rw [mask]; exact hm) (by rw [events]; exact h)]
      have := comm (s.sequence + 1) s.events (if s.lost = 0xFFFF then s.lost else s.lost + 1)
      rw [seq, lost]
      rw [show ({ s with sequence := s.sequence + 1, lost := if s.lost = 0xFFFF then s.lost else s.lost + 1 } : State)
        = { s with sequence := s.sequence + 1, events := s.events,
                   lost := if s.lost = 0xFFFF then s.lost else s.lost + 1 } from rfl, this, ← events]

theorem State.post_updBank (s : State) (b : BankId) (f : Bank → Bank) (k : EventKind) (a : About) :
    (s.updBank b f).post k a = (s.post k a).updBank b f :=
  State.post_comm (f := fun s => s.updBank b f) k a s rfl rfl rfl rfl rfl fun _ _ _ => rfl

end Sys2Proof.Machine
end

