-- ==== Sys2Proof/Laws/Releases.lean ====
section
/-! SUPPORT. What a change of the parking queue does to the idle timers, what a release scan for one bank in ON forwards,
and what an event does whose one trigger a NOTE link watches (R44, R45, R59, R142, R147). -/

namespace Sys2Proof.Machine

theorem parkedCount_pos {q : List Entry} {b : BankId} : 0 < parkedCount q b ↔ ∃ e ∈ q, e.req.bank = b := by
  simp [parkedCount, List.countP_pos_iff]

/-- The record of a bank whose idle timer is held, released or left as the queue of its entries stands (R59). -/
theorem Bank.syncIdle_eq (k : Bank) (q : List Entry) (b : BankId) : k.syncIdle (parkedCount q b) =
    { k with
      idleTimer :=
        if k.power = .on then
          match k.idleTimer with
          | .counting n => if ∃ e ∈ q, e.req.bank = b then .held n else .counting n
          | .held n => if ∃ e ∈ q, e.req.bank = b then .held n else .counting (k.config.idleLimit.toNat * 1000)
          | .stopped => .stopped
        else k.idleTimer } := by
  have zero : parkedCount q b = 0 ↔ ¬ ∃ e ∈ q, e.req.bank = b := by rw [← parkedCount_pos]; omega
  cases k with | mk power _ _ _ _ _ _ _ idle _ _ _ _ _ _ =>
  unfold Bank.syncIdle
  simp only [parkedCount_pos, zero, Bank.idleTicks, Config.idleStep]
  split
  · cases idle <;> dsimp only <;> split <;> simp_all
  · rfl

theorem State.setParked_eq (s : State) (q : List Entry) : s.setParked q = s.withQueue q := by
  unfold State.setParked State.mapBanks State.withQueue
  congr 1
  exact congrArg Vector.ofFn (funext fun b => Bank.syncIdle_eq (s.bank b) q b)

/-! ### A release scan -/

/-- The slot of a released entry (R127). -/
def State.entrySlot (s : State) (e : Entry) : Slot :=
  { holder := .request e.req.tag e.req.stream, kind := e.req.kind, addr := e.req.addr, segment := e.req.segment,
    length := e.req.length, forwardTime := s.clock.micros,
    expiryTime := s.clock.micros + s.global.respLimit.setWidth 32 }

/-- The bank record once these entries have been forwarded to bank `b`, `left` being left in the queue. -/
def Bank.releasedAs (k : Bank) (b : BankId) (slot : Entry → Slot) (out left : List Entry) : Bank :=
  { k with
    idleTimer :=
      match k.idleTimer with
      | .held n => if ∃ e ∈ left, e.req.bank = b then .held n else .counting (k.config.idleLimit.toNat * 1000)
      | .counting n => .counting n
      | .stopped => .stopped
    port := { k.port with
      counter := BitVec.ofNat 32 (min (k.port.counter.toNat + out.length) 0xFFFFFFFF)
      slots := k.port.slots ++ out.map slot } }

/-- The state once these entries have been forwarded to bank `b`, the queue keeping `left`. -/
def State.releasedAs (s : State) (b : BankId) (out left : List Entry) : State :=
  { s.updBank b fun k => k.releasedAs b s.entrySlot out left with
    parked := left
    busOut := s.busOut ++ out.map fun e =>
      { bank := b, addr := e.req.addr, kind := e.req.kind, length := e.req.length, data := e.req.wdata.getD [] } }

theorem State.released_eq (s : State) (b : BankId) : s.released b =
    s.releasedAs b (releaseOrder b (4 - (s.bank b).port.slots.length) [] s.parked)
      (releaseRest b (4 - (s.bank b).port.slots.length) [] s.parked) := rfl

theorem Bank.releasedAs_append (k : Bank) (b : BankId) (slot : Entry → Slot) (e : Entry) (out : List Entry)
    {q left : List Entry} (h : ∀ x ∈ left, x ∈ q) :
    (k.releasedAs b slot [e] q).releasedAs b slot out left = k.releasedAs b slot (e :: out) left := by
  have stays : (∃ x ∈ left, x.req.bank = b) → ∃ x ∈ q, x.req.bank = b := fun ⟨x, hx, hb⟩ => ⟨x, h x hx, hb⟩
  have bound := k.port.counter.isLt
  have counter : BitVec.ofNat 32 (min ((BitVec.ofNat 32 (min (k.port.counter.toNat + 1) 0xFFFFFFFF)).toNat + out.length) 0xFFFFFFFF)
      = BitVec.ofNat 32 (min (k.port.counter.toNat + (out.length + 1)) 0xFFFFFFFF) := by
    congr 1
    rw [BitVec.toNat_ofNat]
    omega
  unfold Bank.releasedAs
  simp only [List.length_cons, List.length_nil, Nat.zero_add, counter, List.map_cons, List.map_nil, List.append_assoc,
    List.singleton_append]
  congr 1
  cases k.idleTimer with
  | held n =>
    dsimp only
    by_cases hq : ∃ x ∈ q, x.req.bank = b
    · rw [if_pos hq]
    · rw [if_neg hq, if_neg fun hl => hq (stays hl)]
  | counting n => rfl
  | stopped => rfl

theorem Bank.releasedAs_nothing (k : Bank) (b : BankId) (slot : Entry → Slot) {q : List Entry}
    (held : ∀ n, k.idleTimer = .held n → ∃ e ∈ q, e.req.bank = b) : k.releasedAs b slot [] q = k := by
  have bound := k.port.counter.isLt
  have counter : BitVec.ofNat 32 (min k.port.counter.toNat 0xFFFFFFFF) = k.port.counter := by
    rw [Nat.min_eq_left (by omega), BitVec.ofNat_toNat, BitVec.setWidth_eq]
  unfold Bank.releasedAs
  simp only [List.length_nil, Nat.add_zero, counter, List.map_nil, List.append_nil]
  cases k with | mk _ _ _ _ _ _ _ _ idle _ _ _ _ _ _ =>
  cases idle with
  | held n => dsimp only; rw [if_pos (held n rfl)]
  | counting n => rfl
  | stopped => rfl

/-- One forward to a bank in ON, whose idle timer does not count, after the entry has left the queue (R59, R127, R135). -/
theorem Bank.forwarded_syncIdle (k : Bank) (b : BankId) (slot : Entry → Slot) (e : Entry) (q : List Entry)
    (on : k.power = .on) (waits : ∀ n, k.idleTimer ≠ .counting n) (threshold : k.config.threshold = 0) :
    (k.syncIdle (parkedCount q b)).forwarded (slot e) = k.releasedAs b slot [e] q := by
  have counted : k.port.counted = BitVec.ofNat 32 (min (k.port.counter.toNat + 1) 0xFFFFFFFF) := by
    unfold Port.counted
    have bound := k.port.counter.isLt
    split
    · rename_i h; rw [h]; rfl
    · rename_i h
      have : k.port.counter.toNat ≠ 0xFFFFFFFF := fun h' => h (BitVec.eq_of_toNat_eq h')
      refine BitVec.eq_of_toNat_eq ?_
      rw [BitVec.toNat_add, BitVec.toNat_ofNat, show BitVec.toNat (1 : BitVec 32) = 1 from rfl]
      omega
  have crosses : k.crosses = false := by simp [Bank.crosses, threshold]
  cases h : k.idleTimer with
  | held n =>
    by_cases hq : ∃ x ∈ q, x.req.bank = b
    · have : k.syncIdle (parkedCount q b) = k := by
        simp [Bank.syncIdle, on, h, Nat.ne_of_gt (parkedCount_pos.2 hq)]
      simp [this, Bank.forwarded, Bank.withPort, Bank.reloadIdle, Bank.releasedAs, on, h, crosses, counted, hq]
    · have : k.syncIdle (parkedCount q b) = { k with idleTimer := .counting k.idleTicks } := by
        simp [Bank.syncIdle, on, h, Nat.eq_zero_of_not_pos fun hp => hq (parkedCount_pos.1 hp)]
      simp [this, Bank.forwarded, Bank.withPort, Bank.reloadIdle, Bank.releasedAs, on, h, counted, hq, Bank.idleTicks,
        Config.idleStep, Bank.crosses, threshold]
  | counting n => exact absurd h (waits n)
  | stopped =>
    have : k.syncIdle (parkedCount q b) = k := by simp [Bank.syncIdle, on, h]
    simp [this, Bank.forwarded, Bank.withPort, Bank.reloadIdle, Bank.releasedAs, on, h, crosses, counted]

/-- Where a scan stands that forwards to bank `b` in ON alone, having kept `kept`, with `ahead` still to be looked at: the idle
timer of the bank is held exactly while an entry is parked for it (R59). -/
structure State.Releasing (s : State) (b : BankId) (kept ahead : List Entry) : Prop where
  on : (s.bank b).power = .on
  queue : s.parked = kept ++ ahead
  only : s.OnlyReleases b
  held : ∀ n, (s.bank b).idleTimer = .held n → ∃ e ∈ s.parked, e.req.bank = b
  counting : ∀ n, (s.bank b).idleTimer = .counting n → ∀ e ∈ s.parked, e.req.bank ≠ b

/-- A change of the queue that brings no entry changes the idle timer of no bank but `b` (R59). -/
theorem State.setParked_only {s : State} {b : BankId} (h : s.OnlyReleases b) {q : List Entry} (hq : ∀ e ∈ q, e ∈ s.parked) :
    s.setParked q = { s.updBank b fun k => k.syncIdle (parkedCount q b) with parked := q } := by
  have other : ∀ c : BankId, c ≠ b → (s.bank c).syncIdle (parkedCount q c) = s.bank c := by
    intro c hc
    unfold Bank.syncIdle
    split
    · rename_i on
      split
      · split
        · rename_i some
          obtain ⟨e, he, rfl⟩ := parkedCount_pos.1 some
          rcases h.others e (hq e he) hc with h' | h' <;> rw [on] at h' <;> cases h'
        · rfl
      · rename_i n held; exact absurd held (h.timers c n hc)
      · rfl
    · rfl
  unfold State.setParked State.mapBanks State.updBank
  congr 1
  refine Vector.ext fun i hi => ?_
  rw [Vector.getElem_ofFn]
  by_cases hc : b.val = i
  · subst hc; rw [Vector.getElem_set_self]; rfl
  · rw [Vector.getElem_set_ne _ _ hc]
    exact other ⟨i, hi⟩ fun h => hc (congrArg Fin.val h).symm

/-- A release to bank `b`, whose threshold is 0, forwards the entry and makes no crossing (R45, R135). -/
theorem Work.release_one {w : Work} {b : BankId} {kept ahead : List Entry} {e : Entry}
    (h : w.st.Releasing b kept (e :: ahead)) (he : e.req.bank = b) :
    w.release (kept ++ ahead) e = w.on fun s => s.releasedAs b [e] (kept ++ ahead) := by
  subst he
  have hq : ∀ x ∈ kept ++ ahead, x ∈ w.st.parked := by rw [h.queue]; simp; tauto
  have quiet : ((w.st.setParked (kept ++ ahead)).bank e.req.bank).crosses = false := by
    simp [Bank.crosses, h.only.threshold]
  have record := Bank.forwarded_syncIdle (w.st.bank e.req.bank) e.req.bank w.st.entrySlot e (kept ++ ahead) h.on
    (fun n hn => h.counting n hn e (by rw [h.queue]; simp) rfl) h.only.threshold
  have st : (w.st.setParked (kept ++ ahead)).sendRequest e.req = w.st.releasedAs e.req.bank [e] (kept ++ ahead) := by
    rw [State.setParked_only h.only hq]
    refine State.ext ?_ rfl rfl rfl rfl rfl rfl rfl rfl rfl rfl rfl rfl rfl rfl rfl rfl rfl rfl rfl rfl rfl rfl
    unfold State.releasedAs State.updBank
    dsimp only
    rw [← record]
    simp [State.sendRequest, State.updBank, State.bank, State.requestSlot, State.entrySlot]
  unfold Work.release Work.forward
  simp only [Work.on_st, Work.on_crossings, quiet, st]
  rfl

@[simp] theorem State.releasedAs_bank (s : State) (b : BankId) (out left : List Entry) :
    (s.releasedAs b out left).bank b = (s.bank b).releasedAs b s.entrySlot out left := by
  show (s.updBank b fun k => k.releasedAs b s.entrySlot out left).bank b = _
  rw [State.bank_updBank_self]

theorem State.releasedAs_bank_ne (s : State) {b c : BankId} (h : c ≠ b) (out left : List Entry) :
    (s.releasedAs b out left).bank c = s.bank c := by
  show (s.updBank b fun k => k.releasedAs b s.entrySlot out left).bank c = _
  rw [State.bank_updBank_ne _ _ h]

theorem State.releasedAs_append (s : State) (b : BankId) (e : Entry) (out : List Entry) {q left : List Entry}
    (h : ∀ x ∈ left, x ∈ q) : (s.releasedAs b [e] q).releasedAs b out left = s.releasedAs b (e :: out) left := by
  refine State.ext ?_ rfl rfl rfl rfl rfl rfl rfl rfl rfl rfl rfl rfl rfl rfl rfl rfl rfl rfl rfl ?_ rfl rfl
  · unfold State.releasedAs State.updBank
    dsimp only
    rw [← Bank.releasedAs_append _ b s.entrySlot e out h]
    simp [State.bank]
    rfl
  · simp [State.releasedAs]

theorem State.releasedAs_nothing {s : State} {b : BankId} {kept : List Entry} (h : s.Releasing b kept []) :
    s.releasedAs b [] kept = s := by
  have hq : s.parked = kept := by rw [h.queue, List.append_nil]
  subst hq
  refine State.ext ?_ rfl rfl rfl rfl rfl rfl rfl rfl rfl rfl rfl rfl rfl rfl rfl rfl rfl rfl rfl ?_ rfl rfl
  · unfold State.releasedAs State.updBank
    dsimp only
    rw [Bank.releasedAs_nothing _ _ _ h.held]
    simp [State.bank]
  · simp [State.releasedAs]

/-- Whether the entry that a scan for bank `b` in ON looks at is released (R31, R44). -/
theorem State.Releasing.releasable_iff {s : State} {b : BankId} {kept ahead : List Entry} {e : Entry}
    (h : s.Releasing b kept (e :: ahead)) : s.releasable kept e = true ↔
      e.req.bank = b ∧ (∀ x ∈ kept, x.req.stream ≠ e.req.stream) ∧ (s.bank b).port.slots.length < 4 := by
  by_cases he : e.req.bank = b
  · subst he
    unfold State.releasable State.reason
    simp only [h.on]
    by_cases hk : ∃ x ∈ kept, x.req.stream = e.req.stream
    · have : kept.any (fun x => x.req.stream = e.req.stream) = true := by simpa using hk
      simp [this]
      tauto
    · have none : kept.any (fun x => x.req.stream = e.req.stream) = false := by simpa using hk
      have hk' : ∀ x ∈ kept, x.req.stream ≠ e.req.stream := by simpa using hk
      by_cases room : (s.bank e.req.bank).port.slots.length < 4
      · simpa [none, Port.hasRoom, Config.slotCapacity, room] using hk'
      · simp [none, Port.hasRoom, Config.slotCapacity, room]
  · have := h.only.others e (by rw [h.queue]; simp) he
    unfold State.releasable
    rcases this with h' | h' <;> simp [h', he]

theorem State.Releasing.keep {s : State} {b : BankId} {kept ahead : List Entry} {e : Entry}
    (h : s.Releasing b kept (e :: ahead)) : s.Releasing b (kept ++ [e]) ahead :=
  ⟨h.on, by rw [h.queue]; simp, h.only, h.held, h.counting⟩

theorem State.Releasing.release {s : State} {b : BankId} {kept ahead : List Entry} {e : Entry}
    (h : s.Releasing b kept (e :: ahead)) : (s.releasedAs b [e] (kept ++ ahead)).Releasing b kept ahead where
  on := by rw [State.releasedAs_bank]; exact h.on
  queue := rfl
  only :=
    { others := by
        intro x hx hb
        rw [State.releasedAs_bank_ne _ hb]
        exact h.only.others x (by
          have hx : x ∈ kept ++ ahead := hx
          rw [h.queue]; simp at hx ⊢; tauto) hb
      timers := by
        intro c n hc
        rw [State.releasedAs_bank_ne _ hc]
        exact h.only.timers c n hc
      threshold := by rw [State.releasedAs_bank]; exact h.only.threshold }
  held := by
    intro n hn
    rw [State.releasedAs_bank] at hn
    unfold Bank.releasedAs at hn
    dsimp only at hn
    split at hn
    · split at hn
      · assumption
      · cases hn
    · cases hn
    · cases hn
  counting := by
    intro n hn x hx
    rw [State.releasedAs_bank] at hn
    unfold Bank.releasedAs at hn
    dsimp only at hn
    split at hn
    · split at hn
      · cases hn
      · rename_i none; exact fun hb => none ⟨x, hx, hb⟩
    · rename_i m counts
      have hx : x ∈ kept ++ ahead := hx
      exact h.counting m counts x (by rw [h.queue]; simp at hx ⊢; tauto)
    · cases hn

theorem releaseRest_subset (b : BankId) : ∀ (free : Nat) (ks : List Stream) (q : List Entry),
    ∀ x ∈ releaseRest b free ks q, x ∈ q
  | _, _, [], _, h => h
  | free, ks, e :: q, x, h => by
    unfold releaseRest at h
    split at h
    · exact List.mem_cons_of_mem _ (releaseRest_subset b _ _ q x h)
    · rcases List.mem_cons.1 h with rfl | h
      · exact List.mem_cons_self
      · exact List.mem_cons_of_mem _ (releaseRest_subset b _ _ q x h)

/-- What the walk of a release scan for bank `b` in ON does: it forwards in queue order, keeps the rest, and offers nothing
(R44, R45). -/
theorem Work.walk_releases (b : BankId) : ∀ (ahead kept : List Entry) (ks : List Stream) (w : Work),
    w.st.Releasing b kept ahead → (∀ x, x ∈ ks ↔ ∃ e ∈ kept, e.req.stream = x) →
    w.walk kept ahead = w.on fun s => s.releasedAs b (releaseOrder b (4 - (w.st.bank b).port.slots.length) ks ahead)
      (kept ++ releaseRest b (4 - (w.st.bank b).port.slots.length) ks ahead)
  | [], kept, ks, w, h, _ => by
    have : w.st.releasedAs b [] (kept ++ []) = w.st := by rw [List.append_nil]; exact State.releasedAs_nothing h
    exact (congrArg (fun s => ({ w with st := s } : Work)) this).symm
  | e :: ahead, kept, ks, w, h, hk => by
    have iff : w.st.releasable kept e = true
        ↔ e.req.bank = b ∧ e.req.stream ∉ ks ∧ 0 < 4 - (w.st.bank b).port.slots.length := by
      rw [h.releasable_iff, hk]
      constructor
      · rintro ⟨h1, h2, h3⟩; exact ⟨h1, fun ⟨x, hx, hs⟩ => h2 x hx hs, by omega⟩
      · rintro ⟨h1, h2, h3⟩; exact ⟨h1, fun x hx hs => h2 ⟨x, hx, hs⟩, by omega⟩
    unfold Work.walk releaseOrder releaseRest
    by_cases hr : w.st.releasable kept e = true
    · have hr' := iff.1 hr
      rw [if_pos hr, if_pos hr', if_pos hr', Work.release_one h hr'.1,
        Work.walk_releases b ahead kept ks _ (State.Releasing.release h) hk]
      have room : 4 - ((w.st.releasedAs b [e] (kept ++ ahead)).bank b).port.slots.length
          = 4 - (w.st.bank b).port.slots.length - 1 := by
        rw [State.releasedAs_bank]; simp [Bank.releasedAs]; omega
      rw [Work.on_st, room]
      have := State.releasedAs_append w.st b e (releaseOrder b (4 - (w.st.bank b).port.slots.length - 1) ks ahead)
        (q := kept ++ ahead) (left := kept ++ releaseRest b (4 - (w.st.bank b).port.slots.length - 1) ks ahead) (by
          intro x hx
          rcases List.mem_append.1 hx with hx | hx
          · exact List.mem_append_left _ hx
          · exact List.mem_append_right _ (releaseRest_subset b _ _ _ x hx))
      exact congrArg (fun s => ({ w with st := s } : Work)) this
    · have hr' := fun h' => hr (iff.2 h')
      rw [if_neg hr, if_neg hr', if_neg hr', Work.walk_releases b ahead (kept ++ [e]) (e.req.stream :: ks) w h.keep]
      · simp [List.append_assoc]
      · intro x; simp [hk x, eq_comm, or_comm]

/-- A release scan that forwards to bank `b` in ON alone. -/
theorem Work.scan_releases {w : Work} {b : BankId} (h : w.st.Releasing b [] w.st.parked) :
    w.scan = w.on fun s => s.released b := by
  unfold Work.scan
  rw [Work.walk_releases b _ [] [] w h (by simp)]
  rfl

/-! ### One NOTE link -/

theorem State.NoteWatches.matchingLink {s : State} {b : BankId} {l : LinkId} {x : Trigger} (h : s.NoteWatches b l x) :
    s.matchingLink [] b x = some l := by
  unfold State.matchingLink
  cases hf : (List.finRange 8).find? _ with
  | none =>
    have := List.find?_eq_none.1 hf l (List.mem_finRange l)
    exact absurd (decide_eq_true ⟨h.enabled, h.source, h.trigger, List.not_mem_nil⟩) this
  | some m =>
    have met := List.find?_some hf
    have enabled := (of_decide_eq_true met).1
    by_cases hm : m = l
    · rw [hm]
    · rw [h.alone m hm] at enabled; cases enabled

/-- The one trigger that a NOTE link watches makes it fire, and the event ends there (R142, R143, R147). -/
theorem Work.fireUpTo_note {w : Work} {b : BankId} {l : LinkId} {x : Trigger} (h : w.st.NoteWatches b l x)
    (offered : w.offered = [(b, x)]) (crossings : w.crossings = []) (fired : w.fired = []) (n : Nat) :
    (w.fireUpTo (n + 2)).st = w.st.noted b l x := by
  have links : ({ w.st with links := w.st.links.set l w.st.links[l].firedOnce } : State) = w.st.linksFired [l] := by
    refine State.ext rfl rfl rfl rfl rfl rfl rfl (Vector.ext fun i hi => ?_) rfl rfl rfl rfl rfl rfl rfl rfl rfl rfl rfl rfl
      rfl rfl rfl
    unfold State.linksFired
    by_cases hc : l.val = i
    · subst hc; simp [Link.firedOnce, Link.fireCountRaised]; split <;> simp_all
    · have : (⟨i, hi⟩ : LinkId) ≠ l := fun h' => hc (congrArg Fin.val h').symm
      simp [hc, this]
  have fires : w.st.nextFiring w.fired w.offered = some (l, (b, x), [(b, x)]) := by
    rw [fired, offered, State.nextFiring, h.matchingLink]
  have one : w.fire l (b, x) [(b, x)] = { st := w.st.noted b l x, offered := [(b, x)], crossings := [], fired := [l] } := by
    unfold Work.fire Work.act
    have note : (w.st.linksFired [l]).links[l].config.action = .note := by
      have := h.note
      simpa [State.linksFired] using this
    simp only [Work.on, links, note, fired, crossings]
    rfl
  have quiet : (w.st.noted b l x).matchingLink [l] b x = none := by
    unfold State.matchingLink
    rw [List.find?_eq_none]
    intro m _ hm
    obtain ⟨enabled, -, -, hl⟩ := of_decide_eq_true hm
    have hl : m ≠ l := by simpa using hl
    have same : (w.st.noted b l x).links[m].config = w.st.links[m].config := by
      simp [State.noted, State.linksFired, hl]
    rw [same, h.alone m hl] at enabled
    cases enabled
  have ends : (w.st.noted b l x).nextFiring [l] [(b, x)] = none := by
    rw [State.nextFiring, quiet, State.nextFiring]
  rw [Work.fireUpTo, fires]
  dsimp only
  rw [one, Work.fireUpTo]
  dsimp only
  rw [ends]

theorem Work.takeTriggers_note {w : Work} {b : BankId} {l : LinkId} {x : Trigger} (h : w.st.NoteWatches b l x)
    (offered : w.offered = [(b, x)]) (crossings : w.crossings = []) (fired : w.fired = []) :
    w.takeTriggers.st = w.st.noted b l x := by
  unfold Work.takeTriggers
  rw [Work.settle_nothing crossings]
  exact Work.fireUpTo_note h offered crossings fired 6

/-- The same for COUNT: the crossing is posted, and its trigger makes the link fire (R135). -/
theorem Work.takeTriggers_note_count {w : Work} {b : BankId} {l : LinkId} {t : Tag} {st : Stream}
    (h : w.st.NoteWatches b l .count) (offered : w.offered = []) (crossings : w.crossings = [(b, t, st)])
    (fired : w.fired = []) : w.takeTriggers.st =
      (w.st.post .countReached { bank := some b, tag := some t, stream := some st }).noted b l .count := by
  have links : (w.st.post .countReached { bank := some b, tag := some t, stream := some st }).links = w.st.links := by simp
  have settled : w.settle =
      { st := w.st.post .countReached { bank := some b, tag := some t, stream := some st }, offered := [(b, .count)]
        crossings := [], fired := [] } := by
    unfold Work.settle
    rw [crossings]
    simp only [Work.settleFrom, Work.on, Work.offer, offered, fired]
    rfl
  unfold Work.takeTriggers
  rw [settled]
  refine Work.fireUpTo_note (x := .count) ?_ rfl rfl rfl 6
  obtain ⟨h1, h2, h3, h4, h5⟩ := h
  constructor <;> simpa only [links]

end Sys2Proof.Machine
end

