-- ==== Sys2Proof/Tests/Slice0.lean ====
section
/-! SUPPORT. The model's own tests: the checks of `Instr.wellFormed`, one step of each command on small states, and for
each obligation with hypotheses a state and operands that meet them. -/

namespace Sys2Proof.Tests

open Sys2Proof.Machine

set_option maxRecDepth 20000

/-! ### Small states -/

/-- A present bank of 1 MiB with two ramp stages. -/
def config : BankConfig := { BankConfig.reset with present := true, stages := 2, idleLimit := 3, retainLimit := 2 }

/-- A bank in a power state. -/
def bank (p : Power) : Bank := { Bank.reset with power := p, config := config }

/-- A 64 KiB window over addresses 1_0000h to 1_FFFFh, at offset 1_0000h of a bank. -/
def window (b : BankId) (a : Access := .readWrite) : Window where
  config := { enabled := true, base := 0x10000, size := 0x10000, offset := 0x10000, bank := b, access := a }
  held := 0

/-- A part with one bank in use, window 0 onto it, at microsecond 1000h. -/
def lit (b : BankId) (k : Bank) : State :=
  { State.reset.updBank b (fun _ => k) with
    windows := State.reset.windows.set 0 (window b)
    clock := { micros := 0x1000, cycles := 3, tickCycles := 25 } }

/-- A request of 8 bytes through window 0, for segment 2 of its bank. -/
def request (kind : Kind) : Request where
  tag := 3
  stream := 5
  kind := kind
  addr := 0x10040
  lenField := 7
  wdata := Vector.replicate 64 0x5A

/-- An entry parked for a bank. -/
def entry (tag : Tag) (st : Stream) (b : BankId) (left : Option Nat := some 5) : Entry where
  req := { tag := tag, stream := st, kind := .read, window := 0, bank := b, addr := 0x10000, segment := 2, length := 8
           wdata := none }
  acceptTime := 0xFF0
  deadline := left.map fun n => { time := 0x1005, left := n }

/-- A slot of 8 bytes in segment 2, forwarded 16 microseconds before 1000h, with the response limit of reset. -/
def slot (h : Holder) (kind : Kind := .read) : Slot where
  holder := h
  kind := kind
  addr := 0x10000
  segment := 2
  length := 8
  forwardTime := 0xFF0
  expiryTime := 0x10B8

/-- A bank with these slots busy. -/
def withSlots (k : Bank) (slots : List Slot) : Bank := { k with port := { k.port with slots := slots } }

/-- The state with these tags held through window 0. -/
def withTags (s : State) (held : List Tag) : State :=
  { s with tags := Vector.ofFn fun t => if t ∈ held then { state := .pending, length := 8, window := some 0 } else s.tags[t] }

/-- All segments VALID. -/
def valid : Vector Mark 32 := Vector.replicate 32 .valid

/-- A ramping bank at stage 1 of 2, with the charge of a wake from OFF and its dwell run out. -/
def ramping : Bank :=
  { bank .ramping with
    wakeKind := .fromOff, rampStage := 1, dwellTimer := some 0, wakeTimer := some 10, charge := 4, marks := valid }

/-- The state that a command leaves; the state itself if it stopped. -/
def after (c : Instr) (s : State) : State :=
  match exec c s with
  | .next t => t
  | .fault _ | .refused _ => s

/-! ### WellFormed: an ill-formed term for each check -/

theorem test_wellFormed_refuses_known_code : (Instr.unknownCommand 0x13 0).wellFormed = false := by decide

theorem test_wellFormed_takes_unknown_code : (Instr.unknownCommand 0x05 0).wellFormed = true := by decide

theorem test_wellFormed_refuses_complete_frame : (Instr.frameDiscarded [0x13, 0x02]).wellFormed = false := by decide

theorem test_wellFormed_takes_cut_frame : (Instr.frameDiscarded [0x14, 0x02]).wellFormed = true := by decide

/-! ### Frames written out from the command table -/

theorem test_frame_write_global :
    decodeFrame [0x02, 0x00, 8, 25, 0, 200, 0x3F, 0xFF, 1] = some (.writeGlobal 0 #v[8, 25, 0, 200, 0x3F, 0xFF, 1]) := by
  decide

theorem test_frame_bytes_after_the_taking : decodeFrame [0x13, 0x02, 0x14, 0x02] = some (.wakeBank 2) := by decide

/-! ### One step of each command -/

/-- Every input pin at rest. -/
def quietPins : PinLevels := { linkResetHigh := false, pgood := Vector.replicate 8 false, mcsLow := false }

theorem test_pinReset :
    let low := after (.pinReset .fall quietPins) (lit 2 (bank .on))
    let high := after (.pinReset .rise { linkResetHigh := true, pgood := Vector.replicate 8 true, mcsLow := false }) low
    low.resetLow = true ∧ low.linkClosed = true ∧ (low.bank 2).power = .off ∧ (after .tick low).clock.micros = 0
      ∧ (after .linkOpen low).linkClosed = true ∧ high.resetLow = false ∧ high.linkClosed = true
      ∧ (high.bank 2).pgood = true := by decide

/-- A frame whose low period of MCS_N began before RESET_N rose does nothing, and the next one is taken (R186). -/
theorem test_frame_held_over_reset :
    let low := after (.pinReset .fall quietPins) (lit 2 (bank .on))
    let held := after (.pinReset .rise { quietPins with mcsLow := true }) low
    (after (.readStatus 0) held).frame.reply = []
      ∧ (after (.readStatus 0) (after (.frameDiscarded [0x01]) held)).frame.reply = [0, 0, 0, 0, 0, 0, 0] := by decide

theorem test_linkReset :
    let t := after .linkReset (withTags (lit 2 (withSlots (bank .on) [slot (.request 4 1)])) [4])
    t.tags[(4 : Tag)].state = .free ∧ (t.bank 2).port.slots.map Slot.holder = [.orphan 4 1]
      ∧ t.events.map Record.kind = [.linkReset] := by decide +kernel

theorem test_linkOpen : (after .linkOpen { lit 2 (bank .on) with linkClosed := true }).linkClosed = false := by decide

theorem test_tick : (after .tick (lit 2 { ramping with dwellTimer := some 1 })).clock.micros = 0x1001
    ∧ ((after .tick (lit 2 { ramping with dwellTimer := some 1 })).bank 2).dwellTimer = some 0 := by decide

/-- The step on an empty queue that counts the last cycle of a tick ends it (R189). -/
theorem test_idle_ends_the_tick :
    let s := lit 2 { ramping with dwellTimer := some 1 }
    s.idle.clock = { micros := 0x1000, cycles := 4, tickCycles := 25 }
      ∧ { s with clock := { s.clock with cycles := 24 } }.idle = after .tick s := by decide

theorem test_acceptance_forwards :
    (after (.acceptance (.edge (request .write))) (lit 2 (bank .on))).busOut =
      [{ bank := 2, addr := 0x10040, kind := .write, length := 8, data := List.replicate 8 0x5A }] := by decide

theorem test_acceptance_parks_and_wakes :
    let t := after (.acceptance (.edge (request .read))) (lit 2 (bank .off))
    t.parked.map (fun e => e.deadline) = [some { time := 0x13E8, left := 1000 }] ∧ (t.bank 2).power = .ramping
      ∧ t.unitsHeld = 4 := by decide

theorem test_acceptance_shown_and_withdrawn :
    let s := after (.acceptance (.shows (request .read))) (lit 2 (bank .on))
    s.presented = some (request .read) ∧ s.rqAccept = true ∧ (s.bank 2).port.slots = []
      ∧ (after (.acceptance .low) s).presented = none ∧ (after (.acceptance .low) s).rqAccept = false := by decide

theorem test_responseTaken :
    let t := after .responseTaken
      { withTags (lit 2 (bank .on)) [3] with responses := [{ tag := 3, status := .okay, data := [] }] }
    t.responses = [] ∧ t.tags[(3 : Tag)].state = .free := by decide

theorem test_stageDwellExpiry :
    ((after (.stageDwellExpiry 2) { lit 2 ramping with unitsHeld := 4 }).bank 2).railStg = 2
    ∧ ((after (.stageDwellExpiry 2) { lit 2 { ramping with pgood := true } with unitsHeld := 4 }).bank 2).power = .on := by
  decide

theorem test_rampCompletion :
    let t := after (.rampCompletion 2) { lit 2 { ramping with rampStage := 2, dwellTimer := none } with unitsHeld := 4 }
    (t.bank 2).power = .on ∧ (t.bank 2).idleTimer = .counting 3000 ∧ t.unitsHeld = 0 := by decide

/-- The entries of bank 2 that a scan can release go out in queue order; one behind a kept entry of its stream stays (R44). -/
def queued : List Entry := [entry 9 1 2, entry 10 2 1, entry 11 2 2, entry 12 1 2, entry 13 3 2]

/-- Bank 1 waits for its grant, bank 2 stands as `k`, and the entries of `queued` are parked. -/
def waiting (k : Bank) : State :=
  { (lit 2 k).updBank 1 (fun _ => { bank .waiting with wakeKind := .fromOff }) with parked := queued }

/-- A ramp of bank 2 that completes at the rise of PGOOD. -/
def rampUp : Bank := { ramping with rampStage := 2, dwellTimer := none }

theorem test_rampCompletion_releases :
    let t := after (.rampCompletion 2) (waiting rampUp)
    (t.bank 2).port.slots.map Slot.holder = [.request 9 1, .request 12 1, .request 13 3]
      ∧ t.parked = [entry 10 2 1, entry 11 2 2] ∧ (t.bank 2).idleTimer = .held 3000 ∧ (t.bank 2).port.counter = 3 := by
  decide +kernel

/-- A bank whose ramp completes in the grant that a release of units allows stands in the fill queue behind the bank that
released them, whose completion was taken first (R96, R108; log 6). -/
theorem test_rampCompletion_grants_first :
    let zero := fun k : Bank => { k with pgood := true, config := { k.config with fillPolicy := .zero, stages := 1 } }
    let s := { (lit 2 (zero { bank .ramping with rampStage := 1, wakeTimer := some 7, charge := 4 })).updBank 3 (fun _ =>
        zero { bank .waiting with wakeKind := .fromOff }) with
      waitList := [3], fillQueue := [1], unitsHeld := 8 }
    (after (.rampCompletion 2) s).fillQueue = [1, 2, 3] ∧ (after (.rampCompletion 2) s).unitsHeld = 4 := by decide +kernel

theorem test_grant :
    let t := after .grant
      { lit 2 { bank .waiting with wakeKind := .fromRetain } with waitList := [2], unitsHeld := 7 }
    (t.bank 2).power = .ramping ∧ (t.bank 2).charge = 1 ∧ t.unitsHeld = 8 ∧ t.waitList = [] := by decide

theorem test_wakeLimitExpiry_retries :
    let t := after (.wakeLimitExpiry 2) { lit 2 { ramping with wakeTimer := some 0 } with unitsHeld := 4 }
    (t.bank 2).attempts = 1 ∧ t.events.map Record.kind = [.wakeRetry] := by decide

theorem test_wakeLimitExpiry_faults :
    let t := after (.wakeLimitExpiry 2) { lit 2 { ramping with wakeTimer := some 0, attempts := 1 } with unitsHeld := 4 }
    (t.bank 2).power = .fault ∧ t.unitsHeld = 0 ∧ t.events.map Record.kind = [.wakeFault] := by decide

theorem test_railDrop :
    let t := after (.railDrop 2) (withTags (lit 2 (withSlots (bank .on) [slot (.request 4 1)])) [4])
    (t.bank 2).power = .fault ∧ t.responses = [{ tag := 4, status := .faulted, data := [] }]
      ∧ t.events.map (fun r => r.about.detail) = [some (.count 1)] := by decide

theorem test_responseTimeout :
    let t := after (.responseTimeout 2)
      { withTags (lit 2 (withSlots (bank .on) [slot (.request 4 1), slot (.request 6 1)])) [4, 6] with
        clock := { micros := 0x10B8, cycles := 0, tickCycles := 25 } }
    (t.bank 2).power = .fault ∧ t.responses.map Response.status = [.bankerr, .faulted] := by decide

theorem test_completion :
    (after (.completion 2 .ok (Vector.replicate 64 0xAB)) (withTags (lit 2 (withSlots (bank .on) [slot (.request 4 1)])) [4])).responses
      = [{ tag := 4, status := .stale, data := List.replicate 8 0xAB }] := by decide

/-- An OK of a segment that MARK SEGMENTS has cut off is counted (R101). -/
theorem test_completion_of_a_cut_off_write :
    let s := { lit 2 (withSlots (bank .filling) [slot .fill .write, slot .fill .write]) with
      fillQueue := [2]
      fill := { current := some 2, nextWrite := none, completed := 5, inFlight := 2, cutOff := true } }
    (after (.completion 2 .ok (Vector.replicate 64 0)) s).fill =
      { current := some 2, nextWrite := none, completed := 6, inFlight := 1, cutOff := true } := by decide

theorem test_fillWriteIssue :
    let t := after .fillWriteIssue
      { lit 2 (bank .filling) with
        fillQueue := [2]
        fill := { current := some 3, nextWrite := some 0x1FFC0, completed := 510, inFlight := 0, cutOff := false } }
    t.busOut.map BusCommand.addr = [0x1FFC0] ∧ t.fill.nextWrite = none ∧ t.fill.inFlight = 1 := by decide

theorem test_drainCompletion :
    let t := after (.drainCompletion 2) (lit 2 { bank .draining with drainKind := .hard, drainTarget := .retain })
    (t.bank 2).power = .retain ∧ (t.bank 2).retainTimer = some 200000 := by decide

theorem test_parkExpiry :
    let t := after (.parkExpiry 4)
      { withTags (lit 2 (bank .ramping)) [4, 6] with parked := [entry 4 3 2 (some 0), entry 6 3 2] }
    t.parked = [] ∧ t.responses.map Response.status = [.expired, .expired] := by decide

theorem test_idleExpiry :
    ((after (.idleExpiry 2) (lit 2 { bank .on with idleTimer := .counting 0 })).bank 2).power = .retain := by decide

theorem test_retainExpiry :
    ((after (.retainExpiry 2) (lit 2 { bank .retain with retainTimer := some 0 })).bank 2).power = .off := by decide

theorem test_unknownCommand : (after (.unknownCommand 0x05 0) State.reset).frame.reply = [0x05] := by decide

theorem test_readGlobal :
    (after (.readGlobal 0) State.reset).frame.reply = [0, 8, 25, 0, 200, 0x3F, 0xFF, 0] := by decide

theorem test_writeGlobal : (after (.writeGlobal 0 #v[15, 100, 3, 0xFF, 0, 0, 1]) State.reset).global =
    { budget := 15, refclk := 100, respLimit := 1023, mask := 0, alert := true } := by decide

theorem test_readStatus :
    (after (.readStatus 0) { lit 2 (bank .on) with lost := 0x0102 }).frame.reply = [0, 0, 0, 0, 0, 1, 2] := by decide

theorem test_popEvent : (after (.popEvent 0) ((lit 2 (bank .on)).post .linkReset {})).frame.reply =
    [0, 1, 0, 0, 13, 0, 0, 0x10, 0, 0, 0, 0, 0, 0, 0, 0, 0] := by decide

theorem test_readBankConfig : (after (.readBankConfig 0) State.reset).frame.reply =
    [0, 0, 0, 1, 0, 50, 1, 0xF4, 1, 4, 1, 0, 0, 0, 0, 0, 0, 100, 0, 0, 0, 0, 0] := by decide

theorem test_writeBankConfig :
    ((after (.writeBankConfig 2 #v[1, 0, 2, 0, 50, 1, 0xF4, 1, 4, 1, 0, 3, 0, 0, 2, 0, 100, 0, 0, 0, 0, 0]) State.reset).bank
      2).config = config := by decide

theorem test_readBankStatus : (after (.readBankStatus 2) (lit 2 { ramping with attempts := 1 })).frame.reply =
    [0, 3, 0, 0, 1, 0, 0, 0xFF, 0xFF, 0xFF, 0xFF, 0, 0, 0, 0, 4] := by decide

theorem test_wakeBank : ((after (.wakeBank 2) (lit 2 (bank .off))).bank 2).power = .ramping
    ∧ (after (.wakeBank 2) (lit 2 (bank .fault))).frame.reply = [3] := by decide

theorem test_sleepBank : ((after (.sleepBank 2 1) (lit 2 (bank .on))).bank 2).power = .off
    ∧ ((after (.sleepBank 2 1) (lit 2 (withSlots (bank .on) [slot .fill]))).bank 2).drainTarget = .off := by decide

theorem test_flushBank :
    (after (.flushBank 2)
      { withTags (lit 2 (bank .ramping)) [4, 6] with parked := [entry 4 3 2, entry 6 3 2] }).frame.reply = [0, 2] := by
  decide

theorem test_clearFault : ((after (.clearFault 2) (lit 2 (bank .fault))).bank 2).power = .off := by decide

theorem test_markSegments : segmentMap ((after (.markSegments 2 7 2 1) (lit 2 (bank .on))).bank 2).marks = [1, 0x80, 0, 0]
    ∧ (after (.markSegments 2 31 2 1) (lit 2 (bank .on))).frame.reply = [2] := by decide

/-- Taken in the step after the error of a fill write, a MARK SEGMENTS of every LOST segment leaves that of the write LOST
(R108); once another step has passed, it does not (R93; log 30). -/
theorem test_markSegments_after_a_fill_error :
    let failed := after (.completion 2 .error (Vector.replicate 64 0))
      { lit 2 (withSlots (bank .filling) [slot .fill .write]) with
        fillQueue := [2]
        fill := { current := some 2, nextWrite := none, completed := 5, inFlight := 1, cutOff := false } }
    segmentMap ((after (.markSegments 2 0 32 1) failed).bank 2).marks = [0xDF, 0xFF, 0xFF, 0xFF]
      ∧ segmentMap ((after (.markSegments 2 0 32 1) failed.idle).bank 2).marks = [0xFF, 0xFF, 0xFF, 0xFF] := by decide +kernel

theorem test_clearCount :
    ((after (.clearCount 2) (lit 2 { bank .on with port := { Port.reset with counter := 9, reached := true } })).bank 2).port
      = Port.reset := by decide

theorem test_readWindow : (after (.readWindow 0) (lit 2 (bank .on))).frame.reply =
    [0, 1, 0, 1, 0, 0, 0, 1, 0, 0, 0, 1, 0, 0, 2, 0, 0] := by decide

theorem test_writeWindow :
    (after (.writeWindow 1 #v[1, 0, 2, 0, 0, 0, 1, 0, 0, 0, 0, 0, 0, 2, 1]) (lit 2 (bank .on))).frame.reply = [0]
    ∧ (after (.writeWindow 1 #v[1, 0, 1, 0, 0, 0, 1, 0, 0, 0, 0, 0, 0, 2, 1]) (lit 2 (bank .on))).frame.reply = [4] := by
  decide

theorem test_readLink : (after (.readLink 0) State.reset).frame.reply = [0, 0, 0, 0, 0, 0, 0, 0] := by decide

theorem test_writeLink :
    (after (.writeLink 7 #v[1, 2, 5, 2, 4]) (lit 2 (bank .on))).links[(7 : LinkId)].config =
      { enabled := true, source := 2, trigger := .count, target := 2, action := .note }
    ∧ (after (.writeLink 7 #v[1, 2, 5, 3, 4]) (lit 2 (bank .on))).frame.reply = [3] := by decide

theorem test_readParked :
    (after (.readParked 0) { lit 2 (bank .ramping) with parked := [entry 4 3 2] }).frame.reply =
      [0, 1, 4, 3, 0, 0, 2, 0, 1, 0, 0, 2, 8, 0, 0, 0x0F, 0xF0, 1, 0, 0, 0x10, 0x05, 1] := by decide

theorem test_frameDiscarded : (after (.frameDiscarded [0x14, 2]) (lit 2 (bank .on))).frame = Frame.empty := by decide

/-- MDO carries the reply until MCS_N rises, and is not driven after it (R182). -/
theorem test_mdo :
    let taken := after (.readGlobal 0) State.reset
    taken.mdo 3 = some 8 ∧ (after (.frameDiscarded []) taken).mdo 3 = none := by decide

/-- No row gives bits: a fetch word changes nothing (log 24). -/
theorem test_withFetchWord : (lit 2 (bank .on)).withFetchWord 8 1 = lit 2 (bank .on) := rfl

/-- A link that the step of another bank fires: the action is whole in the same step (R143). -/
theorem test_link_fires :
    let s := { (lit 2 { bank .on with idleTimer := .counting 0 }).updBank 3 (fun _ => bank .on) with
      links := State.reset.links.set 0
        { config := { enabled := true, source := 2, trigger := .asleep, target := 3, action := .sleepOff }, fireCount := 0 } }
    ((after (.idleExpiry 2) s).bank 3).power = .off ∧ (after (.idleExpiry 2) s).links[(0 : LinkId)].fireCount = 1 := by decide

/-! ### Witnesses: states and operands that meet the hypotheses of the obligations -/

/-- A part whose parking queue is full of entries for bank 1, of the streams 2 to 5. -/
def crowded (k : Bank) : State :=
  { lit 0 k with parked := (List.range 24).map fun n => entry (Fin.ofNat 32 (n + 4)) (Fin.ofNat 16 (n % 4 + 2)) 1 }

/-- A part with RESET_N low. -/
def pinLow : State := after (.pinReset .fall quietPins) (lit 2 (bank .on))

/-- Four busy slots. -/
def four : List Slot := [slot (.request 0 0), slot (.request 1 0), slot .fill, slot (.orphan 2 0)]

/-- A fill of segment 3. -/
def filling : FillProgress := { current := some 3, nextWrite := some 0x18080, completed := 1, inFlight := 1, cutOff := false }

theorem unlinked (b : BankId) (k : Bank) : (lit b k).Unlinked := by
  unfold State.Unlinked
  show ∀ l : LinkId, State.reset.links[l].config.enabled = false
  decide

theorem quiet (b : BankId) (k : Bank) : (lit b k).Quiet := ⟨unlinked b k, rfl, rfl⟩

theorem takes (kind : Kind) (b : BankId) (k : Bank) : (lit b k).Takes (request kind) :=
  ⟨rfl, show State.reset.tags[(3 : Tag)].state = .free by decide, by cases kind <;> decide⟩

theorem decodedThrough (kind : Kind) (b : BankId) (k : Bank) : (lit b k).DecodedThrough (request kind) 0 where
  enabled := rfl
  first := ⟨show 0x10000 ≤ 0x10040 by decide, show 0x10040 < 0x10000 + 0x10000 by decide⟩
  last := ⟨show 0x10000 ≤ 0x10047 by decide, show 0x10047 < 0x10000 + 0x10000 by decide⟩
  only := by
    intro j h _
    have h' : ((State.reset.windows.set 0 (window b))[j]).config.enabled = true := h
    have all : ∀ b : BankId, ∀ j : WindowId, ((State.reset.windows.set 0 (window b))[j]).config.enabled = true → j = 0 := by
      decide +kernel
    exact all b j h'

theorem witness_StepOnEmptyQueueCountsACycle :
    let s := lit 2 (bank .on)
    (s.pending = [] ∧ s.resetLow = false ∧ s.clock.cycles + 1 < s.clock.tickCycles ∧ s.clock.cycles < s.clock.tickCycles)
    ∧ (pinLow.pending = [] ∧ pinLow.resetLow = true)
    ∧ { s.clock with cycles := 24 }.tickCycles ≤ { s.clock with cycles := 24 }.cycles + 1 := by decide

theorem witness_LinkReset : (lit 2 (bank .on)).linkClosed = false := rfl

theorem witness_PinReset_Tick : (lit 2 (bank .on)).resetLow = false ∧ pinLow.resetLow = true ∧ pinLow.frameHeld = true := by
  decide

theorem witness_LinkOpen : { lit 2 (bank .on) with linkClosed := true }.linkClosed = true := rfl

theorem witness_PostingMakesARecord :
    (0x3FFE : BitVec 16).getLsbD EventKind.wakeRetry.code = false
    ∧ (State.reset.global.mask.getLsbD EventKind.linkReset.code = true
        ∧ (List.replicate 31 (0 : Nat)).length < 32)
    ∧ State.reset.global.mask.getLsbD EventKind.wakeRetry.code = true ∧ 32 ≤ (List.replicate 32 (0 : Nat)).length := by
  decide

theorem witness_OutputsFollowTheState :
    (bank .retain).power = .retain ∧ (bank .ramping).power = .ramping ∧ (bank .on).power = .on
    ∧ State.reset.linkClosed = false ∧ { State.reset with linkClosed := true }.linkClosed = true := by decide

theorem witness_OutputsFollowTheState_bytes :
    let full : Response := { tag := 3, status := .okay, data := List.replicate 64 7 }
    let s : State := { lit 2 (bank .on) with frame := { mcsLow := true, received := [0x13, 2], reply := [0, 7] } }
    63 < full.data.length ∧ full.lanes[(63 : Fin 64)] = 7 ∧ ({ full with data := [7] } : Response).data.length ≤ 1
    ∧ s.resetLow = false ∧ s.frame.mcsLow = true ∧ s.frameHeld = false ∧ 1 < s.frame.received.length
    ∧ 1 < s.frame.reply.length ∧ s.mdo 3 = some 7 ∧ s.frame.received.length + s.frame.reply.length ≤ 4
    ∧ State.reset.frame.mcsLow = false ∧ pinLow.resetLow = true := by decide +kernel

theorem witness_OutputsFollowTheState_presented :
    let shows := fun (s : State) (r : Request) => { s with presented := some r }
    (∀ s r, (shows s r).presented = some r ∧ (shows s r).linkClosed = s.linkClosed)
    ∧ (lit 2 (bank .on)).linkClosed = false ∧ State.reset.presented = none
    ∧ (withTags (lit 2 (bank .on)) [3]).tags[(request .read).tag].state ≠ .free
    ∧ 64 < ({ request .read with addr := 0x1007F, lenField := 1 } : Request).addr.toNat % 64
        + ({ request .read with addr := 0x1007F, lenField := 1 } : Request).length
    ∧ (∀ i : WindowId, State.reset.windows[i].config.enabled = true → False)
    ∧ (window 2 .readOnly).config.access = .readOnly ∧ (window 2).config.access = .readWrite :=
  ⟨fun _ _ => ⟨rfl, rfl⟩, rfl, rfl, by decide, by decide, by decide, rfl, rfl⟩

theorem witness_DiscardedFrameDoesNothing :
    decodeFrame [0x14, 2] = none ∧ (lit 2 (bank .on)).frameHeld = false
    ∧ ({ pinLow with resetLow := false }.frameHeld = true ∧ { pinLow with resetLow := false }.resetLow = false)
    ∧ (pinLow.frameHeld = true ∧ pinLow.resetLow = true) ∧ frameBytes (.wakeBank 2) = some [0x13, 2] := by decide

theorem witness_FrameDecodesToItsCommand :
    ((Instr.markSegments 5 0 32 1).wellFormed = true ∧ frameBytes (.markSegments 5 0 32 1) = some [0x17, 5, 0, 32, 1])
    ∧ (Instr.unknownCommand 0x31 0).wellFormed = true ∧ frameBytes (.unknownCommand 0x31 0) = some [0x31, 0] := by decide

theorem witness_UnknownIsAnsweredUnknown :
    State.reset.frameHeld = false ∧ FrameCommand.ofCode 0x05 = none
    ∧ (1 : Byte) ≠ 0 ∧ 8 ≤ (8 : Byte).toNat ∧ 16 ≤ (16 : Byte).toNat ∧ 24 ≤ (24 : Byte).toNat := by decide

theorem witness_PopEvent : State.reset.events = [] ∧ State.reset.frameHeld = false ∧ decodeFrame [0x04] = none
    ∧ ((lit 2 (bank .on)).post .linkReset {}).events = [{ sequence := 0, kind := .linkReset, time := 0x1000, about := {} }] :=
  ⟨rfl, rfl, by decide, by decide⟩

theorem witness_ReadWindow_ReadLink : 16 ≤ (16 : Byte).toNat ∧ 8 ≤ (8 : Byte).toNat := by decide

theorem witness_ReadParked : (23 : Byte).toNat < 24 ∧ State.reset.parked.length ≤ (23 : Byte).toNat
    ∧ (crowded (bank .off)).parked[(23 : Byte).toNat]? = some (entry 27 5 1)
    ∧ (∃ x ∈ (crowded (bank .off)).parked.take 23, x.req.stream = 5)
    ∧ (crowded (bank .off)).parked[0]? = some (entry 4 2 1) ∧ (bank .waiting).power = .waiting
    ∧ (bank .filling).marks[(entry 4 2 1).req.segment] = .lost ∧ 4 ≤ (withSlots (bank .on) four).port.slots.length := by
  decide

theorem witness_WriteGlobal :
    State.reset.globalOutOfRange #v[8, 3, 0, 200, 0, 0, 0]
    ∧ (¬ (lit 2 (bank .on)).globalOutOfRange #v[4, 100, 3, 0xFF, 0x3F, 0xFF, 1]
        ∧ (#v[4, 100, 3, 0xFF, 0x3F, 0xFF, 1] : Vector Byte 7)[0].toNat < { lit 2 (bank .on) with unitsHeld := 5 }.unitsHeld)
    ∧ (lit 2 (bank .on)).unitsHeld ≤ (#v[4, 100, 3, 0xFF, 0x3F, 0xFF, 1] : Vector Byte 7)[0].toNat
    ∧ ∀ b, (lit 2 (bank .on)).waitList.head? = some b → 4 < 0 + ((lit 2 (bank .on)).bank b).wakeCost := by
  unfold State.globalOutOfRange
  refine ⟨Or.inl (by decide), ⟨by decide +kernel, by decide⟩, by decide, ?_⟩
  intro b h
  cases h

/-- The arguments that configure a bank as `config`. -/
def configArgs : Vector Byte 22 := #v[1, 0, 2, 0, 50, 1, 0xF4, 1, 4, 1, 0, 3, 0, 0, 2, 0, 100, 0, 0, 0, 0, 0]

/-- The same with a wake limit equal to stages times dwell. -/
def shortArgs : Vector Byte 22 := #v[1, 0, 2, 0, 50, 0, 100, 1, 4, 1, 0, 3, 0, 0, 2, 0, 100, 0, 0, 0, 0, 0]

/-- The same for an absent bank. -/
def absentArgs : Vector Byte 22 := #v[0, 0, 2, 0, 50, 1, 0xF4, 1, 4, 1, 0, 3, 0, 0, 2, 0, 100, 0, 0, 0, 0, 0]

theorem witness_WriteBankConfig :
    ¬ (((lit 2 (bank .on)).bank 2).power = .off ∨ ((lit 2 (bank .on)).bank 2).power = .retain
        ∨ ((lit 2 (bank .on)).bank 2).power = .fault)
    ∧ (lit 2 (bank .off)).configOutOfRange shortArgs ∧ ¬ (lit 2 (bank .off)).configOutOfRange configArgs
    ∧ ¬ (lit 2 (bank .retain)).configOutOfRange absentArgs
    ∧ (lit 2 (bank .off)).configMisnames 2 (configFields absentArgs)
    ∧ ¬ (lit 2 (bank .off)).configMisnames 2 (configFields configArgs)
    ∧ ¬ (lit 2 (bank .retain)).configMisnames 2 (configFields configArgs)
    ∧ ¬ ((lit 3 (bank .on)).updBank 2 fun _ => bank .retain).configMisnames 2 (configFields absentArgs)
    ∧ (configFields absentArgs).present = false ∧ (configFields configArgs).present = true := by
  unfold State.configOutOfRange State.configMisnames State.windowOn State.linkOn
  refine ⟨?_, ?_, ?_, ?_, ?_, ?_, ?_, ?_, ?_, ?_⟩ <;> decide +kernel

theorem witness_windows_sound : (lit 2 (bank .on)).WindowsSound where
  sound := by unfold State.WindowSound; decide +kernel
  apart := by decide +kernel

/-- The fields of a window of 64 KiB at base 2_0000h of bank 2, READ_ONLY. -/
def windowArgs : Vector Byte 15 := #v[1, 0, 2, 0, 0, 0, 1, 0, 0, 0, 0, 0, 0, 2, 1]

/-- The same at a base that is no multiple of the size. -/
def oddArgs : Vector Byte 15 := #v[1, 0, 2, 0x80, 0, 0, 1, 0, 0, 0, 0, 0, 0, 2, 1]

/-- The same of absent bank 3. -/
def absentWindowArgs : Vector Byte 15 := #v[1, 0, 2, 0, 0, 0, 1, 0, 0, 0, 0, 0, 0, 3, 1]

/-- The same at the offset just past the end of the bank. -/
def pastArgs : Vector Byte 15 := #v[1, 0, 2, 0, 0, 0, 1, 0, 0, 0, 0x10, 0, 0, 2, 1]

/-- The same at the base of window 0. -/
def sharedArgs : Vector Byte 15 := #v[1, 0, 1, 0, 0, 0, 1, 0, 0, 0, 0, 0, 0, 2, 1]

theorem witness_WriteWindow_fields :
    (lit 2 (bank .on)).windows[(1 : WindowId)].held = 0
    ∧ 0 < { lit 2 (bank .on) with windows := State.reset.windows.set 1 { window 2 with held := 1 } }.windows[(1 : WindowId)].held
    ∧ ¬ (#v[1, 0, 1, 0, 0, 0, 1, 0, 0, 0, 0, 0, 0, 8, 1] : Vector Byte 15)[13].toNat ≤ 7
    ∧ (windowFields (Vector.replicate 15 0)).enabled = false ∧ (windowFields windowArgs).enabled = true
    ∧ (windowFields oddArgs).misaligned ∧ ¬ (windowFields windowArgs).misaligned
    ∧ ((lit 2 (bank .on)).bank (windowFields absentWindowArgs).bank).config.present = false
    ∧ ((lit 2 (bank .on)).bank (windowFields windowArgs).bank).config.present = true
    ∧ ¬ (windowFields pastArgs).offset.toNat + (windowFields pastArgs).size.toNat ≤ 2 ^ (config.capacity.val + 20)
    ∧ (windowFields windowArgs).offset.toNat + (windowFields windowArgs).size.toNat ≤ 2 ^ (config.capacity.val + 20) := by
  unfold WindowConfig.misaligned
  decide +kernel

theorem windows_end : ∀ j : WindowId, (lit 2 (bank .on)).windows[j].config.enabled = true →
    (lit 2 (bank .on)).windows[j].config.base.toNat + (lit 2 (bank .on)).windows[j].config.size.toNat
      ≤ (windowFields windowArgs).base.toNat := by decide +kernel

theorem witness_WriteWindow_overlap :
    (∃ j : WindowId, j ≠ 1 ∧ (lit 2 (bank .on)).windows[j].config.enabled = true
      ∧ (lit 2 (bank .on)).windows[j].config.sharesAddress (windowFields sharedArgs))
    ∧ ¬ ∃ j : WindowId, j ≠ 1 ∧ (lit 2 (bank .on)).windows[j].config.enabled = true
      ∧ (lit 2 (bank .on)).windows[j].config.sharesAddress (windowFields windowArgs) := by
  refine ⟨⟨0, by decide, by decide, 0x10000, ⟨by decide, by decide⟩, by decide, by decide⟩, ?_⟩
  rintro ⟨j, _, enabled, x, ⟨_, below⟩, above, _⟩
  have := windows_end j enabled
  omega

theorem witness_WriteLink :
    ¬ (#v[1, 7, 6, 7, 4] : Vector Byte 5)[2].toNat ≤ 5
    ∧ ((#v[1, 2, 5, 7, 4] : Vector Byte 5)[3].toNat ≤ 7 ∧ ((lit 2 (bank .on)).bank 7).config.present = false)
    ∧ ((lit 2 (bank .on)).bank (Fin.ofNat 8 (#v[1, 2, 5, 2, 4] : Vector Byte 5)[1].toNat)).config.present = true := by
  decide

theorem witness_ClearFaultAndClearCount :
    ((lit 2 (bank .fault)).bank 2).config.present = true ∧ ((lit 2 (bank .fault)).bank 2).power = .fault
    ∧ ((lit 2 (bank .fault)).bank 3).config.present = false := by decide

theorem witness_WakeBank_nothing :
    ((lit 2 (bank .on)).bank 3).config.present = false
    ∧ ((lit 2 (bank .on)).bank 2).config.present = true
    ∧ (((lit 2 { bank .draining with drainKind := .hard }).bank 2).power = .draining
        ∧ ((lit 2 { bank .draining with drainKind := .hard }).bank 2).drainKind ≠ .soft)
    ∧ ((lit 2 (bank .waiting)).bank 2).power = .waiting
    ∧ ((lit 2 { bank .draining with drainKind := .soft }).bank 2).drainKind = .soft
    ∧ (lit 2 { bank .draining with drainKind := .soft }).parked = [] := by decide

/-- A bank of one ramp stage with PGOOD high, whose ramp completes as it is granted. -/
def quick (p : Power) : Bank := { bank p with pgood := true, config := { config with stages := 1 } }

/-- A bank of one ramp stage with PGOOD high that is filled with zeros. -/
def zeroed (p : Power) : Bank := { quick p with config := { config with stages := 1, fillPolicy := .zero } }

theorem witness_WakeBank_wakes :
    (lit 2 (bank .off)).Unlinked ∧ (lit 2 (bank .off)).waitList = [] ∧ ((lit 2 (bank .off)).bank 2).config.present = true
    ∧ ((lit 2 (bank .off)).bank 2).power = .off ∧ (lit 2 (bank .off)).frameHeld = false
    ∧ { lit 2 (bank .off) with unitsHeld := 4 }.unitsHeld + (bank .off).costAsleep ≤ 8
    ∧ 8 < { lit 2 (bank .off) with unitsHeld := 5 }.unitsHeld + (bank .off).costAsleep
    ∧ 8 < { lit 2 (bank .retain) with unitsHeld := 8 }.unitsHeld + (bank .retain).costAsleep
    ∧ (bank .off).config.stages.toNat ≠ 1 :=
  ⟨unlinked _ _, rfl, rfl, rfl, rfl, by decide, by decide, by decide, by decide⟩

theorem witness_WakeBank_wakes_at_once :
    (lit 2 (quick .off)).Unlinked ∧ (lit 2 (quick .off)).parked = [] ∧ (quick .off).costAsleep ≤ 8
    ∧ (quick .off).config.stages.toNat = 1 ∧ (quick .off).pgood = true ∧ (quick .off).config.fillPolicy = .none
    ∧ (lit 2 (zeroed .retain)).Unlinked ∧ (zeroed .retain).config.fillPolicy = .zero
    ∧ (zeroed .retain).marks[(0 : Segment)] = .lost ∧ { lit 2 (zeroed .retain) with fillQueue := [1] }.fillQueue ≠ [] :=
  ⟨unlinked _ _, rfl, by decide, by decide, rfl, rfl, unlinked _ _, rfl, by decide, by decide⟩

theorem witness_SleepBankWithoutANewDrain :
    1 < (2 : Byte).toNat ∧ (1 : Byte).toNat ≤ 1 ∧ ((lit 2 (bank .on)).bank 3).config.present = false
    ∧ ((lit 2 (bank .fault)).bank 2).power = .fault ∧ ((lit 2 (bank .draining)).bank 2).power = .draining
    ∧ ∀ p : Power, ((lit 2 (bank p)).bank 2).config.present = true ∧ ((lit 2 (bank p)).bank 2).power = p :=
  ⟨by decide, by decide, rfl, rfl, rfl, fun _ => ⟨rfl, rfl⟩⟩

theorem witness_SleepBankDrains :
    (1 : Byte).toNat ≤ 1
    ∧ (let s := lit 2 (withSlots (bank .on) four)
       s.Unlinked ∧ (s.bank 2).config.present = true ∧ (s.bank 2).power = .on ∧ (s.bank 2).port.slots ≠ []
        ∧ s.fillQueue.head? ≠ some 2)
    ∧ (let s := { lit 2 (withSlots (bank .filling) four) with fillQueue := [2] }
       s.Unlinked ∧ (s.bank 2).config.present = true ∧ (s.bank 2).power = .filling ∧ (s.bank 2).port.slots ≠ []
        ∧ s.fillQueue = [2])
    ∧ (let s := lit 2 (bank .on)
       s.Unlinked ∧ (s.bank 2).config.present = true ∧ (s.bank 2).power = .on ∧ (s.bank 2).port.slots = []
        ∧ s.parked = [] ∧ s.fillQueue.head? ≠ some 2)
    ∧ (let s := { lit 2 (bank .filling) with fillQueue := [2] }
       s.Unlinked ∧ (s.bank 2).config.present = true ∧ (s.bank 2).power = .filling ∧ (s.bank 2).port.slots = []
        ∧ s.parked = [] ∧ s.fillQueue = [2]) :=
  ⟨by decide, ⟨unlinked _ _, rfl, rfl, by decide, by decide⟩,
   ⟨unlinked 2 (withSlots (bank .filling) four), rfl, rfl, by decide, rfl⟩,
   ⟨unlinked _ _, rfl, rfl, rfl, rfl, by decide⟩, unlinked 2 (bank .filling), rfl, rfl, rfl, rfl, rfl⟩

/-- Bank 2 leaves the head of the fill queue to bank 1, whose lowest LOST segment is 4. -/
def handsOver (k : Bank) : State :=
  { (lit 2 k).updBank 1 (fun _ => withSlots { bank .filling with marks := valid.set 4 .lost } [slot (.orphan 9 1)]) with
    fillQueue := [2, 1], fill := filling }

theorem nextHead (k : Bank) : (handsOver k).NextHead 2 1 [] 4 where
  queue := rfl
  once := by decide
  lowest := show (withSlots { bank .filling with marks := valid.set 4 .lost } [slot (.orphan 9 1)]).LowestLost 4 from
    ⟨by decide, by decide⟩
  noFill := show ∀ x ∈ [slot (.orphan 9 1)], x.holder ≠ .fill by decide

theorem handsOver_unlinked (k : Bank) : (handsOver k).Unlinked := unlinked 2 k

theorem witness_SleepBankDrains_next_head :
    let s := handsOver (withSlots (bank .filling) [slot .fill .write])
    s.NextHead 2 1 [] 4 ∧ s.Unlinked ∧ (s.bank 2).config.present = true ∧ (s.bank 2).power = .filling ∧ s.parked = [] :=
  ⟨nextHead _, handsOver_unlinked _, rfl, rfl, rfl⟩

/-- Three entries for banks 2, 1 and 1 of the streams 2, 3 and 2, held with their tags. -/
def flushed : State :=
  withTags { (lit 2 (bank .ramping)).updBank 1 (fun _ => bank .waiting) with
    parked := [entry 9 2 2, entry 10 3 1, entry 11 2 1] } [9, 10, 11]

theorem witness_FlushBank_order :
    flushOrder 2 [] flushed.parked = [entry 9 2 2, entry 11 2 1] ∧ flushRest 2 [] flushed.parked = [entry 10 3 1]
    ∧ ((flushOrder 2 [] flushed.parked).map fun e => e.req.tag).Nodup
    ∧ (∀ g ∈ (flushOrder 2 [] flushed.parked).map fun e => e.req.tag, flushed.tags[g].state = .pending)
    ∧ (flushed.bank 2).config.present = true ∧ flushed.frameHeld = false
    ∧ (∀ x ∈ flushOrder 2 [] flushed.parked, (flushed.bank x.req.bank).power ≠ .on)
    ∧ (∀ x ∈ flushRest 2 [] flushed.parked, (flushed.bank x.req.bank).power = .waiting)
    ∧ (∀ l : LinkId, flushed.links[l].config.enabled = false) := by decide +kernel

theorem witness_FlushBank_no_held_timer : ∀ c n, (flushed.bank c).idleTimer ≠ .held n := by
  have stopped : ∀ c : BankId, (flushed.bank c).idleTimer = .stopped := by decide +kernel
  intro c n
  rw [stopped c]
  simp

/-- The cascade of an entry follows it, across banks (R50, R53). -/
theorem test_flushBank_cascades : (after (.flushBank 2) flushed).responses.map Response.tag = [9, 11]
    ∧ (after (.flushBank 2) flushed).parked = [entry 10 3 1] := by decide +kernel

theorem witness_FlushBank :
    let s := withTags { (lit 2 (bank .ramping)).updBank 1 (fun _ => bank .waiting) with
      parked := [entry 9 1 1, entry 10 2 2, entry 11 3 1] } [9, 10, 11]
    (s.bank 3).config.present = false ∧ (s.bank 2).config.present = true ∧ s.parked = [entry 9 1 1] ++ entry 10 2 2 :: [entry 11 3 1]
    ∧ (∀ x ∈ [entry 9 1 1] ++ [entry 11 3 1], x.req.bank ≠ 2 ∧ x.req.stream ≠ (entry 10 2 2).req.stream
        ∧ (s.bank x.req.bank).power = .waiting)
    ∧ s.tags[(10 : Tag)].state = .pending ∧ ∀ l : LinkId, s.links[l].config.enabled = false := by decide

theorem witness_MarkSegmentsChecksAndLost :
    ((lit 2 (bank .on)).bank 3).config.present = false ∧ ((lit 2 (bank .on)).bank 2).config.present = true
    ∧ 32 < (31 : Byte).toNat + (2 : Byte).toNat ∧ ¬ 32 < (31 : Byte).toNat + (1 : Byte).toNat ∧ (1 : Byte) ≠ 0
    ∧ ((lit 2 (bank .off)).bank 2).config.present = true ∧ ((lit 2 (bank .off)).bank 2).power = .off
    ∧ ((lit 2 (bank .retain)).bank 2).config.present = true ∧ ((lit 2 (bank .retain)).bank 2).power = .retain := by decide

theorem witness_MarkSegmentsValid :
    (1 : Byte) ≠ 0 ∧ (31 : Byte).toNat + (1 : Byte).toNat ≤ 32 ∧ (0 : Byte).toNat + (32 : Byte).toNat ≤ 32
    ∧ (let s := lit 2 (bank .retain)
       s.Unlinked ∧ s.parked = [] ∧ (s.bank 2).config.present = true ∧ (s.bank 2).power = .retain ∧ 2 ∉ s.fillQueue)
    ∧ (let s := { lit 2 (bank .filling) with fillQueue := [1, 2], fill := filling }
       s.Unlinked ∧ s.parked = [] ∧ (s.bank 2).config.present = true ∧ (s.bank 2).power = .filling
        ∧ (setMarks (s.bank 2).marks 31 1 .valid)[(30 : Segment)] = .lost ∧ s.fillQueue.head? ≠ some 2)
    ∧ (let s := { lit 2 (bank .filling) with fillQueue := [2], fill := filling }
       s.Unlinked ∧ s.parked = [] ∧ (s.bank 2).config.present = true ∧ (s.bank 2).power = .filling
        ∧ s.fillQueue.head? = some 2 ∧ s.fill.current = some 3 ∧ s.fill.cutOff = false ∧ s.fill.inFlight ≠ 0
        ∧ (setMarks (s.bank 2).marks 3 1 .valid)[(31 : Segment)] = .lost)
    ∧ (let s := { lit 2 (bank .filling) with fillQueue := [2], fill := { filling with inFlight := 0 } }
       s.Unlinked ∧ s.parked = [] ∧ (s.bank 2).config.present = true ∧ (s.bank 2).power = .filling ∧ s.fillQueue = [2]
        ∧ s.fill.inFlight = 0 ∧ ∀ g : Segment, (setMarks (s.bank 2).marks 0 32 .valid)[g] = .valid) :=
  ⟨by decide, by decide, by decide, ⟨unlinked _ _, rfl, rfl, rfl, by decide⟩,
   ⟨unlinked 2 (bank .filling), rfl, rfl, rfl, by decide, by decide⟩,
   ⟨unlinked 2 (bank .filling), rfl, rfl, rfl, rfl, rfl, rfl, by decide, by decide⟩,
   unlinked 2 (bank .filling), rfl, rfl, rfl, rfl, rfl, by decide⟩

/-- The marks LOST are named, and the error of a fill write of segment 3 has just been taken. -/
theorem witness_MarkSegmentsValid_fill_error :
    let s := { lit 2 { bank .on with marks := valid.set 3 .lost } with fillError := some ((2 : BankId), (3 : Segment)) }
    s.Unlinked ∧ s.parked = [] ∧ (s.bank 2).config.present = true ∧ (s.bank 2).power = .on ∧ 2 ∉ s.fillQueue
    ∧ s.fillError = some ((2 : BankId), (3 : Segment))
    ∧ (∀ h : Segment, (s.bank 2).marks[h] = .lost → 3 ≤ h.val ∧ h.val < 3 + 1)
    ∧ ∀ g : Segment, (lit 2 (bank .retain)).fillError ≠ some (2, g) :=
  ⟨unlinked 2 { bank .on with marks := valid.set 3 .lost }, rfl, rfl, rfl, by decide, rfl, by decide, by decide⟩

theorem witness_MarkSegmentsValid_moves_on :
    let k := withSlots { bank .filling with marks := valid.set 3 .lost |>.set 5 .lost } [slot (.orphan 9 1)]
    let marked := { k with marks := setMarks k.marks 3 1 .valid }
    let s := { lit 2 k with fillQueue := [2], fill := { filling with inFlight := 0 } }
    s.Unlinked ∧ s.parked = [] ∧ s.fillQueue.head? = some 2 ∧ s.fill.current = some 3 ∧ s.fill.inFlight = 0
    ∧ (∀ x ∈ (s.bank 2).port.slots, x.holder ≠ .fill) ∧ marked.LowestLost 5 :=
  ⟨unlinked 2 (withSlots { bank .filling with marks := valid.set 3 .lost |>.set 5 .lost } [slot (.orphan 9 1)]), rfl, rfl,
   rfl, rfl, by decide, by decide, by decide⟩

theorem witness_WithheldRequestChangesNothing :
    { lit 2 (bank .on) with linkClosed := true }.linkClosed = true
    ∧ (∀ k, (crowded k).parked.length = 24 ∧ (crowded k).windows[(0 : WindowId)].config.access = .readWrite
        ∧ (crowded k).windows[(0 : WindowId)].config.bank = 0 ∧ (crowded k).bank 0 = k)
    ∧ (bank .off).power = .off ∧ (bank .retain).power = .retain ∧ (bank .waiting).power = .waiting
    ∧ (bank .ramping).power = .ramping ∧ { bank .draining with drainKind := .hard }.drainKind ≠ .soft
    ∧ 4 ≤ (withSlots (bank .on) four).port.slots.length
    ∧ (∃ e ∈ (crowded (bank .on)).parked, e.req.stream = (request .read).stream)
    ∧ (bank .filling).marks[((crowded (bank .filling)).figures (request .read) 0).segment] = .lost :=
  ⟨rfl, fun _ => ⟨rfl, rfl, rfl, rfl⟩, rfl, rfl, rfl, rfl, by decide, by decide, by decide +kernel, by decide⟩

theorem witness_WithheldRequest_parks :
    (crowded (bank .off)).parks ((crowded (bank .off)).figures (request .read) 0)
    ∧ (crowded { bank .draining with drainKind := .soft }).parks
        ((crowded { bank .draining with drainKind := .soft }).figures (request .read) 0)
    ∧ ¬ (lit 0 (bank .on)).parks ((lit 0 (bank .on)).figures (request .read) 0) := by
  unfold State.parks
  decide +kernel

theorem witness_crowded_takes (kind : Kind) (k : Bank) :
    (crowded k).Takes (request kind) ∧ (crowded k).DecodedThrough (request kind) 0 :=
  ⟨⟨(takes kind 0 k).linkOpen, (takes kind 0 k).free, (takes kind 0 k).formed⟩,
   ⟨(decodedThrough kind 0 k).enabled, (decodedThrough kind 0 k).first, (decodedThrough kind 0 k).last,
    (decodedThrough kind 0 k).only⟩⟩

theorem witness_DuplicateAndMalformedRequests :
    (withTags (lit 2 (bank .on)) [3]).tags[(request .read).tag].state ≠ .free
    ∧ (lit 2 (bank .on)).tags[(request .read).tag].state = .free
    ∧ 64 < ({ request .read with addr := 0x1007F, lenField := 1 } : Request).addr.toNat % 64
        + ({ request .read with addr := 0x1007F, lenField := 1 } : Request).length := by decide

theorem witness_RequestsAnsweredAtAcceptance :
    (∀ i : WindowId, State.reset.windows[i].config.enabled = true →
      ¬ State.reset.windows[i].config.holds (request .read).addr.toNat)
    ∧ (window 2 .readOnly).config.access = .readOnly ∧ (request .write).kind = .write
    ∧ ((lit 2 (bank .fault)).bank (lit 2 (bank .fault)).windows[(0 : WindowId)].config.bank).power = .fault := by
  unfold WindowConfig.holds
  decide +kernel

theorem witness_RequestForwardedAtOnce (kind : Kind) :
    (lit 2 (bank .on)).Takes (request kind) ∧ (lit 2 (bank .on)).DecodedThrough (request kind) 0
    ∧ (lit 2 (bank .on)).windows[(0 : WindowId)].config.access = .readWrite ∧ (lit 2 (bank .on)).Unlinked
    ∧ ((lit 2 (bank .on)).bank 2).power = .on ∧ ((lit 2 (bank .on)).bank 2).port.slots.length < 4
    ∧ ∀ e ∈ (lit 2 (bank .on)).parked, e.req.stream ≠ (request kind).stream :=
  ⟨takes _ _ _, decodedThrough _ _ _, rfl, unlinked _ _, rfl, by decide, fun _ h => nomatch h⟩

theorem witness_RequestForwardedAtOnce_filling :
    ((lit 2 { bank .filling with marks := valid }).bank 2).marks[((lit 2 (bank .filling)).figures (request .read) 0).segment]
      = .valid := by decide

theorem witness_RequestParked (kind : Kind) :
    (lit 2 (bank .off)).Takes (request kind) ∧ (lit 2 (bank .off)).DecodedThrough (request kind) 0
    ∧ (lit 2 (bank .off)).parked.length < 24 ∧ ((lit 2 (bank .off)).bank 2).power = .off
    ∧ (lit 2 (bank .off)).Unlinked ∧ (lit 2 (bank .off)).waitList = []
    ∧ ((lit 2 (bank .ramping)).bank 2).power = .ramping
    ∧ 8 < { lit 2 (bank .off) with unitsHeld := 5 }.unitsHeld + config.offCost.toNat :=
  ⟨takes _ _ _, decodedThrough _ _ _, by decide, rfl, unlinked _ _, rfl, rfl, by decide⟩

/-- A request for a bank in ON with no slot free, whose idle timer counts, and the hold of the timer (R59). -/
theorem witness_RequestParked_on (kind : Kind) :
    let s := lit 2 { withSlots (bank .on) four with idleTimer := .counting 5 }
    s.Takes (request kind) ∧ s.DecodedThrough (request kind) 0 ∧ (s.bank 2).power = .on ∧ 4 ≤ (s.bank 2).port.slots.length
    ∧ (s.bank 2).idleTimer = .counting 5 ∧ ((after (.acceptance (.edge (request .read))) s).bank 2).idleTimer = .held 5 :=
  ⟨takes _ _ _, decodedThrough _ _ _, rfl, by decide, rfl, by decide⟩

theorem witness_RequestParked_at_once (kind : Kind) :
    (lit 2 (quick .off)).Takes (request kind) ∧ (lit 2 (quick .off)).DecodedThrough (request kind) 0
    ∧ (lit 2 (quick .off)).Unlinked ∧ (quick .off).config.present = true ∧ (quick .off).costAsleep ≤ 8
    ∧ (quick .off).config.stages.toNat = 1 ∧ (quick .off).pgood = true ∧ (quick .off).config.fillPolicy = .none
    ∧ (lit 2 (quick .off)).parked = [] ∧ (quick .off).port.slots.length < 4
    ∧ ∀ c : BankId, ((lit 2 (quick .off)).bank c).idleTimer = .stopped :=
  ⟨takes _ _ _, decodedThrough _ _ _, unlinked _ _, rfl, by decide, by decide, rfl, rfl, rfl, by decide, by decide +kernel⟩

theorem witness_RequestCancelsASoftDrain (kind : Kind) :
    let s := lit 2 { bank .draining with drainKind := .soft, drainTarget := .off }
    s.Takes (request kind) ∧ s.DecodedThrough (request kind) 0 ∧ s.Unlinked ∧ s.parked = []
    ∧ (s.bank 2).power = .draining ∧ (s.bank 2).drainKind = .soft ∧ (s.bank 2).port.slots.length < 4 :=
  ⟨takes _ _ _, decodedThrough _ _ _, unlinked _ _, rfl, rfl, rfl, by decide⟩

theorem witness_ResponseTaken :
    let s := { withTags (lit 2 (bank .on)) [3] with responses := [{ tag := 3, status := .okay, data := [] }] }
    State.reset.responses = [] ∧ s.linkClosed = false ∧ s.responses = [{ tag := 3, status := .okay, data := [] }]
    ∧ s.tags[(3 : Tag)].window = some 0 ∧ s.tags[(4 : Tag)].window = none := by decide

theorem witness_StageDwellExpiry :
    ((lit 2 (bank .on)).bank 2).power ≠ .ramping ∧ ((lit 2 ramping).bank 2).power = .ramping
    ∧ ((lit 2 ramping).bank 2).dwellTimer = some 0 ∧ ((lit 2 ramping).bank 2).pgood = false
    ∧ ramping.rampStage + 1 = ramping.config.stages.toNat ∧ ramping.wakeTimer ≠ none ∧ ramping.config.fillPolicy = .none := by
  decide

theorem witness_RampCompletion :
    let k := { ramping with rampStage := 2 }
    (lit 2 k).Quiet ∧ k.rampStage = k.config.stages.toNat ∧ k.wakeTimer ≠ none ∧ k.config.fillPolicy = .none
    ∧ (lit 2 k).fillQueue = [] ∧ k.port.slots = [] ∧ (valid.set 31 .lost)[(31 : Segment)] = .lost
    ∧ ∀ h : Segment, (valid.set 31 .lost)[h] = .lost → 31 ≤ h.val :=
  ⟨quiet _ _, rfl, by decide, rfl, rfl, rfl, by decide, by decide⟩

theorem onlyReleases (k : Bank) (threshold : k.config.threshold = 0) : (waiting k).OnlyReleases 2 where
  others := by
    intro e h hb
    have one : ∀ e ∈ queued, e.req.bank ≠ 2 → e.req.bank = 1 := by decide
    rw [one e h hb]
    exact .inl rfl
  timers := by
    have stopped : ∀ c : BankId, c ≠ 2 → ((waiting k).bank c).idleTimer = .stopped := by
      intro c h
      fin_cases c <;> first | rfl | exact absurd rfl h
    intro c n h
    rw [stopped c h]
    simp
  threshold := threshold

/-- Each outcome of a release scan: a free slot, no free slot, and a kept entry of the stream. -/
theorem witness_releases :
    releaseOrder 2 4 [] queued = [entry 9 1 2, entry 12 1 2, entry 13 3 2] ∧ releaseRest 2 4 [] queued = [entry 10 2 1, entry 11 2 2]
    ∧ releaseOrder 2 1 [] queued = [entry 9 1 2]
    ∧ releaseRest 2 1 [] queued = [entry 10 2 1, entry 11 2 2, entry 12 1 2, entry 13 3 2] := by decide

theorem witness_RampCompletion_releases :
    (waiting rampUp).Unlinked ∧ (waiting rampUp).waitList = [] ∧ (waiting rampUp).OnlyReleases 2 ∧ rampUp.power = .ramping
    ∧ rampUp.rampStage = rampUp.config.stages.toNat ∧ rampUp.wakeTimer ≠ none ∧ rampUp.config.fillPolicy = .none :=
  ⟨unlinked 2 rampUp, rfl, onlyReleases rampUp rfl, rfl, rfl, by decide, rfl⟩

theorem witness_RampCompletion_grants_first :
    let s := { (lit 2 rampUp).updBank 3 (fun _ => { zeroed .waiting with wakeKind := .fromOff }) with
      waitList := [3], fillQueue := [1], unitsHeld := 8 }
    s.Unlinked ∧ s.fillQueue ≠ [] ∧ s.parked = [] ∧ s.waitList = [3] ∧ s.unitsHeld - rampUp.charge + (s.bank 3).wakeCost ≤ 8
    ∧ (s.bank 3).config.stages.toNat = 1 ∧ (s.bank 3).pgood = true ∧ (s.bank 3).config.fillPolicy = .zero
    ∧ (s.bank 3).marks[(0 : Segment)] = .lost ∧ (valid.set 31 .lost)[(31 : Segment)] = .lost :=
  ⟨unlinked 2 rampUp, by decide, rfl, rfl, by decide, by decide, rfl, rfl, by decide, by decide⟩

theorem witness_Grant :
    let s := { lit 2 { bank .waiting with wakeKind := .fromRetain } with waitList := [2], unitsHeld := 7 }
    s.waitList = 2 :: [] ∧ s.unitsHeld + (s.bank 2).config.retainCost.toNat ≤ s.global.budget.toNat
    ∧ (s.bank 2).config.stages.toNat ≠ 1 ∧ { s with unitsHeld := 8 }.global.budget.toNat < 8 + (s.bank 2).wakeCost := by decide

theorem witness_Grant_completes :
    let s := { lit 2 { quick .waiting with wakeKind := .fromOff } with waitList := [2] }
    let z := { lit 2 { zeroed .waiting with wakeKind := .fromOff } with waitList := [2], fillQueue := [1] }
    s.Unlinked ∧ s.waitList = 2 :: [] ∧ s.parked = [] ∧ s.unitsHeld + (s.bank 2).config.offCost.toNat ≤ s.global.budget.toNat
    ∧ (s.bank 2).config.stages.toNat = 1 ∧ (s.bank 2).pgood = true ∧ (s.bank 2).config.fillPolicy = .none
    ∧ z.Unlinked ∧ (z.bank 2).config.fillPolicy = .zero ∧ (z.bank 2).marks[(0 : Segment)] = .lost ∧ z.fillQueue ≠ [] :=
  ⟨unlinked 2 { quick .waiting with wakeKind := .fromOff }, rfl, rfl, by decide, by decide, rfl, rfl,
   unlinked 2 { zeroed .waiting with wakeKind := .fromOff }, rfl, by decide, by decide⟩

theorem witness_WakeLimitExpiry :
    let k := { ramping with wakeTimer := some 0 }
    (lit 2 k).Quiet ∧ k.wakeTimer = some 0 ∧ ramping.wakeTimer ≠ some 0 ∧ k.attempts + 1 ≤ k.config.retries.toNat
    ∧ 4 - k.charge + k.config.offCost.toNat ≤ 8 ∧ 8 < 9 - k.charge + k.config.offCost.toNat
    ∧ { k with attempts := 1 }.config.retries.toNat < 1 + 1 ∧ k.port.slots = [] ∧ 2 ∉ (lit 2 k).fillQueue :=
  ⟨quiet _ _, rfl, by decide, by decide, by decide, by decide, by decide, rfl, by decide⟩

theorem witness_RailDrop_ResponseTimeout_slots :
    let s := withTags (lit 2 (withSlots (bank .on) [slot (.request 4 1), slot .fill, slot (.request 6 1)])) [4, 6]
    (∀ l : LinkId, s.links[l].config.enabled = false) ∧ s.parked = [] ∧ (requestTags (s.bank 2).port.slots).Nodup
    ∧ (∀ g ∈ requestTags (s.bank 2).port.slots, s.tags[g].state = .pending) ∧ s.fillQueue.head? ≠ some 2
    ∧ (∀ m : Micros, m = 0x10B8 → ((slot .fill).expiryTime - (slot .fill).forwardTime).toNat
        ≤ (m - (slot .fill).forwardTime).toNat)
    ∧ ((0x10B7 : Micros) - (slot .fill).forwardTime).toNat
        < ((slot .fill).expiryTime - (slot .fill).forwardTime).toNat := by
  refine ⟨by decide, by decide, by decide, by decide, by decide, ?_, by decide⟩
  rintro m rfl
  decide

theorem witness_RailDrop_parked :
    let s := withTags { lit 2 { bank .on with idleTimer := .held 3 } with parked := [entry 7 1 2] } [7]
    s.parked = [entry 7 1 2] ∧ (s.bank 2).power = .on ∧ (s.bank 2).port.slots = [] ∧ 2 ∉ s.fillQueue
    ∧ s.tags[(7 : Tag)].state = .pending ∧ { s with fillQueue := [2] }.fillQueue = [2] := by decide

theorem witness_RailDrop_ResponseTimeout_next_head :
    let s := { handsOver (withSlots (bank .filling) [slot .fill .write]) with
      clock := { micros := 0x10B8, cycles := 0, tickCycles := 25 } }
    s.NextHead 2 1 [] 4 ∧ s.Unlinked ∧ s.parked = [] ∧ (s.bank 2).power = .filling
    ∧ (s.bank 2).port.slots = slot .fill .write :: [] ∧ (∀ g st, (slot .fill .write).holder ≠ .request g st)
    ∧ ((slot .fill .write).expiryTime - (slot .fill .write).forwardTime).toNat
        ≤ (s.clock.micros - (slot .fill .write).forwardTime).toNat
    ∧ { s with fillQueue := [2] }.fillQueue = [2] :=
  ⟨⟨rfl, (nextHead (bank .filling)).once, (nextHead (bank .filling)).lowest, (nextHead (bank .filling)).noFill⟩,
   handsOver_unlinked (withSlots (bank .filling) [slot .fill .write]), rfl, rfl, rfl, (fun _ _ h => nomatch h), by decide, rfl⟩

theorem witness_CompletionOfARequest :
    let s := withTags (lit 2 (withSlots (bank .on) [slot (.request 4 1), slot (.orphan 6 1)])) [4]
    (s.bank 2).port.ignoring = false ∧ (s.bank 2).port.slots = slot (.request 4 1) :: [slot (.orphan 6 1)]
    ∧ (s.bank 2).power = .on ∧ s.parked = [] ∧ s.fillQueue.head? ≠ some 2
    ∧ (s.clock.micros - (slot (.orphan 6 1)).forwardTime).toNat
        < ((slot (.orphan 6 1)).expiryTime - (slot (.orphan 6 1)).forwardTime).toNat
    ∧ s.tags[(4 : Tag)].state = .pending ∧ (s.bank 2).marks[(slot (.request 4 1)).segment] = .lost
    ∧ valid[(slot (.request 4 1)).segment] = .valid ∧ (slot (.request 4 1)).kind = .read
    ∧ (slot (.request 4 1) .write).kind = .write := by decide

theorem witness_CompletionOfARequest_releases :
    let s := withTags (waiting { withSlots (bank .on) (slot (.request 4 1) :: four.take 3) with idleTimer := .held 7 }) [4]
    s.OnlyReleases 2 ∧ (s.bank 2).power = .on ∧ (∃ e ∈ s.parked, e.req.bank = 2) ∧ (∀ n, (s.bank 2).idleTimer ≠ .counting n)
    ∧ s.global.respLimit ≠ 0 ∧ s.tags[(4 : Tag)].state = .pending
    ∧ (after (.completion 2 .ok (Vector.replicate 64 0xAB)) s).parked.map (fun e => e.req.tag) = [10, 11, 12, 13] := by
  have only := onlyReleases { withSlots (bank .on) (slot (.request 4 1) :: four.take 3) with idleTimer := .held 7 } rfl
  exact ⟨⟨only.others, only.timers, only.threshold⟩, rfl, by decide, (fun _ h => nomatch h), by decide, by decide,
    by decide +kernel⟩

/-- A write of segment 3, and the bank that it fills. -/
def fillSlot : Slot := { slot .fill .write with segment := 3 }

/-- Bank 2 fills segment 3, and these segments are marked so. -/
def fills (marks : Vector Mark 32) (p : FillProgress) (queue : List BankId := [2]) : State :=
  { handsOver { withSlots (bank .filling) [fillSlot] with marks := marks } with fillQueue := queue, fill := p }

theorem fillCompletes (marks : Vector Mark 32) (p : FillProgress) (more : List BankId) (current : p.current = some 3)
    (inFlight : 0 < p.inFlight) : (fills marks p (2 :: more)).FillCompletes 2 fillSlot [] 3 where
  taken := rfl
  slots := rfl
  holder := rfl
  segment := rfl
  filling := rfl
  head := rfl
  current := current
  inFlight := inFlight
  limit := show (200 : BitVec 16) ≠ 0 by decide
  inTime := fun _ h => nomatch h

theorem witness_CompletionOfAFillWrite :
    (fills valid filling).FillCompletes 2 fillSlot [] 3
    ∧ (fills valid { filling with inFlight := 1, cutOff := true, nextWrite := none } [2, 1]).FillCompletes 2 fillSlot [] 3
    ∧ (fills valid filling).Unlinked ∧ (fills valid filling).parked = [] ∧ filling.cutOff = false
    ∧ filling.completed + 1 ≠ 2 ^ (config.capacity.val + 15) / 64
    ∧ { filling with completed := 511 }.completed + 1 = 2 ^ (config.capacity.val + 15) / 64
    ∧ (∀ h : Segment, h ≠ 3 → (valid.set 3 .lost)[h] = .valid) ∧ (∀ h : Segment, valid[h] = .valid)
    ∧ { filling with inFlight := 2 }.inFlight ≠ 1 :=
  ⟨fillCompletes _ _ _ rfl (by decide), fillCompletes _ _ _ rfl (by decide),
   unlinked 2 { withSlots (bank .filling) [fillSlot] with marks := valid }, rfl, rfl, by decide, by decide, by decide,
   by decide, by decide⟩

/-- The bank after its segment 3 has been marked: segment 5 is the lowest LOST one, and an entry asks for segment 7. -/
theorem witness_CompletionOfAFillWrite_next :
    let left : Bank := { bank .filling with marks := valid.set 5 .lost |>.set 7 .lost }
    let e := { entry 8 1 2 with req := { (entry 8 1 2).req with segment := 7 } }
    left.LowestLost 5 ∧ (∀ y ∈ [e], y.req.bank = 2 ∧ left.marks[y.req.segment] = .lost)
    ∧ (fills (valid.set 3 .lost) filling [2, 1]).NextHead 2 1 [] 4 :=
  ⟨⟨by decide, by decide⟩, by decide, rfl, by decide,
   (nextHead { withSlots (bank .filling) [fillSlot] with marks := valid }).lowest,
   (nextHead { withSlots (bank .filling) [fillSlot] with marks := valid }).noFill⟩

theorem witness_FillWriteIssue :
    let s := { lit 2 (bank .filling) with fillQueue := [2], fill := filling }
    s.fillQueue.head? = some 2 ∧ s.fill.current = some 3 ∧ s.fill.nextWrite = some 0x18080
    ∧ ((s.bank 2).port.slots.countP fun x => x.holder = .fill) < 2 ∧ (s.bank 2).port.slots.length < 4
    ∧ 4 ≤ (withSlots (bank .filling) four).port.slots.length ∧ State.reset.fillQueue = [] := by decide

theorem witness_DrainCompletion :
    let s := withTags (lit 2 { withSlots (bank .draining) [slot (.request 4 1) .write] with drainTarget := .off }) [4]
    (s.bank 2).port.ignoring = false ∧ (s.bank 2).port.slots = [slot (.request 4 1) .write] ∧ (s.bank 2).power = .draining
    ∧ s.fillQueue.head? ≠ some 2 ∧ s.tags[(4 : Tag)].state = .pending
    ∧ ((lit 2 (bank .draining)).bank 2).port.slots = []
    ∧ (∃ e ∈ { lit 2 (bank .draining) with parked := [entry 6 1 2] }.parked, e.req.bank = 2)
    ∧ 8 < { lit 2 (bank .draining) with unitsHeld := 8 }.unitsHeld + config.retainCost.toNat
    ∧ 8 < { lit 2 (bank .draining) with unitsHeld := 5 }.unitsHeld + config.offCost.toNat := by decide

theorem witness_ParkExpiry :
    let s := withTags { (lit 2 (bank .ramping)).updBank 1 (fun _ => bank .waiting) with
      parked := [entry 9 3 2] ++ entry 4 3 2 (some 0) :: [entry 6 3 1, entry 7 4 2] } [4, 6, 7, 9]
    (entry 4 3 2 (some 0)).deadline = some { time := 0x1005, left := 0 } ∧ (∀ x ∈ [entry 9 3 2], x.req.tag ≠ 4)
    ∧ (∀ x ∈ [entry 9 3 2] ++ [entry 7 4 2], (s.bank x.req.bank).power = .waiting ∨ (s.bank x.req.bank).power = .ramping)
    ∧ ([4, 6] : List Tag).Nodup ∧ (∀ h ∈ ([4, 6] : List Tag), s.tags[h].state = .pending)
    ∧ (∀ l : LinkId, s.links[l].config.enabled = false)
    ∧ ∀ d, (entry 9 3 2).deadline = some d → d.left ≠ 0 := by
  refine ⟨by decide, by decide, by decide, by decide, by decide, by decide, ?_⟩
  rintro d ⟨⟩
  decide

/-- The last entry of a bank in ON expires, and the idle timer counts from the full limit (R59). -/
theorem witness_ParkExpiry_on :
    let s := withTags { lit 2 { withSlots (bank .on) four with idleTimer := .held 7 } with parked := [entry 4 3 2 (some 0)] } [4]
    s.parked = [] ++ entry 4 3 2 (some 0) :: [] ∧ (s.bank 2).idleTimer = .held 7 ∧ s.tags[(4 : Tag)].state = .pending
    ∧ 4 ≤ (s.bank 2).port.slots.length
    ∧ ((after (.parkExpiry 4) s).bank 2).idleTimer = .counting 3000 := by decide

theorem witness_IdleAndRetainExpiry :
    let s := lit 2 { bank .on with idleTimer := .counting 0 }
    s.Unlinked ∧ (s.bank 2).power = .on ∧ (s.bank 2).idleTimer = .counting 0 ∧ (s.bank 2).port.slots = []
    ∧ (∀ e ∈ s.parked, e.req.bank ≠ 2) ∧ (withSlots (bank .on) four).port.slots ≠ []
    ∧ ((lit 2 { bank .retain with retainTimer := some 0 }).bank 2).retainTimer = some 0
    ∧ ((lit 2 { bank .retain with retainTimer := some 1 }).bank 2).retainTimer ≠ some 0 :=
  ⟨unlinked _ _, rfl, rfl, rfl, (fun _ h => nomatch h), by decide, rfl, by decide⟩

theorem witness_EventsKeepTheSettings (s : State) (b : BankId) (index : Byte) :
    (∃ t, exec (.stageDwellExpiry b) s = .next t) ∧ ∃ t, exec (.clearCount index) s = .next t := by
  refine ⟨?_, ⟨_, rfl⟩⟩
  show ∃ t, execStageDwellExpiry b s = .next t
  unfold execStageDwellExpiry proceed
  split <;> exact ⟨_, rfl⟩

/-- Link 5 watches a trigger of bank 2. -/
def watched (x : Trigger) (s : State) : State :=
  { s with
    links := State.reset.links.set 5
      { config := { enabled := true, source := 2, trigger := x, target := 1, action := .note }, fireCount := 0xFFFE } }

theorem noteWatches (x : Trigger) (s : State) : (watched x s).NoteWatches 2 5 x where
  enabled := rfl
  source := rfl
  trigger := rfl
  note := rfl
  alone := by
    show ∀ l : LinkId, l ≠ 5 → (State.reset.links.set 5
      { config := { enabled := true, source := 2, trigger := x, target := 1, action := .note }, fireCount := 0xFFFE })[
        l].config.enabled = false
    intro l h
    fin_cases l <;> first | rfl | exact absurd rfl h

theorem witness_NoteLinkFires_wakeBegun (kind : Kind) :
    let k := fun p : Power => { bank p with config := { config with parkLimit := 0 } }
    let s := watched .wakeBegun { lit 2 (k .off) with unitsHeld := 5 }
    s.NoteWatches 2 5 .wakeBegun ∧ s.Takes (request kind) ∧ s.DecodedThrough (request kind) 0
    ∧ s.windows[(0 : WindowId)].config.bank = 2 ∧ (s.bank 2).config.present = true ∧ (s.bank 2).power = .off ∧ s.waitList = []
    ∧ s.global.budget.toNat < s.unitsHeld + (s.bank 2).costAsleep ∧ s.frameHeld = false ∧ s.parked.length < 24
    ∧ (s.bank 2).config.parkLimit = 0 ∧ 8 < 8 + (k .retain).costAsleep := by
  have h := takes kind 2 { bank .off with config := { config with parkLimit := 0 } }
  have d := decodedThrough kind 2 { bank .off with config := { config with parkLimit := 0 } }
  exact ⟨noteWatches _ _, ⟨h.linkOpen, h.free, h.formed⟩, ⟨d.enabled, d.first, d.last, d.only⟩, rfl, rfl, rfl, rfl, by decide, rfl,
    by decide, rfl, by decide⟩

theorem witness_NoteLinkFires_ready :
    let s := watched .ready (lit 2 rampUp)
    let z := { watched .ready (lit 2 { rampUp with marks := valid.set 0 .lost, config := { config with fillPolicy := .zero } }) with
      fillQueue := [1] }
    let d := watched .ready (lit 2 { ramping with pgood := true })
    s.NoteWatches 2 5 .ready ∧ s.waitList = [] ∧ s.parked = [] ∧ (s.bank 2).power = .ramping
    ∧ (s.bank 2).rampStage = (s.bank 2).config.stages.toNat ∧ (s.bank 2).wakeTimer ≠ none ∧ (s.bank 2).config.fillPolicy = .none
    ∧ (z.bank 2).config.fillPolicy = .zero ∧ (z.bank 2).marks[(0 : Segment)] = .lost ∧ z.fillQueue ≠ []
    ∧ (d.bank 2).dwellTimer = some 0 ∧ (d.bank 2).rampStage + 1 = (d.bank 2).config.stages.toNat ∧ (d.bank 2).pgood = true :=
  ⟨noteWatches _ _, rfl, rfl, rfl, rfl, by decide, rfl, rfl, by decide, by decide, rfl, rfl, rfl⟩

theorem witness_NoteLinkFires_ready_filled :
    let s := watched .ready (fills valid filling)
    s.NoteWatches 2 5 .ready ∧ s.FillCompletes 2 fillSlot [] 3 ∧ s.fillQueue = [2] ∧ s.waitList = [] ∧ s.parked = [] := by
  have h := fillCompletes valid filling [] rfl (by decide)
  exact ⟨noteWatches _ _, ⟨h.taken, h.slots, h.holder, h.segment, h.filling, h.head, h.current, h.inFlight, h.limit, h.inTime⟩,
    rfl, rfl, rfl⟩

theorem witness_NoteLinkFires_drainBegun :
    let s := watched .drainBegun (lit 2 (withSlots { bank .on with idleTimer := .counting 0 } four))
    s.NoteWatches 2 5 .drainBegun ∧ (s.bank 2).power = .on ∧ (s.bank 2).idleTimer = .counting 0 ∧ (s.bank 2).port.slots ≠ []
    ∧ s.frameHeld = false ∧ (s.bank 2).config.present = true ∧ (0 : Byte).toNat ≤ 1 ∧ (1 : Byte).toNat ≤ 1
    ∧ s.fillQueue.head? ≠ some 2 :=
  ⟨noteWatches _ _, rfl, rfl, by decide, rfl, rfl, by decide, by decide, by decide⟩

theorem witness_NoteLinkFires_asleep :
    let s := watched .asleep (lit 2 (bank .draining))
    let o := watched .asleep (lit 2 (withSlots (bank .draining) [slot (.orphan 4 1)]))
    s.NoteWatches 2 5 .asleep ∧ (s.bank 2).power = .draining ∧ (s.bank 2).port.slots = [] ∧ (∀ e ∈ s.parked, e.req.bank ≠ 2)
    ∧ o.NoteWatches 2 5 .asleep ∧ (o.bank 2).port.ignoring = false ∧ (o.bank 2).port.slots = [slot (.orphan 4 1)]
    ∧ (slot (.orphan 4 1)).holder = .orphan 4 1 ∧ o.parked = [] ∧ o.fillQueue.head? ≠ some 2 :=
  ⟨noteWatches _ _, rfl, rfl, (fun _ h => nomatch h), noteWatches _ _, rfl, rfl, rfl, rfl, by decide⟩

theorem witness_NoteLinkFires_faulted :
    let late := { lit 2 (withSlots (bank .on) [slot (.orphan 4 1)]) with
      clock := { micros := 0x10B8, cycles := 0, tickCycles := 25 } }
    let s := watched .faulted late
    let w := watched .faulted (lit 2 { ramping with wakeTimer := some 0, attempts := 1 })
    s.NoteWatches 2 5 .faulted ∧ s.parked = [] ∧ 2 ∉ s.fillQueue ∧ (s.bank 2).power = .on ∧ requestTags (s.bank 2).port.slots = []
    ∧ (s.bank 2).port.slots = slot (.orphan 4 1) :: []
    ∧ ((slot .fill).expiryTime - (slot .fill).forwardTime).toNat ≤ (s.clock.micros - (slot .fill).forwardTime).toNat
    ∧ w.NoteWatches 2 5 .faulted ∧ (w.bank 2).power = .ramping ∧ (w.bank 2).wakeTimer = some 0 ∧ w.waitList = []
    ∧ (w.bank 2).config.retries.toNat < (w.bank 2).attempts + 1 ∧ (w.bank 2).port.slots = [] :=
  ⟨noteWatches _ _, rfl, by decide, rfl, by decide, rfl, by decide, noteWatches _ _, rfl, rfl, rfl, by decide, rfl⟩

theorem witness_NoteLinkFires_count (kind : Kind) :
    let k := { bank .on with config := { config with threshold := 9 }, port := { Port.reset with counter := 8 } }
    let s := watched .count (lit 2 k)
    s.NoteWatches 2 5 .count ∧ s.Takes (request kind) ∧ s.DecodedThrough (request kind) 0 ∧ (s.bank 2).power = .on
    ∧ (s.bank 2).port.slots = [] ∧ (s.bank 2).idleTimer = .stopped ∧ s.parked = [] ∧ (s.bank 2).port.reached = false
    ∧ (s.bank 2).port.counter ≠ 0xFFFFFFFF ∧ (s.bank 2).port.counter + 1 = (s.bank 2).config.threshold
    ∧ (s.bank 2).config.threshold ≠ 0 := by
  have h := takes kind 2 { bank .on with config := { config with threshold := 9 }, port := { Port.reset with counter := 8 } }
  have d := decodedThrough kind 2
    { bank .on with config := { config with threshold := 9 }, port := { Port.reset with counter := 8 } }
  exact ⟨noteWatches _ _, ⟨h.linkOpen, h.free, h.formed⟩, ⟨d.enabled, d.first, d.last, d.only⟩, rfl, rfl, rfl, rfl, rfl,
    by decide, by decide, by decide⟩

/-- Two NOTE links on bank 2, which drains with nothing in flight. -/
theorem witness_NoteLinkFires_order :
    let note := fun x : Trigger =>
      ({ config := { enabled := true, source := 2, trigger := x, target := 1, action := .note }, fireCount := 0xFFFF } : Link)
    let s := { lit 2 { bank .on with idleTimer := .counting 0 } with
      links := (State.reset.links.set 5 (note .drainBegun)).set 2 (note .asleep) }
    (∀ l : LinkId, s.links[l].config.enabled = true → s.links[l].config.source = 2 ∧ s.links[l].config.action = .note)
    ∧ s.links[(5 : LinkId)].config.enabled = true ∧ (s.bank 2).power = .on ∧ (s.bank 2).idleTimer = .counting 0
    ∧ (s.bank 2).port.slots = [] ∧ (∀ e ∈ s.parked, e.req.bank ≠ 2)
    ∧ (after (.idleExpiry 2) s).events.map (fun r => r.about.link) = [some 5, some 2] := by decide +kernel

/-- Bank 2 in ON drains, and link 5 acts on `target`, which stands as `m`; link 3 watches another bank than the first. -/
def linked (target : BankId) (act : Action) (m : Bank) : State :=
  { (lit 1 m).updBank 2 (fun _ => withSlots { bank .on with idleTimer := .counting 0 } four) with
    links := (State.reset.links.set 5
        { config := { enabled := true, source := 2, trigger := .drainBegun, target := target, action := act }, fireCount := 0 }).set 3
      { config := { enabled := target ≠ 2, source := target, trigger := .wakeBegun, target := 2, action := .note }
        fireCount := 0 } }

theorem witness_OneLinkWatches (target : BankId) (act : Action) (m : Bank) : (linked target act m).OneLinkWatches 2 5 where
  enabled := rfl
  source := rfl
  trigger := rfl
  others := by
    have off : ∀ l : LinkId, l ≠ 5 → l ≠ 3 → (linked target act m).links[l].config.enabled = false := by
      intro l h h'
      fin_cases l <;> first | rfl | exact absurd rfl h | exact absurd rfl h'
    intro l h enabled
    by_cases h3 : l = 3
    · subst h3
      exact ⟨of_decide_eq_true enabled, rfl, show Trigger.wakeBegun ≠ .asleep by decide⟩
    · rw [off l h h3] at enabled; cases enabled
  on := rfl
  due := rfl
  busy := show four ≠ [] by decide

/-- The target of the link in each state that an action meets. -/
theorem witness_NoteLinkFires_targets (act : Action) :
    (∀ p : Power, ((linked 1 act (bank p)).bank 1).power = p ∧ (linked 1 act (bank p)).links[(5 : LinkId)].config.target = 1
      ∧ (linked 1 act (bank p)).links[(5 : LinkId)].config.action = act ∧ (linked 1 act (bank p)).parked = []
      ∧ (linked 1 act (bank p)).waitList = [] ∧ ((linked 1 act (bank p)).bank 1).port.slots = []
      ∧ (linked 1 act (bank p)).fillQueue.head? ≠ some 1 ∧ ((linked 1 act (bank p)).bank 1).config.present = true)
    ∧ (linked 2 act (bank .on)).links[(5 : LinkId)].config.target = 2 ∧ { bank .draining with drainKind := .soft }.drainKind = .soft
    ∧ (bank .off).costAsleep ≤ 8 ∧ 8 < 5 + (bank .off).costAsleep ∧ (bank .off).config.stages.toNat ≠ 1 :=
  ⟨fun _ => ⟨rfl, rfl, rfl, rfl, rfl, rfl, show (none : Option BankId) ≠ some 1 by decide, rfl⟩, rfl, rfl, by decide, by decide, by decide⟩

/-- A part at work: bank 2 ramps, bank 1 fills, bank 0 waits with an entry parked for it, and two requests are held. -/
def busy : State :=
  { (withTags (((lit 0 { bank .waiting with wakeKind := .fromRetain }).updBank 1 fun _ =>
        withSlots (bank .filling) [slot .fill .write]).updBank 2 fun _ => ramping) [3, 4]) with
    windows := State.reset.windows.set 0 { window 0 with held := 3 }
    tags := (Vector.ofFn fun t : Tag => if t = 3 ∨ t = 4 then { state := .pending, length := 8, window := some (0 : WindowId) }
      else if t = 5 then { state := .answered, length := 8, window := some 0 } else TagRecord.reset)
    links := State.reset.links.set 0
      { config := { enabled := true, source := 2, trigger := .ready, target := 1, action := .hold }, fireCount := 0 }
    waitList := [0], fillQueue := [1], fill := filling, unitsHeld := 4, parked := [entry 3 1 0]
    responses := [{ tag := 5, status := .okay, data := [] }], pending := [.stageDwellExpiry 2] }

theorem witness_StepsKeep_queues : busy.QueuesHold where
  waitOnce := by decide
  wait := by decide
  fillOnce := by decide
  fill := by decide

theorem witness_StepsKeep_units : busy.UnitsHold where
  sum := by decide +kernel
  within := by decide
  ramping := by decide

theorem witness_StepsKeep_banks : busy.MarksHold ∧ busy.AbsentOff ∧ busy.PortsHold ∧ busy.KindsHold := by
  refine ⟨?_, ?_, fun b => ⟨?_, ?_⟩, fun b => ⟨?_, ?_, ?_⟩⟩
  · unfold State.MarksHold Bank.MarksHold; decide +kernel
  · unfold State.AbsentOff; decide
  all_goals
    revert b
    decide +kernel

theorem witness_StepsKeep_bounds : busy.QueueBounded ∧ busy.EventsBounded ∧ busy.PortsBounded ∧ busy.ResetCloses := by
  unfold State.QueueBounded State.EventsBounded State.PortsBounded Bank.PortBounded State.ResetCloses
  decide

theorem witness_StepsKeep_bounds_low : pinLow.ResetCloses ∧ pinLow.resetLow = true := by
  unfold State.ResetCloses
  decide

theorem witness_StepsKeep_tables : busy.WindowsSound ∧ busy.LinksSound := by
  refine ⟨⟨?_, by decide +kernel⟩, ?_⟩
  · unfold State.WindowSound; decide +kernel
  · unfold State.LinksSound; decide +kernel

theorem witness_StepsKeep_parked : busy.ParkedAwake := by
  unfold State.ParkedAwake
  decide

theorem witness_StepsKeep_held : busy.TagsAnswered ∧ busy.HeldCounts := by
  unfold State.TagsAnswered State.HeldCounts
  decide +kernel

theorem witness_StepsKeep_step : ∃ t, step busy = .next t ∧ (t.bank 2).rampStage = 2 := ⟨_, rfl, by decide +kernel⟩

end Sys2Proof.Tests
end

section
/-! SUPPORT. READ WINDOW (06_address_windows.md, R124): the answer a taken frame gives, and the entry's response bytes. -/

namespace Sys2Proof.Machine

/-! ### Answers of a port that takes frames -/

/-- A refused command changes nothing but the frame, which answers its code and 00h in every response byte (R185). -/
theorem State.serve_begin_error {s : State} (h : s.frameHeld = false) (c : FrameCommand) (index : Byte) (args : List Byte)
    (e : ResponseCode) : s.begin.serve c index args (.error e) =
      s.replied (c.code :: index :: args) (e.code :: List.replicate c.responseBytes 0) :=
  State.framed_live (s := s.begin) h s.begin _ _

/-- A read that is taken changes nothing but the frame, which answers DONE and the bytes read (R185). -/
theorem State.serve_begin_read {s : State} (h : s.frameHeld = false) (c : FrameCommand) (index : Byte) (args body : List Byte) :
    s.begin.serve c index args (.ok (s.begin, body)) =
      s.replied (c.code :: index :: args) (ResponseCode.done.code :: body) :=
  State.framed_live (s := s.begin) h s.begin _ _

/-! ### An index byte that names a window entry, or none (R184) -/

theorem withWindow_byteOf (i : WindowId) (body : WindowId → Except ResponseCode (State × List Byte)) :
    withWindow (byteOf i.val) body = body i := by
  simp only [withWindow, windowOf_byteOf]

theorem withWindow_unknown {index : Byte} (h : 16 ≤ index.toNat) (body : WindowId → Except ResponseCode (State × List Byte)) :
    withWindow index body = .error .unknown := by
  simp only [withWindow, windowOf_none h]

/-! ### READ WINDOW -/

theorem exec_readWindow (index : Byte) (s : State) : exec (.readWindow index) s = .next
    (s.begin.serve .readWindow index [] (withWindow index fun i => .ok (s.begin, s.windows[i].bytes))) := rfl

theorem exec_readWindow_unknown {s : State} (hs : s.frameHeld = false) {index : Byte} (hi : 16 ≤ index.toNat) :
    exec (.readWindow index) s = .next (s.replied [0x20, index] (0x05 :: List.replicate 16 0)) := by
  rw [exec_readWindow, withWindow_unknown hi, State.serve_begin_error hs]
  rfl

theorem exec_readWindow_entry {s : State} (hs : s.frameHeld = false) (i : WindowId) :
    exec (.readWindow (byteOf i.val)) s = .next (s.replied [0x20, byteOf i.val] (0x00 :: s.windows[i].bytes)) := by
  rw [exec_readWindow, withWindow_byteOf, State.serve_begin_read hs]
  rfl

theorem Access.code_eq_ite (a : Access) : a.code = if a = .readOnly then 1 else 0 := by cases a <;> rfl

/-- Settles O20: an index of 16 or more names no entry and is refused; one of 0 to 15 reads its entry, whose access byte is
the one field coded case by case. -/
theorem readWindow : Obligations.ReadWindow := by
  refine ⟨fun s index hs hi => exec_readWindow_unknown hs hi, fun s i hs => ?_⟩
  rw [exec_readWindow_entry hs, Window.bytes, Access.code_eq_ite]
  rfl

end Sys2Proof.Machine
end

section
/-! SUPPORT. READ LINK (08_wake_links_and_access_counters.md, R151): the link table's entry in response bytes, or UNKNOWN. -/

namespace Sys2Proof.Machine

/-! ### An index byte that names a link entry, or none (R184) -/

theorem withLink_byteOf (l : LinkId) (body : LinkId → Except ResponseCode (State × List Byte)) :
    withLink (byteOf l.val) body = body l := by
  simp only [withLink, linkOf_byteOf]

theorem withLink_unknown {index : Byte} (h : 8 ≤ index.toNat) (body : LinkId → Except ResponseCode (State × List Byte)) :
    withLink index body = .error .unknown := by
  simp only [withLink, linkOf_none h]

/-! ### READ LINK -/

theorem exec_readLink (index : Byte) (s : State) : exec (.readLink index) s = .next
    (s.begin.serve .readLink index [] (withLink index fun l => .ok (s.begin, s.links[l].bytes))) := rfl

theorem exec_readLink_unknown {s : State} (hs : s.frameHeld = false) {index : Byte} (hi : 8 ≤ index.toNat) :
    exec (.readLink index) s = .next (s.replied [0x28, index] (0x05 :: List.replicate 7 0)) := by
  rw [exec_readLink, withLink_unknown hi, State.serve_begin_error hs]
  rfl

theorem exec_readLink_entry {s : State} (hs : s.frameHeld = false) (l : LinkId) :
    exec (.readLink (byteOf l.val)) s = .next (s.replied [0x28, byteOf l.val] (0x00 :: s.links[l].bytes)) := by
  rw [exec_readLink, withLink_byteOf, State.serve_begin_read hs]
  rfl

/-- Settles O21: an index of 8 or more names no entry and is refused; one of 0 to 7 reads its entry, whose trigger and action
bytes are the model's code tables, row for row those of R195. -/
theorem readLink : Obligations.ReadLink := by
  refine ⟨fun s index hs hi => exec_readLink_unknown hs hi, fun s l hs => ?_⟩
  rw [exec_readLink_entry hs, Link.bytes]
  rfl

end Sys2Proof.Machine
end

section
/-! SUPPORT. The posting table (10_event_records_and_the_alert_line.md, R174): its three rows are the model's three posting
equations, the last with the lost count that stays at its top value. -/

namespace Sys2Proof.Machine

/-- The lost count at its top value stays there: the value it keeps is the constant that R174 names. -/
theorem lostCount_at_top (lost : BitVec 16) :
    (if lost = 0xFFFF then lost else lost + 1) = if lost = 65535 then 65535 else lost + 1 := by
  by_cases top : lost = 65535
  · rw [if_pos top, if_pos top, top]
  · rw [if_neg top, if_neg top]

/-- Settles O10: each row of the table is the posting equation for its mask bit and event count. -/
theorem postingMakesARecord : Obligations.PostingMakesARecord := by
  refine fun s k about => ⟨State.post_off about, State.post_stored about, fun enabled full => ?_⟩
  rw [State.post_lost about enabled full, lostCount_at_top]

end Sys2Proof.Machine
end

section
/-! SUPPORT. POP EVENT (10_event_records_and_the_alert_line.md, R177; 11_the_management_port.md, R197): the record leaves the
queue in the sixteen bytes of its layout, and a discarded frame leaves the queue alone. -/

namespace Sys2Proof.Machine

/-- A command without an index that is taken with index 00h leaves the state it makes, and the frame answers DONE with
the response bytes (R184, R185). -/
theorem State.serve_begin_withoutIndex {s : State} (h : s.frameHeld = false) (c : FrameCommand) (args : List Byte)
    (t : State) (body : List Byte) : s.begin.serve c 0 args (withoutIndex 0 (.ok (t, body))) =
      { t with frame :=
        { mcsLow := true, received := c.code :: 0 :: args, reply := ResponseCode.done.code :: body } } :=
  State.framed_live (s := s.begin) h t _ _

/-! ### The effect of POP EVENT (R177) -/

theorem State.popEvent_empty {s : State} (h : s.events = []) : s.popEvent = (s, List.replicate 16 0) := by
  rw [State.popEvent, h]

theorem State.popEvent_cons {s : State} {r : Record} {rest : List Record} (h : s.events = r :: rest) :
    s.popEvent = ({ s with events := rest }, r.bytes) := by
  rw [State.popEvent, h]

theorem exec_popEvent (index : Byte) (s : State) : exec (.popEvent index) s = .next
    (s.begin.serve .popEvent index [] (withoutIndex index (.ok s.begin.popEvent))) := rfl

theorem exec_popEvent_record {s : State} (hs : s.frameHeld = false) {r : Record} {rest : List Record}
    (he : s.events = r :: rest) : exec (.popEvent 0) s = .next
      ({ s with events := rest }.replied [0x04, 0x00] (0x00 :: r.bytes)) := by
  rw [exec_popEvent, State.popEvent_cons (s := s.begin) he, State.serve_begin_withoutIndex hs]
  rfl

theorem exec_popEvent_empty {s : State} (hs : s.frameHeld = false) (he : s.events = []) :
    exec (.popEvent 0) s = .next (s.replied [0x04, 0x00] (0x00 :: List.replicate 16 0x00)) := by
  rw [exec_popEvent, State.popEvent_empty (s := s.begin) he, State.serve_begin_withoutIndex hs]
  rfl

/-! ### The record layout (R197) -/

/-- An optional number of a record is sent as itself, or as 0 where it is absent. -/
theorem optByte_eq_getD {n : Nat} (x : Option (Fin n)) : optByte x = byteOf ((x.map Fin.val).getD 0) := by
  cases x <;> rfl

/-! ### A frame cut short before the taking (R177, R183) -/

theorem exec_frameDiscarded (received : List Byte) (s : State) : exec (.frameDiscarded received) s = .next
    { s.begin with frame := Frame.empty, frameHeld := s.frameHeld && s.resetLow } := rfl

theorem exec_frameDiscarded_events (received : List Byte) (s : State) :
    ∃ t, exec (.frameDiscarded received) s = .next t ∧ t.events = s.events :=
  ⟨_, exec_frameDiscarded received s, rfl⟩

/-- Settles O19: a record at the head is popped in its bytes, whose five optional numbers are the fields coded case by case;
an empty queue answers EMPTY; a discarded frame keeps the queue; and the codes are the model's tables. -/
theorem popEvent : Obligations.PopEvent := by
  refine ⟨fun s r rest hs he => ?_, fun s hs he => exec_popEvent_empty hs he,
    fun received s _ => exec_frameDiscarded_events received s, rfl, fun _ => rfl, fun _ => rfl, rfl, rfl, rfl, rfl, rfl⟩
  rw [exec_popEvent_record hs he, Record.bytes]
  simp only [optByte_eq_getD]
  rfl

end Sys2Proof.Machine
end

section
/-! SUPPORT. READ STATUS (11_the_management_port.md, R190): the five figures are taken, and then the lost count is 0. -/

namespace Sys2Proof.Machine

theorem exec_readStatus (index : Byte) (s : State) : exec (.readStatus index) s = .next
    (s.begin.serve .readStatus index [] (withoutIndex index (.ok ({ s.begin with lost := 0 }, s.statusBytes)))) := rfl

theorem exec_readStatus_taken {s : State} (hs : s.frameHeld = false) : exec (.readStatus 0) s = .next
    ({ s with lost := 0 }.replied [0x03, 0x00] (0x00 :: s.statusBytes)) := by
  rw [exec_readStatus, State.serve_begin_withoutIndex hs]
  rfl

/-- Settles O18: the command with index 00h is taken, and its response bytes are the five figures as they stood, the held
requests being the tags that are not FREE. -/
theorem readStatus : Obligations.ReadStatus := by
  intro s hs
  rw [exec_readStatus_taken hs, State.statusBytes, State.heldRequests]
  rfl

end Sys2Proof.Machine
end

section
/-! SUPPORT. UNKNOWN (11_the_management_port.md, R184): a code of no row of the command table, and an index byte that names
nothing. -/

namespace Sys2Proof.Machine

/-! ### An index byte of no object, of no bank and of no queue position -/

theorem withoutIndex_unknown {index : Byte} (h : index ≠ 0) (body : Except ResponseCode (State × List Byte)) :
    withoutIndex index body = .error .unknown := if_neg h

theorem withBank_unknown {index : Byte} (h : 8 ≤ index.toNat) (body : BankId → Except ResponseCode (State × List Byte)) :
    withBank index body = .error .unknown := by
  simp only [withBank, bankOf_none h]

theorem parkPosition_unknown {index : Byte} (h : 24 ≤ index.toNat) (body : Except ResponseCode (State × List Byte)) :
    (if index.toNat < Config.parkCapacity then body else .error .unknown) = .error .unknown := if_neg (Nat.not_lt.2 h)

/-! ### The two ways to be answered UNKNOWN -/

/-- A command whose index is refused as UNKNOWN changes nothing but the frame, with 00h in each of the response bytes that
the command table gives it (R184, R185). -/
theorem exec_unknownIndex {x : Instr} {s : State} (hs : s.frameHeld = false) (c : FrameCommand) {index : Byte}
    {args : List Byte} {result : Except ResponseCode (State × List Byte)}
    (hx : exec x s = .next (s.begin.serve c index args result)) (hr : result = .error .unknown) :
    exec x s = .next (s.replied (c.code :: index :: args) (0x05 :: List.replicate c.responseBytes 0)) := by
  rw [hx, hr, State.serve_begin_error hs]
  rfl

/-- A code of no row is taken as soon as its index byte is in. -/
theorem decodeFrame_unknownCode {code : Byte} (h : FrameCommand.ofCode code = none) (index : Byte) :
    decodeFrame [code, index] = some (.unknownCommand code index) :=
  Laws.FrameCodec.unknownCommand code index (by simp only [Instr.wellFormed, h, Option.isNone_none]) _ rfl []

theorem exec_unknownCommand {s : State} (hs : s.frameHeld = false) (code index : Byte) :
    exec (.unknownCommand code index) s = .next (s.replied [code, index] [0x05]) :=
  congrArg Host.Outcome.next (State.framed_live (s := s.begin) hs s.begin _ _)

/-- Settles O14: by what the index names, nothing, a bank, a link, a window or a queue position, each command of the table
hands an index out of range to `exec_unknownIndex`. -/
theorem unknownIsAnsweredUnknown : Obligations.UnknownIsAnsweredUnknown := by
  intro s i hs
  refine ⟨fun code hc => ⟨decodeFrame_unknownCode hc i, exec_unknownCommand hs code i⟩, fun hi => ?noObject,
    fun hi => ?bankOrLink, fun hi => ?window, fun hi => ?parked⟩
  case noObject =>
    exact ⟨exec_unknownIndex hs .readGlobal rfl (withoutIndex_unknown hi _),
      fun _ => exec_unknownIndex hs .writeGlobal rfl (withoutIndex_unknown hi _),
      exec_unknownIndex hs .readStatus (exec_readStatus i s) (withoutIndex_unknown hi _),
      exec_unknownIndex hs .popEvent (exec_popEvent i s) (withoutIndex_unknown hi _)⟩
  case bankOrLink =>
    exact ⟨exec_unknownIndex hs .readBankConfig rfl (withBank_unknown hi _),
      fun _ => exec_unknownIndex hs .writeBankConfig rfl (withBank_unknown hi _),
      exec_unknownIndex hs .readBankStatus rfl (withBank_unknown hi _),
      exec_unknownIndex hs .wakeBank rfl (withBank_unknown hi _),
      fun _ => exec_unknownIndex hs .sleepBank rfl (withBank_unknown hi _),
      exec_unknownIndex hs .flushBank rfl (withBank_unknown hi _),
      exec_unknownIndex hs .clearFault rfl (withBank_unknown hi _),
      fun _ _ _ => exec_unknownIndex hs .markSegments rfl (withBank_unknown hi _),
      exec_unknownIndex hs .clearCount rfl (withBank_unknown hi _),
      exec_readLink_unknown hs hi,
      fun _ => exec_unknownIndex hs .writeLink rfl (withLink_unknown hi _)⟩
  case window =>
    exact ⟨exec_readWindow_unknown hs hi, fun _ => exec_unknownIndex hs .writeWindow rfl (withWindow_unknown hi _)⟩
  case parked => exact exec_unknownIndex hs .readParked rfl (parkPosition_unknown hi _)

end Sys2Proof.Machine
end

section
/-! SUPPORT. What every step keeps (95_what_each_step_holds.md): a step is a run of moves, so it keeps what every move keeps. -/

namespace Sys2Proof.Machine

/-! ### A step as a run of moves -/

/-- A step is a REFCLK cycle, or the front command on the rest of the queue. -/
theorem step_cases {s t : State} (h : step s = .next t) :
    (s.pending = [] ∧ t = s.idle) ∨ ∃ c rest, s.pending = c :: rest ∧ exec c { s with pending := rest } = .next t := by
  unfold step at h
  split at h
  · exact .inl ⟨‹_›, (Host.Outcome.next.inj h).symm⟩
  · exact .inr ⟨_, _, ‹_›, h⟩

/-- Taking a command from the queue is a move of what stands outside the blocks. -/
theorem Move.dequeue (i : Prop) (s : State) (rest : List Instr) : Move i s { s with pending := rest } :=
  .outside s s.busOut s.fillError s.frame s.presented s.lost s.clock s.linkClosed s.resetLow s.frameHeld rest id

theorem State.idle_moves (i : Prop) (s : State) : MoveRun i s s.idle := by
  refine State.begin_run ?_
  unfold State.idle State.cycled
  split
  · exact .refl
  · split
    · exact (Move.outside s.begin [] none s.frame s.presented s.lost { s.clock with cycles := s.clock.cycles + 1 }
        s.linkClosed s.resetLow s.frameHeld s.pending id).run
    · exact (Move.tick s.begin s.begin.nextTick).run

/-- Every step is a run of moves. -/
theorem step_moves {s t : State} (hs : s.QueuesHold) (h : step s = .next t) : ∃ i, MoveRun i s t := by
  obtain ⟨-, rfl⟩ | ⟨c, rest, -, hc⟩ := step_cases h
  · exact ⟨True, s.idle_moves True⟩
  · have hq : State.QueuesHold { s with pending := rest } := hs.of_power rfl rfl fun _ => rfl
    exact ⟨_, (Move.dequeue _ s rest).run.trans (exec_moves hq hc)⟩

theorem step_bank {s t : State} (hs : s.QueuesHold) (h : step s = .next t) (b : BankId) :
    BankRun (s.bank b) (t.bank b) := by
  obtain ⟨_, run⟩ := step_moves hs h
  exact run.bank hs b

/-- Only a command parks a request, and no command beyond the bound of the queue (R28). -/
theorem step_bounded {s t : State} (hs : s.QueuesHold) (h : step s = .next t) (hb : s.QueueBounded) : t.QueueBounded := by
  obtain ⟨-, rfl⟩ | ⟨c, rest, -, hc⟩ := step_cases h
  · exact ((s.idle_moves False).length id).trans hb
  · exact exec_bounded (s := { s with pending := rest }) (hs.of_power rfl rfl fun _ => rfl) hc hb

/-! ### The invariants -/

/-- Settles O54: every move keeps the queues in step with the banks. -/
theorem stepsKeepTheQueues : Obligations.StepsKeepTheQueues := by
  intro s t hs h
  obtain ⟨_, run⟩ := step_moves hs h
  exact run.queues hs

/-- Settles O55: every move keeps the account of the units, given that the queues are in step. -/
theorem stepsKeepTheUnits : Obligations.StepsKeepTheUnits := by
  intro s t hs hu h
  obtain ⟨_, run⟩ := step_moves hs h
  exact run.unitsHold hs hu

/-- Settles O56: each of the four properties is one of a single bank, and every change that a step makes to a bank keeps
it. -/
theorem stepsKeepTheBanks : Obligations.StepsKeepTheBanks := by
  intro s t hs h
  exact ⟨fun hm b => (step_bank hs h b).keep (P := Bank.MarksHold) BankMove.marksHold (hm b),
    fun ha b => (step_bank hs h b).keep (P := Bank.AbsentOff) BankMove.absentOff (ha b),
    fun hp b => (step_bank hs h b).keep (P := Bank.PortHolds) BankMove.portHolds (hp b),
    fun hk b => (step_bank hs h b).keep (P := Bank.KindsHold) BankMove.kindsHold (hk b)⟩

/-- Settles O57: the parking queue grows only by an intake that checks the bound, the ports are bounded bank by bank, and the
other two are kept by every move. -/
theorem stepsKeepTheBounds : Obligations.StepsKeepTheBounds := by
  intro s t hs h
  obtain ⟨_, run⟩ := step_moves hs h
  exact ⟨step_bounded hs h, run.eventsBounded,
    fun hp b => (step_bank hs h b).keep (P := Bank.PortBounded) BankMove.portBounded (hp b), run.resetCloses⟩

/-- Settles O58: every move keeps the window table and the link table sound. -/
theorem stepsKeepTheTables : Obligations.StepsKeepTheTables := by
  intro s t hs h
  obtain ⟨_, run⟩ := step_moves hs h
  exact ⟨run.windowsSound, run.linksSound⟩

/-- Settles O59: every move keeps the banks with parked entries awake, given sound windows and absent banks in OFF. -/
theorem stepsKeepParkedBanksAwake : Obligations.StepsKeepParkedBanksAwake := by
  intro s t hs ha hw hp h
  obtain ⟨_, run⟩ := step_moves hs h
  exact run.parkedAwake hs ha hw hp

/-- Settles O60: every move keeps the responses in line with the tag table, and with it the held counts. -/
theorem stepsKeepTheHeldRequests : Obligations.StepsKeepTheHeldRequests := by
  intro s t hs ha h
  obtain ⟨_, run⟩ := step_moves hs h
  exact ⟨run.tagsAnswered ha, run.heldCounts ha⟩

end Sys2Proof.Machine
end

section
/-! SUPPORT. The step (11_the_management_port.md, R189): the front command, or one REFCLK cycle; and no command stops. -/

namespace Sys2Proof.Machine

/-- Settles O1: the step reads the queue and nothing else. -/
theorem stepRunsTheFrontCommand : Obligations.StepRunsTheFrontCommand := fun _ _ _ => rfl

/-! ### REFCLK cycles on an empty queue -/

theorem step_empty {s : State} (h : s.pending = []) : step s = .next s.begin.cycled := by
  unfold step; rw [h]; rfl

theorem State.cycled_begin_cases (s : State) : s.begin.cycled.pending = s.pending ∧ s.begin.cycled.begin = s.begin.cycled := by
  unfold State.cycled
  split
  · exact ⟨rfl, rfl⟩
  · split <;> exact ⟨rfl, rfl⟩

theorem run_succ {s t : State} (h : step s = .next t) (n : Nat) : run (n + 1) s = run n t := by
  simp only [run, Host.Core.run, h]

/-- So many steps on an empty queue are so many REFCLK cycles. -/
theorem run_empty : ∀ (n : Nat) {s : State}, s.pending = [] → run (n + 1) s = .next (s.begin.cycles (n + 1))
  | 0, s, h => run_succ (step_empty h) 0
  | n + 1, s, h => by
    obtain ⟨queue, begun⟩ := s.cycled_begin_cases
    have later := run_empty n (queue.trans h)
    rw [run_succ (step_empty h), later, begun]
    rfl

/-- Settles O2: one step is one cycle; the cycles that TICK lets go by are those that the tick has left. -/
theorem stepOnEmptyQueueCountsACycle : Obligations.StepOnEmptyQueueCountsACycle := by
  intro s empty
  refine ⟨fun low => ?held, fun high counts => ?counted, fun high ends => ?ended, fun high left => ?all⟩
  case held => rw [step_empty empty, State.cycled, if_pos (show s.begin.resetLow = true from low)]; rfl
  case counted =>
    rw [step_empty empty, State.cycled, if_neg (show ¬ s.begin.resetLow = true by simp [State.begin, high]),
      if_pos (show s.begin.clock.cycles + 1 < s.begin.clock.tickCycles from counts)]
    rfl
  case ended =>
    have one : s.clock.left = 1 := by unfold Timebase.left; omega
    rw [step_empty empty]
    show _ = execTick s
    rw [execTick, one]
    rfl
  case all =>
    obtain ⟨n, more⟩ : ∃ n, s.clock.tickCycles - s.clock.cycles = n + 1 := ⟨_, (Nat.succ_pred_eq_of_pos (by omega)).symm⟩
    have same : s.clock.left = n + 1 := by unfold Timebase.left; omega
    rw [more, run_empty n empty]
    show _ = execTick s
    rw [execTick, same]
    rfl

/-! ### Every command answers a next state -/

/-- Every meaning ends in `proceed`, whatever its conditions choose. -/
theorem exec_next (c : Instr) (s : State) : ∃ t, exec c s = .next t := by
  cases c with
  | pinReset edge pins =>
    cases edge with
    | fall => exact ⟨_, rfl⟩
    | rise => show ∃ t, execPinReset .rise pins s = .next t; unfold execPinReset; dsimp only; split <;> exact ⟨_, rfl⟩
  | linkReset => show ∃ t, execLinkReset s = .next t; unfold execLinkReset; split <;> exact ⟨_, rfl⟩
  | acceptance channel =>
    cases channel with
    | low => exact ⟨_, rfl⟩
    | shows r => exact ⟨_, rfl⟩
    | edge r => show ∃ t, execAcceptance (.edge r) s = .next t; unfold execAcceptance; dsimp only; split <;> exact ⟨_, rfl⟩
  | responseTaken =>
    show ∃ t, execResponseTaken s = .next t; unfold execResponseTaken
    split
    · exact ⟨_, rfl⟩
    · split <;> exact ⟨_, rfl⟩
  | stageDwellExpiry b =>
    show ∃ t, execStageDwellExpiry b s = .next t; unfold execStageDwellExpiry; split <;> exact ⟨_, rfl⟩
  | wakeLimitExpiry b =>
    show ∃ t, execWakeLimitExpiry b s = .next t; unfold execWakeLimitExpiry; split <;> exact ⟨_, rfl⟩
  | responseTimeout b =>
    show ∃ t, execResponseTimeout b s = .next t; unfold execResponseTimeout; split <;> exact ⟨_, rfl⟩
  | completion b result data =>
    show ∃ t, execCompletion b result data s = .next t; unfold execCompletion
    split
    · exact ⟨_, rfl⟩
    · split <;> exact ⟨_, rfl⟩
  | parkExpiry g => show ∃ t, execParkExpiry g s = .next t; unfold execParkExpiry; split <;> exact ⟨_, rfl⟩
  | idleExpiry b => show ∃ t, execIdleExpiry b s = .next t; unfold execIdleExpiry; split <;> exact ⟨_, rfl⟩
  | retainExpiry b => show ∃ t, execRetainExpiry b s = .next t; unfold execRetainExpiry; split <;> exact ⟨_, rfl⟩
  | linkOpen | tick | rampCompletion | grant | railDrop | fillWriteIssue | drainCompletion | unknownCommand | readGlobal
  | writeGlobal | readStatus | popEvent | readBankConfig | writeBankConfig | readBankStatus | wakeBank | sleepBank
  | flushBank | clearFault | markSegments | clearCount | readWindow | writeWindow | readLink | writeLink | readParked
  | frameDiscarded => exact ⟨_, rfl⟩

theorem step_next (s : State) : ∃ t, step s = .next t := by
  unfold step
  split
  · exact ⟨_, rfl⟩
  · exact exec_next _ _

theorem safeRun : ∀ (n : Nat) (s : State), SafeRun n s
  | 0, s => ⟨s, rfl⟩
  | n + 1, s => by
    obtain ⟨u, hu⟩ := step_next s
    obtain ⟨t, ht⟩ := safeRun n u
    exact ⟨t, (run_succ hu n).trans ht⟩

/-- Settles O3: every command answers a next state, so by induction on its length does every run. -/
theorem noRunStops : Obligations.NoRunStops := ⟨exec_next, safeRun⟩

end Sys2Proof.Machine
end

section
/-! SUPPORT. PIN_RESET, LINK_RESET, LINK_OPEN and TICK. -/

namespace Sys2Proof.Machine

/-! ### The state after pin reset -/

theorem State.reset_bank (b : BankId) : State.reset.bank b = Bank.reset := by simp [State.reset, State.bank]

theorem State.reset_window (i : WindowId) : State.reset.windows[i] = Window.reset := by simp [State.reset]

theorem State.reset_link (l : LinkId) : State.reset.links[l] = Link.reset := by simp [State.reset]

theorem State.reset_tag (t : Tag) : State.reset.tags[t] = TagRecord.reset := by simp [State.reset]

/-- Settles O4: the bank, window, link and tag tables hold one reset record each, and the rest is read off. -/
theorem resetValues : Obligations.ResetValues := by
  refine ⟨fun b => ?_, rfl, rfl, rfl, rfl, rfl, fun i => ?_, fun l => ?_, fun t => ?_, rfl, rfl, rfl, rfl, rfl, rfl, rfl,
    rfl, rfl, rfl⟩
  · rw [State.reset_bank]; rfl
  · rw [State.reset_window]; rfl
  · rw [State.reset_link]; rfl
  · rw [State.reset_tag]; rfl

/-- A property of the reset record of a bank is one of every bank after pin reset. -/
theorem State.reset_banks {P : Bank → Prop} (h : P Bank.reset) (b : BankId) : P (State.reset.bank b) :=
  (State.reset_bank b).symm ▸ h

theorem reset_queuesHold : State.reset.QueuesHold where
  waitOnce := List.nodup_nil
  wait b := by rw [State.reset_bank]; simp [State.reset, Bank.reset]
  fillOnce := List.nodup_nil
  fill b := by rw [State.reset_bank]; simp [State.reset, Bank.reset]

theorem reset_unitsHold : State.reset.UnitsHold where
  sum := by decide
  within := Nat.zero_le _
  ramping := State.reset_banks (P := fun k => k.charge ≠ 0 → k.power = .ramping) fun h => absurd rfl h

theorem reset_portHolds : Bank.reset.PortHolds := ⟨fun _ => rfl, by decide⟩

theorem reset_kindsHold : Bank.reset.KindsHold := ⟨by decide, by decide, by decide⟩

theorem reset_windowsSound : State.reset.WindowsSound where
  sound i h := by rw [State.reset_window] at h; cases h
  apart i j _ h := by rw [State.reset_window] at h; cases h

theorem reset_linksSound : State.reset.LinksSound := fun l h => by rw [State.reset_link] at h; cases h

theorem reset_tagsAnswered : State.reset.TagsAnswered := fun t => by rw [State.reset_tag]; rfl

theorem reset_heldCounts : State.reset.HeldCounts := fun i => by
  rw [State.reset_window, State.heldThrough, List.countP_eq_zero.2]
  · rfl
  · intro t _; rw [State.reset_tag]; simp [TagRecord.reset]

/-- Settles O5: the lists are empty, and the tables hold one reset record each, of which each property is read off. -/
theorem resetHoldsTheInvariants : Obligations.ResetHoldsTheInvariants :=
  ⟨Nat.zero_le _, Nat.zero_le _, State.reset_banks (P := Bank.PortBounded) ⟨Nat.zero_le _, Nat.zero_le _⟩, reset_queuesHold,
    reset_unitsHold, State.reset_banks (P := Bank.MarksHold) fun _ => allLost, State.reset_banks reset_portHolds,
    State.reset_banks reset_kindsHold, State.reset_banks (P := Bank.AbsentOff) fun _ => rfl, reset_windowsSound,
    reset_linksSound, (fun e he => by cases he), reset_tagsAnswered, reset_heldCounts, (fun h => by cases h)⟩

/-! ### PIN_RESET -/

/-- Settles O6: the fall puts the part in its held state, whose outputs are read off; the rise leaves the reset record of
every bank with the level that its PGOOD input has. -/
theorem pinReset : Obligations.PinReset := by
  refine ⟨fun pins s => ⟨rfl, rfl, rfl, rfl, State.mdo_undriven (.inl rfl), fun b => ?_⟩, fun pins s => ⟨fun low => ?_, fun high => ?_⟩⟩
  · exact State.reset_banks (P := fun k => k.railStg = 0 ∧ k.railRet = false) ⟨rfl, rfl⟩ b
  · show execPinReset .rise pins s = _
    unfold execPinReset
    simp only [low, if_true, State.afterPinReset, State.reset_bank]
    rfl
  · show execPinReset .rise pins s = _
    unfold execPinReset
    simp only [high]
    rfl

/-! ### LINK_RESET and LINK_OPEN -/

/-- A bank at a link reset: its idle timer no longer waits for parked entries, and its requests are orphans (R59, R138). -/
theorem State.dropRequests_record (s : State) (b : BankId) : s.dropRequests.bank b =
    { s.bank b with
      idleTimer :=
        if (s.bank b).power = .on then
          match (s.bank b).idleTimer with
          | .held _ => .counting ((s.bank b).config.idleLimit.toNat * 1000)
          | .counting n => .counting n
          | .stopped => .stopped
        else (s.bank b).idleTimer
      port := { (s.bank b).port with slots := (s.bank b).port.slots.map Slot.orphaned } } := by
  rw [State.dropRequests_bank, ← parkedCount_nil b, Bank.syncIdle_eq]
  unfold Bank.orphaned Bank.withPort
  simp only [List.not_mem_nil, false_and, exists_false, if_false]
  congr 1
  split
  · cases (s.bank b).idleTimer <;> rfl
  · rfl

/-- Settles O7: the bank records after the two passes over them are those named, and the other fields are written once. -/
theorem linkReset : Obligations.LinkReset := by
  intro s opened
  show execLinkReset s = _
  unfold execLinkReset
  rw [if_neg (by simp [opened])]
  refine congrArg (fun u : State => proceed (u.post .linkReset {})) ?_
  refine State.ext ?banks rfl rfl rfl rfl rfl rfl rfl rfl rfl rfl rfl rfl rfl rfl rfl rfl rfl rfl rfl rfl rfl rfl
  refine Vector.ext fun i hi => ?_
  rw [Vector.getElem_ofFn]
  exact s.begin.dropRequests_record ⟨i, hi⟩

/-- Settles O8: the two meanings read the level of the link and nothing else. -/
theorem linkOpen : Obligations.LinkOpen := by
  refine ⟨fun s => rfl, fun s closed => ?_⟩
  show execLinkReset s = _
  rw [execLinkReset, if_pos closed]
  rfl

/-! ### TICK -/

/-- Settles O9: TICK is the end of the present tick. -/
theorem tick : Obligations.Tick := by
  refine fun s => ⟨fun low => ?_, fun high => ?_⟩
  · show execTick s = _
    rw [execTick_eq, if_pos low]; rfl
  · show execTick s = _
    rw [execTick_eq, if_neg (by simp [high])]; rfl

end Sys2Proof.Machine
end

section
/-! SUPPORT. Management frames (11_the_management_port.md): what a frame spells, and a port that takes none. -/

namespace Sys2Proof.Machine

/-- The frame of every command spells it, whatever bytes follow: the laws of `FrameCodec`, command by command. -/
theorem frame_spells (c : Instr) : Laws.FrameCodec.Statement c := by
  cases c with
  | pinReset e p => exact Laws.FrameCodec.pinReset e p
  | linkReset => exact Laws.FrameCodec.linkReset
  | linkOpen => exact Laws.FrameCodec.linkOpen
  | tick => exact Laws.FrameCodec.tick
  | acceptance c => exact Laws.FrameCodec.acceptance c
  | responseTaken => exact Laws.FrameCodec.responseTaken
  | stageDwellExpiry b => exact Laws.FrameCodec.stageDwellExpiry b
  | rampCompletion b => exact Laws.FrameCodec.rampCompletion b
  | grant => exact Laws.FrameCodec.grant
  | wakeLimitExpiry b => exact Laws.FrameCodec.wakeLimitExpiry b
  | railDrop b => exact Laws.FrameCodec.railDrop b
  | responseTimeout b => exact Laws.FrameCodec.responseTimeout b
  | completion b r d => exact Laws.FrameCodec.completion b r d
  | fillWriteIssue => exact Laws.FrameCodec.fillWriteIssue
  | drainCompletion b => exact Laws.FrameCodec.drainCompletion b
  | parkExpiry g => exact Laws.FrameCodec.parkExpiry g
  | idleExpiry b => exact Laws.FrameCodec.idleExpiry b
  | retainExpiry b => exact Laws.FrameCodec.retainExpiry b
  | unknownCommand c i => exact Laws.FrameCodec.unknownCommand c i
  | readGlobal i => exact Laws.FrameCodec.readGlobal i
  | writeGlobal i a => exact Laws.FrameCodec.writeGlobal i a
  | readStatus i => exact Laws.FrameCodec.readStatus i
  | popEvent i => exact Laws.FrameCodec.popEvent i
  | readBankConfig i => exact Laws.FrameCodec.readBankConfig i
  | writeBankConfig i a => exact Laws.FrameCodec.writeBankConfig i a
  | readBankStatus i => exact Laws.FrameCodec.readBankStatus i
  | wakeBank i => exact Laws.FrameCodec.wakeBank i
  | sleepBank i t => exact Laws.FrameCodec.sleepBank i t
  | flushBank i => exact Laws.FrameCodec.flushBank i
  | clearFault i => exact Laws.FrameCodec.clearFault i
  | markSegments i f c v => exact Laws.FrameCodec.markSegments i f c v
  | clearCount i => exact Laws.FrameCodec.clearCount i
  | readWindow i => exact Laws.FrameCodec.readWindow i
  | writeWindow i a => exact Laws.FrameCodec.writeWindow i a
  | readLink i => exact Laws.FrameCodec.readLink i
  | writeLink i a => exact Laws.FrameCodec.writeLink i a
  | readParked i => exact Laws.FrameCodec.readParked i
  | frameDiscarded received => exact Laws.FrameCodec.frameDiscarded received

/-- Settles O12: the law of every command, with no byte behind its frame. -/
theorem frameDecodesToItsCommand : Obligations.FrameDecodesToItsCommand := by
  intro c bytes formed frame
  simpa using frame_spells c formed bytes frame []

/-- Settles O13: the frames are closed terms. -/
theorem framesOfTheTable : Obligations.FramesOfTheTable := by
  unfold Obligations.FramesOfTheTable
  decide

/-! ### A port that takes no frame (R186) -/

theorem State.serve_held {s : State} (held : s.frameHeld = true) (c : FrameCommand) (index : Byte) (args : List Byte)
    (result : Except ResponseCode (State × List Byte)) : s.serve c index args result = s := by
  unfold State.serve; split <;> exact State.framed_held held _ _ _

/-- Every command that a frame brings is served through the frame, which a held port does not take. -/
theorem exec_frame_held {c : Instr} {bytes : List Byte} {s : State} (held : s.frameHeld = true)
    (frame : frameBytes c = some bytes) : exec c s = .next s.settled := by
  have held' : s.begin.frameHeld = true := held
  have served : ∀ code index args result, proceed (s.begin.serve code index args result) = .next s.settled :=
    fun code index args result => congrArg proceed (State.serve_held held' code index args result)
  cases c with
  | unknownCommand code index => exact congrArg proceed (State.framed_held held' _ _ _)
  | readGlobal | writeGlobal | readStatus | popEvent | readBankConfig | writeBankConfig | readBankStatus | wakeBank
  | sleepBank | flushBank | clearFault | markSegments | clearCount | readWindow | writeWindow | readLink | writeLink
  | readParked => exact served _ _ _ _
  | pinReset | linkReset | linkOpen | tick | acceptance | responseTaken | stageDwellExpiry | rampCompletion | grant
  | wakeLimitExpiry | railDrop | responseTimeout | completion | fillWriteIssue | drainCompletion | parkExpiry | idleExpiry
  | retainExpiry | frameDiscarded => cases frame

/-- A rise of MCS_N leaves no frame on the port. -/
theorem exec_frameDiscarded_settled (received : List Byte) {s : State} {held : Bool}
    (h : (s.frameHeld && s.resetLow) = held) : exec (.frameDiscarded received) s = .next
      { s.settled with frame := { mcsLow := false, received := [], reply := [] }, frameHeld := held } := by
  rw [exec_frameDiscarded, h]; rfl

/-- Settles O15: a rise of MCS_N leaves the port held only where it is held and RESET_N is low. -/
theorem discardedFrameDoesNothing : Obligations.DiscardedFrameDoesNothing := by
  refine ⟨fun received s _ => ⟨State.mdo_undriven (.inr rfl), fun live => ?live, fun held high => ?leaves, fun held low => ?stays⟩,
    fun c bytes s held frame => exec_frame_held held frame⟩
  case live => exact exec_frameDiscarded_settled received (by rw [live, Bool.false_and]; exact live.symm)
  case leaves => exact exec_frameDiscarded_settled received (by simp [high])
  case stays => exact exec_frameDiscarded_settled received (by rw [low, Bool.and_true]; rfl)

end Sys2Proof.Machine
end

section
/-! SUPPORT. Reads of the management port: READ GLOBAL, READ BANK CONFIG, READ BANK STATUS and READ PARKED (R187, R191, R24,
R55). -/

namespace Sys2Proof.Machine

theorem withBank_byteOf (b : BankId) (body : BankId → Except ResponseCode (State × List Byte)) :
    withBank (byteOf b.val) body = body b := by
  simp only [withBank, bankOf_byteOf]

/-- A command for a bank that is taken leaves the state it makes, and the frame answers DONE (R185). -/
theorem State.serve_begin_ok {s : State} (h : s.frameHeld = false) (c : FrameCommand) (index : Byte) (args : List Byte)
    (t : State) (body : List Byte) : s.begin.serve c index args (.ok (t, body)) =
      { t with frame := { mcsLow := true, received := c.code :: index :: args, reply := ResponseCode.done.code :: body } } :=
  State.framed_live (s := s.begin) h t _ _

theorem exec_readGlobal_taken {s : State} (hs : s.frameHeld = false) :
    exec (.readGlobal 0) s = .next (s.replied [0x01, 0x00] (0x00 :: s.global.bytes)) :=
  congrArg Host.Outcome.next (State.serve_begin_withoutIndex hs .readGlobal [] s.begin s.global.bytes)

theorem exec_readBankConfig_bank {s : State} (hs : s.frameHeld = false) (b : BankId) :
    exec (.readBankConfig (byteOf b.val)) s
      = .next (s.replied [0x10, byteOf b.val] (0x00 :: (s.bank b).config.bytes)) := by
  show proceed (s.begin.serve .readBankConfig (byteOf b.val) [] (withBank (byteOf b.val) _)) = _
  rw [withBank_byteOf, State.serve_begin_ok hs]
  rfl

theorem exec_readBankStatus_bank {s : State} (hs : s.frameHeld = false) (b : BankId) :
    exec (.readBankStatus (byteOf b.val)) s
      = .next (s.replied [0x12, byteOf b.val] (0x00 :: s.bankStatusBytes b)) := by
  show proceed (s.begin.serve .readBankStatus (byteOf b.val) [] (withBank (byteOf b.val) _)) = _
  rw [withBank_byteOf, State.serve_begin_ok hs]
  rfl

theorem RestTarget.code_eq_ite (t : RestTarget) : t.code = if t = .off then 1 else 0 := by cases t <;> rfl

theorem FillPolicy.code_eq_ite (p : FillPolicy) : p.code = if p = .zero then 1 else 0 := by cases p <;> rfl

/-- The map byte of the eight segments from `n` on, segment `n` in the most significant bit (R195). -/
theorem mapByte_eq (marks : Vector Mark 32) (n : Nat) (h : n ≤ 24) : mapByte marks n =
    byteOf ((List.range 8).foldl
      (fun m i => 2 * m + if marks[(Fin.ofNat 32 (n + i) : Segment)] = .valid then 1 else 0) 0) := by
  refine congrArg byteOf (List.foldl_ext _ _ _ fun m i hi => ?_)
  have lt : n + i < 32 := by have := List.mem_range.1 hi; omega
  simp [Nat.mod_eq_of_lt lt, lt]

/-- Settles O16: the three reads answer the layouts of R195, whose coded fields are the model's code tables. -/
theorem readsOfConfigurationAndStatus : Obligations.ReadsOfConfigurationAndStatus := by
  refine ⟨fun s hs => exec_readGlobal_taken hs, fun s b hs => ?_, fun s b hs => ?_⟩
  · rw [exec_readBankConfig_bank hs, BankConfig.bytes, RestTarget.code_eq_ite, FillPolicy.code_eq_ite]
    rfl
  · rw [exec_readBankStatus_bank hs, State.bankStatusBytes]
    simp only [segmentMap]
    rw [mapByte_eq _ 0 (by omega), mapByte_eq _ 8 (by omega), mapByte_eq _ 16 (by omega), mapByte_eq _ 24 (by omega)]
    rfl

/-! ### READ PARKED -/

theorem exec_readParked_position {s : State} (hs : s.frameHeld = false) {index : Byte} (h : index.toNat < 24) :
    exec (.readParked index) s = .next (s.replied [0x30, index] (0x00 :: s.parkedBytes index.toNat)) := by
  show proceed (s.begin.serve .readParked index []
    (if index.toNat < Config.parkCapacity then .ok (s.begin, s.begin.parkedBytes index.toNat) else .error .unknown)) = _
  rw [if_pos (show index.toNat < Config.parkCapacity from h), State.serve_begin_ok hs]
  rfl

/-- The reason byte is the code of the first test of R31 that holds. -/
theorem State.reasonByte_eq (s : State) (earlier : List Entry) (e : Entry) : reasonByte (s.reason earlier e) =
    if ∃ x ∈ earlier, x.req.stream = e.req.stream then 0
    else if (s.bank e.req.bank).power = .waiting ∨ (s.bank e.req.bank).power = .ramping
        ∨ (s.bank e.req.bank).power = .draining then 1
    else if (s.bank e.req.bank).power = .filling ∧ (s.bank e.req.bank).marks[e.req.segment] = .lost then 2
    else if 4 ≤ (s.bank e.req.bank).port.slots.length then 3
    else Config.noReasonCode := by
  have full : (s.bank e.req.bank).port.hasRoom = false ↔ 4 ≤ (s.bank e.req.bank).port.slots.length :=
    decide_eq_false_iff_not.trans Nat.not_lt
  unfold State.reason
  simp only [List.any_eq_true, decide_eq_true_eq, full]
  split_ifs <;> rfl

theorem kindCode_eq_ite (k : Kind) : kindCode k = if k = .write then 1 else 0 := by cases k <;> rfl

/-- Settles O22: the entry at the position in its bytes, or EMPTY beyond the queue. -/
theorem readParked : Obligations.ReadParked := by
  intro s index hs hi
  refine ⟨fun e he => ?_, fun beyond => ?_⟩
  · rw [exec_readParked_position hs hi, State.parkedBytes, he]
    dsimp only
    rw [Entry.bytes, State.reasonByte_eq, kindCode_eq_ite]
    cases e.deadline <;> rfl
  · rw [exec_readParked_position hs hi, State.parkedBytes, List.getElem?_eq_none beyond]

end Sys2Proof.Machine
end

section
/-! SUPPORT. The window decoder (06_address_windows.md, R111 to R114) and the intake decision (R35, R41, R156). -/

namespace Sys2Proof.Machine

/-! ### The window that a request is decoded through -/

/-- Where one index alone meets a test, a search finds it. -/
theorem find?_finRange_only {n : Nat} {p : Fin n → Bool} {i : Fin n} (met : p i = true) (only : ∀ j, p j = true → j = i) :
    (List.finRange n).find? p = some i := by
  cases found : (List.finRange n).find? p with
  | none => exact absurd met (List.find?_eq_none.1 found i (List.mem_finRange i))
  | some j => rw [only j (List.find?_some found)]

theorem WindowConfig.contains_iff {c : WindowConfig} {x : Nat} : c.contains x = true ↔ c.holds x := decide_eq_true_iff

theorem State.DecodedThrough.findWindow {s : State} {r : Request} {i : WindowId} (h : s.DecodedThrough r i) :
    s.findWindow r.addr.toNat = some i := by
  refine find?_finRange_only ?_ fun j hj => ?_
  · exact decide_eq_true ⟨h.enabled, WindowConfig.contains_iff.2 h.first⟩
  · obtain ⟨enabled, first⟩ := of_decide_eq_true hj
    exact h.only j enabled (WindowConfig.contains_iff.1 first)

/-- The segment is the 32nd part of the capacity that the bank address lies in (R88, R112). -/
theorem BankConfig.segmentOf_eq (c : BankConfig) (a : BankAddr) :
    c.segmentOf a = Fin.ofNat 32 (a.toNat / (2 ^ (c.capacity.val + 20) / 32)) := by
  have parts : 2 ^ (c.capacity.val + 20) / 32 = 2 ^ (c.capacity.val + 15) := by
    rw [show c.capacity.val + 20 = c.capacity.val + 15 + 5 from rfl, Nat.pow_add _ _ 5]
    exact Nat.mul_div_cancel _ (by decide)
  rw [parts]
  rfl

theorem State.route_eq_figures (s : State) (i : WindowId) (r : Request) : s.route i r = s.figures r i := by
  unfold State.route State.figures Request.writeData
  simp only [BankConfig.segmentOf_eq]
  cases r.kind <;> rfl

/-- The finding for a request decoded through a window: denied to a WRITE where the window is read only (R113). -/
theorem State.DecodedThrough.decode {s : State} {r : Request} {i : WindowId} (h : s.DecodedThrough r i) : s.decode r =
    if s.windows[i].config.access = .readOnly ∧ r.kind = .write then .denied i else .permitted (s.figures r i) := by
  have last : ¬ s.windows[i].config.contains (r.addr.toNat + r.length - 1) = false := by
    rw [WindowConfig.contains_iff.2 h.last]; decide
  unfold State.decode
  rw [h.findWindow]
  dsimp only
  rw [if_neg last, State.route_eq_figures]

theorem State.DecodedThrough.permitted {s : State} {r : Request} {i : WindowId} (h : s.DecodedThrough r i)
    (may : s.windows[i].config.access = .readWrite ∨ r.kind = .read) : s.decode r = .permitted (s.figures r i) := by
  rw [h.decode, if_neg]
  rintro ⟨readOnly, write⟩
  rcases may with may | may
  · rw [readOnly] at may; cases may
  · rw [write] at may; cases may

/-- A request that no enabled window holds whole is outside the windows (R111, R114). -/
theorem State.decode_nowin {s : State} {r : Request} (h : ∀ i : WindowId, s.windows[i].config.enabled = true →
    ¬ (s.windows[i].config.holds r.addr.toNat ∧ s.windows[i].config.holds (r.addr.toNat + r.length - 1))) :
    s.decode r = .nowin := by
  unfold State.decode
  cases found : s.findWindow r.addr.toNat with
  | none => rfl
  | some i =>
    have met := List.find?_some found
    obtain ⟨enabled, first⟩ := of_decide_eq_true met
    have last : s.windows[i].config.contains (r.addr.toNat + r.length - 1) = false := by
      rw [Bool.eq_false_iff]
      exact fun last => h i enabled ⟨WindowConfig.contains_iff.1 first, WindowConfig.contains_iff.1 last⟩
    exact if_pos last

/-! ### The intake decision -/

theorem State.streamParked_iff {s : State} {st : Stream} : s.streamParked st = true ↔ ∃ e ∈ s.parked, e.req.stream = st := by
  simp [State.streamParked]

theorem Port.hasRoom_iff {p : Port} : p.hasRoom = true ↔ p.slots.length < 4 := decide_eq_true_iff

theorem Port.hasRoom_full {p : Port} : p.hasRoom = false ↔ 4 ≤ p.slots.length := decide_eq_false_iff_not.trans Nat.not_lt

/-- When a request is forwarded at once (R35). -/
theorem State.forwardsDirectly_iff {s : State} {x : Routed} : s.forwardsDirectly x = true ↔
    (∀ e ∈ s.parked, e.req.stream ≠ x.stream) ∧ (s.bank x.bank).port.slots.length < 4
      ∧ ((s.bank x.bank).power = .on ∨ (s.bank x.bank).power = .filling ∧ (s.bank x.bank).marks[x.segment] = .valid) := by
  have stream : s.streamParked x.stream = false ↔ ∀ e ∈ s.parked, e.req.stream ≠ x.stream := by
    rw [Bool.eq_false_iff, Ne, State.streamParked_iff]; push Not; rfl
  rw [← stream, ← Port.hasRoom_iff]
  exact decide_eq_true_iff

theorem Mark.ne_valid {m : Mark} : m ≠ .valid ↔ m = .lost := by cases m <;> decide

/-- When a request would be parked (R41), by the state of its bank. -/
theorem State.wouldPark_iff {s : State} {x : Routed} : s.wouldPark x = true ↔ s.parks x := by
  have direct : s.forwardsDirectly x = false ↔ ((∃ e ∈ s.parked, e.req.stream = x.stream)
      ∨ 4 ≤ (s.bank x.bank).port.slots.length ∨ (s.bank x.bank).power ≠ .on
        ∧ ((s.bank x.bank).power = .filling → (s.bank x.bank).marks[x.segment] = .lost)) := by
    rw [Bool.eq_false_iff, Ne, State.forwardsDirectly_iff, ← Mark.ne_valid]
    simp only [not_and_or, not_or, not_forall, not_not, Nat.not_lt, imp_iff_not_or]
  unfold State.wouldPark State.parks
  simp only [direct, State.streamParked_iff, Port.hasRoom_full]
  cases power : (s.bank x.bank).power <;> simp
  case draining => by_cases soft : (s.bank x.bank).drainKind = .soft <;> simp [soft, or_comm]
  case filling => rw [← or_assoc, or_comm (a := ∃ e ∈ s.parked, e.req.stream = x.stream)]
  case on => exact or_comm

/-- A request that reaches the intake passes unless it would be parked in a full queue (R156). -/
theorem State.accepts_permitted {s : State} {r : Request} {i : WindowId} (ht : s.Takes r) (hd : s.DecodedThrough r i)
    (may : s.windows[i].config.access = .readWrite ∨ r.kind = .read) :
    s.accepts r = false ↔ s.parks (s.figures r i) ∧ 24 ≤ s.parked.length := by
  have formed : ¬ r.malformed = true := by simpa [Request.malformed] using ht.formed
  unfold State.accepts
  rw [if_neg (by simp [ht.linkOpen]), if_neg (not_not.2 ht.free), if_neg formed, hd.permitted may]
  simp only [decide_eq_false_iff_not, State.wouldPark_iff, eq_iff_iff, iff_false, not_not]
  rfl

end Sys2Proof.Machine
end

section
/-! SUPPORT. The outputs (09_the_upstream_link.md, R154, R162, R164, R167; 10, R179; 11, R182, R186; 01, R1). -/

namespace Sys2Proof.Machine

theorem Bank.railStg_up {k : Bank} (h : k.power = .filling ∨ k.power = .on ∨ k.power = .draining) :
    k.railStg = k.config.stages.toNat := by
  rcases h with h | h | h <;> rw [Bank.railStg, h] <;> rfl

theorem Bank.railStg_down {k : Bank} (h : k.power = .off ∨ k.power = .retain ∨ k.power = .waiting ∨ k.power = .fault) :
    k.railStg = 0 := by
  rcases h with h | h | h | h <;> rw [Bank.railStg, h]

theorem Bank.railRet_iff {k : Bank} :
    k.railRet = true ↔ k.power = .retain ∨ (k.power = .waiting ∧ k.wakeKind = .fromRetain) := by
  unfold Bank.railRet
  cases k.power <;> simp

theorem State.alertN_iff {s : State} : s.alertN = false ↔ s.global.alert = true ∧ s.events ≠ [] := by
  simp [State.alertN]

/-- A request that is not parked in a full queue passes, whatever check of R156 it meets. -/
theorem State.accepts_held {s : State} {r : Request} (opened : s.linkClosed = false) (held : s.tags[r.tag].state ≠ .free) :
    s.accepts r = true := by
  unfold State.accepts; rw [if_neg (by simp [opened]), if_pos held]

theorem State.accepts_malformed {s : State} {r : Request} (opened : s.linkClosed = false)
    (crosses : 64 < r.addr.toNat % 64 + r.length) : s.accepts r = true := by
  unfold State.accepts
  rw [if_neg (by simp [opened]), if_pos (show r.malformed = true from decide_eq_true crosses), ite_self]

theorem State.accepts_nowin {s : State} {r : Request} (opened : s.linkClosed = false) (outside : s.decode r = .nowin) :
    s.accepts r = true := by
  unfold State.accepts
  rw [if_neg (by simp [opened]), outside, ite_self, ite_self]

theorem State.accepts_denied {s : State} {r : Request} {i : WindowId} (opened : s.linkClosed = false)
    (denied : s.decode r = .denied i) : s.accepts r = true := by
  unfold State.accepts
  rw [if_neg (by simp [opened]), denied, ite_self, ite_self]

theorem Response.lanes_get (x : Response) (i : Fin 64) : x.lanes[i] = x.data.getD i.val 0 := by
  simp [Response.lanes]

/-- Settles O11: the outputs are functions of the state, read case by case; RQ_ACCEPT by the checks of R156 in order. -/
theorem outputsFollowTheState : Obligations.OutputsFollowTheState := by
  refine ⟨fun k => ⟨Bank.railStg_down, fun h => by rw [Bank.railStg, h], Bank.railStg_up, Bank.railRet_iff⟩,
    fun s => ⟨State.alertN_iff, fun closed => ⟨?closed, ?silent⟩, fun opened => ?presents, fun none => ?idle,
      fun r shown opened => ?accepts⟩,
    rfl, fun x i => ⟨fun h => ?lane, fun h => ?zero⟩, fun s position => ⟨fun h => State.mdo_undriven h position,
      fun high low taken => ⟨fun h => ?comes, fun h => ?replies, fun h => ?after⟩⟩⟩
  case closed =>
    unfold State.rqAccept
    split
    · rfl
    · unfold State.accepts; rw [if_pos closed]
  case silent => rw [State.presentedResponse, if_pos closed]
  case presents => rw [State.presentedResponse, if_neg (by simp [opened])]
  case idle => rw [State.rqAccept, none]
  case accepts =>
    have follows : s.rqAccept = s.accepts r := by rw [State.rqAccept, shown]
    rw [follows]
    refine ⟨State.accepts_held opened, State.accepts_malformed opened,
      fun outside => State.accepts_nowin opened (State.decode_nowin outside), fun i ht hd => ⟨fun readOnly write => ?_, fun may => ?_⟩⟩
    · exact State.accepts_denied opened (by rw [hd.decode, if_pos ⟨readOnly, write⟩])
    · exact State.accepts_permitted ht hd may
  case lane => rw [Response.lanes_get, List.getD_eq_getElem _ _ h]
  case zero => rw [Response.lanes_get, List.getD_eq_default _ _ h]
  case comes => rw [State.mdo_frame high low taken, Frame.mdo, if_pos h]
  case replies =>
    rw [State.mdo_frame high low taken, Frame.mdo, if_neg (by omega), Nat.add_sub_cancel_left, List.getD_eq_getElem _ _ h]
  case after =>
    rw [State.mdo_frame high low taken, Frame.mdo, if_neg (by omega), List.getD_eq_default _ _ (by omega)]

end Sys2Proof.Machine
end

section
/-! SUPPORT. ACCEPTANCE and RESPONSE_TAKEN (09_the_upstream_link.md; 02, R34, R35; 06, R111 to R116). -/

namespace Sys2Proof.Machine

/-! ### The checks of R156 -/

theorem exec_acceptance_withheld {s : State} {r : Request} (h : s.accepts r = false) :
    exec (.acceptance (.edge r)) s = .next { s.settled with presented := some r } := by
  show execAcceptance (.edge r) s = _
  unfold execAcceptance
  dsimp only
  rw [if_neg (by simp [h])]
  rfl

theorem exec_acceptance_taken {s : State} {r : Request} (h : s.accepts r = true) :
    exec (.acceptance (.edge r)) s = .next ((s.shown none).take r) := by
  show execAcceptance (.edge r) s = _
  unfold execAcceptance
  dsimp only
  rw [if_pos h]
  rfl

/-- Settles O33: a closed link and a full queue are the two ways to withhold a request at an edge. -/
theorem withheldRequestChangesNothing : Obligations.WithheldRequestChangesNothing := by
  refine fun s r => ⟨fun closed => ?_, fun i ht hd may full parks => ?_, rfl, rfl⟩
  · exact exec_acceptance_withheld (by unfold State.accepts; rw [if_pos closed])
  · exact exec_acceptance_withheld ((State.accepts_permitted ht hd may).2 ⟨parks, full⟩)

/-! ### Answers at acceptance -/

theorem State.answer_of_pending {s : State} {t : Tag} (h : s.tags[t].state = .pending) (x : Status) (d : List Byte) :
    s.answer t x d = { s with tags := s.tags.set t { s.tags[t] with state := .answered }
                              responses := s.responses ++ [{ tag := t, status := x, data := d }] } := if_pos h

/-- A tag that is bound and answered at once (R158, R163). -/
theorem State.bindTag_answer (s : State) (t : Tag) (n : Nat) (i : Option WindowId) (x : Status) (d : List Byte) :
    (s.bindTag t n i).answer t x d =
      { s with tags := s.tags.set t { state := .answered, length := n, window := i }
               responses := s.responses ++ [{ tag := t, status := x, data := d }] } := by
  rw [State.answer_of_pending (by simp [State.bindTag])]
  simp [State.bindTag]

theorem State.tags_accepted (s : State) (r : Request) (i : WindowId) :
    (s.accepted r i).tags[r.tag] = { state := .pending, length := r.length, window := some i } := by
  simp [State.accepted]

/-- A held request that is answered at once (R113, R163). -/
theorem State.accepted_answer (s : State) (r : Request) (i : WindowId) (x : Status) : (s.accepted r i).answer r.tag x [] =
    { s.accepted r i with
      tags := s.tags.set r.tag { state := .answered, length := r.length, window := some i }
      responses := s.responses ++ [{ tag := r.tag, status := x, data := [] }] } := by
  rw [State.answer_of_pending (by rw [State.tags_accepted]), State.tags_accepted]
  simp [State.accepted]
  rfl

theorem State.take_held {s : State} {r : Request} (held : s.tags[r.tag].state ≠ .free) : (s.shown none).take r =
    { s.settled with presented := none }.post .protocol
      { tag := some r.tag, stream := some r.stream, detail := some .dupTag } := if_pos held

theorem State.take_malformed {s : State} {r : Request} (free : s.tags[r.tag].state = .free) (bad : r.malformed = true) :
    (s.shown none).take r = (((s.shown none).bindTag r.tag r.length none).answer r.tag .denied []).post .protocol
      { tag := some r.tag, stream := some r.stream, detail := some .malformed } := by
  unfold State.take
  rw [if_neg (show ¬ (s.shown none).tags[r.tag].state ≠ .free from not_not.2 free), if_pos bad]

theorem State.take_decoded {s : State} {r : Request} (ht : s.Takes r) : (s.shown none).take r =
    match s.decode r with
    | .nowin =>
      (((s.shown none).bindTag r.tag r.length none).answer r.tag .nowin []).post .refusedAccess
        { tag := some r.tag, stream := some r.stream, detail := some (.status .nowin) }
    | .denied i =>
      ((s.accepted r i).answer r.tag .denied []).post .refusedAccess
        { bank := some s.windows[i].config.bank, tag := some r.tag, stream := some r.stream, window := some i,
          detail := some (.status .denied) }
    | .permitted x => (s.accepted r x.window).event fun w => w.intake x := by
  have formed : ¬ r.malformed = true := by simpa [Request.malformed] using ht.formed
  unfold State.take
  rw [if_neg (show ¬ (s.shown none).tags[r.tag].state ≠ .free from not_not.2 ht.free), if_neg formed]
  rfl

/-- Settles O34: a held tag, and a free tag of a request that crosses a 64-byte boundary. -/
theorem duplicateAndMalformedRequests : Obligations.DuplicateAndMalformedRequests := by
  refine fun s r opened => ⟨fun held => ?_, fun free crosses => ?_⟩
  · rw [exec_acceptance_taken (State.accepts_held opened held), State.take_held held]
  · rw [exec_acceptance_taken (State.accepts_malformed opened crosses), State.take_malformed free (decide_eq_true crosses),
      State.bindTag_answer]
    rfl

/-! ### The intake of a permitted request -/

/-- A permitted request that passes the checks is held, and the intake places it (R156, R159). -/
theorem exec_acceptance_permitted {s : State} {r : Request} {i : WindowId} (ht : s.Takes r) (hd : s.DecodedThrough r i)
    (may : s.windows[i].config.access = .readWrite ∨ r.kind = .read)
    (passes : ¬ s.parks (s.figures r i) ∨ s.parked.length < 24) : exec (.acceptance (.edge r)) s =
      .next ((s.accepted r i).event fun w => w.intake (s.figures r i)) := by
  have accepts : s.accepts r = true := by
    rw [← Bool.not_eq_false, State.accepts_permitted ht hd may]
    rintro ⟨parks, full⟩
    rcases passes with h | h
    · exact h parks
    · omega
  rw [exec_acceptance_taken accepts, State.take_decoded ht, hd.permitted may]
  rfl

theorem Work.intake_fault {w : Work} {x : Routed} (h : (w.st.bank x.bank).power = .fault) :
    w.intake x = w.on fun s => s.answer x.tag .faulted [] := if_pos h

theorem Work.intake_soft {w : Work} {x : Routed} (h : (w.st.bank x.bank).power = .draining)
    (soft : (w.st.bank x.bank).drainKind = .soft) : w.intake x = (w.cancelDrain x.bank).place x := by
  unfold Work.intake
  dsimp only
  rw [if_neg (by rw [h]; decide), if_pos ⟨h, soft⟩]

theorem Work.intake_place {w : Work} {x : Routed} (h : (w.st.bank x.bank).power ≠ .fault)
    (hard : (w.st.bank x.bank).power = .draining → (w.st.bank x.bank).drainKind ≠ .soft) : w.intake x = w.place x := by
  unfold Work.intake
  dsimp only
  rw [if_neg h, if_neg fun ⟨draining, soft⟩ => hard draining soft]

/-- Settles O35: by the finding of the decoder, and for a permitted request by the state of its bank. -/
theorem requestsAnsweredAtAcceptance : Obligations.RequestsAnsweredAtAcceptance := by
  refine ⟨fun s r ht => ⟨fun outside => ?nowin, fun i hd readOnly write => ?denied⟩, fun s r i ht hd may fault => ?faulted⟩
  case nowin =>
    have finding : s.decode r = .nowin := State.decode_nowin fun i enabled holds => outside i enabled holds.1
    rw [exec_acceptance_taken (State.accepts_nowin ht.linkOpen finding), State.take_decoded ht, finding]
    dsimp only
    rw [State.bindTag_answer]
    rfl
  case denied =>
    have finding : s.decode r = .denied i := by rw [hd.decode, if_pos ⟨readOnly, write⟩]
    rw [exec_acceptance_taken (State.accepts_denied ht.linkOpen finding), State.take_decoded ht, finding]
    dsimp only
    rw [State.accepted_answer]
  case faulted =>
    have passes : ¬ s.parks (s.figures r i) := by
      have fault : (s.bank (s.figures r i).bank).power = .fault := fault
      simp [State.parks, fault]
    rw [exec_acceptance_permitted ht hd may (.inl passes)]
    show Host.Outcome.next ((Work.start (s.accepted r i)).intake (s.figures r i)).takeTriggers.st = _
    rw [Work.intake_fault (w := Work.start (s.accepted r i)) (x := s.figures r i) fault, Work.takeTriggers_nothing rfl rfl]
    exact congrArg Host.Outcome.next (State.accepted_answer s r i .faulted)

/-! ### A request forwarded at once -/

/-- The counter after a forward, and whether it is a crossing, in the terms of R135. -/
theorem Bank.forwarded_eq (k : Bank) (x : Slot) : k.forwarded x =
    { k with
      port := { k.port with
        slots := k.port.slots ++ [x]
        counter := if k.port.counter = 0xFFFFFFFF then 0xFFFFFFFF else k.port.counter + 1
        reached := k.port.reached || k.crosses }
      idleTimer :=
        if k.power = .on then
          match k.idleTimer with
          | .counting _ => .counting (k.config.idleLimit.toNat * 1000)
          | .held n => .held n
          | .stopped => .stopped
        else k.idleTimer } := by
  have counter : k.port.counted = if k.port.counter = 0xFFFFFFFF then 0xFFFFFFFF else k.port.counter + 1 := by
    unfold Port.counted; split
    · rename_i top; exact top
    · rfl
  unfold Bank.forwarded Bank.withPort Bank.reloadIdle
  simp only [counter]
  cases k with | mk power _ _ _ _ _ _ _ idle _ _ _ _ _ _ =>
  dsimp only
  split
  · cases idle <;> rfl
  · rfl

theorem Bank.crosses_iff {k : Bank} : k.crosses = true ↔ k.port.counter ≠ 0xFFFFFFFF
    ∧ (if k.port.counter = 0xFFFFFFFF then 0xFFFFFFFF else k.port.counter + 1) = k.config.threshold
    ∧ k.config.threshold ≠ 0 ∧ k.port.reached = false := by
  unfold Bank.crosses Port.counted
  rw [decide_eq_true_iff]
  refine and_congr_right fun below => ?_
  rw [if_neg below, if_neg below]

/-- With no link enabled, a forward posts its crossing, if it makes one, and the event ends (R135). -/
theorem Work.takeTriggers_forward {w : Work} (unlinked : w.st.Unlinked) (none : w.crossings = []) (x : Routed) :
    (w.forward x).takeTriggers.st =
      if (w.st.bank x.bank).crosses then
        (w.st.sendRequest x).post .countReached { bank := some x.bank, tag := some x.tag, stream := some x.stream }
      else w.st.sendRequest x := by
  have unlinked' : (w.forward x).st.Unlinked := unlinked
  have crossings := Work.forward_crossings w x
  rw [none] at crossings
  split
  · rename_i crossed
    exact Work.takeTriggers_crossing unlinked' (crossings.trans (if_pos crossed))
  · rename_i stays
    exact Work.takeTriggers_unlinked unlinked' (crossings.trans (if_neg stays))

/-- A request that can be forwarded at once is (R35). -/
theorem exec_acceptance_forwarded {s : State} {r : Request} {i : WindowId} (ht : s.Takes r) (hd : s.DecodedThrough r i)
    (may : s.windows[i].config.access = .readWrite ∨ r.kind = .read)
    (direct : s.forwardsDirectly (s.figures r i) = true) : exec (.acceptance (.edge r)) s =
      .next (((Work.start (s.accepted r i)).forward (s.figures r i)).takeTriggers.st) := by
  obtain ⟨stream, room, power⟩ := State.forwardsDirectly_iff.1 direct
  have noFault : (s.bank (s.figures r i).bank).power ≠ .fault := by rcases power with h | ⟨h, -⟩ <;> rw [h] <;> decide
  have noDrain : (s.bank (s.figures r i).bank).power ≠ .draining := by rcases power with h | ⟨h, -⟩ <;> rw [h] <;> decide
  have passes : ¬ s.parks (s.figures r i) := by
    rw [← State.wouldPark_iff]
    unfold State.wouldPark
    dsimp only
    rw [if_neg noFault, if_neg fun h => noDrain h.1, direct]
    decide
  rw [exec_acceptance_permitted ht hd may (.inl passes)]
  show Host.Outcome.next ((Work.start (s.accepted r i)).intake (s.figures r i)).takeTriggers.st = _
  rw [Work.intake_place (w := Work.start (s.accepted r i)) (x := s.figures r i) noFault fun h => absurd h noDrain]
  exact congrArg (fun w : Work => Host.Outcome.next w.takeTriggers.st) (if_pos direct)

/-- Settles O36: the intake forwards it, and the record after the forward is the one named. -/
theorem requestForwardedAtOnce : Obligations.RequestForwardedAtOnce := by
  intro s r i ht hd may unlinked x k power room stream counter crossed slot t
  have direct : s.forwardsDirectly x = true := State.forwardsDirectly_iff.2 ⟨stream, room, power⟩
  have crosses : k.crosses = decide crossed := by
    rw [Bool.eq_iff_iff, decide_eq_true_iff]; exact Bank.crosses_iff
  have sent : (s.accepted r i).sendRequest x = t := by
    show ({ (s.accepted r i).updBank x.bank fun _ => k.forwarded slot with
      busOut := [{ bank := x.bank, addr := x.addr, kind := r.kind, length := r.length, data := x.wdata.getD [] }] } : State) = t
    rw [Bank.forwarded_eq, crosses] <;> rfl
  rw [exec_acceptance_forwarded ht hd may direct, Work.takeTriggers_forward (w := Work.start (s.accepted r i)) unlinked rfl]
  rw [show (Work.start (s.accepted r i)).st.sendRequest (s.figures r i) = t from sent]
  show Host.Outcome.next (if k.crosses = true then _ else _) = _
  rw [crosses]
  simp only [decide_eq_true_iff]
  rfl

/-! ### RESPONSE_TAKEN -/

theorem exec_responseTaken_passes {s : State} {x : Response} {rest : List Response} (opened : s.linkClosed = false)
    (queue : s.responses = x :: rest) : exec .responseTaken s = .next (s.begin.passResponse x rest) := by
  show execResponseTaken s = _
  unfold execResponseTaken
  rw [if_neg (by simp [opened]), queue]
  rfl

/-- A response of a request that was outside the windows frees its tag (R165). -/
theorem State.passResponse_none {s : State} {x : Response} (rest : List Response) (h : s.tags[x.tag].window = none) :
    s.passResponse x rest =
      { s with responses := rest, tags := s.tags.set x.tag { s.tags[x.tag] with state := .free } } := by
  unfold State.passResponse
  dsimp only
  split
  · rfl
  · rename_i i some; rw [h] at some; cases some

/-- A response of a request held through a window gives that window's held count back too (R165). -/
theorem State.passResponse_some {s : State} {x : Response} (rest : List Response) {i : WindowId}
    (h : s.tags[x.tag].window = some i) : s.passResponse x rest =
      { s with
        responses := rest, tags := s.tags.set x.tag { s.tags[x.tag] with state := .free }
        windows := s.windows.set i { s.windows[i] with held := s.windows[i].held - 1 } } := by
  unfold State.passResponse
  dsimp only
  split
  · rename_i none; rw [h] at none; cases none
  · rename_i j some; rw [h] at some; cases some; rfl

/-- Settles O39: by the level of the link, the response queue, and the window of the tag's record. -/
theorem responseTaken : Obligations.ResponseTaken := by
  refine fun s => ⟨fun h => ?_, fun x rest opened queue => ⟨fun none => ?_, fun i some => ?_⟩⟩
  · show execResponseTaken s = _
    unfold execResponseTaken
    split
    · rfl
    · rename_i opened
      rw [h.resolve_left opened]
      rfl
  · rw [exec_responseTaken_passes opened queue, State.passResponse_none (s := s.begin) rest none]
    rfl
  · rw [exec_responseTaken_passes opened queue, State.passResponse_some (s := s.begin) rest some]
    rfl

end Sys2Proof.Machine
end

section
/-! SUPPORT. Entries into ON and FILLING, grants, ramps and wakes where nothing stands ready beside them (01_bank_power.md,
R5 to R11; 04_the_wake_arbiter.md, R76 to R81): each as one change of the state and the triggers it offers. -/

namespace Sys2Proof.Machine

/-- Two states with the same banks that agree in all else. -/
theorem State.ext_banks {t u : State} (banks : t.banks = u.banks) (rest : { t with banks := u.banks } = u) : t = u := by
  rw [← rest, ← banks]

/-- A change of a bank's record, made in a state whose banks differ from those of `s` in that record alone. -/
theorem State.updBank_after {s t : State} {b : BankId} {f : Bank → Bank} (g : Bank → Bank)
    (h : t.banks = (s.updBank b f).banks) : (t.updBank b g).banks = (s.updBank b fun k => g (f k)).banks := by
  have bank : t.bank b = f (s.bank b) := by
    rw [← State.bank_updBank_self s b f]
    exact congrArg (fun v : Vector Bank 8 => v[b]) h
  show t.banks.set b (g (t.bank b)) = s.banks.set b (g (f (s.bank b)))
  rw [bank, h]
  exact Vector.set_set ..

/-- A record given outright, the same. -/
theorem State.setBank_after {s t : State} {b : BankId} (f : Bank → Bank) {x : Bank} (h : t.banks = (s.updBank b f).banks) :
    (t.updBank b fun _ => x).banks = (s.updBank b fun _ => x).banks := State.updBank_after (f := f) (fun _ => x) h

theorem Work.on_congr {w : Work} {f g : State → State} (h : f w.st = g w.st) : w.on f = w.on g :=
  congrArg (fun s => ({ w with st := s } : Work)) h

theorem exists_lost_or_all_valid (k : Bank) : (∃ g : Segment, k.marks[g] = .lost) ∨ ∀ g : Segment, k.marks[g] = .valid := by
  by_cases h : ∃ g : Segment, k.marks[g] = .lost
  · exact .inl h
  · refine .inr fun g => ?_
    by_contra lost
    exact h ⟨g, Mark.ne_valid.1 lost⟩

/-! ### Entry into ON or FILLING -/

theorem State.turnOn_alone {s : State} {b : BankId} (none : parkedCount s.parked b = 0) :
    s.turnOn b = s.updBank b Bank.readied := by
  unfold State.turnOn
  rw [none]
  exact congrArg (s.updBank b) (funext Bank.turnedOn_eq)

/-- A bank that enters ON with nothing parked is readied, and READY is offered (R11). -/
theorem Work.enterOn_alone {w : Work} (b : BankId) (none : w.st.parked = []) :
    w.enterOn b = (w.on fun s => s.updBank b Bank.readied).offer b .ready := by
  have on : (w.on fun s => s.turnOn b) = w.on fun s => s.updBank b Bank.readied :=
    Work.on_congr (State.turnOn_alone (by rw [none]; rfl))
  unfold Work.enterOn
  rw [on]
  exact Work.scan_empty none

/-- A soft drain cancelled with nothing parked readies the bank, and offers nothing (R63). -/
theorem Work.cancelDrain_alone {w : Work} (b : BankId) (none : w.st.parked = []) :
    w.cancelDrain b = w.on fun s => s.updBank b Bank.readied := by
  have on : (w.on fun s => s.turnOn b) = w.on fun s => s.updBank b Bank.readied :=
    Work.on_congr (State.turnOn_alone (by rw [none]; rfl))
  unfold Work.cancelDrain
  rw [on]
  exact Work.scan_empty none

/-- A bank that enters FILLING behind another one joins the fill queue and does no more (R10, R96). -/
theorem Work.enterFilling_behind {w : Work} (b : BankId) (none : w.st.parked = []) (behind : w.st.fillQueue ≠ []) :
    w.enterFilling b = w.on fun s => s.joinFill b := by
  unfold Work.enterFilling
  dsimp only
  rw [if_neg behind]
  exact Work.scan_empty none

/-! ### The end of a ramp -/

/-- Whether a bank whose ramp is over enters FILLING (R10). -/
theorem Bank.fills_iff {k : Bank} : (k.config.fillPolicy = .zero ∧ k.anyLost = true) ↔
    k.config.fillPolicy = .zero ∧ ∃ g : Segment, k.marks[g] = .lost := and_congr_right fun _ => Bank.anyLost_iff

theorem Work.completeRamp_on {w : Work} {b : BankId} (done : (w.st.bank b).rampDone = true)
    (stays : ¬ ((w.st.bank b).config.fillPolicy = .zero ∧ ∃ g : Segment, (w.st.bank b).marks[g] = .lost)) :
    w.completeRamp b = (w.on fun s => s.endRamp b).enterOn b := by
  unfold Work.completeRamp
  rw [if_pos done]
  exact if_neg fun h => stays (Bank.fills_iff.1 h)

theorem Work.completeRamp_filling {w : Work} {b : BankId} (done : (w.st.bank b).rampDone = true)
    (fills : (w.st.bank b).config.fillPolicy = .zero ∧ ∃ g : Segment, (w.st.bank b).marks[g] = .lost) :
    w.completeRamp b = (w.on fun s => s.endRamp b).enterFilling b := by
  unfold Work.completeRamp
  rw [if_pos done]
  exact if_pos (Bank.fills_iff.2 fills)

theorem State.endRamp_eq (s : State) (b : BankId) : s.endRamp b =
    { s.updBank b Bank.ramped with unitsHeld := s.unitsHeld - (s.bank b).charge } := by
  unfold State.endRamp State.releaseUnits
  rw [State.updBank_updBank, State.bank_updBank_self]
  rfl

/-- Units released before the ramp ends are released once (R81). -/
theorem State.releaseUnits_endRamp (s : State) (b : BankId) : (s.releaseUnits b).endRamp b = s.endRamp b := by
  rw [State.endRamp_eq, State.endRamp_eq]
  refine State.ext_banks ?_ ?_
  · simp [State.releaseUnits, State.updBank, State.bank, Bank.ramped]
  · simp [State.releaseUnits, State.updBank, State.bank]

/-- The state once a head that completes within its grant has given its units back and ended its ramp (R9, R80). -/
theorem State.grantWake_releaseUnits_endRamp (s : State) (b : BankId) (rest : List BankId) :
    ((s.grantWake b rest).releaseUnits b).endRamp b =
      { s.updBank b (fun k => (k.ramping k.wakeCost).ramped) with waitList := rest } := by
  rw [State.releaseUnits_endRamp, State.endRamp_eq]
  refine State.ext_banks ?_ ?_
  · simp [State.grantWake, State.updBank, State.bank]
    rfl
  · simp [State.grantWake, State.updBank, State.bank, Bank.granted]

theorem State.joinFill_eq (s : State) (b : BankId) : s.joinFill b =
    { s.updBank b (fun k => { k with power := .filling }) with fillQueue := s.fillQueue ++ [b] } := rfl

/-! ### Grants -/

theorem Bank.rampDone_granted (k : Bank) (n : Nat) :
    (k.granted n).rampDone = true ↔ k.config.stages.toNat = 1 ∧ k.pgood = true := by
  have stage : 1 = (k.granted n).stageCount ↔ k.config.stages.toNat = 1 := eq_comm
  simp only [Bank.rampDone, decide_eq_true_iff]
  exact ⟨fun ⟨_, one, high, _⟩ => ⟨stage.1 one, high⟩, fun ⟨one, high⟩ => ⟨rfl, stage.2 one, high, rfl⟩⟩

/-- A grant changes the cost of no wake. -/
theorem State.grantWake_wakeCost (s : State) (b c : BankId) (rest : List BankId) :
    ((s.grantWake b rest).bank c).wakeCost = (s.bank c).wakeCost := by
  rw [State.grantWake_bank, State.bank_updBank]
  split
  · rename_i same; rw [same]; rfl
  · rfl

theorem State.releaseUnits_wakeCost (s : State) (b c : BankId) : ((s.releaseUnits b).bank c).wakeCost = (s.bank c).wakeCost := by
  rw [State.releaseUnits_bank, State.bank_updBank]
  split
  · rename_i same; rw [same]; rfl
  · rfl

theorem State.grantWake_releaseUnits_unitsHeld (s : State) (b : BankId) (rest : List BankId) :
    ((s.grantWake b rest).releaseUnits b).unitsHeld = s.unitsHeld := by
  have charge : ((s.grantWake b rest).bank b).charge = (s.bank b).wakeCost := by
    rw [State.grantWake_bank, State.bank_updBank_self]
    rfl
  show s.unitsHeld + (s.bank b).wakeCost - ((s.grantWake b rest).bank b).charge = _
  rw [charge, Nat.add_sub_cancel]

/-- A head that fits and ramps on, the next head not fitting (R79, R80). -/
theorem Work.tryGrant_ramps {w : Work} {b : BankId} {rest : List BankId} (list : w.st.waitList = b :: rest)
    (fits : w.st.unitsHeld + (w.st.bank b).wakeCost ≤ w.st.global.budget.toNat)
    (slow : (w.st.bank b).config.stages.toNat ≠ 1 ∨ (w.st.bank b).pgood = false)
    (waits : ∀ c, rest.head? = some c →
      w.st.global.budget.toNat < w.st.unitsHeld + (w.st.bank b).wakeCost + (w.st.bank c).wakeCost) :
    w.tryGrant = w.on fun s => s.grantWake b rest := by
  have notDone : ¬ ((w.st.grantWake b rest).bank b).rampDone = true := by
    rw [State.grantWake_bank, State.bank_updBank_self, Bank.rampDone_granted]
    rintro ⟨one, high⟩
    rcases slow with many | low
    · exact many one
    · rw [high] at low; cases low
  have attempt : w.st.grants = (w.st.grantWake b rest, []) := by
    rw [State.grants_fits list fits]
    dsimp only
    rw [if_neg notDone]
    exact State.grantHeads_waits _ fun c hc => by rw [State.grantWake_wakeCost]; exact waits c hc
  unfold Work.tryGrant
  rw [attempt]
  rfl

/-- The grants where the ramp of the head completes within its grant, and the next head does not fit (R9, R79, R80). -/
theorem State.grants_completes {s : State} {b : BankId} {rest : List BankId} (list : s.waitList = b :: rest)
    (fits : s.unitsHeld + (s.bank b).wakeCost ≤ s.global.budget.toNat)
    (one : (s.bank b).config.stages.toNat = 1) (high : (s.bank b).pgood = true)
    (waits : ∀ c, rest.head? = some c → s.global.budget.toNat < s.unitsHeld + (s.bank c).wakeCost) :
    s.grants = ((s.grantWake b rest).releaseUnits b, [b]) := by
  have done : ((s.grantWake b rest).bank b).rampDone = true := by
    rw [State.grantWake_bank, State.bank_updBank_self, Bank.rampDone_granted]
    exact ⟨one, high⟩
  have ends : ((s.grantWake b rest).releaseUnits b).grantHeads rest.length = ((s.grantWake b rest).releaseUnits b, []) :=
    State.grantHeads_waits _ fun c hc => by
      rw [State.releaseUnits_wakeCost, State.grantWake_wakeCost, State.grantWake_releaseUnits_unitsHeld]
      exact waits c hc
  rw [State.grants_fits list fits]
  dsimp only
  rw [if_pos done, ends]

/-- A head whose ramp completes within its grant, the next head not fitting (R9, R79, R80). -/
theorem Work.tryGrant_completes {w : Work} {b : BankId} {rest : List BankId} (list : w.st.waitList = b :: rest)
    (fits : w.st.unitsHeld + (w.st.bank b).wakeCost ≤ w.st.global.budget.toNat)
    (one : (w.st.bank b).config.stages.toNat = 1) (high : (w.st.bank b).pgood = true)
    (waits : ∀ c, rest.head? = some c → w.st.global.budget.toNat < w.st.unitsHeld + (w.st.bank c).wakeCost) :
    w.tryGrant = (w.on fun s => (s.grantWake b rest).releaseUnits b).completeRamp b := by
  unfold Work.tryGrant
  rw [State.grants_completes list fits one high waits]
  rfl

/-- The record of a bank whose ramp completes within its grant still shows the ramp done, its units given back. -/
theorem State.grantWake_releaseUnits_bank (s : State) (b : BankId) (rest : List BankId) :
    ((s.grantWake b rest).releaseUnits b).bank b = { (s.bank b).granted (s.bank b).wakeCost with charge := 0 } := by
  rw [State.releaseUnits_bank, State.bank_updBank_self, State.grantWake_bank, State.bank_updBank_self]

theorem State.grantWake_releaseUnits_rampDone {s : State} {b : BankId} (rest : List BankId)
    (one : (s.bank b).config.stages.toNat = 1) (high : (s.bank b).pgood = true) :
    (((s.grantWake b rest).releaseUnits b).bank b).rampDone = true := by
  rw [State.grantWake_releaseUnits_bank]
  exact (Bank.rampDone_granted (s.bank b) (s.bank b).wakeCost).2 ⟨one, high⟩

/-- A head that completes within its grant into ON, with nothing parked (R9 to R11, R80). -/
theorem Work.tryGrant_on {w : Work} {b : BankId} {rest : List BankId} (list : w.st.waitList = b :: rest)
    (fits : w.st.unitsHeld + (w.st.bank b).wakeCost ≤ w.st.global.budget.toNat)
    (one : (w.st.bank b).config.stages.toNat = 1) (high : (w.st.bank b).pgood = true)
    (waits : ∀ c, rest.head? = some c → w.st.global.budget.toNat < w.st.unitsHeld + (w.st.bank c).wakeCost)
    (stays : ¬ ((w.st.bank b).config.fillPolicy = .zero ∧ ∃ g : Segment, (w.st.bank b).marks[g] = .lost))
    (none : w.st.parked = []) : w.tryGrant =
      (w.on fun s => { s.updBank b (fun k => (k.ramping k.wakeCost).ramped.readied) with waitList := rest }).offer b .ready := by
  have bank : (w.on fun s => (s.grantWake b rest).releaseUnits b).st.bank b =
    { (w.st.bank b).granted (w.st.bank b).wakeCost with charge := 0 } := State.grantWake_releaseUnits_bank w.st b rest
  have st : (((w.st.grantWake b rest).releaseUnits b).endRamp b).updBank b Bank.readied =
      { w.st.updBank b (fun k => (k.ramping k.wakeCost).ramped.readied) with waitList := rest } := by
    rw [State.grantWake_releaseUnits_endRamp]
    exact State.ext_banks (State.updBank_after (f := fun k => (k.ramping k.wakeCost).ramped) Bank.readied rfl) rfl
  rw [Work.tryGrant_completes list fits one high waits, Work.completeRamp_on, Work.enterOn_alone]
  · exact congrArg (fun t => ({ w with st := t } : Work).offer b .ready) st
  · exact none
  · exact State.grantWake_releaseUnits_rampDone rest one high
  · rw [bank]; exact stays

/-- A head that completes within its grant into FILLING behind another bank, with nothing parked (R9, R10, R80, R96). -/
theorem Work.tryGrant_filling {w : Work} {b : BankId} {rest : List BankId} (list : w.st.waitList = b :: rest)
    (fits : w.st.unitsHeld + (w.st.bank b).wakeCost ≤ w.st.global.budget.toNat)
    (one : (w.st.bank b).config.stages.toNat = 1) (high : (w.st.bank b).pgood = true)
    (waits : ∀ c, rest.head? = some c → w.st.global.budget.toNat < w.st.unitsHeld + (w.st.bank c).wakeCost)
    (fills : (w.st.bank b).config.fillPolicy = .zero ∧ ∃ g : Segment, (w.st.bank b).marks[g] = .lost)
    (none : w.st.parked = []) (behind : w.st.fillQueue ≠ []) : w.tryGrant =
      w.on fun s => { s.updBank b (fun k => { (k.ramping k.wakeCost).ramped with power := .filling }) with
        waitList := rest, fillQueue := s.fillQueue ++ [b] } := by
  have bank : (w.on fun s => (s.grantWake b rest).releaseUnits b).st.bank b =
    { (w.st.bank b).granted (w.st.bank b).wakeCost with charge := 0 } := State.grantWake_releaseUnits_bank w.st b rest
  have st : (((w.st.grantWake b rest).releaseUnits b).endRamp b).joinFill b =
      { w.st.updBank b (fun k => { (k.ramping k.wakeCost).ramped with power := .filling }) with
        waitList := rest, fillQueue := w.st.fillQueue ++ [b] } := by
    rw [State.grantWake_releaseUnits_endRamp]
    exact State.ext_banks (State.updBank_after (f := fun k => (k.ramping k.wakeCost).ramped) (fun k => { k with power := .filling }) rfl)
      rfl
  rw [Work.tryGrant_completes list fits one high waits, Work.completeRamp_filling, Work.enterFilling_behind]
  · exact congrArg (fun t => ({ w with st := t } : Work)) st
  · exact none
  · exact behind
  · exact State.grantWake_releaseUnits_rampDone rest one high
  · rw [bank]; exact fills

/-! ### The completion of a ramp -/

theorem Work.finishRamp_not {w : Work} {b : BankId} (h : (w.st.bank b).rampDone = false) : w.finishRamp b = w :=
  if_neg (by rw [h]; decide)

/-- A ramp that completes while the head of the wake-wait list does not fit (R9, R10, R80, R81). -/
theorem Work.finishRamp_waits {w : Work} {b : BankId} (done : (w.st.bank b).rampDone = true)
    (waits : ∀ c, w.st.waitList.head? = some c →
      w.st.global.budget.toNat < w.st.unitsHeld - (w.st.bank b).charge + (w.st.bank c).wakeCost) :
    w.finishRamp b = (w.on fun s => s.releaseUnits b).completeRamp b := by
  have attempt : (w.st.releaseUnits b).grants = (w.st.releaseUnits b, []) :=
    State.grantHeads_waits _ fun c hc => by rw [State.releaseUnits_wakeCost]; exact waits c hc
  unfold Work.finishRamp
  rw [if_pos done, attempt]
  rfl

/-! ### Wakes -/

/-- Bank `b` joins the wake-wait list, with the trigger that a wake offers (R5). -/
def Work.joinWait (w : Work) (b : BankId) (fromLink : Bool) : Work :=
  if fromLink then w.on fun s => s.joinWait b else (w.on fun s => s.joinWait b).offer b .wakeBegun

theorem Work.joinWait_st (w : Work) (b : BankId) (fromLink : Bool) : (w.joinWait b fromLink).st = w.st.joinWait b := by
  cases fromLink <;> rfl

theorem Work.joinWait_crossings (w : Work) (b : BankId) (fromLink : Bool) :
    (w.joinWait b fromLink).crossings = w.crossings := by cases fromLink <;> rfl

theorem Work.wake_joins {w : Work} {b : BankId} (fromLink : Bool) (present : (w.st.bank b).config.present = true)
    (asleep : (w.st.bank b).power = .off ∨ (w.st.bank b).power = .retain) :
    w.wake b fromLink = (w.joinWait b fromLink).tryGrant := if_pos ⟨present, asleep⟩

theorem Work.wake_awake {w : Work} {b : BankId} (fromLink : Bool)
    (awake : ¬ ((w.st.bank b).power = .off ∨ (w.st.bank b).power = .retain)) : w.wake b fromLink = w :=
  if_neg fun h => awake h.2

theorem State.joinWait_self (s : State) (b : BankId) : (s.joinWait b).bank b = (s.bank b).awaiting :=
  State.bank_updBank_self s b Bank.woken

theorem Bank.wakeCost_awaiting (k : Bank) : k.awaiting.wakeCost = k.costAsleep := by
  unfold Bank.awaiting Bank.wakeCost Bank.costAsleep
  by_cases retain : k.power = .retain <;> simp [retain]

theorem State.joinWait_alone {s : State} (b : BankId) (alone : s.waitList = []) :
    s.joinWait b = { s.updBank b Bank.awaiting with waitList := [b] } := by
  unfold State.joinWait
  rw [alone]
  rfl

/-- The record of a bank once a wake of it alone has been granted (R5, R7, R80). -/
theorem State.joinWait_grantWake {s : State} (b : BankId) (alone : s.waitList = []) : (s.joinWait b).grantWake b [] =
    { s.updBank b (fun k => k.awaiting.ramping k.costAsleep) with unitsHeld := s.unitsHeld + (s.bank b).costAsleep } := by
  have cost : ((s.joinWait b).bank b).wakeCost = (s.bank b).costAsleep := by
    rw [State.joinWait_self, Bank.wakeCost_awaiting]
  unfold State.grantWake
  rw [cost]
  have banks := State.updBank_after (s := s) (t := s.joinWait b) (f := Bank.awaiting)
    (fun k => k.granted (s.bank b).costAsleep) rfl
  exact State.ext banks rfl rfl alone.symm
    rfl rfl rfl rfl rfl rfl rfl rfl rfl rfl rfl rfl rfl rfl rfl rfl rfl rfl rfl

section
variable {w : Work} {b : BankId} (fromLink : Bool) (present : (w.st.bank b).config.present = true)
  (asleep : (w.st.bank b).power = .off ∨ (w.st.bank b).power = .retain) (alone : w.st.waitList = [])
include present asleep alone

/-- A wake whose cost does not fit waits for its grant (R5, R79). -/
theorem Work.wake_waits (tight : w.st.global.budget.toNat < w.st.unitsHeld + (w.st.bank b).costAsleep) :
    w.wake b fromLink = w.joinWait b fromLink := by
  rw [Work.wake_joins fromLink present asleep]
  refine Work.tryGrant_waits fun c hc => ?_
  rw [Work.joinWait_st] at hc ⊢
  rw [State.joinWait_alone b alone] at hc
  obtain rfl : b = c := by simpa using hc
  rw [State.joinWait_self, Bank.wakeCost_awaiting]
  exact tight

/-- A wake whose cost fits ramps from stage 1 (R5, R7, R80). -/
theorem Work.wake_ramps (fits : w.st.unitsHeld + (w.st.bank b).costAsleep ≤ w.st.global.budget.toNat)
    (slow : (w.st.bank b).config.stages.toNat ≠ 1 ∨ (w.st.bank b).pgood = false) :
    w.wake b fromLink = (w.joinWait b fromLink).on fun s => s.grantWake b [] := by
  rw [Work.wake_joins fromLink present asleep]
  have bank : (w.joinWait b fromLink).st.bank b = (w.st.bank b).awaiting := by
    rw [Work.joinWait_st, State.joinWait_self]
  refine Work.tryGrant_ramps ?_ ?_ ?_ (by simp)
  · rw [Work.joinWait_st, State.joinWait_alone b alone]
  · rw [bank, Bank.wakeCost_awaiting, Work.joinWait_st]; exact fits
  · rw [bank]; exact slow

/-- A wake that completes within its grant into ON, with nothing parked (R5, R9 to R11, R80). -/
theorem Work.wake_on (fits : w.st.unitsHeld + (w.st.bank b).costAsleep ≤ w.st.global.budget.toNat)
    (one : (w.st.bank b).config.stages.toNat = 1) (high : (w.st.bank b).pgood = true) (none : w.st.parked = [])
    (stays : ¬ ((w.st.bank b).config.fillPolicy = .zero ∧ ∃ g : Segment, (w.st.bank b).marks[g] = .lost)) :
    w.wake b fromLink =
      ((w.joinWait b fromLink).on fun _ =>
        w.st.updBank b fun k => (k.awaiting.ramping k.costAsleep).ramped.readied).offer b .ready := by
  have bank : (w.joinWait b fromLink).st.bank b = (w.st.bank b).awaiting := by
    rw [Work.joinWait_st, State.joinWait_self]
  rw [Work.wake_joins fromLink present asleep, Work.tryGrant_on (b := b) (rest := [])]
  · refine congrArg (fun v : Work => v.offer b .ready) (Work.on_congr ?_)
    rw [Work.joinWait_st]
    refine State.ext ?_ rfl rfl alone.symm rfl rfl rfl rfl rfl rfl rfl rfl rfl rfl rfl rfl rfl rfl rfl rfl rfl rfl rfl
    simp only [← Bank.wakeCost_awaiting]
    exact State.updBank_after (f := Bank.awaiting) _ rfl
  · rw [Work.joinWait_st, State.joinWait_alone b alone]
  · rw [bank, Bank.wakeCost_awaiting, Work.joinWait_st]; exact fits
  · rw [bank]; exact one
  · rw [bank]; exact high
  · simp
  · rw [bank]; exact stays
  · rw [Work.joinWait_st]; exact none

/-- A wake that completes within its grant into FILLING behind another bank (R5, R9, R10, R80, R96). -/
theorem Work.wake_filling (fits : w.st.unitsHeld + (w.st.bank b).costAsleep ≤ w.st.global.budget.toNat)
    (one : (w.st.bank b).config.stages.toNat = 1) (high : (w.st.bank b).pgood = true) (none : w.st.parked = [])
    (fills : (w.st.bank b).config.fillPolicy = .zero ∧ ∃ g : Segment, (w.st.bank b).marks[g] = .lost)
    (behind : w.st.fillQueue ≠ []) : w.wake b fromLink =
      (w.joinWait b fromLink).on fun _ =>
        { w.st.updBank b fun k => { (k.awaiting.ramping k.costAsleep).ramped with power := .filling } with
          fillQueue := w.st.fillQueue ++ [b] } := by
  have bank : (w.joinWait b fromLink).st.bank b = (w.st.bank b).awaiting := by
    rw [Work.joinWait_st, State.joinWait_self]
  rw [Work.wake_joins fromLink present asleep, Work.tryGrant_filling (b := b) (rest := [])]
  · refine Work.on_congr ?_
    rw [Work.joinWait_st]
    refine State.ext ?_ rfl rfl alone.symm rfl rfl rfl rfl rfl rfl rfl rfl rfl rfl rfl rfl rfl rfl rfl rfl rfl rfl rfl
    simp only [← Bank.wakeCost_awaiting]
    exact State.updBank_after (f := Bank.awaiting) _ rfl
  · rw [Work.joinWait_st, State.joinWait_alone b alone]
  · rw [bank, Bank.wakeCost_awaiting, Work.joinWait_st]; exact fits
  · rw [bank]; exact one
  · rw [bank]; exact high
  · simp
  · rw [bank]; exact fills
  · rw [Work.joinWait_st]; exact none
  · rw [Work.joinWait_st]; exact behind

end

end Sys2Proof.Machine
end

section
/-! SUPPORT. WAKE BANK (01_bank_power.md, R23), and the wake it makes (R5, R7, R9 to R11). -/

namespace Sys2Proof.Machine

/-- The state with the frame of a management command that has been taken (R182, R185). -/
def State.withFrame (s : State) (received reply : List Byte) : State :=
  { s with frame := { mcsLow := true, received := received, reply := reply } }

theorem State.replied_eq (s : State) (received reply : List Byte) :
    s.replied received reply = s.settled.withFrame received reply := rfl

/-- An event whose moves are known, with no link enabled and no crossing made, ends with them (R142). -/
theorem State.event_unlinked {s : State} {moves : Work → Work} {w : Work} (unlinked : s.Unlinked)
    (result : moves (Work.start s) = w) (links : w.st.links = s.links) (crossings : w.crossings = []) :
    s.event moves = w.st := by
  unfold State.event
  rw [result]
  exact Work.takeTriggers_unlinked (unlinked.of_links links) crossings

/-- An event whose moves offer nothing and make no crossing ends with them. -/
theorem State.event_silent {s : State} {moves : Work → Work} {w : Work} (result : moves (Work.start s) = w)
    (offered : w.offered = []) (crossings : w.crossings = []) : s.event moves = w.st := by
  unfold State.event
  rw [result]
  exact Work.takeTriggers_nothing offered crossings

theorem State.wakeBank_absent {s : State} {b : BankId} (h : (s.bank b).config.present = false) :
    s.wakeBank b = .error .state := if_pos h

theorem State.wakeBank_refused {s : State} {b : BankId}
    (h : (s.bank b).power = .fault ∨ ((s.bank b).power = .draining ∧ (s.bank b).drainKind ≠ .soft)) :
    s.wakeBank b = .error .state := by
  unfold State.wakeBank
  dsimp only
  split
  · rfl
  · rcases h with fault | ⟨draining, hard⟩
    · rw [fault]
    · rw [draining]; exact if_neg hard

section
variable {s : State} {b : BankId} (present : (s.bank b).config.present = true)
include present

theorem State.wakeBank_present : s.wakeBank b =
    match (s.bank b).power with
    | .off | .retain => .ok (s.event fun w => w.wake b false, [])
    | .waiting | .ramping | .filling => .ok (s, [])
    | .on => .ok (s.updBank b Bank.reloadIdle, [])
    | .draining => if (s.bank b).drainKind = .soft then .ok (s.event fun w => w.cancelDrain b, []) else .error .state
    | .fault => .error .state := by
  unfold State.wakeBank
  dsimp only
  rw [if_neg (by simp [present])] <;> rfl

theorem State.wakeBank_rising (h : (s.bank b).power = .waiting ∨ (s.bank b).power = .ramping ∨ (s.bank b).power = .filling) :
    s.wakeBank b = .ok (s, []) := by
  rw [State.wakeBank_present present]
  rcases h with h | h | h <;> rw [h]

theorem State.wakeBank_on (on : (s.bank b).power = .on) : s.wakeBank b = .ok (s.updBank b Bank.reloadIdle, []) := by
  rw [State.wakeBank_present present, on]

theorem State.wakeBank_soft (draining : (s.bank b).power = .draining) (soft : (s.bank b).drainKind = .soft) :
    s.wakeBank b = .ok (s.event fun w => w.cancelDrain b, []) := by
  rw [State.wakeBank_present present, draining]
  exact if_pos soft

theorem State.wakeBank_asleep (h : (s.bank b).power = .off ∨ (s.bank b).power = .retain) :
    s.wakeBank b = .ok (s.event fun w => w.wake b false, []) := by
  rw [State.wakeBank_present present]
  rcases h with h | h <;> rw [h]

end

theorem exec_wakeBank_refused {s : State} (held : s.frameHeld = false) {b : BankId}
    (refused : s.begin.wakeBank b = .error .state) :
    exec (.wakeBank (byteOf b.val)) s = .next (s.replied [0x13, byteOf b.val] [0x03]) := by
  show proceed (s.begin.serve .wakeBank (byteOf b.val) [] (withBank (byteOf b.val) s.begin.wakeBank)) = _
  rw [withBank_byteOf, refused, State.serve_begin_error held]
  rfl

theorem exec_wakeBank_taken {s t : State} (held : s.frameHeld = false) {b : BankId}
    (taken : s.begin.wakeBank b = .ok (t, [])) : exec (.wakeBank (byteOf b.val)) s =
      .next (t.withFrame [0x13, byteOf b.val] [0x00]) := by
  show proceed (s.begin.serve .wakeBank (byteOf b.val) [] (withBank (byteOf b.val) s.begin.wakeBank)) = _
  rw [withBank_byteOf, taken, State.serve_begin_ok held]
  rfl

/-- The idle timer of a bank in ON is reloaded where it counts (R60). -/
theorem Bank.reloadIdle_on {k : Bank} (on : k.power = .on) : k.reloadIdle =
    { k with idleTimer :=
        match k.idleTimer with
        | .counting _ => .counting (k.config.idleLimit.toNat * 1000)
        | .held n => .held n
        | .stopped => .stopped } := by
  cases k with | mk power _ _ _ _ _ _ _ idle _ _ _ _ _ _ =>
  unfold Bank.reloadIdle
  rw [if_pos on]
  cases idle <;> rfl

/-- Settles O27: by the power state of the bank, and for a sleeping one by whether its grant fits and its ramp completes. -/
theorem wakeBank : Obligations.WakeBank := by
  refine ⟨fun s b held => ⟨fun absent => ?_, fun refused => ?_, fun present rising => ?_, fun present on => ?on,
      fun present draining soft none => ?soft⟩,
    fun s b held => ?asleep⟩
  · exact exec_wakeBank_refused held (State.wakeBank_absent absent)
  · exact exec_wakeBank_refused held (State.wakeBank_refused refused)
  · rw [exec_wakeBank_taken held (State.wakeBank_rising (s := s.begin) present rising)]
    rfl
  case on =>
    rw [exec_wakeBank_taken held (State.wakeBank_on (s := s.begin) present on), State.updBank_const]
    rw [Bank.reloadIdle_on (k := s.begin.bank b) on] <;> rfl
  case soft =>
    rw [exec_wakeBank_taken held (State.wakeBank_soft (s := s.begin) present draining soft),
      State.event_silent (moves := fun w => w.cancelDrain b) (Work.cancelDrain_alone (w := Work.start s.begin) b none) rfl rfl]
    rfl
  case asleep =>
    intro k received cost fills unlinked alone present asleep
    have wakes (w : Work) (woken : (Work.start s.begin).wake b false = w) (links : w.st.links = s.links)
        (crossings : w.crossings = []) : exec (.wakeBank (byteOf b.val)) s =
          .next (w.st.withFrame received [0x00]) := by
      rw [exec_wakeBank_taken held (State.wakeBank_asleep (s := s.begin) present asleep),
        State.event_unlinked (s := s.begin) unlinked woken links crossings]
    refine ⟨fun tight => ?_, fun fits slow => ?_, fun fits one high none => ⟨fun stays => ?_, fun fills behind => ?_⟩⟩
    · rw [wakes _ (Work.wake_waits (w := Work.start s.begin) false present asleep alone tight) rfl rfl, Work.joinWait_st]
      exact congrArg (fun t : State => Host.Outcome.next (t.withFrame received [0x00]))
        (State.joinWait_alone (s := s.begin) b alone)
    · rw [wakes _ (Work.wake_ramps (w := Work.start s.begin) false present asleep alone fits slow) rfl rfl, Work.on_st,
        Work.joinWait_st]
      exact congrArg (fun t : State => Host.Outcome.next (t.withFrame received [0x00]))
        (State.joinWait_grantWake (s := s.begin) b alone)
    · rw [wakes _ (Work.wake_on (w := Work.start s.begin) false present asleep alone fits one high none stays) rfl rfl]
      rfl
    · rw [wakes _ (Work.wake_filling (w := Work.start s.begin) false present asleep alone fits one high none fills behind)
        rfl rfl]
      rfl

end Sys2Proof.Machine
end

section
/-! SUPPORT. STAGE_DWELL_EXPIRY, RAMP_COMPLETION and GRANT (01_bank_power.md, R8 to R11; 04_the_wake_arbiter.md, R79, R80). -/

namespace Sys2Proof.Machine

/-! ### A ramp that completes with no bank waiting -/

theorem Bank.rampDone_iff {k : Bank} : k.rampDone = true ↔ k.power = .ramping ∧ k.rampStage = k.config.stages.toNat
    ∧ k.pgood = true ∧ k.wakeTimer ≠ none := by
  unfold Bank.rampDone
  rw [decide_eq_true_iff, Option.isSome_iff_ne_none]
  rfl

theorem Work.finishRamp_alone {w : Work} {b : BankId} (done : (w.st.bank b).rampDone = true) (alone : w.st.waitList = []) :
    w.finishRamp b = (w.on fun s => s.releaseUnits b).completeRamp b :=
  Work.finishRamp_waits done fun c hc => by rw [alone] at hc; cases hc

theorem State.releaseUnits_self (s : State) (b : BankId) : (s.releaseUnits b).bank b = { s.bank b with charge := 0 } := by
  rw [State.releaseUnits_bank, State.bank_updBank_self]

theorem State.releaseUnits_rampDone {s : State} {b : BankId} (done : (s.bank b).rampDone = true) :
    ((s.releaseUnits b).bank b).rampDone = true := by
  rw [State.releaseUnits_self]
  exact done

section
variable {w : Work} {b : BankId} (done : (w.st.bank b).rampDone = true) (alone : w.st.waitList = [])
include done alone

/-- A ramp that completes with no bank waiting for a grant, into ON (R9 to R11). -/
theorem Work.finishRamp_enterOn
    (stays : ¬ ((w.st.bank b).config.fillPolicy = .zero ∧ ∃ g : Segment, (w.st.bank b).marks[g] = .lost)) :
    w.finishRamp b = (w.on fun s => s.endRamp b).enterOn b := by
  rw [Work.finishRamp_alone done alone, Work.completeRamp_on]
  · exact congrArg (fun t => ({ w with st := t } : Work).enterOn b) (State.releaseUnits_endRamp w.st b)
  · exact State.releaseUnits_rampDone done
  · rw [Work.on_st, State.releaseUnits_self]; exact stays

/-- A ramp that completes with no bank waiting for a grant, into FILLING (R9, R10). -/
theorem Work.finishRamp_enterFilling
    (fills : (w.st.bank b).config.fillPolicy = .zero ∧ ∃ g : Segment, (w.st.bank b).marks[g] = .lost) :
    w.finishRamp b = (w.on fun s => s.endRamp b).enterFilling b := by
  rw [Work.finishRamp_alone done alone, Work.completeRamp_filling]
  · exact congrArg (fun t => ({ w with st := t } : Work).enterFilling b) (State.releaseUnits_endRamp w.st b)
  · exact State.releaseUnits_rampDone done
  · rw [Work.on_st, State.releaseUnits_self]; exact fills

/-- The ramp of a bank alone ends in ON (R9 to R11). -/
theorem Work.finishRamp_on (none : w.st.parked = [])
    (stays : ¬ ((w.st.bank b).config.fillPolicy = .zero ∧ ∃ g : Segment, (w.st.bank b).marks[g] = .lost)) :
    w.finishRamp b = (w.on fun s => { s.updBank b (fun k => k.ramped.readied) with
      unitsHeld := s.unitsHeld - (s.bank b).charge }).offer b .ready := by
  have st : (w.st.endRamp b).updBank b Bank.readied =
      { w.st.updBank b (fun k => k.ramped.readied) with unitsHeld := w.st.unitsHeld - (w.st.bank b).charge } := by
    rw [State.endRamp_eq]
    exact State.ext_banks (State.updBank_after (f := Bank.ramped) Bank.readied rfl) rfl
  rw [Work.finishRamp_enterOn done alone stays, Work.enterOn_alone b (w := w.on fun s => s.endRamp b) none]
  exact congrArg (fun t => ({ w with st := t } : Work).offer b .ready) st

/-- The ramp of a bank alone ends in FILLING behind another bank (R9, R10, R96). -/
theorem Work.finishRamp_filling (none : w.st.parked = []) (behind : w.st.fillQueue ≠ [])
    (fills : (w.st.bank b).config.fillPolicy = .zero ∧ ∃ g : Segment, (w.st.bank b).marks[g] = .lost) :
    w.finishRamp b = w.on fun s => { s.updBank b (fun k => { k.ramped with power := .filling }) with
      unitsHeld := s.unitsHeld - (s.bank b).charge, fillQueue := s.fillQueue ++ [b] } := by
  have st : (w.st.endRamp b).joinFill b = { w.st.updBank b (fun k => { k.ramped with power := .filling }) with
      unitsHeld := w.st.unitsHeld - (w.st.bank b).charge, fillQueue := w.st.fillQueue ++ [b] } := by
    rw [State.endRamp_eq]
    exact State.ext_banks (State.updBank_after (f := Bank.ramped) (fun k => { k with power := .filling }) rfl) rfl
  rw [Work.finishRamp_enterFilling done alone fills,
    Work.enterFilling_behind b (w := w.on fun s => s.endRamp b) none behind]
  exact congrArg (fun t => ({ w with st := t } : Work)) st

end

/-- The outcome of a ramp that completes right after a change of its bank's record. -/
theorem State.ramped_after (s : State) (b : BankId) (f g : Bank → Bank) (q : List BankId) :
    { (s.updBank b f).updBank b g with
        unitsHeld := (s.updBank b f).unitsHeld - ((s.updBank b f).bank b).charge, fillQueue := q } =
      ({ s.updBank b (fun k => g (f k)) with unitsHeld := s.unitsHeld - (f (s.bank b)).charge, fillQueue := q } : State) := by
  rw [State.updBank_updBank, State.bank_updBank_self]
  rfl

/-! ### STAGE_DWELL_EXPIRY -/

theorem exec_stageDwellExpiry_due {s : State} {b : BankId} (ramping : (s.bank b).power = .ramping)
    (due : (s.bank b).dwellTimer = some 0) : exec (.stageDwellExpiry b) s =
      .next (s.begin.event fun w => (w.bank b Bank.nextStage).finishRamp b) := if_pos ⟨ramping, due⟩

/-- Settles O40: by whether the dwell timer has run out, and whether the next stage completes the ramp. -/
theorem stageDwellExpiry : Obligations.StageDwellExpiry := by
  refine fun s b => ⟨fun notDue => ?_, fun ramping due more => ?_, fun ramping due last high limit quiet policy => ?_⟩
  · refine if_neg ?_
    rintro ⟨ramping, due⟩
    exact notDue.elim (fun h => h ramping) fun h => h due
  · have notDone : (((Work.start s.begin).bank b Bank.nextStage).st.bank b).rampDone = false := by
      rw [Work.bank_st, State.bank_updBank_self, Bool.eq_false_iff, Ne, Bank.rampDone_iff]
      rintro ⟨-, stage, high, limit⟩
      rcases more with h | h | h
      · exact h stage
      · rw [show (s.bank b).pgood = true from high] at h; cases h
      · exact limit h
    rw [exec_stageDwellExpiry_due ramping due,
      State.event_silent (moves := fun w => (w.bank b Bank.nextStage).finishRamp b) (Work.finishRamp_not notDone) rfl rfl]
    rfl
  · have bank : ((Work.start s.begin).bank b Bank.nextStage).st.bank b = (s.bank b).nextStage := State.bank_updBank_self _ b _
    have done : (((Work.start s.begin).bank b Bank.nextStage).st.bank b).rampDone = true := by
      rw [bank, Bank.rampDone_iff]
      exact ⟨ramping, last, high, limit⟩
    have stays : ¬ ((s.bank b).nextStage.config.fillPolicy = .zero ∧ ∃ g : Segment, (s.bank b).nextStage.marks[g] = .lost) := by
      rintro ⟨zero, g, lost⟩
      rcases policy with none | valid
      · rw [show (s.bank b).config.fillPolicy = .zero from zero] at none; cases none
      · cases (valid g).symm.trans lost
    rw [exec_stageDwellExpiry_due ramping due,
      State.event_unlinked (s := s.begin) (moves := fun w => (w.bank b Bank.nextStage).finishRamp b) quiet.unlinked
        (Work.finishRamp_on done quiet.wait quiet.parked (by rw [bank]; exact stays)) rfl rfl]
    exact congrArg Host.Outcome.next (State.ramped_after s.begin b Bank.nextStage (fun k => k.ramped.readied) s.fillQueue)

/-! ### RAMP_COMPLETION -/

/-- The first bank of the fill queue begins its lowest LOST segment as it enters FILLING (R10, R97, R98). -/
theorem Work.enterFilling_begins {w : Work} {b : BankId} {g : Segment} (none : w.st.parked = [])
    (first : w.st.fillQueue = []) (lowest : (w.st.bank b).LowestLost g)
    (noFill : ∀ x ∈ (w.st.bank b).port.slots, x.holder ≠ .fill) :
    w.enterFilling b = w.on fun s => (s.joinFill b).fillBegun b g := by
  have bank : (w.on fun s => s.joinFill b).st.bank b = { w.st.bank b with power := .filling } := by
    rw [Work.on_st, State.joinFill_bank, State.bank_updBank_self]
  unfold Work.enterFilling
  dsimp only
  rw [if_pos first, Work.scan_empty (w := w.on fun s => s.joinFill b) none, Work.startHead_begins (b := b) (more := []) (g := g)]
  · rfl
  · exact congrArg (· ++ [b]) first
  · rw [bank]; exact lowest.any
  · exact State.chooseSegment_lowest none (by rw [bank]; exact lowest)
  · rw [bank]; exact noFill

/-- The release scan at an entry into ON with entries parked, where no other bank takes a forward (R11, R44). -/
theorem Work.enterOn_releases {w : Work} {b : BankId} (h : (w.st.turnOn b).Releasing b [] w.st.parked) :
    w.enterOn b = (w.on fun s => (s.turnOn b).released b).offer b .ready :=
  Work.scan_releases (w := (w.on fun s => s.turnOn b).offer b .ready) h

theorem Bank.turnedOn_parked (k : Bank) (q : List Entry) (b : BankId) : k.turnedOn (parkedCount q b) =
    { k with
      power := .on, drainKind := .none, drainTarget := .none
      idleTimer :=
        if k.config.idleLimit = 0 then .stopped
        else if ∃ e ∈ q, e.req.bank = b then .held (k.config.idleLimit.toNat * 1000)
        else .counting (k.config.idleLimit.toNat * 1000) } := by
  simp only [Bank.turnedOn, Bank.loadIdle, parkedCount_pos]
  rfl

/-- A bank just turned on holds its idle timer exactly while an entry is parked for it (R58), so that a scan can start. -/
theorem State.turnOn_releasing {s : State} {b : BankId} (h : s.OnlyReleases b) : (s.turnOn b).Releasing b [] s.parked := by
  have self : (s.turnOn b).bank b = (s.bank b).turnedOn (parkedCount s.parked b) := by
    rw [State.turnOn_bank, State.bank_updBank_self]
  have other : ∀ c, c ≠ b → (s.turnOn b).bank c = s.bank c := fun c hc => by
    rw [State.turnOn_bank, State.bank_updBank_ne _ _ hc]
  refine ⟨?_, rfl, ⟨fun e he hb => ?_, fun c n hc => ?_, ?_⟩, fun n held => ?_, fun n counts e he hb => ?_⟩
  · rw [self]; rfl
  · rw [other _ hb]; exact h.others e he hb
  · rw [other c hc]; exact h.timers c n hc
  · rw [self]; exact h.threshold
  · rw [self, Bank.turnedOn_parked] at held
    dsimp only at held
    split at held
    · cases held
    · split at held
      · assumption
      · cases held
  · rw [self, Bank.turnedOn_parked] at counts
    dsimp only at counts
    split at counts
    · cases counts
    · split at counts
      · cases counts
      · rename_i none; exact none ⟨e, he, hb⟩

theorem State.OnlyReleases.transfer {s t : State} {b : BankId} (h : s.OnlyReleases b) (parked : t.parked = s.parked)
    (others : ∀ c, c ≠ b → t.bank c = s.bank c) (config : (t.bank b).config = (s.bank b).config) : t.OnlyReleases b where
  others e he hb := by rw [others _ hb]; exact h.others e (parked ▸ he) hb
  timers c n hc := by rw [others c hc]; exact h.timers c n hc
  threshold := by rw [config]; exact h.threshold

/-- The rise of PGOOD at a bank. -/
def Bank.raised (k : Bank) : Bank := { k with pgood := true }

theorem exec_rampCompletion (s : State) (b : BankId) : exec (.rampCompletion b) s =
    .next (s.begin.event fun w => (w.bank b Bank.raised).finishRamp b) := rfl

theorem State.raised_bank (s : State) (b : BankId) : ((Work.start s.begin).bank b Bank.raised).st.bank b = (s.bank b).raised :=
  State.bank_updBank_self _ b _

/-- The completion of the ramp of `b`, with the bank alone. -/
theorem State.raised_rampDone {s : State} {b : BankId} (ramping : (s.bank b).power = .ramping)
    (last : (s.bank b).rampStage = (s.bank b).config.stages.toNat) (limit : (s.bank b).wakeTimer ≠ none) :
    (((Work.start s.begin).bank b Bank.raised).st.bank b).rampDone = true := by
  rw [State.raised_bank, Bank.rampDone_iff]
  exact ⟨ramping, last, rfl, limit⟩

/-- The completion of a ramp into ON forwards the entries parked for the bank (R11, R44). -/
theorem Work.finishRamp_releases {w : Work} {b : BankId} (done : (w.st.bank b).rampDone = true) (alone : w.st.waitList = [])
    (stays : ¬ ((w.st.bank b).config.fillPolicy = .zero ∧ ∃ g : Segment, (w.st.bank b).marks[g] = .lost))
    (only : w.st.OnlyReleases b) : w.finishRamp b =
      (w.on fun s => State.released { s.updBank b (fun k => k.ramped.turnedOn (parkedCount s.parked b)) with
        unitsHeld := s.unitsHeld - (s.bank b).charge } b).offer b .ready := by
  have st : (w.st.endRamp b).turnOn b = { w.st.updBank b (fun k => k.ramped.turnedOn (parkedCount w.st.parked b)) with
      unitsHeld := w.st.unitsHeld - (w.st.bank b).charge } := by
    rw [State.endRamp_eq]
    exact State.ext_banks (State.updBank_after (f := Bank.ramped) (fun k => k.turnedOn (parkedCount w.st.parked b)) rfl) rfl
  have only' : (w.st.endRamp b).OnlyReleases b := by
    refine only.transfer (by rw [State.endRamp_eq]; rfl) (fun c hc => ?_) ?_
    · rw [State.endRamp_bank, if_neg hc]
    · rw [State.endRamp_bank, if_pos rfl]
  rw [Work.finishRamp_enterOn done alone stays, Work.enterOn_releases (w := w.on fun s => s.endRamp b)]
  · exact congrArg (fun t => ({ w with st := State.released t b } : Work).offer b .ready) st
  · have := State.turnOn_releasing only'
    rwa [show (w.st.endRamp b).parked = (w.on fun s => s.endRamp b).st.parked from rfl] at this

theorem State.banks_ext {t u : State} (h : ∀ c, t.bank c = u.bank c) : t.banks = u.banks :=
  Vector.ext fun i hi => h ⟨i, hi⟩

/-- The state at the end of the grant that a release of bank `b`'s units brings to bank `c`, whose ramp it completes. -/
def State.granting (s : State) (b c : BankId) : State := ((s.releaseUnits b).grantWake c []).releaseUnits c

theorem State.granting_other {s : State} {b c : BankId} (other : c ≠ b) :
    (s.granting b c).bank b = { s.bank b with charge := 0 } := by
  unfold State.granting
  rw [State.releaseUnits_bank, State.bank_updBank_ne _ _ other.symm, State.grantWake_bank,
    State.bank_updBank_ne _ _ other.symm, State.releaseUnits_self]

theorem State.granting_granted {s : State} {b c : BankId} (other : c ≠ b) :
    (s.granting b c).bank c = { (s.bank c).granted (s.bank c).wakeCost with charge := 0 } := by
  unfold State.granting
  rw [State.grantWake_releaseUnits_bank, State.releaseUnits_bank, State.bank_updBank_ne _ _ other]

theorem State.granting_unitsHeld (s : State) (b c : BankId) :
    (s.granting b c).unitsHeld = s.unitsHeld - (s.bank b).charge :=
  State.grantWake_releaseUnits_unitsHeld (s.releaseUnits b) c []

/-- A bank whose ramp is over and that has entered FILLING (R9, R10). -/
def Bank.queued (k : Bank) : Bank := { k.ramped with power := .filling }

theorem State.granting_fills_bank {s : State} {b c : BankId} (other : c ≠ b) (d : BankId) :
    (((((s.granting b c).endRamp b).joinFill b).endRamp c).joinFill c).bank d =
      ((s.updBank b Bank.queued).updBank c fun k => (k.ramping k.wakeCost).queued).bank d := by
  simp only [State.joinFill_bank, State.bank_updBank, State.endRamp_bank]
  by_cases hc : d = c
  · subst hc
    simp only [if_true, if_neg other, State.granting_granted other]
    rfl
  · by_cases hb : d = b
    · subst hb
      simp only [if_neg hc, if_true, State.granting_other other]
      rfl
    · simp only [if_neg hc, if_neg hb]
      unfold State.granting
      rw [State.releaseUnits_bank, State.bank_updBank_ne _ _ hc, State.grantWake_bank, State.bank_updBank_ne _ _ hc,
        State.releaseUnits_bank, State.bank_updBank_ne _ _ hb]

/-- The state once both banks have entered FILLING, bank `b` ahead. -/
theorem State.granting_fills {s : State} {b c : BankId} (other : c ≠ b) :
    ((((s.granting b c).endRamp b).joinFill b).endRamp c).joinFill c =
      { (s.updBank b Bank.queued).updBank c (fun k => (k.ramping k.wakeCost).queued) with
        unitsHeld := s.unitsHeld - (s.bank b).charge, waitList := [], fillQueue := s.fillQueue ++ [b, c] } := by
  have joined : ((((s.granting b c).endRamp b).joinFill b).bank c).charge = 0 := by
    rw [State.joinFill_bank, State.bank_updBank_ne _ _ other, State.endRamp_bank, if_neg other, State.granting_granted other]
  have units : (((((s.granting b c).endRamp b).joinFill b).endRamp c).joinFill c).unitsHeld
      = s.unitsHeld - (s.bank b).charge := by
    rw [State.joinFill_eq, State.endRamp_eq, joined, State.joinFill_eq, State.endRamp_eq]
    show (s.granting b c).unitsHeld - ((s.granting b c).bank b).charge - 0 = _
    rw [State.granting_unitsHeld, State.granting_other other, Nat.sub_zero, Nat.sub_zero]
  exact State.ext (State.banks_ext (State.granting_fills_bank other)) rfl units rfl (List.append_assoc s.fillQueue [b] [c])
    rfl rfl rfl rfl rfl rfl rfl rfl rfl rfl rfl rfl rfl rfl rfl rfl rfl rfl

/-- A ramp that completes and, with the units it releases, lets the one waiting bank complete its own within its grant: both
enter FILLING, the first ahead (R10, R80, R96, R108). -/
theorem Work.finishRamp_two {w : Work} {b c : BankId} (done : (w.st.bank b).rampDone = true) (list : w.st.waitList = [c])
    (other : c ≠ b) (none : w.st.parked = []) (behind : w.st.fillQueue ≠ [])
    (fills : (w.st.bank b).config.fillPolicy = .zero ∧ ∃ g : Segment, (w.st.bank b).marks[g] = .lost)
    (fits : w.st.unitsHeld - (w.st.bank b).charge + (w.st.bank c).wakeCost ≤ w.st.global.budget.toNat)
    (one : (w.st.bank c).config.stages.toNat = 1) (high : (w.st.bank c).pgood = true)
    (fillsToo : (w.st.bank c).config.fillPolicy = .zero ∧ ∃ g : Segment, (w.st.bank c).marks[g] = .lost) :
    w.finishRamp b = w.on fun s =>
      { (s.updBank b Bank.queued).updBank c (fun k => (k.ramping k.wakeCost).queued) with
        unitsHeld := s.unitsHeld - (s.bank b).charge, waitList := [], fillQueue := s.fillQueue ++ [b, c] } := by
  have released : (w.st.releaseUnits b).bank c = w.st.bank c := by
    rw [State.releaseUnits_bank, State.bank_updBank_ne _ _ other]
  have attempt : (w.st.releaseUnits b).grants = (w.st.granting b c, [c]) :=
    State.grants_completes (s := w.st.releaseUnits b) list (by rw [released]; exact fits) (by rw [released]; exact one)
      (by rw [released]; exact high) (by simp)
  have first : (w.on fun s => s.granting b c).completeRamp b =
      w.on fun s => ((s.granting b c).endRamp b).joinFill b := by
    rw [Work.completeRamp_filling, Work.enterFilling_behind b (w := (w.on fun s => s.granting b c).on fun s => s.endRamp b)
      none behind]
    · rfl
    · rw [Work.on_st, State.granting_other other]; exact done
    · rw [Work.on_st, State.granting_other other]; exact fills
  have bank : ((w.on fun s => ((s.granting b c).endRamp b).joinFill b).st.bank c) =
      { (w.st.bank c).granted (w.st.bank c).wakeCost with charge := 0 } := by
    rw [Work.on_st, State.joinFill_bank, State.bank_updBank_ne _ _ other, State.endRamp_bank, if_neg other,
      State.granting_granted other]
  have second : (w.on fun s => ((s.granting b c).endRamp b).joinFill b).completeRamp c =
      w.on fun s => ((((s.granting b c).endRamp b).joinFill b).endRamp c).joinFill c := by
    rw [Work.completeRamp_filling, Work.enterFilling_behind c
      (w := (w.on fun s => ((s.granting b c).endRamp b).joinFill b).on fun s => s.endRamp c) none]
    · rfl
    · simp [State.joinFill]
    · rw [bank]; exact (Bank.rampDone_granted _ _).2 ⟨one, high⟩
    · rw [bank]; exact fillsToo
  unfold Work.finishRamp
  rw [if_pos done, attempt]
  show ((w.on fun s => s.granting b c).completeRamp b).completeRamp c = _
  rw [first, second]
  exact Work.on_congr (State.granting_fills other)

/-- A segment fill begun at an empty port: two fill writes go out (R97, R99). -/
theorem State.fillBegun_empty {s : State} {b : BankId} {g : Segment} {k : Bank} (bank : s.bank b = k)
    (empty : k.port.slots = []) :
    let write := fun n : Nat => (BitVec.ofNat 28 (g.val * 2 ^ (k.config.capacity.val + 15) + 64 * n) : BankAddr)
    s.fillBegun b g =
      { s.updBank b (fun _ => { k with port := { k.port with slots := [s.fillSlot g (write 0), s.fillSlot g (write 1)] } }) with
        busOut := s.busOut ++ [{ bank := b, addr := write 0, kind := .write, length := 64, data := List.replicate 64 0 },
          { bank := b, addr := write 1, kind := .write, length := 64, data := List.replicate 64 0 }]
        fill := { current := some g, nextWrite := some (write 2), completed := 0, inFlight := 2, cutOff := false } } := by
  intro write
  unfold State.fillBegun
  simp only [bank, empty]
  rfl

/-- A ramp that completes into FILLING at the head of the fill queue begins a segment fill (R10, R97). -/
theorem Work.finishRamp_begins {w : Work} {b : BankId} {g : Segment} (done : (w.st.bank b).rampDone = true)
    (alone : w.st.waitList = []) (none : w.st.parked = []) (first : w.st.fillQueue = [])
    (policy : (w.st.bank b).config.fillPolicy = .zero) (lowest : (w.st.bank b).LowestLost g)
    (noFill : ∀ x ∈ (w.st.bank b).port.slots, x.holder ≠ .fill) : w.finishRamp b =
      w.on fun s => State.fillBegun
        { s.updBank b Bank.queued with unitsHeld := s.unitsHeld - (s.bank b).charge, fillQueue := [b] } b g := by
  have ended : (w.on fun s => s.endRamp b).st.bank b = (w.st.bank b).ramped := by
    rw [Work.on_st, State.endRamp_bank, if_pos rfl]
    rfl
  have st : (w.st.endRamp b).joinFill b =
      { w.st.updBank b Bank.queued with unitsHeld := w.st.unitsHeld - (w.st.bank b).charge, fillQueue := [b] } := by
    have queue : w.st.fillQueue ++ [b] = [b] := congrArg (· ++ [b]) first
    rw [State.endRamp_eq]
    exact State.ext (State.updBank_after (f := Bank.ramped) (fun k => { k with power := .filling }) rfl) rfl rfl rfl queue
      rfl rfl rfl rfl rfl rfl rfl rfl rfl rfl rfl rfl rfl rfl rfl rfl rfl rfl
  rw [Work.finishRamp_enterFilling done alone ⟨policy, g, lowest.1⟩,
    Work.enterFilling_begins (w := w.on fun s => s.endRamp b) none first (by rw [ended]; exact lowest) (by rw [ended]; exact noFill)]
  exact congrArg (fun t => ({ w with st := State.fillBegun t b g } : Work)) st

/-- Settles O41: by whether the ramp completes, whether the bank fills, and what stands ready beside it. -/
theorem rampCompletion : Obligations.RampCompletion := by
  intro s b k high fills
  refine ⟨fun notDone => ?_, fun ramping last limit quiet => ⟨fun stays => ?_, fun fills behind => ?_,
    fun first policy empty g lost lowest => ?begins⟩, fun ramping last limit unlinked => ⟨fun stays alone only => ?releases,
    fun fills behind none c list other => ?two⟩⟩
  · have notDone : (((Work.start s.begin).bank b Bank.raised).st.bank b).rampDone = false := by
      rw [State.raised_bank, Bool.eq_false_iff, Ne, Bank.rampDone_iff]
      rintro ⟨ramping, stage, -, limit⟩
      rcases notDone with h | h | h
      · exact h ramping
      · exact h stage
      · exact limit h
    rw [exec_rampCompletion, State.event_silent (moves := fun w => (w.bank b Bank.raised).finishRamp b)
      (Work.finishRamp_not notDone) rfl rfl]
    rfl
  · rw [exec_rampCompletion, State.event_unlinked (s := s.begin) (moves := fun w => (w.bank b Bank.raised).finishRamp b)
      quiet.unlinked (Work.finishRamp_on (State.raised_rampDone ramping last limit) quiet.wait quiet.parked
        (by rw [State.raised_bank]; exact stays)) rfl rfl]
    exact congrArg Host.Outcome.next (State.ramped_after s.begin b Bank.raised (fun k => k.ramped.readied) s.fillQueue)
  · rw [exec_rampCompletion, State.event_unlinked (s := s.begin) (moves := fun w => (w.bank b Bank.raised).finishRamp b)
      quiet.unlinked (Work.finishRamp_filling (State.raised_rampDone ramping last limit) quiet.wait quiet.parked behind
        (by rw [State.raised_bank]; exact fills)) rfl rfl]
    exact congrArg Host.Outcome.next (State.ramped_after s.begin b Bank.raised
      (fun k => { k.ramped with power := .filling }) (s.fillQueue ++ [b]))
  case begins =>
    have raised := State.raised_bank s b
    rw [exec_rampCompletion, State.event_unlinked (s := s.begin) (moves := fun w => (w.bank b Bank.raised).finishRamp b)
      quiet.unlinked (Work.finishRamp_begins (g := g) (State.raised_rampDone ramping last limit) quiet.wait quiet.parked first
        (by rw [raised]; exact policy) (by rw [raised]; exact ⟨lost, lowest⟩)
        (by rw [raised, show (s.bank b).raised.port.slots = [] from empty]; simp)) rfl rfl]
    have state := State.ramped_after s.begin b Bank.raised Bank.queued [b]
    have bank : (s.begin.updBank b fun k => k.raised.queued).bank b = (s.bank b).raised.queued := State.bank_updBank_self _ b _
    refine congrArg Host.Outcome.next ((congrArg (fun t : State => t.fillBegun b g) state).trans ?_)
    refine (State.fillBegun_empty (k := (s.bank b).raised.queued) ?_ empty).trans ?_
    · exact bank
    · exact State.ext_banks (State.setBank_after (s := s.begin) (fun k => k.raised.queued) rfl) rfl
  case releases =>
    have only' : ((Work.start s.begin).bank b Bank.raised).st.OnlyReleases b :=
      only.transfer rfl (fun c hc => State.bank_updBank_ne _ _ hc) (by rw [State.raised_bank]; rfl)
    rw [exec_rampCompletion, State.event_unlinked (s := s.begin) (moves := fun w => (w.bank b Bank.raised).finishRamp b)
      unlinked (Work.finishRamp_releases (State.raised_rampDone ramping last limit) alone
        (by rw [State.raised_bank]; exact stays) only') rfl rfl]
    refine congrArg (fun t : State => Host.Outcome.next (t.released b)) ((State.ramped_after s.begin b Bank.raised
      (fun k => k.ramped.turnedOn (parkedCount s.parked b)) s.fillQueue).trans ?_)
    simp only [Bank.turnedOn_parked]
    rfl
  case two =>
    intro m fits one high' policy lost
    have bank : ((Work.start s.begin).bank b Bank.raised).st.bank c = s.bank c := State.bank_updBank_ne _ _ other
    rw [exec_rampCompletion, State.event_unlinked (s := s.begin) (moves := fun w => (w.bank b Bank.raised).finishRamp b)
      unlinked (Work.finishRamp_two (State.raised_rampDone ramping last limit) list other none behind
        (by rw [State.raised_bank]; exact fills) (by rw [State.raised_bank, bank]; exact fits) (by rw [bank]; exact one)
        (by rw [bank]; exact high') (by rw [bank]; exact ⟨policy, lost⟩)) rfl rfl]
    have same : (s.begin.updBank b fun k => k.raised.queued).bank c = m := State.bank_updBank_ne _ _ other
    show Host.Outcome.next ({ ((s.begin.updBank b Bank.raised).updBank b Bank.queued).updBank c
      (fun k => (k.ramping k.wakeCost).queued) with
      unitsHeld := s.unitsHeld - ((s.begin.updBank b Bank.raised).bank b).charge, waitList := []
      fillQueue := s.fillQueue ++ [b, c] } : State) = _
    rw [State.updBank_updBank, State.bank_updBank_self, State.updBank_congr (g := fun _ => (m.ramping m.wakeCost).queued)
      (by rw [same])]
    rfl

/-! ### GRANT -/

theorem exec_grant (s : State) : exec .grant s = .next (s.begin.event Work.tryGrant) := rfl

theorem Bank.wakeCost_eq_ite (k : Bank) : k.wakeCost =
    if k.wakeKind = .fromRetain then k.config.retainCost.toNat else k.config.offCost.toNat := by
  unfold Bank.wakeCost
  cases k.wakeKind <;> rfl

/-- Settles O42: by whether the head fits, whether it completes within its grant, and where it then goes. -/
theorem grant : Obligations.Grant := by
  refine fun s => ⟨fun waits => ?_, fun b rest list => ?_⟩
  · rw [exec_grant, State.event_silent (Work.tryGrant_waits (w := Work.start s.begin) waits) rfl rfl]
    rfl
  · intro k cost fills fits
    have cost_eq : (s.bank b).wakeCost = cost := Bank.wakeCost_eq_ite _
    rw [← cost_eq] at fits ⊢
    refine ⟨fun slow waits => ?_, fun one high _ unlinked none waits => ⟨fun stays => ?_, fun filling behind => ?_⟩⟩
    · rw [exec_grant, State.event_silent (Work.tryGrant_ramps (w := Work.start s.begin) list fits slow waits) rfl rfl]
      rfl
    · rw [exec_grant, State.event_unlinked (s := s.begin) unlinked
        (Work.tryGrant_on (w := Work.start s.begin) list fits one high waits stays none) rfl rfl]
      rfl
    · rw [exec_grant, State.event_unlinked (s := s.begin) unlinked
        (Work.tryGrant_filling (w := Work.start s.begin) list fits one high waits filling none behind) rfl rfl]
      rfl

end Sys2Proof.Machine
end

section
/-! SUPPORT. A request for a bank in a soft drain, and a request that is parked (02_the_admission_unit.md, R35 to R37, R41;
01_bank_power.md, R5, R36, R63). -/

namespace Sys2Proof.Machine

/-! ### What a forward at acceptance leaves -/

/-- A state reached from `s` by one forward to bank `b`, which takes the slot `x` (R127). -/
structure OneForward (s t : State) (b : BankId) (x : Slot) : Prop where
  bank : t.bank b = (s.bank b).forwarded x
  others : ∀ c, c ≠ b → t.bank c = s.bank c
  parked : t.parked = s.parked
  waitList : t.waitList = s.waitList
  unitsHeld : t.unitsHeld = s.unitsHeld

theorem State.sendRequest_oneForward (s : State) (x : Routed) : OneForward s (s.sendRequest x) x.bank (s.requestSlot x) where
  bank := by rw [State.sendRequest_bank, State.bank_updBank_self]
  others c hc := by rw [State.sendRequest_bank, State.bank_updBank_ne _ _ hc]
  parked := rfl
  waitList := rfl
  unitsHeld := rfl

theorem OneForward.post {s t : State} {b : BankId} {x : Slot} (h : OneForward s t b x) (k : EventKind) (a : About) :
    OneForward s (t.post k a) b x where
  bank := by rw [State.post_bank]; exact h.bank
  others c hc := by rw [State.post_bank]; exact h.others c hc
  parked := by simpa using h.parked
  waitList := by simpa using h.waitList
  unitsHeld := by simpa using h.unitsHeld

theorem exec_acceptance_oneForward {s : State} {r : Request} {i : WindowId} (ht : s.Takes r) (hd : s.DecodedThrough r i)
    (may : s.windows[i].config.access = .readWrite ∨ r.kind = .read)
    (direct : s.forwardsDirectly (s.figures r i) = true) (unlinked : s.Unlinked) :
    ∃ t x, exec (.acceptance (.edge r)) s = .next t ∧ OneForward s t (s.figures r i).bank x := by
  have sent : OneForward s ((s.accepted r i).sendRequest (s.figures r i)) (s.figures r i).bank
      ((s.accepted r i).requestSlot (s.figures r i)) := by
    obtain ⟨bank, others, parked, waitList, unitsHeld⟩ := State.sendRequest_oneForward (s.accepted r i) (s.figures r i)
    exact ⟨bank, others, parked, waitList, unitsHeld⟩
  refine ⟨_, (s.accepted r i).requestSlot (s.figures r i), exec_acceptance_forwarded ht hd may direct, ?_⟩
  rw [Work.takeTriggers_forward (w := Work.start (s.accepted r i)) unlinked rfl]
  split
  · exact sent.post _ _
  · exact sent

/-- A forward leaves the idle timer of a bank that has just been readied as it was loaded (R58, R60). -/
theorem Bank.readied_forwarded_idleTimer (k : Bank) (x : Slot) :
    (k.readied.forwarded x).idleTimer = k.readied.idleTimer := by
  rw [Bank.forwarded_eq]
  unfold Bank.readied
  dsimp only
  rw [if_pos rfl]
  by_cases stopped : k.config.idleLimit = 0
  · rw [if_pos stopped]
  · rw [if_neg stopped]

/-! ### A request that cancels a soft drain -/

section
variable {s : State} {r : Request} {i : WindowId} {f : Bank → Bank}

theorem State.Takes.updBank (h : s.Takes r) (b : BankId) : (s.updBank b f).Takes r := ⟨h.linkOpen, h.free, h.formed⟩

theorem State.DecodedThrough.updBank (h : s.DecodedThrough r i) (b : BankId) : (s.updBank b f).DecodedThrough r i :=
  ⟨h.enabled, h.first, h.last, h.only⟩

theorem State.figures_updBank (b : BankId) (config : (f (s.bank b)).config = (s.bank b).config) :
    (s.updBank b f).figures r i = s.figures r i := by
  have same : ((s.updBank b f).bank s.windows[i].config.bank).config = (s.bank s.windows[i].config.bank).config := by
    rw [State.bank_updBank]
    split
    · rename_i h; rw [h]; exact config
    · rfl
  unfold State.figures
  dsimp only [State.updBank_windows]
  rw [same]

end

theorem State.forwardsDirectly_ready {s : State} {x : Routed} (none : s.parked = []) (on : (s.bank x.bank).power = .on)
    (room : (s.bank x.bank).port.slots.length < 4) : s.forwardsDirectly x = true :=
  State.forwardsDirectly_iff.2 ⟨by rw [none]; simp, room, .inl on⟩

/-- Settles O38: the drain cancelled, the intake goes on from the state of a bank that has entered ON. -/
theorem requestCancelsASoftDrain : Obligations.RequestCancelsASoftDrain := by
  intro s r i ht hd may unlinked none b k draining soft
  have ht' : (s.updBank b fun _ => k.readied).Takes r := ht.updBank b
  have hd' : (s.updBank b fun _ => k.readied).DecodedThrough r i := hd.updBank b
  have figures : (s.updBank b fun _ => k.readied).figures r i = s.figures r i := State.figures_updBank b rfl
  have bank : (s.updBank b fun _ => k.readied).bank b = k.readied := State.bank_updBank_self _ b _
  have same : exec (.acceptance (.edge r)) s = exec (.acceptance (.edge r)) (s.updBank b fun _ => k.readied) := by
    rw [exec_acceptance_permitted ht hd may (.inr (by rw [none]; decide)),
      exec_acceptance_permitted ht' hd' may (.inr (show s.parked.length < 24 by rw [none]; decide)), figures]
    unfold State.event
    dsimp only
    rw [Work.intake_soft (w := Work.start (s.accepted r i)) (x := s.figures r i) draining soft,
      Work.cancelDrain_alone (w := Work.start (s.accepted r i)) (s.figures r i).bank none,
      Work.intake_place (w := Work.start ((s.updBank b fun _ => k.readied).accepted r i)) (x := s.figures r i)]
    · rfl
    · show ((s.updBank b fun _ => k.readied).bank b).power ≠ _
      rw [bank]; simp [Bank.readied]
    · show ((s.updBank b fun _ => k.readied).bank b).power = _ → _
      rw [bank]; simp [Bank.readied]
  refine ⟨same, fun room => ?_⟩
  have direct : (s.updBank b fun _ => k.readied).forwardsDirectly ((s.updBank b fun _ => k.readied).figures r i) = true := by
    rw [figures]
    exact State.forwardsDirectly_ready none (by rw [show (s.figures r i).bank = b from rfl, bank]; rfl)
      (by rw [show (s.figures r i).bank = b from rfl, bank]; exact room)
  obtain ⟨t, x, runs, forward⟩ := exec_acceptance_oneForward ht' hd' may direct unlinked
  have record : t.bank b = k.readied.forwarded x := by
    rw [← bank]; exact forward.bank
  refine ⟨t, same.trans runs, ?_, ?_, ?_, ?_, ?_, forward.parked.trans none, fun c hc => ?_⟩
  · rw [record, Bank.forwarded_power]; rfl
  · rw [record, Bank.forwarded_drainKind]; rfl
  · rw [record, Bank.forwarded_drainTarget]; rfl
  · rw [record, Bank.readied_forwarded_idleTimer]
  · rw [record, Bank.forwarded_slots, List.length_append]; rfl
  · rw [forward.others c hc, State.bank_updBank_ne _ _ hc]

/-! ### A request that is parked -/

/-- A request that is not forwarded and finds its bank awake joins the queue and does no more (R37). -/
theorem Work.place_parks {w : Work} {x : Routed} (direct : w.st.forwardsDirectly x = false)
    (awake : ¬ ((w.st.bank x.bank).power = .off ∨ (w.st.bank x.bank).power = .retain)) :
    w.place x = w.on fun s => s.withQueue (s.parked ++ [s.entryFor x]) := by
  unfold Work.place Work.park
  rw [if_neg (by rw [direct]; decide), Work.wake_awake]
  · exact Work.on_congr (State.setParked_eq _ _)
  · simpa using awake

/-- A request that finds its bank asleep joins the queue and wakes it (R37). -/
theorem Work.place_wakes {w : Work} {x : Routed} (direct : w.st.forwardsDirectly x = false) :
    w.place x = (w.on fun s => s.withQueue (s.parked ++ [s.entryFor x])).wake x.bank false := by
  unfold Work.place Work.park
  rw [if_neg (by rw [direct]; decide)]
  exact congrArg (fun v : Work => v.wake x.bank false) (Work.on_congr (State.setParked_eq _ _))

/-- The queue matters to no bank but one in ON (R59). -/
theorem State.withQueue_bank (s : State) (q : List Entry) (b : BankId) :
    (s.withQueue q).bank b = (s.bank b).syncIdle (parkedCount q b) := by
  rw [← State.setParked_eq, State.setParked_bank]

theorem State.withQueue_bank_off {s : State} {b : BankId} (h : (s.bank b).power ≠ .on) (q : List Entry) :
    (s.withQueue q).bank b = s.bank b := by
  rw [State.withQueue_bank, Bank.syncIdle_off _ _ h]

theorem State.forwardsDirectly_down {s : State} {x : Routed} (on : (s.bank x.bank).power ≠ .on)
    (filling : (s.bank x.bank).power ≠ .filling) : s.forwardsDirectly x = false := by
  rw [Bool.eq_false_iff, Ne, State.forwardsDirectly_iff]
  rintro ⟨-, -, h | ⟨h, -⟩⟩
  · exact on h
  · exact filling h

/-- What waits at acceptance where the queue has room: the request joins it (R37). -/
theorem exec_acceptance_parked {s : State} {r : Request} {i : WindowId} (ht : s.Takes r) (hd : s.DecodedThrough r i)
    (may : s.windows[i].config.access = .readWrite ∨ r.kind = .read) (room : s.parked.length < 24)
    (noFault : (s.bank (s.figures r i).bank).power ≠ .fault)
    (hard : (s.bank (s.figures r i).bank).power = .draining → (s.bank (s.figures r i).bank).drainKind ≠ .soft) :
    exec (.acceptance (.edge r)) s = .next (((Work.start (s.accepted r i)).place (s.figures r i)).takeTriggers.st) := by
  rw [exec_acceptance_permitted ht hd may (.inr room)]
  show Host.Outcome.next ((Work.start (s.accepted r i)).intake (s.figures r i)).takeTriggers.st = _
  rw [Work.intake_place (w := Work.start (s.accepted r i)) (x := s.figures r i) noFault hard]

/-- The queue of one entry is released whole where the entry can be forwarded (R44). -/
theorem Work.scan_one {w : Work} {e : Entry} (queue : w.st.parked = [e]) (goes : w.st.releasable [] e = true) :
    w.scan = w.release [] e := by
  unfold Work.scan
  rw [queue]
  exact if_pos goes

theorem State.releasable_on {s : State} {e : Entry} (on : (s.bank e.req.bank).power = .on)
    (room : (s.bank e.req.bank).port.slots.length < 4) : s.releasable [] e = true := by
  refine decide_eq_true ⟨?_, .inl on⟩
  unfold State.reason
  simp [on, Port.hasRoom_iff.2 room]

/-- A bank turned on with an entry parked for it, which then leaves, is as if it had been turned on alone (R58, R59). -/
theorem Bank.turnedOn_syncIdle (k : Bank) (n : Nat) : (k.turnedOn n).syncIdle 0 = k.readied := by
  rw [← Bank.turnedOn_eq]
  unfold Bank.turnedOn Bank.loadIdle
  by_cases stopped : k.config.idleLimit = 0
  · simp only [if_pos stopped]
    rfl
  · simp only [if_neg stopped]
    by_cases some : 0 < n
    · simp only [if_pos some]
      rfl
    · simp only [if_neg some]
      rfl

theorem Bank.syncIdle_zero {k : Bank} (h : ∀ n, k.idleTimer ≠ .held n) : k.syncIdle 0 = k := by
  unfold Bank.syncIdle
  split
  · split
    · exact if_neg (by decide)
    · rename_i n held; exact absurd held (h n)
    · rfl
  · rfl

/-- With no link enabled, what a forward ends in depends on the state before it alone. -/
theorem Work.takeTriggers_forward_congr {v w : Work} (same : v.st = w.st) (unlinked : w.st.Unlinked)
    (noneV : v.crossings = []) (noneW : w.crossings = []) (x : Routed) :
    (v.forward x).takeTriggers.st = (w.forward x).takeTriggers.st := by
  rw [Work.takeTriggers_forward (same ▸ unlinked) noneV, Work.takeTriggers_forward unlinked noneW, same]

/-- A wake whose ramp completes within its grant into ON forwards the one entry parked for the bank (R9, R11, R44, R80). -/
theorem Work.wake_forwards {w : Work} {b : BankId} {e : Entry} (fromLink : Bool)
    (present : (w.st.bank b).config.present = true)
    (asleep : (w.st.bank b).power = .off ∨ (w.st.bank b).power = .retain) (alone : w.st.waitList = [])
    (fits : w.st.unitsHeld + (w.st.bank b).costAsleep ≤ w.st.global.budget.toNat)
    (one : (w.st.bank b).config.stages.toNat = 1) (high : (w.st.bank b).pgood = true)
    (stays : ¬ ((w.st.bank b).config.fillPolicy = .zero ∧ ∃ g : Segment, (w.st.bank b).marks[g] = .lost))
    (queue : w.st.parked = [e]) (target : e.req.bank = b) (room : (w.st.bank b).port.slots.length < 4) :
    w.wake b fromLink = (((w.joinWait b fromLink).on fun _ =>
      (State.turnOn { w.st.updBank b (fun k => (k.awaiting.ramping k.costAsleep).ramped) with waitList := [] } b).setParked
        []).offer b .ready).forward e.req := by
  have bank : (w.joinWait b fromLink).st.bank b = (w.st.bank b).awaiting := by
    rw [Work.joinWait_st, State.joinWait_self]
  have ended : (((w.joinWait b fromLink).st.grantWake b []).releaseUnits b).endRamp b =
      { w.st.updBank b (fun k => (k.awaiting.ramping k.costAsleep).ramped) with waitList := [] } := by
    rw [State.grantWake_releaseUnits_endRamp, Work.joinWait_st]
    refine State.ext_banks ?_ rfl
    simp only [← Bank.wakeCost_awaiting]
    exact State.updBank_after (f := Bank.awaiting) (fun k => (k.ramping k.wakeCost).ramped) rfl
  have ready : (State.turnOn (((w.joinWait b fromLink).st.grantWake b []).releaseUnits b |>.endRamp b) b).bank b =
      ((w.st.bank b).awaiting.ramping (w.st.bank b).costAsleep).ramped.turnedOn 1 := by
    have record := State.bank_updBank_self w.st b fun k => (k.awaiting.ramping k.costAsleep).ramped
    have count : parkedCount w.st.parked b = 1 := by rw [queue]; simp [parkedCount, target]
    rw [ended, State.turnOn_bank, State.bank_updBank_self]
    exact congrArg₂ Bank.turnedOn record count
  rw [Work.wake_joins fromLink present asleep, Work.tryGrant_completes (b := b) (rest := []), Work.completeRamp_on]
  · unfold Work.enterOn
    rw [Work.scan_one (e := e)]
    · unfold Work.release
      rw [← ended]
      rfl
    · show (w.joinWait b fromLink).st.parked = [e]
      rw [Work.joinWait_st]
      exact queue
    · subst target
      refine State.releasable_on ?_ ?_
      · exact (congrArg Bank.power ready).trans rfl
      · exact lt_of_eq_of_lt (congrArg (fun k : Bank => k.port.slots.length) ready) room
  · exact State.grantWake_releaseUnits_rampDone [] (by rw [bank]; exact one) (by rw [bank]; exact high)
  · rw [Work.on_st, State.grantWake_releaseUnits_bank, bank]; exact stays
  · rw [Work.joinWait_st, State.joinWait_alone b alone]
  · rw [bank, Bank.wakeCost_awaiting, Work.joinWait_st]; exact fits
  · rw [bank]; exact one
  · rw [bank]; exact high
  · simp

/-- The state before the forward of `wake_forwards`, as that of a bank that has entered ON with nothing parked, where no
other bank holds its idle timer. -/
theorem State.turnOn_setParked_nil {s : State} {b : BankId} {f : Bank → Bank} {e : Entry} (alone : s.waitList = [])
    (none : s.parked = []) (target : e.req.bank = b) (timers : ∀ c n, (s.bank c).idleTimer ≠ .held n) :
    (State.turnOn { (s.withQueue [e]).updBank b f with waitList := [] } b).setParked [] =
      s.updBank b fun _ => (f ((s.withQueue [e]).bank b)).readied := by
  refine State.ext (State.banks_ext fun c => ?_) rfl rfl alone.symm rfl rfl rfl rfl rfl rfl rfl rfl rfl none.symm
    rfl rfl rfl rfl rfl rfl rfl rfl rfl
  rw [State.setParked_bank, State.turnOn_bank, State.bank_updBank, State.bank_updBank]
  by_cases hc : c = b
  · rw [if_pos hc, if_pos hc]
    show Bank.syncIdle (Bank.turnedOn (((s.withQueue [e]).updBank b f).bank b) _) 0 = _
    rw [Bank.turnedOn_syncIdle, State.bank_updBank_self]
  · rw [if_neg hc, if_neg hc]
    show Bank.syncIdle (((s.withQueue [e]).updBank b f).bank c) 0 = _
    have away : parkedCount [e] c = 0 := parkedCount_eq_zero (by simp [target, Ne.symm hc])
    rw [State.bank_updBank_ne _ _ hc, State.withQueue_bank, away, Bank.syncIdle_zero (timers c), Bank.syncIdle_zero (timers c)]

/-- Settles O37: by the state of the bank; and where the wake completes at once, the state before the forward is that of the
same request at a bank that has entered ON. -/
theorem requestParked : Obligations.RequestParked := by
  intro s r i ht hd may room x k entry t
  have entry_eq : (s.accepted r i).entryFor x = entry := rfl
  refine ⟨fun parks => ?_, fun asleep present unlinked alone => ?_⟩
  · have noFault : k.power ≠ .fault := by
      rcases parks with h | h | ⟨h, -⟩ | ⟨h | h, -⟩ | ⟨h, -⟩ <;> rw [h] <;> decide
    have awake : ¬ (k.power = .off ∨ k.power = .retain) := by
      rcases parks with h | h | ⟨h, -⟩ | ⟨h | h, -⟩ | ⟨h, -⟩ <;> rw [h] <;> decide
    have hard : k.power = .draining → k.drainKind ≠ .soft := by
      intro draining
      rcases parks with h | h | ⟨-, h⟩ | ⟨h | h, -⟩ | ⟨h, -⟩
      · rw [h] at draining; cases draining
      · rw [h] at draining; cases draining
      · exact h
      · rw [h] at draining; cases draining
      · rw [h] at draining; cases draining
      · rw [h] at draining; cases draining
    have direct : s.forwardsDirectly x = false := by
      rw [Bool.eq_false_iff, Ne, State.forwardsDirectly_iff]
      rintro ⟨stream, free, up⟩
      have up' : k.power = .on ∨ k.power = .filling ∧ k.marks[x.segment] = .valid := up
      rcases parks with h | h | ⟨h, -⟩ | ⟨-, h | ⟨e, he, same⟩⟩ | ⟨h, lost⟩
      · rw [h] at up'; simp at up'
      · rw [h] at up'; simp at up'
      · rw [h] at up'; simp at up'
      · exact absurd free (Nat.not_lt.2 h)
      · exact stream e he same
      · rw [h, lost] at up'; simp at up'
    rw [exec_acceptance_parked ht hd may room noFault hard,
      Work.place_parks (w := Work.start (s.accepted r i)) (x := x) direct awake, Work.takeTriggers_nothing rfl rfl]
    rfl
  · have noFault : k.power ≠ .fault := by rcases asleep with h | h <;> rw [h] <;> decide
    have notOn : k.power ≠ .on := by rcases asleep with h | h <;> rw [h] <;> decide
    have notFilling : k.power ≠ .filling := by rcases asleep with h | h <;> rw [h] <;> decide
    have hard : k.power = .draining → k.drainKind ≠ .soft := by
      intro draining; rcases asleep with h | h <;> rw [h] at draining <;> cases draining
    have direct : s.forwardsDirectly x = false := State.forwardsDirectly_down notOn notFilling
    have bank : t.bank x.bank = k := State.withQueue_bank_off (s := s.accepted r i) notOn _
    have wakes (w : Work) (woken : (Work.start t).wake x.bank false = w) (links : w.st.links = s.links)
        (crossings : w.crossings = []) : exec (.acceptance (.edge r)) s = .next w.st := by
      rw [exec_acceptance_parked ht hd may room noFault hard,
        Work.place_wakes (w := Work.start (s.accepted r i)) (x := x) direct]
      show Host.Outcome.next ((Work.start t).wake x.bank false).takeTriggers.st = _
      rw [woken, Work.takeTriggers_unlinked (State.Unlinked.of_links unlinked links) crossings]
    have present' : ((Work.start t).st.bank x.bank).config.present = true := by
      rw [show (Work.start t).st.bank x.bank = k from bank]; exact present
    have asleep' : ((Work.start t).st.bank x.bank).power = .off ∨ ((Work.start t).st.bank x.bank).power = .retain := by
      rw [show (Work.start t).st.bank x.bank = k from bank]; exact asleep
    intro cost
    refine ⟨fun tight => ?_, fun fits slow => ?_, fun fits one high policy none timers free => ?_⟩
    · rw [wakes _ (Work.wake_waits (w := Work.start t) false present' asleep' alone
        (by rw [show (Work.start t).st.bank x.bank = k from bank]; exact tight)) rfl rfl, Work.joinWait_st,
        State.joinWait_alone (s := (Work.start t).st) x.bank alone, State.updBank_const,
        show (Work.start t).st.bank x.bank = k from bank]
      rfl
    · rw [wakes _ (Work.wake_ramps (w := Work.start t) false present' asleep' alone
        (by rw [show (Work.start t).st.bank x.bank = k from bank]; exact fits)
        (by rw [show (Work.start t).st.bank x.bank = k from bank]; exact slow)) rfl rfl, Work.on_st, Work.joinWait_st,
        State.joinWait_grantWake (s := (Work.start t).st) x.bank alone, State.updBank_const,
        show (Work.start t).st.bank x.bank = k from bank]
      rfl
    · intro ready
      have queue : t.parked = [entry] := congrArg (· ++ [entry]) none
      have queue' : t = (s.accepted r i).withQueue [entry] := by
        show (s.accepted r i).withQueue (s.parked ++ [entry]) = _
        rw [none]
        rfl
      have stays : ¬ (k.config.fillPolicy = .zero ∧ ∃ g : Segment, k.marks[g] = .lost) := by
        rintro ⟨zero, g, lost⟩
        rcases policy with off | valid
        · rw [zero] at off; cases off
        · rw [valid g] at lost; cases lost
      have bank' : (Work.start t).st.bank x.bank = k := bank
      have goes := Work.wake_forwards (w := Work.start t) false present' asleep' alone (by rw [bank']; exact fits)
        (by rw [bank']; exact one) (by rw [bank']; exact high) (by rw [bank']; exact stays) queue rfl
        (by rw [bank']; exact free)
      have before : (State.turnOn { t.updBank x.bank (fun k => (k.awaiting.ramping k.costAsleep).ramped) with waitList := [] }
          x.bank).setParked [] = (s.updBank x.bank fun _ => ready).accepted r i := by
        have same := State.turnOn_setParked_nil (s := s.accepted r i) (b := x.bank) (e := entry)
          (f := fun k => (k.awaiting.ramping k.costAsleep).ramped) alone none rfl timers
        rw [← queue', bank] at same
        exact same
      have ht' : (s.updBank x.bank fun _ => ready).Takes r := ht.updBank x.bank
      have hd' : (s.updBank x.bank fun _ => ready).DecodedThrough r i := hd.updBank x.bank
      have figures : (s.updBank x.bank fun _ => ready).figures r i = x := State.figures_updBank x.bank rfl
      have bank_ready : (s.updBank x.bank fun _ => ready).bank x.bank = ready := State.bank_updBank_self _ _ _
      have direct' : (s.updBank x.bank fun _ => ready).forwardsDirectly
          ((s.updBank x.bank fun _ => ready).figures r i) = true := by
        rw [figures]
        exact State.forwardsDirectly_ready none (by rw [bank_ready]; rfl) (by rw [bank_ready]; exact free)
      have same : exec (.acceptance (.edge r)) s = exec (.acceptance (.edge r)) (s.updBank x.bank fun _ => ready) := by
        rw [exec_acceptance_parked ht hd may room noFault hard,
          Work.place_wakes (w := Work.start (s.accepted r i)) (x := x) direct,
          exec_acceptance_forwarded ht' hd' may direct', figures]
        show Host.Outcome.next ((Work.start t).wake x.bank false).takeTriggers.st = _
        rw [goes]
        exact congrArg Host.Outcome.next
          (Work.takeTriggers_forward_congr (w := Work.start ((s.updBank x.bank fun _ => ready).accepted r i)) before
            unlinked rfl rfl x)
      refine ⟨same, ?_⟩
      obtain ⟨u, y, runs, forward⟩ := exec_acceptance_oneForward ht' hd' may direct' unlinked
      rw [figures] at forward
      have record : u.bank x.bank = ready.forwarded y := by
        rw [← bank_ready]; exact forward.bank
      refine ⟨u, same.trans runs, ?_, forward.parked.trans none, forward.waitList.trans alone, ?_, forward.unitsHeld⟩
      · rw [record, Bank.forwarded_power]; rfl
      · rw [record, Bank.forwarded_slots, List.length_append]; rfl

end Sys2Proof.Machine
end

section
/-! SUPPORT. CLEAR FAULT, CLEAR COUNT, WRITE LINK and WRITE GLOBAL (11_the_management_port.md, R21, R84, R149, R152, R188):
the checks in order, and the state that a taken command leaves. -/

namespace Sys2Proof.Machine

/-! ### CLEAR FAULT and CLEAR COUNT -/

theorem exec_clearFault {s : State} (b : BankId) : exec (.clearFault (byteOf b.val)) s =
    .next (s.begin.serve .clearFault (byteOf b.val) [] (s.begin.clearFault b)) := by
  show proceed (s.begin.serve .clearFault (byteOf b.val) [] (withBank (byteOf b.val) s.begin.clearFault)) = _
  rw [withBank_byteOf]
  rfl

theorem State.clearFault_refused {s : State} {b : BankId} (h : (s.bank b).config.present = false ∨ (s.bank b).power ≠ .fault) :
    s.clearFault b = .error .state := if_pos h

theorem State.clearFault_taken {s : State} {b : BankId} (present : (s.bank b).config.present = true)
    (fault : (s.bank b).power = .fault) : s.clearFault b = .ok (s.updBank b Bank.cleared, []) :=
  if_neg (by simp [present, fault])

theorem exec_clearCount {s : State} (b : BankId) : exec (.clearCount (byteOf b.val)) s =
    .next (s.begin.serve .clearCount (byteOf b.val) [] (s.begin.clearCount b)) := by
  show proceed (s.begin.serve .clearCount (byteOf b.val) [] (withBank (byteOf b.val) s.begin.clearCount)) = _
  rw [withBank_byteOf]
  rfl

/-- The record of a bank whose access counter has been cleared (R152). -/
def Bank.uncounted (k : Bank) : Bank := { k with port := { k.port with counter := 0, reached := false } }

theorem State.clearCount_refused {s : State} {b : BankId} (h : (s.bank b).config.present = false) :
    s.clearCount b = .error .state := if_pos h

theorem State.clearCount_taken {s : State} {b : BankId} (present : (s.bank b).config.present = true) :
    s.clearCount b = .ok (s.updBank b Bank.uncounted, []) := if_neg (by simp [present])

/-- Settles O26: by the power state and the presence of the bank. -/
theorem clearFaultAndClearCount : Obligations.ClearFaultAndClearCount := by
  refine ⟨fun s b held => ⟨fun refused => ?_, fun present fault => ?_⟩, fun s b held => ⟨fun absent => ?_, fun present => ?_⟩⟩
  · rw [exec_clearFault, State.clearFault_refused (s := s.begin) refused, State.serve_begin_error held]
    rfl
  · rw [exec_clearFault, State.clearFault_taken (s := s.begin) present fault, State.serve_begin_ok held]
    rfl
  · rw [exec_clearCount, State.clearCount_refused (s := s.begin) absent, State.serve_begin_error held]
    rfl
  · rw [exec_clearCount, State.clearCount_taken (s := s.begin) present, State.serve_begin_ok held]
    rfl

/-! ### The codes of the fields (R195) -/

/-- A yes/no field is coded by 00h and 01h, 01h for yes. -/
theorem boolOf_eq (v : Byte) : boolOf v = if v.toNat ≤ 1 then some (decide (v = 1)) else none := by
  unfold boolOf
  by_cases zero : v = 0
  · subst zero; rfl
  · by_cases one : v = 1
    · subst one; rfl
    · rw [if_neg zero, if_neg one, if_neg (by bv_omega)]

theorem bankOf_eq (v : Byte) : bankOf v = if v.toNat ≤ 7 then some (Fin.ofNat 8 v.toNat) else none := by
  unfold bankOf
  by_cases h : v.toNat < 8
  · rw [dif_pos h, if_pos (by omega)]
    exact congrArg some (Fin.ext (Nat.mod_eq_of_lt h).symm)
  · rw [dif_neg h, if_neg (by omega)]

theorem Trigger.code_of (v : Byte) : (∀ x, triggerOf v = some x → x.code = v) ∧ (triggerOf v = none ↔ 5 < v.toNat) := by
  revert v; decide

theorem Action.code_of (v : Byte) : (∀ x, actionOf v = some x → x.code = v) ∧ (actionOf v = none ↔ 4 < v.toNat) := by
  revert v; decide

theorem boolByte_decide {v : Byte} (h : v.toNat ≤ 1) : boolByte (decide (v = 1)) = v := by
  by_cases one : v = 1
  · subst one; rfl
  · rw [decide_eq_false one]
    show (0 : Byte) = v
    bv_omega

theorem byteOf_ofNat {v : Byte} (h : v.toNat ≤ 7) : byteOf (Fin.ofNat 8 v.toNat).val = v := by
  refine BitVec.eq_of_toNat_eq ?_
  rw [byteOf_toNat (by omega)]
  exact Nat.mod_eq_of_lt (by omega)

/-! ### WRITE LINK -/

/-- Whether the five bytes are codes of their fields (R149, R195). -/
def LinkCoded (a : Vector Byte 5) : Prop :=
  a[0].toNat ≤ 1 ∧ a[1].toNat ≤ 7 ∧ a[2].toNat ≤ 5 ∧ a[3].toNat ≤ 7 ∧ a[4].toNat ≤ 4

theorem linkConfigOf_none {a : Vector Byte 5} (h : ¬ LinkCoded a) : linkConfigOf a = none := by
  unfold linkConfigOf
  rw [boolOf_eq, bankOf_eq, bankOf_eq]
  split
  · rename_i enabled source trigger target action
    refine absurd ⟨?_, ?_, ?_, ?_, ?_⟩ h
    · exact (Option.ite_none_right_eq_some.1 enabled).1
    · exact (Option.ite_none_right_eq_some.1 source).1
    · by_contra high
      rw [(Trigger.code_of a[2]).2.2 (by omega)] at trigger; cases trigger
    · exact (Option.ite_none_right_eq_some.1 target).1
    · by_contra high
      rw [(Action.code_of a[4]).2.2 (by omega)] at action; cases action
  · rfl

theorem linkConfigOf_coded {a : Vector Byte 5} (h : LinkCoded a) : ∃ x y, x.code = a[2] ∧ y.code = a[4] ∧
    linkConfigOf a = some { enabled := a[0] = 1, source := Fin.ofNat 8 a[1].toNat, trigger := x
                            target := Fin.ofNat 8 a[3].toNat, action := y } := by
  obtain ⟨enabled, source, trigger, target, action⟩ := h
  obtain ⟨x, hx⟩ := Option.ne_none_iff_exists'.1 fun none => Nat.not_lt.2 trigger ((Trigger.code_of a[2]).2.1 none)
  obtain ⟨y, hy⟩ := Option.ne_none_iff_exists'.1 fun none => Nat.not_lt.2 action ((Action.code_of a[4]).2.1 none)
  refine ⟨x, y, (Trigger.code_of a[2]).1 x hx, (Action.code_of a[4]).1 y hy, ?_⟩
  unfold linkConfigOf
  rw [boolOf_eq, bankOf_eq, bankOf_eq, if_pos enabled, if_pos source, if_pos target, hx, hy]

theorem State.writeLink_uncoded {s : State} {l : LinkId} {a : Vector Byte 5} (h : linkConfigOf a = none) :
    s.writeLink l a = .error .range := by
  unfold State.writeLink
  rw [h]

theorem State.writeLink_coded {s : State} {l : LinkId} {a : Vector Byte 5} {c : LinkConfig} (h : linkConfigOf a = some c) :
    s.writeLink l a =
      if c.enabled ∧ ((s.bank c.source).config.present = false ∨ (s.bank c.target).config.present = false) then .error .state
      else .ok ({ s with links := s.links.set l { config := c, fireCount := 0 } }, []) := by
  unfold State.writeLink
  rw [h]

theorem exec_writeLink {s : State} (l : LinkId) (a : Vector Byte 5) : exec (.writeLink (byteOf l.val) a) s =
    .next (s.begin.serve .writeLink (byteOf l.val) a.toList (s.begin.writeLink l a)) := by
  show proceed (s.begin.serve .writeLink (byteOf l.val) a.toList (withLink (byteOf l.val) fun l => s.begin.writeLink l a)) = _
  rw [withLink_byteOf]
  rfl

theorem toList_five (a : Vector Byte 5) : a.toList = [a[0], a[1], a[2], a[3], a[4]] := by
  match a with
  | ⟨⟨[_, _, _, _, _]⟩, _⟩ => rfl

/-- Settles O25: by whether the bytes are codes, and whether an enabled link names an absent bank. -/
theorem writeLink : Obligations.WriteLink := by
  intro s l a held received coded absent trigger action
  have trigger_eq : ∀ x, trigger x = x.code := fun x => by cases x <;> rfl
  have action_eq : ∀ x, action x = x.code := fun x => by cases x <;> rfl
  refine ⟨fun uncoded => ?_, fun h enabled missing => ?_, fun h passes => ?_⟩
  · rw [exec_writeLink, State.writeLink_uncoded (linkConfigOf_none uncoded), State.serve_begin_error held]
    rfl
  · obtain ⟨x, y, -, -, config⟩ := linkConfigOf_coded h
    rw [exec_writeLink, State.writeLink_coded config, if_pos ⟨decide_eq_true enabled, missing⟩, State.serve_begin_error held]
    rfl
  · obtain ⟨x, y, hx, hy, config⟩ := linkConfigOf_coded h
    obtain ⟨zero, source, -, target, -⟩ := h
    refine ⟨{ config := { enabled := a[0] = 1, source := Fin.ofNat 8 a[1].toNat, trigger := x
                          target := Fin.ofNat 8 a[3].toNat, action := y }, fireCount := 0 }, rfl, ?_, ?_⟩
    · rw [trigger_eq, action_eq, toList_five, boolByte_decide zero, byteOf_ofNat source, byteOf_ofNat target, hx, hy]
    · rw [exec_writeLink, State.writeLink_coded config, if_neg, State.serve_begin_ok held]
      · rfl
      · rintro ⟨enabled, missing⟩
        have one : a[0] = 1 := of_decide_eq_true enabled
        rcases passes with off | present
        · rw [one] at off; cases off
        · exact present missing

/-! ### WRITE GLOBAL -/

/-- The fields that the arguments of a WRITE GLOBAL carry (11.6 layout). -/
def globalFields (a : Vector Byte 7) : Global :=
  { budget := a[0], refclk := a[1], respLimit := a[2] ++ a[3], mask := a[4] ++ a[5], alert := a[6] = 1 }

theorem globalOf_eq (a : Vector Byte 7) : globalOf a = if a[6].toNat ≤ 1 then some (globalFields a) else none := by
  unfold globalOf
  rw [boolOf_eq]
  by_cases coded : a[6].toNat ≤ 1
  · rw [if_pos coded, if_pos coded]; rfl
  · rw [if_neg coded, if_neg coded]

theorem State.costsWithin_iff {s : State} {n : Nat} : s.costsWithin n = true ↔ ∀ b, (s.bank b).config.present = true →
    (s.bank b).config.offCost.toNat ≤ n ∧ (s.bank b).config.retainCost.toNat ≤ n := by
  unfold State.costsWithin
  rw [List.all_eq_true]
  refine ⟨fun h b present => ?_, fun h b _ => decide_eq_true ?_⟩
  · have met := h b (List.mem_finRange b)
    rcases of_decide_eq_true met with absent | within
    · rw [present] at absent; cases absent
    · exact within
  · by_cases present : (s.bank b).config.present = true
    · exact .inr (h b present)
    · exact .inl (Bool.eq_false_iff.2 present)

/-- The RANGE checks of a WRITE GLOBAL, as the model makes them (R84, R188). -/
theorem State.globalInRange_iff {s : State} {a : Vector Byte 7} : ¬ s.globalOutOfRange a ↔
    a[6].toNat ≤ 1 ∧ (globalFields a).inRange = true ∧ s.budgetInRange a[0].toNat = true := by
  unfold Global.inRange State.budgetInRange
  rw [decide_eq_true_iff, decide_eq_true_iff, State.costsWithin_iff]
  unfold State.globalOutOfRange globalFields
  simp only [not_or, Nat.not_lt, not_exists, not_and]
  constructor
  · rintro ⟨ref1, ref2, lim1, lim2, mask, coded, low, high, costs⟩
    exact ⟨coded, ⟨⟨ref1, ref2⟩, ⟨lim1, lim2⟩, by omega⟩, low, high, costs⟩
  · rintro ⟨coded, ⟨⟨ref1, ref2⟩, ⟨lim1, lim2⟩, mask⟩, low, high, costs⟩
    exact ⟨ref1, ref2, lim1, lim2, by omega, coded, low, high, costs⟩

theorem State.writeGlobal_range {s : State} {a : Vector Byte 7} (h : s.globalOutOfRange a) : s.writeGlobal a = .error .range := by
  unfold State.writeGlobal
  rw [globalOf_eq]
  by_cases coded : a[6].toNat ≤ 1
  · rw [if_pos coded]
    dsimp only
    split
    · rfl
    · rename_i fields
      split
      · rfl
      · rename_i budget
        exact absurd h (State.globalInRange_iff.2 ⟨coded, by simpa using fields, by simpa [globalFields] using budget⟩)
  · rw [if_neg coded]

theorem State.writeGlobal_inRange {s : State} {a : Vector Byte 7} (h : ¬ s.globalOutOfRange a) : s.writeGlobal a =
    if a[0].toNat < s.unitsHeld then .error .busy
    else .ok ({ s with global := globalFields a }.event Work.tryGrant, []) := by
  obtain ⟨coded, fields, budget⟩ := State.globalInRange_iff.1 h
  unfold State.writeGlobal
  rw [globalOf_eq, if_pos coded]
  dsimp only
  rw [if_neg (by rw [fields]; decide), if_neg (by rw [show (globalFields a).budget = a[0] from rfl, budget]; decide)]
  rfl

theorem exec_writeGlobal_error {s : State} (held : s.frameHeld = false) {a : Vector Byte 7} {e : ResponseCode}
    (refused : s.begin.writeGlobal a = .error e) :
    exec (.writeGlobal 0 a) s = .next (s.replied (0x02 :: 0 :: a.toList) [e.code]) := by
  show proceed (s.begin.serve .writeGlobal 0 a.toList (withoutIndex 0 (s.begin.writeGlobal a))) = _
  rw [refused, show withoutIndex 0 (.error e) = .error e from rfl, State.serve_begin_error held]
  rfl

theorem exec_writeGlobal_taken {s t : State} (held : s.frameHeld = false) {a : Vector Byte 7}
    (taken : s.begin.writeGlobal a = .ok (t, [])) :
    exec (.writeGlobal 0 a) s = .next (t.withFrame (0x02 :: 0 :: a.toList) [0x00]) := by
  show proceed (s.begin.serve .writeGlobal 0 a.toList (withoutIndex 0 (s.begin.writeGlobal a))) = _
  rw [taken, State.serve_begin_withoutIndex held]
  rfl

/-- Settles O17: the checks in order; a write that passes is followed by one grant attempt, which leaves the fields. -/
theorem writeGlobal : Obligations.WriteGlobal := by
  refine fun s a held => ⟨fun out => ?_, fun inRange busy => ?_, fun inRange free => ?_⟩
  · exact exec_writeGlobal_error held (State.writeGlobal_range (s := s.begin) out)
  · exact exec_writeGlobal_error held ((State.writeGlobal_inRange (s := s.begin) inRange).trans (if_pos busy))
  · intro g
    have taken : s.begin.writeGlobal a = .ok ({ s.begin with global := g }.event Work.tryGrant, []) :=
      (State.writeGlobal_inRange (s := s.begin) inRange).trans (if_neg (Nat.not_lt.2 free))
    refine ⟨fun waits => ?_, ?_⟩
    · rw [exec_writeGlobal_taken held taken, State.event_silent
        (Work.tryGrant_waits (w := Work.start { s.begin with global := g }) waits) rfl rfl]
      rfl
    · have setup := CalmRun.setup ((Work.tryGrant_calm (Work.start { s.begin with global := g })).trans
        (State.event_calm { s.begin with global := g } Work.tryGrant))
      exact ⟨_, exec_writeGlobal_taken held taken, setup.global, rfl⟩

end Sys2Proof.Machine
end

section
/-! SUPPORT. WRITE BANK CONFIG and WRITE WINDOW (01_bank_power.md, R26; 06_address_windows.md, R118 to R121; 11, R191 to
R193): the checks in order, and the state that a taken write leaves. -/

namespace Sys2Proof.Machine

/-! ### The codes of the fields (R195) -/

theorem capacityOf_eq (v : Byte) : capacityOf v = if v.toNat ≤ 8 then some (Fin.ofNat 9 v.toNat) else none := by
  unfold capacityOf
  by_cases h : v.toNat < 9
  · rw [dif_pos h, if_pos (by omega)]
    exact congrArg some (Fin.ext (Nat.mod_eq_of_lt h).symm)
  · rw [dif_neg h, if_neg (by omega)]

theorem restTargetOf_eq (v : Byte) : restTargetOf v = if v.toNat ≤ 1 then some (if v = 1 then .off else .retain) else none := by
  unfold restTargetOf
  by_cases zero : v = 0
  · subst zero; rfl
  · by_cases one : v = 1
    · subst one; rfl
    · rw [if_neg zero, if_neg one, if_neg (by bv_omega)]

theorem fillPolicyOf_eq (v : Byte) :
    fillPolicyOf v = if v.toNat ≤ 1 then some (if v = 1 then FillPolicy.zero else .none) else none := by
  unfold fillPolicyOf
  by_cases zero : v = 0
  · subst zero; rfl
  · by_cases one : v = 1
    · subst one; rfl
    · rw [if_neg zero, if_neg one, if_neg (by bv_omega)]

theorem accessOf_eq (v : Byte) : accessOf v = if v.toNat ≤ 1 then some (if v = 1 then .readOnly else .readWrite) else none := by
  unfold accessOf
  by_cases zero : v = 0
  · subst zero; rfl
  · by_cases one : v = 1
    · subst one; rfl
    · rw [if_neg zero, if_neg one, if_neg (by bv_omega)]

/-! ### WRITE BANK CONFIG -/

theorem bankConfigOf_eq (a : Vector Byte 22) : bankConfigOf a =
    if a[0].toNat ≤ 1 ∧ a[1].toNat ≤ 8 ∧ a[12].toNat ≤ 1 ∧ a[17].toNat ≤ 1 then some (configFields a) else none := by
  unfold bankConfigOf
  rw [boolOf_eq, capacityOf_eq, restTargetOf_eq, fillPolicyOf_eq]
  by_cases coded : a[0].toNat ≤ 1 ∧ a[1].toNat ≤ 8 ∧ a[12].toNat ≤ 1 ∧ a[17].toNat ≤ 1
  · rw [if_pos coded]
    obtain ⟨present, capacity, target, policy⟩ := coded
    simp only [if_pos present, if_pos capacity, if_pos target, if_pos policy]
    rfl
  · rw [if_neg coded]
    split
    · rename_i present capacity target policy
      exact absurd ⟨(Option.ite_none_right_eq_some.1 present).1, (Option.ite_none_right_eq_some.1 capacity).1,
        (Option.ite_none_right_eq_some.1 target).1, (Option.ite_none_right_eq_some.1 policy).1⟩ coded
    · rfl

/-- The field checks of a WRITE BANK CONFIG, as the model makes them (R192). -/
theorem State.configInRange_iff {s : State} {a : Vector Byte 22} : ¬ s.configOutOfRange a ↔
    (a[0].toNat ≤ 1 ∧ a[1].toNat ≤ 8 ∧ a[12].toNat ≤ 1 ∧ a[17].toNat ≤ 1)
      ∧ (configFields a).inRange s.global.budget.toNat = true := by
  unfold BankConfig.inRange
  rw [decide_eq_true_iff]
  unfold State.configOutOfRange configFields
  simp only [not_or, Nat.not_lt, Nat.not_le]
  constructor
  · rintro ⟨present, capacity, s1, s2, d1, d2, wake, retries, o1, o2, o3, r1, r2, target, policy⟩
    exact ⟨⟨present, capacity, target, policy⟩, ⟨s1, s2⟩, ⟨d1, d2⟩, wake, retries, ⟨o1, o2, o3⟩, r1, r2⟩
  · rintro ⟨⟨present, capacity, target, policy⟩, ⟨s1, s2⟩, ⟨d1, d2⟩, wake, retries, ⟨o1, o2, o3⟩, r1, r2⟩
    exact ⟨present, capacity, s1, s2, d1, d2, wake, retries, o1, o2, o3, r1, r2, target, policy⟩

theorem State.windowNames_iff {s : State} {b : BankId} : s.windowNames b = true ↔ s.windowOn b := by
  simp [State.windowNames, State.windowOn]

theorem State.linkNames_iff {s : State} {b : BankId} : s.linkNames b = true ↔ s.linkOn b := by
  simp [State.linkNames, State.linkOn]

theorem State.namingRefuses_iff {s : State} {b : BankId} {c : BankConfig} :
    s.namingRefuses b c = true ↔ s.configMisnames b c := by
  unfold State.namingRefuses State.configMisnames
  rw [decide_eq_true_iff]
  simp only [State.windowNames_iff, State.linkNames_iff]

theorem Bank.configurable_iff {k : Bank} :
    k.configurable = true ↔ k.power = .off ∨ k.power = .retain ∨ k.power = .fault := decide_eq_true_iff

theorem State.writeBankConfig_busy {s : State} {b : BankId} {a : Vector Byte 22} (h : (s.bank b).configurable = false) :
    s.writeBankConfig b a = .error .busy := if_pos h

section
variable {s : State} {b : BankId} {a : Vector Byte 22} (low : (s.bank b).configurable = true)
include low

theorem State.writeBankConfig_range (h : s.configOutOfRange a) : s.writeBankConfig b a = .error .range := by
  unfold State.writeBankConfig
  rw [if_neg (by rw [low]; decide), bankConfigOf_eq]
  by_cases coded : a[0].toNat ≤ 1 ∧ a[1].toNat ≤ 8 ∧ a[12].toNat ≤ 1 ∧ a[17].toNat ≤ 1
  · rw [if_pos coded]
    refine if_pos (Bool.eq_false_iff.2 fun fields => ?_)
    exact absurd h (State.configInRange_iff.2 ⟨coded, fields⟩)
  · rw [if_neg coded]

theorem State.writeBankConfig_inRange (h : ¬ s.configOutOfRange a) : s.writeBankConfig b a =
    if s.namingRefuses b (configFields a) then .error .state
    else .ok (s.updBank b (fun k => k.configured (configFields a)), []) := by
  obtain ⟨coded, fields⟩ := State.configInRange_iff.1 h
  unfold State.writeBankConfig
  rw [if_neg (by rw [low]; decide), bankConfigOf_eq, if_pos coded]
  exact if_neg (by rw [fields]; decide)

end

theorem exec_writeBankConfig {s : State} (b : BankId) (a : Vector Byte 22) : exec (.writeBankConfig (byteOf b.val) a) s =
    .next (s.begin.serve .writeBankConfig (byteOf b.val) a.toList (s.begin.writeBankConfig b a)) := by
  show proceed (s.begin.serve .writeBankConfig (byteOf b.val) a.toList
    (withBank (byteOf b.val) fun b => s.begin.writeBankConfig b a)) = _
  rw [withBank_byteOf]
  rfl

theorem Bank.configured_other {k : Bank} (h : k.power ≠ .retain) (c : BankConfig) : k.configured c = { k with config := c } :=
  if_neg h

/-- An absent bank leaves RETAIN for OFF (R26, R71). -/
theorem Bank.configured_absent {k : Bank} (h : k.power = .retain) {c : BankConfig} (absent : c.present = false) :
    k.configured c = { k with config := c, power := .off, retainTimer := none, marks := Vector.replicate 32 .lost } :=
  (if_pos h).trans (if_pos absent)

/-- A new retain limit loads the retain timer, and a new capacity loses the marks (R26). -/
theorem Bank.configured_present {k : Bank} (h : k.power = .retain) {c : BankConfig} (present : c.present = true) :
    k.configured c =
      { k with
        config := c
        retainTimer :=
          if c.retainLimit = k.config.retainLimit then k.retainTimer
          else if c.retainLimit = 0 then none else some (c.retainLimit.toNat * 100000)
        marks := if c.capacity = k.config.capacity then k.marks else Vector.replicate 32 .lost } := by
  unfold Bank.configured
  rw [if_pos h, if_neg (by rw [present]; decide)]
  by_cases limit : c.retainLimit = k.config.retainLimit
  · rw [if_pos limit, if_pos limit]
    split <;> rfl
  · rw [if_neg limit, if_neg limit]
    split <;> rfl

/-- Settles O23: the checks in order, and the effects of R26 by the power state. -/
theorem writeBankConfig : Obligations.WriteBankConfig := by
  intro s b a held k c received low
  have configurable (h : low) : (s.begin.bank b).configurable = true := Bank.configurable_iff.2 h
  refine ⟨fun high => ?_, fun h out => ?_, fun h inRange misnames => ?_, fun h inRange named => ?_⟩
  · have busy : (s.begin.bank b).configurable = false := Bool.eq_false_iff.2 fun h => high (Bank.configurable_iff.1 h)
    rw [exec_writeBankConfig, State.writeBankConfig_busy busy, State.serve_begin_error held]
    rfl
  · rw [exec_writeBankConfig, State.writeBankConfig_range (s := s.begin) (configurable h) out, State.serve_begin_error held]
    rfl
  · rw [exec_writeBankConfig, State.writeBankConfig_inRange (s := s.begin) (configurable h) inRange,
      if_pos (State.namingRefuses_iff (s := s.begin) (c := configFields a) |>.2 misnames), State.serve_begin_error held]
    rfl
  · have taken : exec (.writeBankConfig (byteOf b.val) a) s =
        .next ((s.updBank b fun _ => k.configured c).replied received [0x00]) := by
      rw [exec_writeBankConfig, State.writeBankConfig_inRange (s := s.begin) (configurable h) inRange,
        if_neg fun refuses => named (State.namingRefuses_iff (s := s.begin) (c := configFields a) |>.1 refuses),
        State.serve_begin_ok held]
      rfl
    refine ⟨fun other => ?_, fun retain absent => ?_, fun retain present => ?_⟩
    · rw [taken, Bank.configured_other other]
    · rw [taken, Bank.configured_absent retain absent]
    · rw [taken, Bank.configured_present retain present]

/-! ### WRITE WINDOW -/

theorem windowConfigOf_eq (a : Vector Byte 15) : windowConfigOf a =
    if a[0].toNat ≤ 1 ∧ a[13].toNat ≤ 7 ∧ a[14].toNat ≤ 1 then some (windowFields a) else none := by
  unfold windowConfigOf
  rw [boolOf_eq, bankOf_eq, accessOf_eq]
  by_cases coded : a[0].toNat ≤ 1 ∧ a[13].toNat ≤ 7 ∧ a[14].toNat ≤ 1
  · rw [if_pos coded]
    obtain ⟨enabled, bank, access⟩ := coded
    simp only [if_pos enabled, if_pos bank, if_pos access]
    rfl
  · rw [if_neg coded]
    split
    · rename_i enabled bank access
      exact absurd ⟨(Option.ite_none_right_eq_some.1 enabled).1, (Option.ite_none_right_eq_some.1 bank).1,
        (Option.ite_none_right_eq_some.1 access).1⟩ coded
    · rfl

theorem windowSizeOk_iff {n : Nat} : windowSizeOk n = true ↔ ∃ k : Nat, k ≤ 12 ∧ n = 65536 * 2 ^ k := by
  unfold windowSizeOk
  simp only [List.any_eq_true, List.mem_range, decide_eq_true_iff]
  constructor
  · rintro ⟨k, hk, rfl⟩; exact ⟨k, by omega, Nat.pow_add 2 16 k⟩
  · rintro ⟨k, hk, rfl⟩; exact ⟨k, by omega, (Nat.pow_add 2 16 k).symm⟩

theorem WindowConfig.aligned_iff {c : WindowConfig} : c.aligned = true ↔ ¬ c.misaligned := by
  unfold WindowConfig.aligned WindowConfig.misaligned
  rw [decide_eq_true_iff, windowSizeOk_iff, ← Nat.dvd_iff_mod_eq_zero, ← Nat.dvd_iff_mod_eq_zero]
  push Not
  rfl

theorem WindowConfig.aligned_pos {c : WindowConfig} (h : c.aligned = true) : 0 < c.size.toNat := by
  obtain ⟨k, -, size⟩ := windowSizeOk_iff.1 (of_decide_eq_true h).1
  rw [size]
  exact Nat.mul_pos (by decide) (Nat.pow_pos (by decide))

/-- Two windows that are not empty overlap where they share an address (R120). -/
theorem WindowConfig.overlaps_iff {c d : WindowConfig} (hc : 0 < c.size.toNat) (hd : 0 < d.size.toNat) :
    c.overlaps d = true ↔ c.sharesAddress d := by
  unfold WindowConfig.overlaps WindowConfig.sharesAddress
  rw [decide_eq_true_iff]
  constructor
  · rintro ⟨h1, h2⟩
    exact ⟨max c.base.toNat d.base.toNat, by omega, by omega⟩
  · rintro ⟨x, h1, h2⟩
    omega

theorem State.overlapsOther_iff {s : State} {i : WindowId} {c : WindowConfig} (sound : s.WindowsSound) (hc : c.aligned = true) :
    s.overlapsOther i c = true ↔
      ∃ j : WindowId, j ≠ i ∧ s.windows[j].config.enabled = true ∧ s.windows[j].config.sharesAddress c := by
  unfold State.overlapsOther
  simp only [List.any_eq_true, List.mem_finRange, true_and, decide_eq_true_iff]
  refine exists_congr fun j => and_congr_right fun _ => and_congr_right fun enabled => ?_
  obtain ⟨aligned, -, -⟩ := sound.sound j enabled
  exact WindowConfig.overlaps_iff (WindowConfig.aligned_pos aligned) (WindowConfig.aligned_pos hc)

/-! The checks of an enabled write, in order (R118, R119, R120). -/

section
variable {s : State} {i : WindowId} {c : WindowConfig}

theorem State.checkWindow_misaligned (h : c.misaligned) : s.checkWindow i c = some .range :=
  if_pos (Bool.eq_false_iff.2 fun aligned => WindowConfig.aligned_iff.1 aligned h)

variable (aligned : ¬ c.misaligned)
include aligned

theorem State.checkWindow_aligned : s.checkWindow i c =
    if (s.bank c.bank).config.present = false then some .state
    else if (s.bank c.bank).config.capacityBytes < c.offset.toNat + c.size.toNat then some .range
    else if s.overlapsOther i c then some .overlap
    else none := if_neg (by rw [WindowConfig.aligned_iff.2 aligned]; decide)

theorem State.checkWindow_absent (absent : ¬ (s.bank c.bank).config.present = true) : s.checkWindow i c = some .state := by
  rw [State.checkWindow_aligned aligned, if_pos (Bool.eq_false_iff.2 absent)]

variable (present : (s.bank c.bank).config.present = true)
include present

theorem State.checkWindow_beyond
    (beyond : ¬ c.offset.toNat + c.size.toNat ≤ 2 ^ ((s.bank c.bank).config.capacity.val + 20)) :
    s.checkWindow i c = some .range := by
  rw [State.checkWindow_aligned aligned, if_neg (by rw [present]; decide)]
  exact if_pos (Nat.not_le.1 beyond)

variable (fits : c.offset.toNat + c.size.toNat ≤ 2 ^ ((s.bank c.bank).config.capacity.val + 20))
include fits

theorem State.checkWindow_fits : s.checkWindow i c = if s.overlapsOther i c then some .overlap else none := by
  rw [State.checkWindow_aligned aligned, if_neg (by rw [present]; decide)]
  exact if_neg (Nat.not_lt.2 fits)

end

theorem State.writeWindow_busy {s : State} {i : WindowId} {a : Vector Byte 15} (h : 0 < s.windows[i].held) :
    s.writeWindow i a = .error .busy := if_pos h

theorem State.writeWindow_uncoded {s : State} {i : WindowId} {a : Vector Byte 15} (free : s.windows[i].held = 0)
    (uncoded : windowConfigOf a = none) : s.writeWindow i a = .error .range := by
  unfold State.writeWindow
  rw [if_neg (by omega), uncoded]

theorem State.writeWindow_coded {s : State} {i : WindowId} {a : Vector Byte 15} {c : WindowConfig}
    (free : s.windows[i].held = 0) (coded : windowConfigOf a = some c) : s.writeWindow i a =
      match (if c.enabled then s.checkWindow i c else none) with
      | some e => .error e
      | none => .ok (s.setWindow i c, []) := by
  unfold State.writeWindow
  rw [if_neg (by omega), coded] <;> rfl

theorem State.writeWindow_checked {s : State} {i : WindowId} {a : Vector Byte 15} {c : WindowConfig}
    (free : s.windows[i].held = 0) (coded : windowConfigOf a = some c)
    (passes : (if c.enabled then s.checkWindow i c else none) = none) : s.writeWindow i a = .ok (s.setWindow i c, []) := by
  rw [State.writeWindow_coded free coded, passes]

theorem State.writeWindow_refused {s : State} {i : WindowId} {a : Vector Byte 15} {c : WindowConfig} {e : ResponseCode}
    (free : s.windows[i].held = 0) (coded : windowConfigOf a = some c) (enabled : c.enabled = true)
    (fails : s.checkWindow i c = some e) : s.writeWindow i a = .error e := by
  rw [State.writeWindow_coded free coded, if_pos enabled, fails]

theorem exec_writeWindow {s : State} (i : WindowId) (a : Vector Byte 15) : exec (.writeWindow (byteOf i.val) a) s =
    .next (s.begin.serve .writeWindow (byteOf i.val) a.toList (s.begin.writeWindow i a)) := by
  show proceed (s.begin.serve .writeWindow (byteOf i.val) a.toList
    (withWindow (byteOf i.val) fun i => s.begin.writeWindow i a)) = _
  rw [withWindow_byteOf]
  rfl

theorem exec_writeWindow_refused {s : State} (held : s.frameHeld = false) {i : WindowId} {a : Vector Byte 15} {e : ResponseCode}
    (refused : s.begin.writeWindow i a = .error e) :
    exec (.writeWindow (byteOf i.val) a) s = .next (s.replied (0x21 :: byteOf i.val :: a.toList) [e.code]) := by
  rw [exec_writeWindow, refused, State.serve_begin_error held]
  rfl

/-- Settles O24: the checks in order, each by its own lemma. -/
theorem writeWindow : Obligations.WriteWindow := by
  intro s i a held w c received refused taken coded present fits overlap
  have config (h : coded) : windowConfigOf a = some c := by rw [windowConfigOf_eq, if_pos h]
  have takes (free : w.held = 0) (h : coded) (passes : (if c.enabled then s.begin.checkWindow i c else none) = none) :
      taken := by
    show exec _ _ = _
    rw [exec_writeWindow, State.writeWindow_checked (s := s.begin) free (config h) passes, State.serve_begin_ok held]
    rfl
  refine ⟨fun busy => ?_, fun free uncoded => ?_, fun free h disabled => ?_, fun free h enabled sound => ⟨fun crooked => ?_,
    fun aligned absent => ?_, fun aligned here beyond => ?_, fun aligned here inside shares => ?_,
    fun aligned here inside apart => ?_⟩⟩
  · exact exec_writeWindow_refused held (State.writeWindow_busy (s := s.begin) busy)
  · exact exec_writeWindow_refused held
      (State.writeWindow_uncoded (s := s.begin) free ((windowConfigOf_eq a).trans (if_neg uncoded)))
  · exact takes free h (if_neg (by rw [disabled]; decide))
  · exact exec_writeWindow_refused held
      (State.writeWindow_refused (s := s.begin) free (config h) enabled (State.checkWindow_misaligned crooked))
  · exact exec_writeWindow_refused held
      (State.writeWindow_refused (s := s.begin) free (config h) enabled (State.checkWindow_absent aligned absent))
  · exact exec_writeWindow_refused held
      (State.writeWindow_refused (s := s.begin) free (config h) enabled (State.checkWindow_beyond aligned here beyond))
  · refine exec_writeWindow_refused held
      (State.writeWindow_refused (s := s.begin) free (config h) enabled ((State.checkWindow_fits aligned here inside).trans
        (if_pos ?_)))
    exact (State.overlapsOther_iff (s := s) sound (WindowConfig.aligned_iff.2 aligned)).2 shares
  · refine takes free h ((if_pos enabled).trans ((State.checkWindow_fits aligned here inside).trans (if_neg ?_)))
    exact fun overlaps => apart ((State.overlapsOther_iff (s := s) sound (WindowConfig.aligned_iff.2 aligned)).1 overlaps)

end Sys2Proof.Machine
end

section
/-! SUPPORT. Drains (01_bank_power.md, R61 to R68, R71, R72; 05_the_fill_engine.md, R96, R106): SLEEP BANK, IDLE_EXPIRY and
RETAIN_EXPIRY. -/

namespace Sys2Proof.Machine

/-! ### The fill queue that a bank leaves -/

theorem State.fillsBank_iff {s : State} {b : BankId} : s.fillsBank b = true ↔ s.fillQueue.head? = some b := decide_eq_true_iff

/-- A bank that is not the head leaves the queue, and the fill in progress goes on (R96). -/
theorem State.unqueueFill_other {s : State} {b : BankId} (h : s.fillQueue.head? ≠ some b) :
    s.unqueueFill b = { s with fillQueue := s.fillQueue.filter fun c => c ≠ b } := by
  unfold State.unqueueFill
  rw [if_neg fun fills => h (State.fillsBank_iff.1 fills)]

theorem State.unqueueFill_absent {s : State} {b : BankId} (h : b ∉ s.fillQueue) : s.unqueueFill b = s := by
  have stays : (s.fillQueue.filter fun c => c ≠ b) = s.fillQueue :=
    List.filter_eq_self.2 fun c hc => decide_eq_true fun same => h (same ▸ hc)
  rw [State.unqueueFill_other fun head => h (List.mem_of_mem_head? head), stays]

theorem State.unqueueFill_last {s : State} {b : BankId} (h : s.fillQueue = [b]) :
    s.unqueueFill b = { s with fillQueue := [], fill := FillProgress.idle } := by
  unfold State.unqueueFill
  rw [if_pos (State.fillsBank_iff.2 (by rw [h]; rfl)), h]
  simp

theorem State.unqueueFill_next {s : State} {b c : BankId} {more : List BankId} (h : s.fillQueue = b :: c :: more)
    (once : (b :: c :: more).Nodup) : s.unqueueFill b = { s with fillQueue := c :: more, fill := FillProgress.idle } := by
  have stays : ((c :: more).filter fun d => d ≠ b) = c :: more :=
    List.filter_eq_self.2 fun d hd => decide_eq_true fun same => (List.nodup_cons.1 once).1 (same ▸ hd)
  unfold State.unqueueFill
  rw [if_pos (State.fillsBank_iff.2 (by rw [h]; rfl)), h, List.filter_cons_of_neg (by simp), stays]

/-- With no bank left in the fill queue the engine is idle (R97). -/
theorem Work.startHead_empty {w : Work} (h : w.st.fillQueue = []) :
    w.startHead = w.on fun s => { s with fill := FillProgress.idle } := by
  unfold Work.startHead Work.startHeads
  rw [h]

theorem State.NextHead.other {s : State} {b c : BankId} {more : List BankId} {g : Segment} (h : s.NextHead b c more g) :
    c ≠ b := fun same => (List.nodup_cons.1 h.once).1 (same ▸ List.mem_cons_self)

theorem State.NextHead.head {s : State} {b c : BankId} {more : List BankId} {g : Segment} (h : s.NextHead b c more g) :
    s.fillsBank b = true := State.fillsBank_iff.2 (by rw [h.queue]; rfl)

theorem State.NextHead.transfer {s t : State} {b c : BankId} {more : List BankId} {g : Segment} (h : s.NextHead b c more g)
    (queue : t.fillQueue = s.fillQueue) (bank : t.bank c = s.bank c) : t.NextHead b c more g where
  queue := queue.trans h.queue
  once := h.once
  lowest := by rw [bank]; exact h.lowest
  noFill := by rw [bank]; exact h.noFill

/-- The next head of the fill queue begins its lowest LOST segment, its own record being as it was (R97, R98). -/
theorem Work.startHead_next {w : Work} {s : State} {b c : BankId} {more : List BankId} {g : Segment} (h : s.NextHead b c more g)
    (queue : w.st.fillQueue = c :: more) (none : w.st.parked = []) (same : w.st.bank c = s.bank c) :
    w.startHead = w.on fun s => s.fillBegun c g := by
  have lowest : (w.st.bank c).LowestLost g := by rw [same]; exact h.lowest
  exact Work.startHead_begins queue lowest.any (State.chooseSegment_lowest none lowest) (by rw [same]; exact h.noFill)

/-- The record of bank `b` once a segment fill of it has been begun (R97, R99). -/
def State.fillRecord (s : State) (b : BankId) (g : Segment) : Bank :=
  let k := s.bank b
  { k with port := { k.port with slots := k.port.slots ++ (List.range (min 2 (4 - k.port.slots.length))).map fun n =>
      { holder := .fill, kind := .write, addr := BitVec.ofNat 28 (g.val * 2 ^ (k.config.capacity.val + 15) + 64 * n)
        segment := g, length := 64, forwardTime := s.clock.micros
        expiryTime := s.clock.micros + s.global.respLimit.setWidth 32 } } }

theorem State.fillBegun_bank (s : State) (b d : BankId) (g : Segment) :
    (s.fillBegun b g).bank d = (s.updBank b fun _ => s.fillRecord b g).bank d := rfl

theorem State.fillBegun_bank_self (s : State) (b : BankId) (g : Segment) : (s.fillBegun b g).bank b = s.fillRecord b g := by
  rw [State.fillBegun_bank, State.bank_updBank_self]

theorem State.fillBegun_bank_ne (s : State) {b c : BankId} (h : b ≠ c) (g : Segment) : (s.fillBegun c g).bank b = s.bank b := by
  rw [State.fillBegun_bank, State.bank_updBank_ne _ _ h]

/-- A segment fill begun for one bank and a change of another bank's record can be made in either order. -/
theorem State.fillBegun_updBank (s : State) {b c : BankId} (h : b ≠ c) (g : Segment) (f : Bank → Bank) :
    (s.fillBegun c g).updBank b f = (s.updBank b f).fillBegun c g := by
  have same : (s.updBank b f).bank c = s.bank c := State.bank_updBank_ne _ _ h.symm
  have banks : ((s.fillBegun c g).updBank b f).banks = ((s.updBank b f).fillBegun c g).banks := by
    refine State.banks_ext fun d => ?_
    rw [State.bank_updBank]
    by_cases hb : d = b
    · rw [if_pos hb, hb, State.fillBegun_bank_ne _ h, State.fillBegun_bank_ne _ h, State.bank_updBank_self]
    · rw [if_neg hb]
      by_cases hc : d = c
      · rw [hc, State.fillBegun_bank_self, State.fillBegun_bank_self]
        unfold State.fillRecord
        rw [same]
        rfl
      · rw [State.fillBegun_bank_ne _ hc, State.fillBegun_bank_ne _ hc, State.bank_updBank_ne _ _ hb]
  refine State.ext_banks banks ?_
  show ({ s.fillBegun c g with banks := _ } : State) = (s.updBank b f).fillBegun c g
  unfold State.fillBegun
  rw [same]
  rfl

/-! ### The end of a drain -/

theorem Work.drainIfEmpty_not {w : Work} {b : BankId} (h : (w.st.bank b).power ≠ .draining) : w.drainIfEmpty b = w :=
  if_neg fun ⟨draining, _⟩ => h draining

theorem Work.drainIfEmpty_busy {w : Work} {b : BankId} (h : (w.st.bank b).port.slots ≠ []) : w.drainIfEmpty b = w :=
  if_neg fun ⟨_, empty⟩ => h empty

theorem Work.drainIfEmpty_empty {w : Work} {b : BankId} (draining : (w.st.bank b).power = .draining)
    (empty : (w.st.bank b).port.slots = []) : w.drainIfEmpty b = w.completeDrain b := if_pos ⟨draining, empty⟩

/-- A drain that completes with nothing parked for the bank: it rests, and ASLEEP is offered (R67). -/
theorem Work.completeDrain_rests {w : Work} {b : BankId} (none : ∀ e ∈ w.st.parked, e.req.bank ≠ b) :
    w.completeDrain b = (w.on fun s => s.updBank b Bank.rested).offer b .asleep := by
  have lowered : (w.bank b Bank.lowered) = w.on fun s => s.updBank b Bank.rested :=
    Work.on_congr (State.updBank_congr (Bank.lowered_eq _))
  unfold Work.completeDrain
  dsimp only
  rw [if_neg (by rw [show ((w.bank b Bank.lowered).offer b .asleep).st.parked = w.st.parked from rfl,
    parkedCount_eq_zero none]; decide), lowered]

theorem Work.drainIfEmpty_rests {w : Work} {b : BankId} (draining : (w.st.bank b).power = .draining)
    (empty : (w.st.bank b).port.slots = []) (none : ∀ e ∈ w.st.parked, e.req.bank ≠ b) :
    w.drainIfEmpty b = (w.on fun s => s.updBank b Bank.rested).offer b .asleep :=
  (Work.drainIfEmpty_empty draining empty).trans (Work.completeDrain_rests none)

theorem RestTarget.drain_eq_ite (t : RestTarget) : t.drain = if t = .off then .off else .retain := by cases t <;> rfl

/-! ### IDLE_EXPIRY and RETAIN_EXPIRY -/

theorem exec_idleExpiry_due {s : State} {b : BankId} (on : (s.bank b).power = .on) (due : (s.bank b).idleTimer = .counting 0) :
    exec (.idleExpiry b) s = .next (s.begin.event fun w => w.softDrain b) := if_pos ⟨on, due⟩

theorem exec_idleExpiry_not {s : State} {b : BankId} (h : (s.bank b).power ≠ .on ∨ (s.bank b).idleTimer ≠ .counting 0) :
    exec (.idleExpiry b) s = .next s.settled :=
  if_neg fun ⟨on, due⟩ => h.elim (fun notOn => notOn on) fun notDue => notDue due

/-- The record of a bank in a soft drain to its idle target (R61). -/
def Bank.softDraining (k : Bank) : Bank := k.draining .soft k.config.idleTarget

theorem Work.softDrain_busy {w : Work} {b : BankId} (busy : (w.st.bank b).port.slots ≠ []) :
    w.softDrain b = (w.on fun s => s.updBank b Bank.softDraining).offer b .drainBegun := by
  refine Work.drainIfEmpty_busy ?_
  show ((w.st.updBank b Bank.softDraining).bank b).port.slots ≠ []
  rw [State.bank_updBank_self]
  exact busy

theorem Work.softDrain_rests {w : Work} {b : BankId} (empty : (w.st.bank b).port.slots = [])
    (none : ∀ e ∈ w.st.parked, e.req.bank ≠ b) : w.softDrain b =
      ((w.on fun s => s.updBank b fun k => k.softDraining.rested).offer b .drainBegun).offer b .asleep := by
  have bank : ((w.on fun s => s.updBank b Bank.softDraining).offer b .drainBegun).st.bank b = (w.st.bank b).softDraining :=
    State.bank_updBank_self _ b _
  refine (Work.drainIfEmpty_rests (w := (w.on fun s => s.updBank b Bank.softDraining).offer b .drainBegun)
    (by rw [bank]; rfl) (by rw [bank]; exact empty) none).trans ?_
  exact congrArg (fun t => (({ w with st := t } : Work).offer b .drainBegun).offer b .asleep)
    (State.updBank_updBank w.st b Bank.softDraining Bank.rested)

/-- Settles O51: by whether the timer has run out, and for a drain by whether a slot is busy. -/
theorem idleAndRetainExpiry : Obligations.IdleAndRetainExpiry := by
  refine ⟨fun s b => ?idle, fun s b => ⟨fun notDue => ?_, fun retain due => ?_⟩⟩
  case idle =>
    intro k drained
    have drained_eq : k.softDraining = drained := by
      show Bank.draining k .soft k.config.idleTarget = _
      unfold Bank.draining
      rw [RestTarget.drain_eq_ite]
    refine ⟨exec_idleExpiry_not, fun on due unlinked => ⟨fun busy => ?_, fun empty none => ?_⟩⟩
    · rw [exec_idleExpiry_due on due, State.event_unlinked (s := s.begin) (moves := fun w => w.softDrain b) unlinked
        (Work.softDrain_busy (w := Work.start s.begin) busy) rfl rfl, ← drained_eq]
      rfl
    · rw [exec_idleExpiry_due on due, State.event_unlinked (s := s.begin) (moves := fun w => w.softDrain b) unlinked
        (Work.softDrain_rests (w := Work.start s.begin) empty none) rfl rfl, ← drained_eq]
      rfl
  · exact if_neg fun ⟨retain, due⟩ => notDue.elim (fun h => h retain) fun h => h due
  · exact if_pos ⟨retain, due⟩

/-! ### Hard drains -/

/-- The trigger that a hard drain offers, unless a link action caused it (R64, R148). -/
def Work.drainBegun (w : Work) (b : BankId) (fromLink : Bool) : Work := if fromLink then w else w.offer b .drainBegun

theorem Work.drainBegun_st (w : Work) (b : BankId) (fromLink : Bool) : (w.drainBegun b fromLink).st = w.st := by
  cases fromLink <;> rfl

theorem Work.drainBegun_crossings (w : Work) (b : BankId) (fromLink : Bool) :
    (w.drainBegun b fromLink).crossings = w.crossings := by cases fromLink <;> rfl

theorem State.hardDraining_self (s : State) (b : BankId) (t : RestTarget) :
    (s.hardDraining b t).bank b = (s.bank b).draining .hard t := by
  rw [State.hardDraining_bank, State.bank_updBank_self]

/-- A hard drain of a bank that is not the head of the fill queue begins (R64, R106). -/
theorem Work.hardDrain_other {w : Work} {b : BankId} (t : RestTarget) (fromLink : Bool)
    (notHead : w.st.fillQueue.head? ≠ some b) : w.hardDrain b t fromLink =
      ((w.on fun s => { s.updBank b (fun k => k.draining .hard t) with
        fillQueue := s.fillQueue.filter fun c => c ≠ b }).drainBegun b fromLink).drainIfEmpty b := by
  have st : w.st.hardDraining b t = { w.st.updBank b (fun k => k.draining .hard t) with
      fillQueue := w.st.fillQueue.filter fun c => c ≠ b } :=
    State.unqueueFill_other (s := w.st.updBank b fun k => k.draining .hard t) notHead
  unfold Work.hardDrain
  dsimp only
  rw [if_neg fun fills => notHead (State.fillsBank_iff.1 fills)]
  exact congrArg (fun u => (({ w with st := u } : Work).drainBegun b fromLink).drainIfEmpty b) st

/-- A hard drain of the only bank in the fill queue leaves the engine idle (R106). -/
theorem Work.hardDrain_last {w : Work} {b : BankId} (t : RestTarget) (fromLink : Bool) (last : w.st.fillQueue = [b]) :
    w.hardDrain b t fromLink =
      ((w.on fun s => { s.updBank b (fun k => k.draining .hard t) with
        fillQueue := [], fill := FillProgress.idle }).drainBegun b fromLink).drainIfEmpty b := by
  have st : w.st.hardDraining b t = { w.st.updBank b (fun k => k.draining .hard t) with
      fillQueue := [], fill := FillProgress.idle } :=
    State.unqueueFill_last (s := w.st.updBank b fun k => k.draining .hard t) last
  unfold Work.hardDrain
  dsimp only
  rw [if_pos (State.fillsBank_iff.2 (by rw [last]; rfl)), Work.startHead_empty (w := w.on fun s => s.hardDraining b t)
    (congrArg State.fillQueue st)]
  exact congrArg (fun u : State =>
    (({ w with st := { u with fill := FillProgress.idle } } : Work).drainBegun b fromLink).drainIfEmpty b) st

/-- A hard drain of the head of the fill queue lets the next head begin (R64, R106). -/
theorem Work.hardDrain_next {w : Work} {b c : BankId} {more : List BankId} {g : Segment} (t : RestTarget) (fromLink : Bool)
    (next : w.st.NextHead b c more g) (none : w.st.parked = []) : w.hardDrain b t fromLink =
      ((w.on fun s => State.fillBegun { s.updBank b (fun k => k.draining .hard t) with
        fillQueue := c :: more } c g).drainBegun b fromLink).drainIfEmpty b := by
  have st : w.st.hardDraining b t = { w.st.updBank b (fun k => k.draining .hard t) with
      fillQueue := c :: more, fill := FillProgress.idle } :=
    State.unqueueFill_next (s := w.st.updBank b fun k => k.draining .hard t) next.queue next.once
  have same : (w.st.hardDraining b t).bank c = w.st.bank c := by
    rw [State.hardDraining_bank, State.bank_updBank_ne _ _ next.other]
  unfold Work.hardDrain
  dsimp only
  rw [if_pos next.head, Work.startHead_next (w := w.on fun s => s.hardDraining b t) next (congrArg State.fillQueue st)
    none same]
  exact (congrArg (fun u : State =>
    (({ w with st := u.fillBegun c g } : Work).drainBegun b fromLink).drainIfEmpty b) st).trans rfl

/-! ### SLEEP BANK -/

/-- The target that the argument byte codes (R194). -/
def sleepTarget (v : Byte) : RestTarget := if v = 1 then .off else .retain

theorem sleepTarget_drain (v : Byte) : (sleepTarget v).drain = if v = 1 then .off else .retain := by
  unfold sleepTarget
  split <;> rfl

theorem State.sleepBank_range {s : State} {b : BankId} {v : Byte} (h : 1 < v.toNat) : s.sleepBank v b = .error .range := by
  unfold State.sleepBank
  rw [restTargetOf_eq, if_neg (by omega)]

section
variable {s : State} {b : BankId} {v : Byte} (coded : v.toNat ≤ 1)
include coded

theorem State.sleepBank_coded : s.sleepBank v b =
    if (s.bank b).config.present = false then .error .state
    else if (s.bank b).power = .waiting ∨ (s.bank b).power = .ramping ∨ (s.bank b).power = .fault then .error .state
    else .ok (s.event fun w => w.sleep b (sleepTarget v) false, []) := by
  unfold State.sleepBank
  rw [restTargetOf_eq, if_pos coded]
  rfl

theorem State.sleepBank_refused (h : (s.bank b).config.present = false
    ∨ ((s.bank b).power = .waiting ∨ (s.bank b).power = .ramping ∨ (s.bank b).power = .fault)) :
    s.sleepBank v b = .error .state := by
  rw [State.sleepBank_coded coded]
  rcases h with absent | busy
  · exact if_pos absent
  · rw [if_pos busy, ite_self]

theorem State.sleepBank_taken (present : (s.bank b).config.present = true)
    (idle : ¬ ((s.bank b).power = .waiting ∨ (s.bank b).power = .ramping ∨ (s.bank b).power = .fault)) :
    s.sleepBank v b = .ok (s.event fun w => w.sleep b (sleepTarget v) false, []) := by
  rw [State.sleepBank_coded coded, if_neg (by rw [present]; decide), if_neg idle]

end

theorem exec_sleepBank_refused {s : State} (held : s.frameHeld = false) {b : BankId} {v : Byte} {e : ResponseCode}
    (refused : s.begin.sleepBank v b = .error e) :
    exec (.sleepBank (byteOf b.val) v) s = .next (s.replied [0x14, byteOf b.val, v] [e.code]) := by
  show proceed (s.begin.serve .sleepBank (byteOf b.val) [v] (withBank (byteOf b.val) (s.begin.sleepBank v))) = _
  rw [withBank_byteOf, refused, State.serve_begin_error held]
  rfl

/-- A SLEEP BANK that is taken is one event. -/
theorem exec_sleepBank_taken {s : State} (held : s.frameHeld = false) {b : BankId} {v : Byte} (coded : v.toNat ≤ 1)
    (present : (s.bank b).config.present = true)
    (idle : ¬ ((s.bank b).power = .waiting ∨ (s.bank b).power = .ramping ∨ (s.bank b).power = .fault)) :
    exec (.sleepBank (byteOf b.val) v) s =
      .next ((((Work.start s.begin).sleep b (sleepTarget v) false).takeTriggers.st).withFrame [0x14, byteOf b.val, v] [0x00]) := by
  show proceed (s.begin.serve .sleepBank (byteOf b.val) [v] (withBank (byteOf b.val) (s.begin.sleepBank v))) = _
  rw [withBank_byteOf, State.sleepBank_taken (s := s.begin) coded present idle, State.serve_begin_ok held]
  rfl

/-! The moves of a SLEEP, by the power state (R72, R73). -/

theorem Work.sleep_up {w : Work} {b : BankId} (t : RestTarget) (fromLink : Bool)
    (up : (w.st.bank b).power = .on ∨ (w.st.bank b).power = .filling) : w.sleep b t fromLink = w.hardDrain b t fromLink := by
  unfold Work.sleep
  rcases up with h | h <;> rw [h]

theorem Work.sleep_draining {w : Work} {b : BankId} (t : RestTarget) (fromLink : Bool)
    (h : (w.st.bank b).power = .draining) :
    w.sleep b t fromLink = w.on fun s => s.updBank b fun k => { k with drainKind := .hard, drainTarget := t.drain } := by
  unfold Work.sleep
  rw [h]
  rfl

theorem Work.sleep_retain_off {w : Work} {b : BankId} (fromLink : Bool) (h : (w.st.bank b).power = .retain) :
    w.sleep b .off fromLink = w.on fun s => s.updBank b Bank.retainToOff := by
  unfold Work.sleep
  rw [h]
  rfl

theorem Work.sleep_nothing {w : Work} {b : BankId} (t : RestTarget) (fromLink : Bool)
    (h : (w.st.bank b).power = .off ∨ (w.st.bank b).power = .waiting ∨ (w.st.bank b).power = .ramping
      ∨ (w.st.bank b).power = .fault ∨ ((w.st.bank b).power = .retain ∧ t = .retain)) : w.sleep b t fromLink = w := by
  unfold Work.sleep
  rcases h with h | h | h | h | ⟨h, rfl⟩ <;> rw [h]
  rfl

/-- Settles O28: by the argument byte, and the moves of a SLEEP by the power state. -/
theorem sleepBankWithoutANewDrain : Obligations.SleepBankWithoutANewDrain := by
  intro s b target held k received answers
  have quiet (w : Work) (t : State) (coded : target.toNat ≤ 1) (present : k.config.present = true)
      (idle : ¬ (k.power = .waiting ∨ k.power = .ramping ∨ k.power = .fault))
      (sleeps : (Work.start s.begin).sleep b (sleepTarget target) false = w) (st : w.st = t.settled) (offered : w.offered = [])
      (crossings : w.crossings = []) : answers t 0x00 := by
    show exec _ _ = _
    rw [exec_sleepBank_taken held coded present idle, sleeps, Work.takeTriggers_nothing offered crossings, st]
    rfl
  refine ⟨fun out => ?_, fun coded => ⟨fun absent => ?_, fun busy => ?_, fun present => ⟨fun off => ?_, fun retain zero => ?_,
    fun retain one => ?_, fun draining => ?_⟩⟩⟩
  · exact exec_sleepBank_refused held (State.sleepBank_range (s := s.begin) out)
  · exact exec_sleepBank_refused held (State.sleepBank_refused (s := s.begin) coded (.inl absent))
  · exact exec_sleepBank_refused held (State.sleepBank_refused (s := s.begin) coded (.inr busy))
  · exact quiet _ s coded present (by rw [off]; decide)
      (Work.sleep_nothing (w := Work.start s.begin) _ false (.inl off)) rfl rfl rfl
  · have keep : sleepTarget target = .retain := if_neg (by rw [zero]; decide)
    exact quiet _ s coded present (by rw [retain]; decide)
      (Work.sleep_nothing (w := Work.start s.begin) _ false (.inr (.inr (.inr (.inr ⟨retain, keep⟩))))) rfl rfl rfl
  · have lose : sleepTarget target = .off := if_pos one
    exact quiet _ _ coded present (by rw [retain]; decide)
      ((congrArg (fun t => (Work.start s.begin).sleep b t false) lose).trans
        (Work.sleep_retain_off (w := Work.start s.begin) false retain)) rfl rfl rfl
  · rw [← sleepTarget_drain]
    exact quiet _ _ coded present (by rw [draining]; decide)
      (Work.sleep_draining (w := Work.start s.begin) _ false draining) rfl rfl rfl

section
variable {w : Work} {b : BankId} {k : Bank} (fromLink : Bool) (record : w.st.bank b = k)
include record

/-- The drain that has begun ends at once where the port is empty and nothing is parked for the bank. -/
theorem Work.drainBegun_rests (draining : k.power = .draining) (empty : k.port.slots = [])
    (none : ∀ e ∈ w.st.parked, e.req.bank ≠ b) : (w.drainBegun b fromLink).drainIfEmpty b =
      ((w.drainBegun b fromLink).on fun s => s.updBank b Bank.rested).offer b .asleep := by
  refine Work.drainIfEmpty_rests ?_ ?_ ?_ <;> rw [Work.drainBegun_st]
  · rw [record]; exact draining
  · rw [record]; exact empty
  · exact none

theorem Work.drainBegun_busy (busy : k.port.slots ≠ []) :
    (w.drainBegun b fromLink).drainIfEmpty b = w.drainBegun b fromLink := by
  refine Work.drainIfEmpty_busy ?_
  rw [Work.drainBegun_st, record]
  exact busy

end

/-- Settles O29: by whether a slot is busy, and by the place of the bank in the fill queue. -/
theorem sleepBankDrains : Obligations.SleepBankDrains := by
  intro s b target held k drained left answers unlinked present coded up
  have drained_eq : k.draining .hard (sleepTarget target) = drained := by
    show ({ k with power := .draining, drainKind := .hard, drainTarget := (sleepTarget target).drain
                   idleTimer := .stopped } : Bank) = _
    rw [sleepTarget_drain]
  have idle : ¬ (k.power = .waiting ∨ k.power = .ramping ∨ k.power = .fault) := by
    rcases up with h | h <;> rw [h] <;> decide
  have sleeps (w : Work) (drains : (Work.start s.begin).hardDrain b (sleepTarget target) false = w)
      (links : w.st.links = s.links) (crossings : w.crossings = []) : exec (.sleepBank (byteOf b.val) target) s =
        .next (w.st.withFrame [0x14, byteOf b.val, target] [0x00]) := by
    rw [exec_sleepBank_taken held coded present idle, Work.sleep_up (w := Work.start s.begin) _ false up, drains,
      Work.takeTriggers_unlinked (State.Unlinked.of_links unlinked links) crossings]
  have record : (s.begin.updBank b fun k => k.draining .hard (sleepTarget target)).bank b =
      k.draining .hard (sleepTarget target) := State.bank_updBank_self _ b _
  have away (none : s.parked = []) : ∀ e ∈ s.parked, e.req.bank ≠ b := by rw [none]; simp
  refine ⟨fun busy notHead => ?_, fun busy last => ?_, fun empty none notHead => ?_, fun empty none last => ?_,
    fun c more g next none => ?_⟩
  · show exec _ _ = _
    rw [sleeps _ ((Work.hardDrain_other (w := Work.start s.begin) _ false notHead).trans
      (Work.drainBegun_busy false record busy)) rfl rfl, ← drained_eq]
    rfl
  · show exec _ _ = _
    rw [sleeps _ ((Work.hardDrain_last (w := Work.start s.begin) _ false last).trans
      (Work.drainBegun_busy false record busy)) rfl rfl, ← drained_eq]
    rfl
  · show exec _ _ = _
    rw [sleeps _ ((Work.hardDrain_other (w := Work.start s.begin) _ false notHead).trans
      (Work.drainBegun_rests false record rfl empty (away none))) rfl rfl, ← drained_eq]
    exact congrArg Host.Outcome.next (State.ext_banks (State.updBank_after (s := s.begin)
      (f := fun k => k.draining .hard (sleepTarget target)) Bank.rested rfl) rfl)
  · show exec _ _ = _
    rw [sleeps _ ((Work.hardDrain_last (w := Work.start s.begin) _ false last).trans
      (Work.drainBegun_rests false record rfl empty (away none))) rfl rfl, ← drained_eq]
    exact congrArg Host.Outcome.next (State.ext_banks (State.updBank_after (s := s.begin)
      (f := fun k => k.draining .hard (sleepTarget target)) Bank.rested rfl) rfl)
  · have other : b ≠ c := next.other.symm
    have next' : s.begin.NextHead b c more g := next.transfer rfl rfl
    intro left
    have begun : (State.fillBegun { s.begin.updBank b (fun k => k.draining .hard (sleepTarget target)) with
        fillQueue := c :: more } c g).bank b = k.draining .hard (sleepTarget target) := by
      rw [State.fillBegun_bank_ne _ other]
      exact record
    by_cases empty : k.port.slots = []
    · rw [sleeps _ ((Work.hardDrain_next (w := Work.start s.begin) _ false next' none).trans
        (Work.drainBegun_rests false begun rfl empty (away none))) rfl rfl]
      refine congrArg (fun t : State => Host.Outcome.next (t.withFrame [0x14, byteOf b.val, target] [0x00]))
        ((State.fillBegun_updBank _ other g Bank.rested).trans (congrArg (fun t : State => t.fillBegun c g) ?_))
      refine State.ext_banks (State.updBank_after (s := s.begin)
        (f := fun k => k.draining .hard (sleepTarget target)) Bank.rested rfl |>.trans ?_) rfl
      show (s.begin.updBank b fun _ => (k.draining .hard (sleepTarget target)).rested).banks = _
      rw [drained_eq, show left.banks = (s.settled.updBank b fun _ => drained.rested).banks from
        congrArg (fun x => (s.settled.updBank b fun _ => x).banks) (if_pos empty)]
      rfl
    · rw [sleeps _ ((Work.hardDrain_next (w := Work.start s.begin) _ false next' none).trans
        (Work.drainBegun_busy false begun empty)) rfl rfl]
      refine congrArg (fun t : State => Host.Outcome.next ((t.fillBegun c g).withFrame [0x14, byteOf b.val, target] [0x00]))
        (State.ext_banks ?_ rfl)
      show (s.begin.updBank b fun _ => k.draining .hard (sleepTarget target)).banks = _
      rw [drained_eq, show left.banks = (s.settled.updBank b fun _ => drained).banks from
        congrArg (fun x => (s.settled.updBank b fun _ => x).banks) (if_neg empty)]
      rfl

end Sys2Proof.Machine
end

section
/-! SUPPORT. MARK SEGMENTS (05_the_fill_engine.md, R93, R94, R102, R103, R108). -/

namespace Sys2Proof.Machine

/-! ### The checks -/

theorem markOf_eq (v : Byte) : markOf v = if v.toNat ≤ 1 then some (if v = 1 then .valid else .lost) else none := by
  unfold markOf
  by_cases zero : v = 0
  · subst zero; rfl
  · by_cases one : v = 1
    · subst one; rfl
    · rw [if_neg zero, if_neg one, if_neg (by bv_omega)]

theorem Bank.markable_iff {k : Bank} :
    k.markable = true ↔ k.power = .on ∨ k.power = .filling ∨ k.power = .draining ∨ k.power = .retain := decide_eq_true_iff

theorem State.markSegments_absent {s : State} {b : BankId} {first count value : Byte}
    (h : (s.bank b).config.present = false) : s.markSegments first count value b = .error .state := if_pos h

section
variable {s : State} {b : BankId} {first count value : Byte} (present : (s.bank b).config.present = true)
include present

theorem State.markSegments_range (h : 1 < value.toNat ∨ count = 0 ∨ 32 < first.toNat + count.toNat) :
    s.markSegments first count value b = .error .range := by
  unfold State.markSegments
  rw [if_neg (by rw [present]; decide), markOf_eq]
  by_cases coded : value.toNat ≤ 1
  · rw [if_pos coded]
    exact if_pos (h.resolve_left (Nat.not_lt.2 coded))
  · rw [if_neg coded]

theorem State.markSegments_inRange (h : ¬ (1 < value.toNat ∨ count = 0 ∨ 32 < first.toNat + count.toNat)) :
    s.markSegments first count value b =
      if (s.bank b).markable = false then .error .state
      else .ok (s.begin.event fun w => w.mark b first.toNat count.toNat (if value = 1 then .valid else .lost)
        (s.leftLost b first.toNat count.toNat), []) := by
  obtain ⟨coded, range⟩ := not_or.1 h
  unfold State.markSegments
  rw [if_neg (by rw [present]; decide), markOf_eq, if_pos (Nat.not_lt.1 coded)]
  exact if_neg range

end

theorem exec_markSegments_refused {s : State} (held : s.frameHeld = false) {b : BankId} {first count value : Byte}
    {e : ResponseCode} (refused : s.markSegments first count value b = .error e) :
    exec (.markSegments (byteOf b.val) first count value) s =
      .next (s.replied [0x17, byteOf b.val, first, count, value] [e.code]) := by
  show proceed (s.begin.serve .markSegments (byteOf b.val) [first, count, value]
    (withBank (byteOf b.val) (s.markSegments first count value))) = _
  rw [withBank_byteOf, refused, State.serve_begin_error held]
  rfl

/-- A MARK SEGMENTS that is taken is one event. -/
theorem exec_markSegments_taken {s : State} (held : s.frameHeld = false) {b : BankId} {first count value : Byte}
    (present : (s.bank b).config.present = true)
    (inRange : ¬ (1 < value.toNat ∨ count = 0 ∨ 32 < first.toNat + count.toNat)) (markable : (s.bank b).markable = true) :
    exec (.markSegments (byteOf b.val) first count value) s =
      .next ((((Work.start s.begin).mark b first.toNat count.toNat (if value = 1 then .valid else .lost)
        (s.leftLost b first.toNat count.toNat)).takeTriggers.st).withFrame [0x17, byteOf b.val, first, count, value] [0x00]) := by
  show proceed (s.begin.serve .markSegments (byteOf b.val) [first, count, value]
    (withBank (byteOf b.val) (s.markSegments first count value))) = _
  rw [withBank_byteOf, State.markSegments_inRange present inRange, if_neg (by rw [markable]; decide),
    State.serve_begin_ok held]
  rfl

/-- Settles O31: the checks in order; the value LOST sets the marks and does no more. -/
theorem markSegmentsChecksAndLost : Obligations.MarkSegmentsChecksAndLost := by
  intro s b first count value held k answers outOfRange markable
  refine ⟨fun absent => ?_, fun present out => ?_, fun present inRange down => ?_, fun present inRange up zero => ?_⟩
  · exact exec_markSegments_refused held (State.markSegments_absent absent)
  · exact exec_markSegments_refused held (State.markSegments_range present out)
  · have refuses : (s.bank b).markable = false := Bool.eq_false_iff.2 fun h => down (Bank.markable_iff.1 h)
    exact exec_markSegments_refused held ((State.markSegments_inRange present inRange).trans (if_pos refuses))
  · have lost : (if value = 1 then Mark.valid else .lost) = .lost := if_neg (by rw [zero]; decide)
    show exec _ _ = _
    rw [exec_markSegments_taken held present inRange (Bank.markable_iff.2 up), lost]
    exact congrArg (fun t : State => Host.Outcome.next (t.withFrame [0x17, byteOf b.val, first, count, value] [0x00]))
      (Work.takeTriggers_nothing (w := (Work.start s.begin).mark b first.toNat count.toNat .lost _) rfl rfl)

theorem State.post_settled (s : State) (k : EventKind) (a : About) : (s.post k a).settled = s.settled.post k a :=
  (State.post_comm (f := State.settled) k a s rfl rfl rfl rfl rfl fun _ _ _ => rfl).symm

/-! ### The end of a fill -/

/-- A fill that is done takes its bank into ON (R102). -/
theorem Work.fillDone_alone {w : Work} (b : BankId) (none : w.st.parked = []) : w.fillDone b =
    (w.on fun s => ((s.unqueueFill b).updBank b Bank.readied).post .fillDone { bank := some b }).offer b .ready := by
  unfold Work.fillDone
  rw [Work.enterOn_alone b (w := w.on fun s => (s.unqueueFill b).post .fillDone { bank := some b })]
  · exact congrArg (fun t => ({ w with st := t } : Work).offer b .ready) (State.post_updBank _ b Bank.readied _ _).symm
  · rw [Work.on_st, State.post_parked]
    exact none

/-- A head with no LOST segment ends its fill, and the engine goes on with the next head (R97, R102). -/
theorem Work.startHead_full {w : Work} {b : BankId} {rest : List BankId} (queue : w.st.fillQueue = b :: rest)
    (full : (w.st.bank b).anyLost = false) (after : (w.fillDone b).st.fillQueue = rest) :
    w.startHead = (w.fillDone b).startHead := by
  unfold Work.startHead
  rw [after, queue]
  conv => lhs; unfold Work.startHeads
  simp only [queue, full]
  rfl

/-- The only bank in the fill queue, with no LOST segment, ends its fill and leaves the engine idle (R97, R102). -/
theorem Work.startHead_last {w : Work} {b : BankId} (queue : w.st.fillQueue = [b]) (full : (w.st.bank b).anyLost = false)
    (none : w.st.parked = []) : w.startHead =
      (w.on fun s => State.post { s.updBank b Bank.readied with fillQueue := [], fill := FillProgress.idle } .fillDone
        { bank := some b }).offer b .ready := by
  have st : (w.st.unqueueFill b).updBank b Bank.readied =
      { w.st.updBank b Bank.readied with fillQueue := [], fill := FillProgress.idle } := by
    rw [State.unqueueFill_last queue]
    rfl
  have done : w.fillDone b =
      (w.on fun s => State.post { s.updBank b Bank.readied with fillQueue := [], fill := FillProgress.idle } .fillDone
        { bank := some b }).offer b .ready :=
    (Work.fillDone_alone b none).trans
      (congrArg (fun t : State => ({ w with st := t.post .fillDone { bank := some b } } : Work).offer b .ready) st)
  have empty : (w.fillDone b).st.fillQueue = [] := by
    rw [done]
    exact State.post_fillQueue _ _ _
  rw [Work.startHead_full queue full empty, Work.startHead_empty empty, done]
  exact congrArg (fun t => ({ w with st := t } : Work).offer b .ready)
    (State.post_comm (f := fun s => { s with fill := FillProgress.idle }) _ _ _ rfl rfl rfl rfl rfl fun _ _ _ => rfl).symm

/-! ### The moves of a MARK SEGMENTS VALID -/

theorem Work.markValid_none (w : Work) (b : BankId) (first count : Nat) :
    w.markValid b first count none = w.on fun s => s.updBank b fun k => k.markRange first count .valid := rfl

theorem Work.markValid_some (w : Work) (b : BankId) (first count : Nat) (g : Segment) :
    w.markValid b first count (some g) =
      w.on fun s => s.updBank b fun k => (k.markRange first count .valid).markRange g.val 1 .lost :=
  congrArg (fun t => ({ w with st := t } : Work)) (State.updBank_updBank w.st b
    (fun k => k.markRange first count .valid) fun k => k.markRange g.val 1 .lost)

/-- A MARK SEGMENTS VALID with nothing parked: the marks, the cut-off, and in FILLING the fill engine's move. -/
theorem Work.mark_valid {w : Work} {b : BankId} {first count : Nat} {stays : Option Segment} {f : Bank → Bank}
    (none : w.st.parked = []) (marks : w.markValid b first count stays = w.on fun s => s.updBank b f)
    (keeps : (f (w.st.bank b)).power = (w.st.bank b).power) : w.mark b first count .valid stays =
      if (w.st.bank b).power = .filling then
        (w.on fun s => (s.updBank b f).cutOffFill b first count).moveFillOn b
      else w.on fun s => (s.updBank b f).cutOffFill b first count := by
  have scanned : ((w.markValid b first count stays).on fun s => s.cutOffFill b first count).scan =
      w.on fun s => (s.updBank b f).cutOffFill b first count := by
    rw [marks, Work.scan_empty]
    · rfl
    · rw [Work.on_st, State.cutOffFill_parked]
      exact none
  have power : ((w.on fun s => (s.updBank b f).cutOffFill b first count).st.bank b).power = (w.st.bank b).power := by
    rw [Work.on_st, State.cutOffFill_bank, State.bank_updBank_self, keeps]
  unfold Work.mark
  dsimp only
  rw [scanned, power]

theorem State.cutOffFill_other {s : State} {b : BankId} (h : s.fillQueue.head? ≠ some b) (first count : Nat) :
    s.cutOffFill b first count = s := by
  unfold State.cutOffFill
  split
  · exact if_neg fun ⟨fills, _⟩ => h (State.fillsBank_iff.1 fills)
  · rfl

theorem State.cutOffFill_unnamed {s : State} {b : BankId} {g : Segment} {first count : Nat} (current : s.fill.current = some g)
    (unnamed : ¬ (first ≤ g.val ∧ g.val < first + count)) : s.cutOffFill b first count = s := by
  unfold State.cutOffFill
  rw [current]
  exact if_neg fun ⟨_, named⟩ => unnamed named

theorem State.cutOffFill_named {s : State} {b : BankId} {g : Segment} {first count : Nat} (head : s.fillQueue.head? = some b)
    (current : s.fill.current = some g) (named : first ≤ g.val ∧ g.val < first + count) : s.cutOffFill b first count =
      { s with fill := { s.fill with cutOff := true, nextWrite := none } } := by
  unfold State.cutOffFill
  rw [current]
  exact if_pos ⟨State.fillsBank_iff.2 head, named⟩

/-- A cut-off changes the fill in progress alone, and not its writes in flight. -/
theorem State.cutOffFill_eq (s : State) (b : BankId) (first count : Nat) :
    ∃ f : FillProgress, s.cutOffFill b first count = { s with fill := f } ∧ f.inFlight = s.fill.inFlight := by
  unfold State.cutOffFill
  split
  · split
    · exact ⟨_, rfl, rfl⟩
    · exact ⟨s.fill, rfl, rfl⟩
  · exact ⟨s.fill, rfl, rfl⟩

theorem Work.moveFillOn_other {w : Work} {b : BankId} (notHead : w.st.fillQueue.head? ≠ some b)
    (lost : (w.st.bank b).anyLost = true) : w.moveFillOn b = w := by
  unfold Work.moveFillOn
  rw [if_neg fun fills => notHead (State.fillsBank_iff.1 fills), if_neg (by rw [lost]; decide)]

theorem Work.moveFillOn_head {w : Work} {b : BankId} (head : w.st.fillQueue.head? = some b) : w.moveFillOn b =
    if w.st.fill.inFlight = 0 ∧ (w.st.fill.cutOff ∨ (w.st.bank b).anyLost = false) then w.startHead else w :=
  if_pos (State.fillsBank_iff.2 head)

/-! ### The segment that stays LOST (R108) -/

/-- Every LOST segment of the bank is among those that the command names. -/
theorem Bank.lostWithin_iff {k : Bank} {first count : Nat} : k.lostWithin first count = true ↔
    ∀ h : Segment, k.marks[h] = .lost → first ≤ h.val ∧ h.val < first + count := by
  unfold Bank.lostWithin
  rw [List.all_eq_true]
  refine ⟨fun met h lost => ?_, fun met h _ => decide_eq_true ?_⟩
  · have this := met h (List.mem_finRange h)
    rcases of_decide_eq_true this with valid | named
    · rw [lost] at valid; cases valid
    · exact named
  · by_cases valid : k.marks[h] = .valid
    · exact .inl valid
    · exact .inr (met h (Mark.ne_valid.1 valid))

theorem State.leftLost_iff {s : State} {b : BankId} {first count : Nat} {g : Segment} : s.leftLost b first count = some g ↔
    s.fillError = some (b, g) ∧ ∀ h : Segment, (s.bank b).marks[h] = .lost → first ≤ h.val ∧ h.val < first + count := by
  rw [← Bank.lostWithin_iff]
  unfold State.leftLost
  cases s.fillError with
  | none => simp
  | some x =>
    obtain ⟨c, h⟩ := x
    by_cases same : c = b ∧ (s.bank b).lostWithin first count = true
    · simp [same]
    · dsimp only
      rw [if_neg same]
      simp only [Option.some.injEq, Prod.mk.injEq, reduceCtorEq, false_iff, not_and]
      rintro ⟨rfl, -⟩ within
      exact same ⟨rfl, within⟩

/-- The marks once the named segments are VALID and one of them has stayed LOST. -/
theorem Bank.markRange_one (k : Bank) (first count : Nat) (g : Segment) :
    (k.markRange first count .valid).markRange g.val 1 .lost =
      { k with marks := Vector.ofFn fun h =>
          if h = g then .lost else if first ≤ h.val ∧ h.val < first + count then .valid else k.marks[h] } := by
  have marks : setMarks (setMarks k.marks first count .valid) g.val 1 .lost = Vector.ofFn fun h =>
      if h = g then .lost else if first ≤ h.val ∧ h.val < first + count then .valid else k.marks[h] := by
    refine Vector.ext fun i hi => ?_
    unfold setMarks
    simp only [Vector.getElem_ofFn, Fin.getElem_fin]
    by_cases same : (⟨i, hi⟩ : Segment) = g
    · subst same; simp
    · have apart : ¬ (g.val ≤ i ∧ i < g.val + 1) := fun ⟨h1, h2⟩ => same (Fin.ext (by show i = g.val; omega))
      rw [if_neg apart, if_neg same]
  unfold Bank.markRange
  rw [marks]

section
variable {w : Work} {b : BankId} {first count : Nat} {stays : Option Segment} {f : Bank → Bank}
  (none : w.st.parked = []) (marks : w.markValid b first count stays = w.on fun s => s.updBank b f)
  (keeps : (f (w.st.bank b)).power = (w.st.bank b).power)
include none marks keeps

/-- Out of FILLING the marks are all that changes. -/
theorem Work.mark_valid_plain (notFilling : (w.st.bank b).power ≠ .filling) (notHead : w.st.fillQueue.head? ≠ some b) :
    w.mark b first count .valid stays = w.on fun s => s.updBank b f := by
  rw [Work.mark_valid none marks keeps, if_neg notFilling]
  exact Work.on_congr (f := fun s => (s.updBank b f).cutOffFill b first count) (g := fun s => s.updBank b f)
    (State.cutOffFill_other (s := w.st.updBank b f) notHead first count)

/-- In FILLING the fill engine moves on from the state that the marks and the cut-off leave. -/
theorem Work.mark_valid_filling (filling : (w.st.bank b).power = .filling) {t : State}
    (cut : (w.st.updBank b f).cutOffFill b first count = t) :
    w.mark b first count .valid stays = (w.on fun _ => t).moveFillOn b := by
  rw [Work.mark_valid none marks keeps, if_pos filling]
  exact congrArg (fun v : Work => v.moveFillOn b)
    (Work.on_congr (f := fun s => (s.updBank b f).cutOffFill b first count) (g := fun _ => t) cut)

end

/-- Settles O32: by the state of the bank, its place in the fill queue, and whether its current segment is named. -/
theorem markSegmentsValid : Obligations.MarkSegmentsValid := by
  intro s b first count held k named marked received answers failed unlinked none present some range
  have inRange : ¬ (1 < (0x01 : Byte).toNat ∨ count = 0 ∨ 32 < first.toNat + count.toNat) := by
    rintro (h | h | h)
    · exact absurd h (by decide)
    · exact some h
    · omega
  have marks (w : Work) (up : k.power = .on ∨ k.power = .filling ∨ k.power = .draining ∨ k.power = .retain)
      (moves : (Work.start s.begin).mark b first.toNat count.toNat .valid (s.leftLost b first.toNat count.toNat) = w)
      (links : w.st.links = s.links) (crossings : w.crossings = []) :
      exec (.markSegments (byteOf b.val) first count 0x01) s = .next (w.st.withFrame received [0x00]) := by
    rw [exec_markSegments_taken held present inRange (Bank.markable_iff.2 up)]
    show Host.Outcome.next ((((Work.start s.begin).mark b first.toNat count.toNat .valid
      (s.leftLost b first.toNat count.toNat)).takeTriggers.st).withFrame received [0x00]) = _
    rw [moves, Work.takeTriggers_unlinked (State.Unlinked.of_links unlinked links) crossings]
  have noneLeft (h : ∀ g, ¬ failed g) : s.leftLost b first.toNat count.toNat = .none :=
    Option.eq_none_iff_forall_ne_some.2 fun g left => h g (State.leftLost_iff.1 left)
  have all (h : ∀ g, ¬ failed g) : (Work.start s.begin).markValid b first.toNat count.toNat
      (s.leftLost b first.toNat count.toNat) =
        (Work.start s.begin).on fun s => s.updBank b fun k => k.markRange first.toNat count.toNat .valid := by
    rw [noneLeft h, Work.markValid_none]
  have record : (s.begin.updBank b fun k => k.markRange first.toNat count.toNat .valid).bank b = marked :=
    State.bank_updBank_self _ b _
  have answer (t : State) (eq : exec (.markSegments (byteOf b.val) first count 0x01) s =
      .next (t.settled.withFrame received [0x00])) : answers t := eq
  have anyLost (lost : ∃ g : Segment, marked.marks[g] = .lost) : marked.anyLost = true := Bank.anyLost_iff.2 lost
  refine ⟨fun up absent => ?plain, fun h => ⟨fun filling lost => ⟨fun notHead => ?other, fun head g current => ⟨fun unnamed under => ?_,
    fun isNamed under => ?_, fun isNamed ended noFill h' lowest => ?_⟩⟩, fun filling full last ended => ?_⟩⟩
  case plain =>
    have notHead : s.fillQueue.head? ≠ .some b := fun head => absent (List.mem_of_mem_head? head)
    have up' : k.power = .on ∨ k.power = .filling ∨ k.power = .draining ∨ k.power = .retain := by
      rcases up with h | h | h <;> simp [h]
    have notFilling : k.power ≠ .filling := by rcases up with h | h | h <;> rw [h] <;> decide
    refine ⟨fun h => answer _ ?_, fun g left => answer _ ?_⟩
    · rw [marks _ up' (Work.mark_valid_plain (w := Work.start s.begin) none (all h) (Bank.markRange_power ..) notFilling notHead)
        rfl rfl]
      rfl
    · have one : (Work.start s.begin).markValid b first.toNat count.toNat (s.leftLost b first.toNat count.toNat) =
          (Work.start s.begin).on fun s => s.updBank b fun k =>
            (k.markRange first.toNat count.toNat .valid).markRange g.val 1 .lost := by
        rw [State.leftLost_iff.2 left, Work.markValid_some]
      rw [marks _ up' (Work.mark_valid_plain (w := Work.start s.begin) none one
        ((Bank.markRange_power ..).trans (Bank.markRange_power ..)) notFilling notHead) rfl rfl]
      simp only [Bank.markRange_one]
      rfl
  case other =>
    have cut := State.cutOffFill_other (s := s.begin.updBank b fun k => k.markRange first.toNat count.toNat .valid) notHead
      first.toNat count.toNat
    have stays := (Work.mark_valid_filling (w := Work.start s.begin) none (all h) (Bank.markRange_power ..) filling cut).trans
      (Work.moveFillOn_other notHead (by rw [Work.on_st, record]; exact anyLost lost))
    exact answer _ (marks _ (.inr (.inl filling)) stays rfl rfl)
  · have cut := State.cutOffFill_unnamed (s := s.begin.updBank b fun k => k.markRange first.toNat count.toNat .valid)
      (b := b) current unnamed
    have stays := (Work.mark_valid_filling (w := Work.start s.begin) none (all h) (Bank.markRange_power ..) filling cut).trans
      ((Work.moveFillOn_head head).trans (if_neg ?_))
    · exact answer _ (marks _ (.inr (.inl filling)) stays rfl rfl)
    · rintro ⟨ended, moves⟩
      rw [Work.on_st, record, anyLost lost] at moves
      rcases under with under | under
      · have cutOff : s.fill.cutOff = true := moves.resolve_right (by decide)
        rw [under] at cutOff
        cases cutOff
      · exact under ended
  · have cut := State.cutOffFill_named (s := s.begin.updBank b fun k => k.markRange first.toNat count.toNat .valid) head
      current isNamed
    have stays := (Work.mark_valid_filling (w := Work.start s.begin) none (all h) (Bank.markRange_power ..) filling cut).trans
      ((Work.moveFillOn_head head).trans (if_neg fun ⟨ended, _⟩ => under ended))
    exact answer _ (marks _ (.inr (.inl filling)) stays rfl rfl)
  · obtain ⟨more, queue⟩ : ∃ more, s.fillQueue = b :: more := by
      cases empty : s.fillQueue with
      | nil => rw [empty] at head; cases head
      | cons c more => rw [empty] at head; cases head; exact ⟨more, rfl⟩
    have cut := State.cutOffFill_named (s := s.begin.updBank b fun k => k.markRange first.toNat count.toNat .valid) head
      current isNamed
    have begins := (Work.mark_valid_filling (w := Work.start s.begin) none (all h) (Bank.markRange_power ..) filling cut).trans
      (((Work.moveFillOn_head head).trans (if_pos ⟨ended, .inl rfl⟩)).trans
        (Work.startHead_begins (g := h') queue (by rw [Work.on_st]; exact (congrArg Bank.anyLost record).trans lowest.any)
          (State.chooseSegment_lowest none (record ▸ lowest)) (by rw [Work.on_st]; exact record ▸ noFill)))
    exact (marks _ (.inr (.inl filling)) begins rfl rfl).trans rfl
  · obtain ⟨f, cut, inFlight⟩ := State.cutOffFill_eq
      (s.begin.updBank b fun k => k.markRange first.toNat count.toNat .valid) b first.toNat count.toNat
    have whole : ((s.begin.updBank b fun k => k.markRange first.toNat count.toNat .valid).bank b).anyLost = false := by
      rw [record]; exact Bank.anyLost_false full
    have head : s.fillQueue.head? = .some b := by rw [last]; rfl
    have ends := (Work.mark_valid_filling (w := Work.start s.begin) none (all h) (Bank.markRange_power ..) filling cut).trans
      (((Work.moveFillOn_head head).trans (if_pos ⟨inFlight.trans ended, .inr whole⟩)).trans
        (Work.startHead_last last whole none))
    refine answer _ ((marks _ (.inr (.inl filling)) ends (State.post_links _ _ _) rfl).trans ?_)
    rw [State.post_settled]
    refine congrArg (fun t : State => Host.Outcome.next ((t.post .fillDone { bank := .some b }).withFrame received [0x00])) ?_
    exact State.ext_banks (State.updBank_after (s := s.begin)
      (f := fun k => k.markRange first.toNat count.toNat .valid) Bank.readied rfl) rfl

end Sys2Proof.Machine
end
section
/-! SUPPORT. What every event and every action command leaves as it was: the settings, the inputs, the clock, and each
link's fire count but for one firing (O52). -/

namespace Sys2Proof.Machine

/-! ### Changes that keep the settings and the frame -/

/-- The settings and the management frame stay as they were. -/
structure Steady (s t : State) : Prop where
  settings : SettingsKept s t
  frame : t.frame = s.frame

theorem SettingsKept.trans {s t u : State} (h : SettingsKept s t) (h' : SettingsKept t u) : SettingsKept s u where
  config b := (h'.config b).trans (h.config b)
  global := h'.global.trans h.global
  windows := h'.windows.trans h.windows
  links l := (h'.links l).trans (h.links l)
  presented := h'.presented.trans h.presented
  linkClosed := h'.linkClosed.trans h.linkClosed
  resetLow := h'.resetLow.trans h.resetLow
  frameHeld := h'.frameHeld.trans h.frameHeld
  clock := h'.clock.trans h.clock
  pending := h'.pending.trans h.pending

theorem Steady.trans {s t u : State} (h : Steady s t) (h' : Steady t u) : Steady s u :=
  ⟨h.settings.trans h'.settings, h'.frame.trans h.frame⟩

theorem SameSetup.steady {s t : State} (h : SameSetup s t) : Steady s t where
  settings :=
    { config := h.config, global := h.global, windows := h.windows, links := h.links, presented := h.presented
      linkClosed := h.linkClosed, resetLow := h.resetLow, frameHeld := h.frameHeld, clock := h.clock, pending := h.pending }
  frame := h.frame

theorem Steady.refl (s : State) : Steady s s := (SameSetup.refl s).steady

theorem CalmRun.steady {s t : State} (h : CalmRun s t) : Steady s t := h.setup.steady

/-- A change of one bank's record that keeps its configuration. -/
theorem Steady.updBank (s : State) (b : BankId) (f : Bank → Bank) (config : (f (s.bank b)).config = (s.bank b).config) :
    Steady s (s.updBank b f) where
  settings :=
    { config := fun c => by rw [State.bank_updBank]; split <;> simp_all
      global := rfl, windows := rfl, links := fun _ => rfl, presented := rfl, linkClosed := rfl, resetLow := rfl
      frameHeld := rfl, clock := rfl, pending := rfl }
  frame := rfl

theorem Ans.steady {s t : State} (h : Ans s t) : Steady s t := by
  cases h with
  | answer g x d => unfold State.answer; split <;> exact ⟨⟨fun _ => rfl, rfl, rfl, fun _ => rfl, rfl, rfl, rfl, rfl, rfl, rfl⟩, rfl⟩
  | fewer q _ => exact (SameSetup.setParked s q).steady

theorem AnsRun.steady {s t : State} (h : AnsRun s t) : Steady s t := by
  induction h with
  | refl => exact .refl s
  | tail _ hm ih => exact ih.trans hm.steady

theorem State.begin_steady (s : State) : Steady s s.begin :=
  ⟨⟨fun _ => rfl, rfl, rfl, fun _ => rfl, rfl, rfl, rfl, rfl, rfl, rfl⟩, rfl⟩

theorem State.markRange_steady (s : State) (b : BankId) (first count : Nat) (m : Mark) :
    Steady s (s.updBank b fun k => k.markRange first count m) :=
  .updBank s b (fun k => k.markRange first count m) (Bank.markRange_config ..)

/-! ### Operations that are not runs of calm moves -/

theorem State.toFault_steady (s : State) (b : BankId) : Steady s (s.toFault b) :=
  (Steady.updBank s b Bank.faulted rfl).trans
    ⟨⟨fun _ => rfl, rfl, rfl, fun _ => rfl, rfl, rfl, rfl, rfl, rfl, rfl⟩, rfl⟩

theorem Work.enterFault_steady (w : Work) (b : BankId) (cause : FaultCause) : Steady w.st (w.enterFault b cause).st := by
  have answered : Steady w.st ((w.st.toFault b).faultAnswers b cause (w.st.bank b).port.slots) :=
    (w.st.toFault_steady b).trans (State.faultAnswers_ans _ b cause _).steady
  have scanned := answered.trans
    (Work.scan_calm (w.on fun s => (s.toFault b).faultAnswers b cause (w.st.bank b).port.slots)).steady
  unfold Work.enterFault; dsimp only
  refine Steady.trans ?_ (SameSetup.post _ _ _).steady
  split
  · exact scanned.trans (Work.startHead_calm _).steady
  · exact scanned

theorem State.failAttempt_steady (s : State) (b : BankId) : Steady s (s.failAttempt b) :=
  (Steady.updBank s b Bank.attemptFailed (Bank.attemptFailed_config _)).trans
    ((Steady.updBank _ b (fun k => { k with charge := 0 }) rfl).trans
      ⟨⟨fun _ => rfl, rfl, rfl, fun _ => rfl, rfl, rfl, rfl, rfl, rfl, rfl⟩, rfl⟩)

theorem State.rejoinWait_steady (s : State) (b : BankId) : Steady s (s.rejoinWait b) :=
  (Steady.updBank s b (fun k => { k with power := .waiting }) rfl).trans
    ⟨⟨fun _ => rfl, rfl, rfl, fun _ => rfl, rfl, rfl, rfl, rfl, rfl, rfl⟩, rfl⟩

theorem Work.failAttempt_steady (w : Work) (b : BankId) : Steady w.st (w.failAttempt b).st := by
  refine (w.st.failAttempt_steady b).trans ?_
  unfold Work.failAttempt; dsimp only; split
  · exact ((SameSetup.post (w.st.failAttempt b) _ _).steady.trans (State.rejoinWait_steady _ b)).trans
      (Work.tryGrant_calm ((w.on fun s => s.failAttempt b).on fun s => (s.post .wakeRetry
        { bank := some b, detail := some (.count (s.bank b).attempts) }).rejoinWait b)).steady
  · exact (Work.tryGrant_calm (w.on fun s => s.failAttempt b)).steady.trans (Work.enterFault_steady _ b .wakeFailed)

theorem State.completeRequest_steady (s : State) (b : BankId) (x : Slot) (t : Tag) (st : Stream) (r : BankResult)
    (d : Vector Byte 64) : Steady s (s.completeRequest b x t st r d) := by
  unfold State.completeRequest; dsimp only; split
  · exact (Ans.answer s t _ _).steady
  · exact (Ans.answer s t _ _).steady.trans (SameSetup.post _ _ _).steady

theorem State.markFilled_steady (s : State) (b : BankId) (g : Segment) : Steady s (s.markFilled b g) := by
  unfold State.markFilled; split
  · exact .refl s
  · exact s.markRange_steady b g.val 1 .valid

theorem State.countFillWrite_steady (s : State) (b : BankId) : Steady s (s.countFillWrite b).1 :=
  ⟨⟨fun _ => rfl, rfl, rfl, fun _ => rfl, rfl, rfl, rfl, rfl, rfl, rfl⟩, rfl⟩

theorem State.inCurrentFill_head {s : State} {b : BankId} {x : Slot} (h : s.inCurrentFill b x = true) :
    s.fillsBank b = true := (of_decide_eq_true h).1

theorem Work.completeFillWrite_steady (w : Work) (b : BankId) (x : Slot) (r : BankResult) :
    Steady w.st (w.completeFillWrite b x r).1.st := by
  unfold Work.completeFillWrite; split
  · split
    · exact (w.abandonFill_calm b x.segment (State.inCurrentFill_head ‹_›)).steady
    · dsimp only; split
      · exact w.st.countFillWrite_steady b
      · exact (w.st.countFillWrite_steady b).trans (State.markFilled_steady _ b x.segment)
  · exact .refl _

theorem Work.holderAction_steady (w : Work) (b : BankId) (x : Slot) (r : BankResult) (d : Vector Byte 64) :
    Steady w.st (w.holderAction b x r d).1.st := by
  unfold Work.holderAction; split
  · exact State.completeRequest_steady _ _ _ _ _ _ _
  · exact .refl _
  · exact w.completeFillWrite_steady b x r

theorem Work.complete_steady (w : Work) (b : BankId) (x : Slot) (rest : List Slot) (r : BankResult)
    (d : Vector Byte 64) : Steady w.st (w.complete b x rest r d).st :=
  ((Steady.updBank w.st b (fun k => k.withPort fun p => { p with slots := rest }) rfl).trans
    (Work.holderAction_steady (w.bank b fun k => k.withPort fun p => { p with slots := rest }) b x r d)).trans
    ((Work.scan_calm _).steady.trans ((Work.fillStep_calm _ b _).steady.trans (Work.drainIfEmpty_calm _ b).steady))

theorem Work.watchOldest_steady (w : Work) (b : BankId) : Steady w.st (w.watchOldest b).st := by
  unfold Work.watchOldest; split
  · exact (w.enterFault_steady b _).trans (Work.takeTriggers_calm _).steady
  · exact .refl _

theorem Work.markValid_steady (w : Work) (b : BankId) (first count : Nat) (stays : Option Segment) :
    Steady w.st (w.markValid b first count stays).st := by
  cases stays with
  | none => exact w.st.markRange_steady b first count .valid
  | some g => exact (w.st.markRange_steady b first count .valid).trans (State.markRange_steady _ b g.val 1 .lost)

theorem Work.mark_steady (w : Work) (b : BankId) (first count : Nat) (m : Mark) (stays : Option Segment) :
    Steady w.st (w.mark b first count m stays).st := by
  cases m with
  | lost => exact w.st.markRange_steady b first count .lost
  | valid =>
    refine (w.markValid_steady b first count stays).trans ?_
    have scanned := (State.cutOffFill_calm (w.markValid b first count stays).st b first count).trans
      (Work.scan_calm ((w.markValid b first count stays).on fun s => s.cutOffFill b first count))
    unfold Work.mark; dsimp only; split
    · exact CalmRun.steady (scanned.trans (Work.moveFillOn_calm _ b ‹_›))
    · exact CalmRun.steady scanned

/-! ### None of these operations fires a link -/

theorem Work.failAttempt_noFiring (w : Work) (b : BankId) : NoFiring w (w.failAttempt b) := by
  have failed := (NoFiring.refl w).on fun s => s.failAttempt b
  unfold Work.failAttempt; dsimp only; split
  · exact NoFiring.tryGrant (failed.on _ fun s => State.post_links _ _ _)
  · exact failed.tryGrant.enterFault b .wakeFailed

theorem State.completeRequest_links (s : State) (b : BankId) (x : Slot) (t : Tag) (st : Stream) (r : BankResult)
    (d : Vector Byte 64) : (s.completeRequest b x t st r d).links = s.links := by
  unfold State.completeRequest; dsimp only; split
  · exact (Ans.answer s t _ _).blocks.links
  · exact (State.post_links _ _ _).trans (Ans.answer s t _ _).blocks.links

theorem State.markFilled_links (s : State) (b : BankId) (g : Segment) : (s.markFilled b g).links = s.links := by
  unfold State.markFilled; split <;> rfl

theorem NoFiring.completeFillWrite {u w : Work} (h : NoFiring u w) (b : BankId) (x : Slot) (r : BankResult) :
    NoFiring u (w.completeFillWrite b x r).1 := by
  unfold Work.completeFillWrite; split
  · split
    · exact ((h.on (fun s => (s.unqueueFill b).post .fillError { bank := some b, detail := some (.segment x.segment) })
        fun s => State.post_links _ _ _).enterOn b).startHead
    · dsimp only; split
      · exact h.on fun s => (s.countFillWrite b).1
      · exact h.on (fun s => (s.countFillWrite b).1.markFilled b x.segment) fun s =>
          State.markFilled_links (s.countFillWrite b).1 b x.segment
  · exact h

theorem NoFiring.holderAction {u w : Work} (h : NoFiring u w) (b : BankId) (x : Slot) (r : BankResult)
    (d : Vector Byte 64) : NoFiring u (w.holderAction b x r d).1 := by
  unfold Work.holderAction; split
  · exact h.on _ fun s => State.completeRequest_links _ _ _ _ _ _ _
  · exact h
  · exact h.completeFillWrite b x r

theorem Work.complete_noFiring (w : Work) (b : BankId) (x : Slot) (rest : List Slot) (r : BankResult)
    (d : Vector Byte 64) : NoFiring w (w.complete b x rest r d) :=
  (((((NoFiring.refl w).bank b fun k => k.withPort fun p => { p with slots := rest }).holderAction b x r d).scan).fillStep
    b _).drainIfEmpty b

theorem Work.mark_noFiring (w : Work) (b : BankId) (first count : Nat) (m : Mark) (stays : Option Segment) :
    NoFiring w (w.mark b first count m stays) := by
  cases m with
  | lost => exact (NoFiring.refl w).bank b fun k => k.markRange first count .lost
  | valid =>
    have marked : NoFiring w (w.markValid b first count stays) := by
      cases stays with
      | none => exact (NoFiring.refl w).bank b fun k => k.markRange first count .valid
      | some g => exact ((NoFiring.refl w).bank b fun k => k.markRange first count .valid).bank b fun k => k.markRange g.val 1 .lost
    have scanned := NoFiring.scan (marked.on _ fun s => State.cutOffFill_links s b first count)
    unfold Work.mark; dsimp only; split
    · unfold Work.moveFillOn; split
      · split
        · exact scanned.startHead
        · exact scanned
      · split
        · exact scanned.fillDone b
        · exact scanned
    · exact scanned

/-! ### Whole commands -/

/-- Each link fires at most once. -/
def FiresOnce (s t : State) : Prop :=
  ∀ l : LinkId, t.links[l].fireCount = s.links[l].fireCount ∨ t.links[l].fireCount = s.links[l].fireCountRaised

theorem FiresOnce.of_links {s t : State} (h : t.links = s.links) : FiresOnce s t := fun l => .inl (by rw [h])

theorem Counted.firesOnce {s : State} {w : Work} (h : Counted s w) : FiresOnce s w.st := fun l => by
  rw [h l]; split
  · exact .inr rfl
  · exact .inl rfl

/-- What O52 says of an event. -/
structure EventKeeps (s t : State) : Prop where
  steady : Steady s t
  fires : FiresOnce s t

theorem EventKeeps.begin (s : State) : EventKeeps s s.begin := ⟨s.begin_steady, .of_links rfl⟩

theorem EventKeeps.of_event {s u : State} {moves : Work → Work} (links : u.links = s.links) (start : Steady s u)
    (steady : Steady u (moves (Work.start u)).st) (quiet : NoFiring (Work.start u) (moves (Work.start u))) :
    EventKeeps s (u.event moves) where
  steady := (start.trans steady).trans (State.event_calm u moves).steady
  fires l := links ▸ State.event_counted quiet l

theorem EventKeeps.of_begun {s : State} {moves : Work → Work} (steady : Steady s.begin (moves (Work.start s.begin)).st)
    (quiet : NoFiring (Work.start s.begin) (moves (Work.start s.begin))) : EventKeeps s (s.begin.event moves) :=
  .of_event rfl s.begin_steady steady quiet

/-- An event taken where its timer has run out, and otherwise a step that changes nothing. -/
theorem EventKeeps.of_ite {s t : State} {p : Prop} [Decidable p] {moves : Work → Work}
    (h : (if p then proceed (s.begin.event moves) else proceed s.begin) = .next t)
    (event : p → EventKeeps s (s.begin.event moves)) : EventKeeps s t := by
  split at h <;> cases proceed_inj h
  · exact event ‹_›
  · exact .begin s

theorem execRailDrop_keeps {s t : State} {b : BankId} (h : execRailDrop b s = .next t) : EventKeeps s t := by
  cases proceed_inj h
  have low : Steady s.begin (s.begin.updBank b fun k => { k with pgood := false }) := .updBank _ b _ rfl
  have quiet := (NoFiring.refl (Work.start s.begin)).bank b fun k => { k with pgood := false }
  refine .of_begun ?_ ?_ <;> (dsimp only; split)
  · exact low.trans (Work.enterFault_steady ((Work.start s.begin).bank b fun k => { k with pgood := false }) b .railDropped)
  · exact low
  · exact quiet.enterFault b .railDropped
  · exact quiet

theorem execCompletion_keeps {s t : State} {b : BankId} {r : BankResult} {d : Vector Byte 64}
    (h : execCompletion b r d s = .next t) : EventKeeps s t := by
  unfold execCompletion at h; split at h
  · cases proceed_inj h; exact .begin s
  · split at h <;> cases proceed_inj h
    · exact .begin s
    · rename_i x rest _
      have begun : Steady s { s.begin with fillError := s.fillErrorOf b x r } :=
        ⟨⟨fun _ => rfl, rfl, rfl, fun _ => rfl, rfl, rfl, rfl, rfl, rfl, rfl⟩, rfl⟩
      have counted := ((Counted.start { s.begin with fillError := s.fillErrorOf b x r }).keep
        (Work.complete_noFiring _ b x rest r d)).takeTriggers.watchOldest b
      exact ⟨((begun.trans (Work.complete_steady (Work.start { s.begin with fillError := s.fillErrorOf b x r }) b x rest r d)).trans (Work.takeTriggers_calm _).steady).trans
        (Work.watchOldest_steady _ b), counted.firesOnce⟩

theorem execParkExpiry_keeps {s t : State} {g : Tag} (h : execParkExpiry g s = .next t) : EventKeeps s t := by
  unfold execParkExpiry at h; split at h <;> cases proceed_inj h
  · exact .begin s
  · rename_i before e after hq
    have expelled := State.expel_ans (s := s.begin) .expired (splitOldest_some hq).1
    have posted := expelled.steady.trans (SameSetup.post _ .parkExpired
      { bank := some e.req.bank, tag := some e.req.tag, stream := some e.req.stream, window := some e.req.window,
        detail := some (.count (cascadeOf e after).length) }).steady
    exact .of_begun (posted.trans (Work.scan_calm { Work.start s.begin with st := _ }).steady)
      (NoFiring.scan ⟨(State.post_links _ _ _).trans expelled.blocks.links, rfl⟩)

/-- Every event of a bank, of the arbiter or of a timer keeps the settings and the frame, and fires each link at most once
(R142, R143). -/
theorem exec_event_keeps {s t : State} {b : BankId} {g : Tag} {result : BankResult} {data : Vector Byte 64} {c : Instr}
    (hc : c ∈ [Instr.stageDwellExpiry b, .rampCompletion b, .grant, .wakeLimitExpiry b, .railDrop b, .responseTimeout b,
      .completion b result data, .fillWriteIssue, .drainCompletion b, .parkExpiry g, .idleExpiry b, .retainExpiry b])
    (h : exec c s = .next t) : EventKeeps s t := by
  simp only [List.mem_cons, List.not_mem_nil, or_false] at hc
  rcases hc with rfl | rfl | rfl | rfl | rfl | rfl | rfl | rfl | rfl | rfl | rfl | rfl
  · refine EventKeeps.of_ite h fun due => .of_begun ?_ (((NoFiring.refl _).bank b Bank.nextStage).finishRamp b)
    exact (Steady.updBank _ b Bank.nextStage rfl).trans
      (Work.finishRamp_calm ((Work.start s.begin).bank b Bank.nextStage) b).steady
  · cases proceed_inj h
    exact .of_begun ((Steady.updBank _ b (fun k => { k with pgood := true }) rfl).trans
      (Work.finishRamp_calm ((Work.start s.begin).bank b fun k => { k with pgood := true }) b).steady)
      (((NoFiring.refl _).bank b fun k => { k with pgood := true }).finishRamp b)
  · cases proceed_inj h
    exact .of_begun (Work.tryGrant_calm (Work.start s.begin)).steady (NoFiring.refl _).tryGrant
  · exact EventKeeps.of_ite h fun _ =>
      .of_begun (Work.failAttempt_steady (Work.start s.begin) b) (Work.failAttempt_noFiring _ b)
  · exact execRailDrop_keeps h
  · exact EventKeeps.of_ite h fun _ =>
      .of_begun (Work.enterFault_steady (Work.start s.begin) b .timedOut) ((NoFiring.refl _).enterFault b .timedOut)
  · exact execCompletion_keeps h
  · cases proceed_inj h
    refine ⟨s.begin_steady.trans (CalmRun.steady (Calm.issueFill s.begin).run), .of_links ?_⟩
    simp
  · cases proceed_inj h
    exact .of_begun (Work.drainIfEmpty_calm (Work.start s.begin) b).steady ((NoFiring.refl _).drainIfEmpty b)
  · exact execParkExpiry_keeps h
  · exact EventKeeps.of_ite h fun due =>
      .of_begun (Work.softDrain_calm (Work.start s.begin) b due.1).steady ((NoFiring.refl _).softDrain b)
  · change execRetainExpiry b s = .next t at h
    unfold execRetainExpiry at h; split at h <;> cases proceed_inj h
    · exact ⟨(s.begin_steady.trans (Steady.updBank _ b Bank.retainToOff rfl)).trans (SameSetup.post _ _ _).steady,
        .of_links (State.post_links _ _ _)⟩
    · exact .begin s

/-! ### Action commands -/

theorem SettingsKept.withFrame {s t : State} (h : SettingsKept s t) (f : Frame) : SettingsKept s { t with frame := f } :=
  ⟨h.config, h.global, h.windows, h.links, h.presented, h.linkClosed, h.resetLow, h.frameHeld, h.clock, h.pending⟩

/-- A management command whose DONE answer leaves a state that an event reaches. -/
theorem State.serve_keeps {s t : State} {c : FrameCommand} {index : Byte} {args : List Byte}
    {body : BankId → Except ResponseCode (State × List Byte)}
    (h : proceed (s.begin.serve c index args (withBank index body)) = .next t)
    (done : ∀ b u reply, body b = .ok (u, reply) → EventKeeps s u) : SettingsKept s t ∧ FiresOnce s t := by
  have framed : ∀ {u} {received reply : List Byte}, EventKeeps s u →
      SettingsKept s (s.begin.framed u received reply) ∧ FiresOnce s (s.begin.framed u received reply) := by
    intro u received reply kept
    unfold State.framed; split
    · exact ⟨(EventKeeps.begin s).steady.settings, (EventKeeps.begin s).fires⟩
    · exact ⟨kept.steady.settings.withFrame _, kept.fires⟩
  cases proceed_inj h
  unfold State.serve; split
  · obtain ⟨b, _, ok⟩ := withBank_ok ‹_›
    exact framed (done b _ _ ok)
  · exact framed (.begin s)

theorem EventKeeps.of_updBank (s : State) (b : BankId) (f : Bank → Bank)
    (config : (f (s.bank b)).config = (s.bank b).config) : EventKeeps s (s.begin.updBank b f) :=
  ⟨s.begin_steady.trans (.updBank _ b f config), .of_links rfl⟩

theorem State.wakeBank_keeps {s u : State} {b : BankId} {body : List Byte} (h : s.begin.wakeBank b = .ok (u, body)) :
    EventKeeps s u := by
  have wakes : EventKeeps s (s.begin.event fun w => w.wake b false) :=
    .of_begun (Work.wake_calm (Work.start s.begin) b false).steady ((NoFiring.refl _).wake b false)
  unfold State.wakeBank at h; dsimp only at h; split at h
  · cases h
  · split at h
    · cases h; exact wakes
    · cases h; exact wakes
    · cases h; exact .begin s
    · cases h; exact .begin s
    · cases h; exact .begin s
    · cases h; exact .of_updBank s b _ (Bank.reloadIdle_config _)
    · split at h <;> cases h
      exact .of_begun (Work.cancelDrain_calm (Work.start s.begin) b ‹_› ‹_›).steady ((NoFiring.refl _).cancelDrain b)
    · cases h

theorem State.sleepBank_keeps {s u : State} {b : BankId} {target : Byte} {body : List Byte}
    (h : s.begin.sleepBank target b = .ok (u, body)) : EventKeeps s u := by
  unfold State.sleepBank at h; split at h
  · cases h
  · dsimp only at h; split at h
    · cases h
    · split at h <;> cases h
      exact .of_begun (Work.sleep_calm (Work.start s.begin) b _ false).steady ((NoFiring.refl _).sleep b _ false)

theorem State.flushBank_keeps {s u : State} {b : BankId} {body : List Byte} (h : s.begin.flushBank b = .ok (u, body)) :
    EventKeeps s u := by
  have flushed := State.expelBank_ans b .aborted s.parked.length s.begin
  unfold State.flushBank at h; split at h
  · cases h
  · dsimp only at h; cases h
    exact .of_event flushed.blocks.links (s.begin_steady.trans flushed.steady)
      (Work.scan_calm (Work.start _)).steady (NoFiring.refl _).scan

theorem State.markSegments_keeps {s u : State} {b : BankId} {first count value : Byte} {body : List Byte}
    (h : s.markSegments first count value b = .ok (u, body)) : EventKeeps s u := by
  unfold State.markSegments at h; split at h
  · cases h
  · split at h
    · cases h
    · split at h
      · cases h
      · split at h <;> cases h
        exact .of_begun (Work.mark_steady (Work.start s.begin) b _ _ _ _) (Work.mark_noFiring _ b _ _ _ _)

/-- Every action command keeps the settings, and fires each link at most once (R142, R143, R194). -/
theorem exec_action_keeps {s t : State} {index first count value target : Byte} {c : Instr}
    (hc : c ∈ [Instr.wakeBank index, .sleepBank index target, .flushBank index, .clearFault index,
      .markSegments index first count value, .clearCount index])
    (h : exec c s = .next t) : SettingsKept s t ∧ FiresOnce s t := by
  simp only [List.mem_cons, List.not_mem_nil, or_false] at hc
  rcases hc with rfl | rfl | rfl | rfl | rfl | rfl
  · exact State.serve_keeps h fun _ _ _ => State.wakeBank_keeps
  · exact State.serve_keeps h fun _ _ _ => State.sleepBank_keeps
  · exact State.serve_keeps h fun _ _ _ => State.flushBank_keeps
  · refine State.serve_keeps h fun b _ _ ok => ?_
    unfold State.clearFault at ok; split at ok <;> cases ok
    exact .of_updBank s b _ rfl
  · exact State.serve_keeps h fun _ _ _ => State.markSegments_keeps
  · refine State.serve_keeps h fun b _ _ ok => ?_
    unfold State.clearCount at ok; split at ok <;> cases ok
    exact .of_updBank s b _ rfl

/-- Settles O52: the calm moves keep the setup, and each of the other moves keeps the settings too; no move of an event
fires a link, so that each fires at most once as the triggers are taken. -/
theorem eventsKeepTheSettings : Obligations.EventsKeepTheSettings := by
  unfold Obligations.EventsKeepTheSettings
  refine ⟨fun s t b g result data c hc h => ?_, fun s t index first count value target c hc h => exec_action_keeps hc h⟩
  obtain ⟨steady, fires⟩ := exec_event_keeps hc h
  exact ⟨steady.settings, steady.frame, fires⟩

end Sys2Proof.Machine
end
section
/-! SUPPORT. What a completion does: it frees the oldest slot, answers its holder, and, at the last slot of a draining bank,
completes the drain; and what a fill-write issue does (O48, O49). -/

namespace Sys2Proof.Machine

/-! ### The issue of a fill write -/

theorem Bank.takesFill_iff {k : Bank} : k.takesFill = true ↔
    (k.port.slots.countP fun x => x.holder = .fill) < 2 ∧ k.port.slots.length < 4 :=
  decide_eq_true_iff.trans (and_congr_right fun _ => Port.hasRoom_iff)

/-- No fill write is issued while the head bank, its segment or its next write is none (R99). -/
theorem State.issueFill_idle {s : State} (h : s.fillQueue = [] ∨ s.fill.current = none ∨ s.fill.nextWrite = none) :
    s.issueFill = s := by
  unfold State.issueFill
  split
  · rename_i b g a head current next
    rcases h with h | h | h
    · rw [h] at head; cases head
    · rw [h] at current; cases current
    · rw [h] at next; cases next
  · rfl

/-- Settles O48: the three conditions of R99 decide whether the write goes out. -/
theorem fillWriteIssue : Obligations.FillWriteIssue := by
  unfold Obligations.FillWriteIssue
  refine fun s => ⟨fun b g a head current next => ⟨fun fills room => ?_, fun full => ?_⟩, fun idle => ?_⟩
  · exact congrArg Host.Outcome.next
      (State.issueFill_places (s := s.begin) head current next (Bank.takesFill_iff.2 ⟨fills, room⟩))
  · have waits : (s.bank b).takesFill = false := Bool.eq_false_iff.2 fun takes => by
      obtain ⟨fills, room⟩ := Bank.takesFill_iff.1 takes
      rcases full with full | full
      · exact absurd fills (Nat.not_lt.2 full)
      · exact absurd room (Nat.not_lt.2 full)
    exact congrArg Host.Outcome.next (State.issueFill_waits (s := s.begin) head waits)
  · exact congrArg Host.Outcome.next (State.issueFill_idle (s := s.begin) idle)

/-! ### The limit of the slot that comes to be the oldest -/

/-- The response limit of a slot has not run out (R133). -/
def Slot.inTime (y : Slot) (now : Micros) : Prop := (now - y.forwardTime).toNat < (y.expiryTime - y.forwardTime).toNat

theorem Slot.inTime_iff {y : Slot} {now : Micros} : y.inTime now ↔ y.expired now = false := by
  unfold Slot.inTime Slot.expired
  rw [decide_eq_false_iff_not, Nat.not_le]

theorem Port.timedOut_false {p : Port} {now : Micros} (h : ∀ y, p.slots.head? = some y → y.inTime now) :
    p.timedOut now = false := by
  unfold Port.timedOut
  split
  · rfl
  · rename_i x rest slots
    exact Slot.inTime_iff.1 (h x (by rw [slots]; rfl))

/-- A slot taken in this step, with a response limit set, has its whole limit to go (R127, R128). -/
theorem Slot.inTime_new {y : Slot} {s : State} (limit : s.global.respLimit ≠ 0) (forward : y.forwardTime = s.clock.micros)
    (expiry : y.expiryTime = s.clock.micros + s.global.respLimit.setWidth 32) : y.inTime s.clock.micros := by
  have pos : 0 < s.global.respLimit.toNat := Nat.pos_of_ne_zero fun h => limit (BitVec.eq_of_toNat_eq h)
  have small := s.global.respLimit.isLt
  unfold Slot.inTime
  rw [forward, expiry, BitVec.sub_self, BitVec.add_comm, BitVec.add_sub_cancel, BitVec.toNat_setWidth,
    Nat.mod_eq_of_lt (by omega)]
  simpa using pos

/-- Slots taken behind the older ones do not run out either. -/
theorem Port.timedOut_behind {p : Port} {now : Micros} {rest new : List Slot} (slots : p.slots = rest ++ new)
    (older : ∀ y, rest.head? = some y → y.inTime now) (fresh : ∀ y ∈ new, y.inTime now) : p.timedOut now = false := by
  refine Port.timedOut_false fun y head => ?_
  rw [slots] at head
  cases rest with
  | nil => exact fresh y (List.mem_of_head? head)
  | cons x rest => exact older y head

theorem Work.watchOldest_still {w : Work} {b : BankId}
    (h : (w.st.bank b).railUp = false ∨ (w.st.bank b).port.timedOut w.st.clock.micros = false) : w.watchOldest b = w := by
  refine if_neg fun ⟨up, out⟩ => ?_
  rcases h with h | h
  · rw [up] at h; cases h
  · rw [out] at h; cases h

/-! ### A completion, step by step -/

theorem exec_completion_ignored {s : State} {b : BankId} (result : BankResult) (data : Vector Byte 64)
    (h : (s.bank b).port.ignoring = true ∨ (s.bank b).port.slots = []) :
    exec (.completion b result data) s = .next s.settled := by
  change execCompletion b result data s = _
  unfold execCompletion
  rcases h with ignoring | empty
  · exact if_pos ignoring
  · rw [empty]
    split <;> rfl

/-- The state in which a completion starts: the error of a fill write of the fill under way is kept for the next step
(log 30). -/
def State.completing (s : State) (b : BankId) (x : Slot) (result : BankResult) : State :=
  { s.begin with fillError := s.fillErrorOf b x result }

/-- A completion that the port takes, and after whose triggers no slot has run out of time. -/
theorem exec_completion {s t : State} {b : BankId} {result : BankResult} {data : Vector Byte 64} {x : Slot}
    {rest : List Slot} (taken : (s.bank b).port.ignoring = false) (slots : (s.bank b).port.slots = x :: rest)
    (reaches : ((Work.start (s.completing b x result)).complete b x rest result data).takeTriggers.st = t)
    (inTime : (t.bank b).railUp = false ∨ (t.bank b).port.timedOut t.clock.micros = false) :
    exec (.completion b result data) s = .next t := by
  subst reaches
  have still := Work.watchOldest_still inTime
  change execCompletion b result data s = _
  unfold execCompletion
  rw [if_neg (by rw [taken]; decide), slots]
  exact congrArg (fun w : Work => Host.Outcome.next w.st) still

/-- The state once the oldest slot of bank `b` is free. -/
def State.freed (s : State) (b : BankId) (rest : List Slot) : State :=
  s.updBank b fun k => k.withPort fun p => { p with slots := rest }

theorem State.freed_bank (s : State) (b : BankId) (rest : List Slot) :
    (s.freed b rest).bank b = { s.bank b with port := { (s.bank b).port with slots := rest } } :=
  State.bank_updBank_self ..

theorem Work.complete_eq {w v u : Work} {b : BankId} {x : Slot} {rest : List Slot} {result : BankResult}
    {data : Vector Byte 64} {step : FillStep}
    (acts : (w.on fun s => s.freed b rest).holderAction b x result data = (v, step)) (scanned : v.scan = u) :
    w.complete b x rest result data = (u.fillStep b step).drainIfEmpty b := by
  change (((w.on fun s => s.freed b rest).holderAction b x result data).1.scan.fillStep b
    ((w.on fun s => s.freed b rest).holderAction b x result data).2).drainIfEmpty b = _
  rw [acts, scanned]

theorem Work.holderAction_request {w : Work} {b : BankId} {x : Slot} {g : Tag} {st : Stream} (holder : x.holder = .request g st)
    (result : BankResult) (data : Vector Byte 64) : w.holderAction b x result data =
      (w.on fun s => s.completeRequest b x g st result data, .issue) := by
  unfold Work.holderAction; rw [holder]

theorem Work.holderAction_orphan {w : Work} {b : BankId} {x : Slot} {g : Tag} {st : Stream} (holder : x.holder = .orphan g st)
    (result : BankResult) (data : Vector Byte 64) : w.holderAction b x result data = (w, .issue) := by
  unfold Work.holderAction; rw [holder]

theorem Work.holderAction_fill {w : Work} {b : BankId} {x : Slot} (holder : x.holder = .fill)
    (result : BankResult) (data : Vector Byte 64) : w.holderAction b x result data = w.completeFillWrite b x result := by
  unfold Work.holderAction; rw [holder]

theorem State.inCurrentFill_iff {s : State} {b : BankId} {x : Slot} : s.inCurrentFill b x = true ↔
    s.fillQueue.head? = some b ∧ s.fill.current = some x.segment ∧ 0 < s.fill.inFlight :=
  decide_eq_true_iff.trans (and_congr_left fun _ => State.fillsBank_iff)

/-- A leftover write of a bank that is not the head is discarded (R105). -/
theorem Work.completeFillWrite_leftover {w : Work} {b : BankId} (x : Slot) (result : BankResult)
    (notHead : w.st.fillQueue.head? ≠ some b) : w.completeFillWrite b x result = (w, .issue) :=
  if_neg fun h => notHead (State.inCurrentFill_iff.1 h).1

theorem Work.fillStep_issue_other {w : Work} {b : BankId} (notHead : w.st.fillQueue.head? ≠ some b) :
    w.fillStep b .issue = w := if_neg fun head => notHead (State.fillsBank_iff.1 head)

/-- A completion at a bank whose fill is not under way: the port acts, and the scan follows (R132). -/
theorem Work.complete_other {w u : Work} {b : BankId} {x : Slot} {rest : List Slot} {result : BankResult}
    {data : Vector Byte 64} {f : State → State} (notHead : w.st.fillQueue.head? ≠ some b)
    (acts : (w.on fun s => s.freed b rest).holderAction b x result data = (w.on fun s => f (s.freed b rest), .issue))
    (scanned : (w.on fun s => f (s.freed b rest)).scan = u) (queue : u.st.fillQueue = w.st.fillQueue) :
    w.complete b x rest result data = u.drainIfEmpty b := by
  rw [Work.complete_eq acts scanned, Work.fillStep_issue_other (queue ▸ notHead)]

/-- The state once the request with a tag has been answered. -/
def State.answeredOne (s : State) (g : Tag) (status : Status) (read : List Byte) : State :=
  { s with
    tags := s.tags.set g { s.tags[g] with state := .answered }
    responses := s.responses ++ [{ tag := g, status := status, data := read }] }

theorem State.completeRequest_ok {s : State} {b : BankId} {x : Slot} {g : Tag} {st : Stream} {data : Vector Byte 64}
    {status : Status} {read : List Byte} (pending : s.tags[g].state = .pending)
    (answer : (s.bank b).completionAnswer x .ok data = (status, read)) :
    s.completeRequest b x g st .ok data = s.answeredOne g status read := by
  change s.answer g ((s.bank b).completionAnswer x .ok data).1 ((s.bank b).completionAnswer x .ok data).2 = _
  rw [answer, State.answer_of_pending pending]
  rfl

theorem State.completeRequest_error {s : State} {g : Tag} (b : BankId) (x : Slot) (st : Stream) (data : Vector Byte 64)
    (pending : s.tags[g].state = .pending) : s.completeRequest b x g st .error data =
      (s.answeredOne g .bankerr []).post .bankError { bank := some b, tag := some g, stream := some st } := by
  change (s.answer g .bankerr []).post .bankError { bank := some b, tag := some g, stream := some st } = _
  rw [State.answer_of_pending pending]
  rfl

theorem State.completing_settled {s : State} {b : BankId} {x : Slot} (result : BankResult)
    (h : x.holder ≠ .fill ∨ s.fillQueue.head? ≠ some b) : s.completing b x result = s.settled := by
  have no : s.fillErrorOf b x result = none := by
    refine if_neg fun ⟨fill, _, current, _⟩ => ?_
    rcases h with h | h
    · exact h fill
    · exact h (State.inCurrentFill_iff.1 current).1
  unfold State.completing
  rw [no]
  rfl

/-! ### Drain completion -/

/-- A drain that finds an entry parked for the bank wakes it, here without a grant (R68). -/
theorem Work.completeDrain_wakes {w : Work} {b : BankId} (some : ∃ e ∈ w.st.parked, e.req.bank = b)
    (present : (w.st.bank b).config.present = true) (alone : w.st.waitList = [])
    (tight : w.st.global.budget.toNat < w.st.unitsHeld + (w.st.bank b).rested.costAsleep) :
    w.completeDrain b = (((w.on fun s => s.updBank b Bank.rested).offer b .asleep).joinWait b false) := by
  have lowered : (w.bank b Bank.lowered) = w.on fun s => s.updBank b Bank.rested :=
    Work.on_congr (State.updBank_congr (Bank.lowered_eq _))
  have record : (w.st.updBank b Bank.rested).bank b = (w.st.bank b).rested := State.bank_updBank_self ..
  have asleep : (w.st.bank b).rested.power = .off ∨ (w.st.bank b).rested.power = .retain := by
    unfold Bank.rested
    split
    · exact .inl rfl
    · exact .inr rfl
  have same : (w.st.bank b).rested.config = (w.st.bank b).config := by unfold Bank.rested; split <;> rfl
  unfold Work.completeDrain
  dsimp only
  rw [if_pos (show 0 < parkedCount ((w.bank b Bank.lowered).offer b .asleep).st.parked b from parkedCount_pos.2 some), lowered]
  exact Work.wake_waits false (by rw [← present, ← same]; exact congrArg (·.config.present) record)
    (record ▸ asleep : ((w.st.updBank b Bank.rested).bank b).power = .off ∨ ((w.st.updBank b Bank.rested).bank b).power = .retain)
    alone (by rw [← record] at tight; exact tight)

theorem Bank.costAsleep_rested (k : Bank) : k.rested.costAsleep =
    (if k.drainTarget = .off then k.config.offCost else k.config.retainCost).toNat := by
  unfold Bank.rested
  split <;> rfl

theorem Bank.rested_awaiting (k : Bank) : k.rested.awaiting =
    { k.rested with
      power := .waiting, attempts := 0, retainTimer := none
      wakeKind := if k.drainTarget = .off then .fromOff else .fromRetain } := by
  unfold Bank.rested Bank.awaiting
  by_cases off : k.drainTarget = .off
  · rw [if_pos off, if_pos off]; rfl
  · rw [if_neg off, if_neg off]; rfl

/-- Settles O49: the drain completes once no slot is busy, at the DRAIN_COMPLETION or at the COMPLETION that frees the last
one. -/
theorem drainCompletion : Obligations.DrainCompletion := by
  unfold Obligations.DrainCompletion
  refine ⟨fun s b => ⟨fun not => ?_, fun draining empty unlinked => ⟨fun none => ?_, fun some present alone tight => ?_⟩⟩,
    fun s b data x g st taken slots holder write draining unlinked none notHead pending => ?_⟩
  · have still : (Work.start s.begin).drainIfEmpty b = Work.start s.begin := by
      rcases not with h | h
      · exact Work.drainIfEmpty_not h
      · exact Work.drainIfEmpty_busy h
    exact congrArg Host.Outcome.next (State.event_silent still rfl rfl)
  · refine congrArg Host.Outcome.next ((State.event_unlinked (s := s.begin) (moves := fun w => w.drainIfEmpty b) unlinked
      (Work.drainIfEmpty_rests (w := Work.start s.begin) draining empty none) rfl rfl).trans ?_)
    exact State.updBank_congr rfl
  · have tight' : s.global.budget.toNat < s.unitsHeld + (s.bank b).rested.costAsleep := by
      rw [Bank.costAsleep_rested]; exact tight
    have drains := (Work.drainIfEmpty_empty (w := Work.start s.begin) draining empty).trans
      (Work.completeDrain_wakes some present alone tight')
    refine congrArg Host.Outcome.next ((State.event_unlinked (s := s.begin) (moves := fun w => w.drainIfEmpty b)
      unlinked drains (by rw [Work.joinWait_st]; rfl)
      (by rw [Work.joinWait_crossings]; rfl)).trans ?_)
    rw [Work.joinWait_st]
    refine (State.joinWait_alone (s := s.begin.updBank b Bank.rested) b alone).trans ?_
    have same := congrArg State.banks (State.updBank_congr (s := s.begin) (b := b) (f := fun k => k.rested.awaiting)
      (g := fun _ => _) (Bank.rested_awaiting (s.bank b)))
    exact State.ext_banks ((State.updBank_after (s := s.begin) (f := Bank.rested) Bank.awaiting rfl).trans same) rfl
  · let freed := (s.settled.freed b []).answeredOne g .okay []
    have record : freed.bank b = { s.bank b with port := { (s.bank b).port with slots := [] } } :=
      State.freed_bank s.settled b []
    have answers := State.completeRequest_ok (s := s.settled.freed b []) (b := b) (x := x) (st := st) (data := data)
      pending (by unfold Bank.completionAnswer; rw [write])
    have completes := (Work.complete_other (w := Work.start s.settled) (f := fun t => t.completeRequest b x g st .ok data)
      notHead (Work.holderAction_request holder .ok data)
      (Work.scan_empty (by rw [Work.on_st, Work.start, answers]; exact none)) (by rw [Work.on_st, Work.start, answers]; rfl)).trans
      ((congrArg (fun t => ({ Work.start s.settled with st := t } : Work).drainIfEmpty b) answers).trans
        (Work.drainIfEmpty_rests (w := { Work.start s.settled with st := freed }) ((congrArg Bank.power record).trans draining)
          (congrArg (·.port.slots) record) fun e mem => absurd mem (by rw [show freed.parked = s.parked from rfl, none]; exact List.not_mem_nil)))
    refine exec_completion taken slots ?_ (.inl ?_)
    · rw [State.completing_settled .ok (.inr notHead), completes]
      refine (Work.takeTriggers_unlinked unlinked rfl).trans ?_
      exact State.ext_banks (State.updBank_after (s := s.settled) (t := freed)
        (f := fun k => k.withPort fun p => { p with slots := [] }) Bank.rested rfl) rfl
    · have low : ((s.settled.updBank b fun _ => ({ s.bank b with port := { (s.bank b).port with slots := [] } } : Bank).rested).bank
        b).railUp = false := by
        rw [State.bank_updBank_self]
        unfold Bank.rested
        split <;> rfl
      exact low

end Sys2Proof.Machine
end
section
/-! SUPPORT. A completion of a request, of an orphan, or of a leftover fill write: the slot is freed, a request is answered,
and the scan forwards what the bank can take (O46). -/

namespace Sys2Proof.Machine

/-! ### What a release scan adds to the port -/

/-- A release scan adds slots behind the busy ones, each with its whole response limit to go (R127). -/
theorem State.released_slots (s : State) (b : BankId) : ∃ new : List Slot,
    ((s.released b).bank b).port.slots = (s.bank b).port.slots ++ new
      ∧ ∀ y ∈ new, y.forwardTime = s.clock.micros ∧ y.expiryTime = s.clock.micros + s.global.respLimit.setWidth 32 := by
  refine ⟨(releaseOrder b (4 - (s.bank b).port.slots.length) [] s.parked).map fun e =>
    s.requestSlot e.req, ?_, fun y mem => ?_⟩
  · unfold State.released
    exact congrArg (fun k : Bank => k.port.slots) (Vector.getElem_set_self b.isLt)
  · obtain ⟨e, _, rfl⟩ := List.mem_map.1 mem
    exact ⟨rfl, rfl⟩

theorem State.released_power (s : State) (b : BankId) : ((s.released b).bank b).power = (s.bank b).power := by
  unfold State.released
  exact (congrArg Bank.power (Vector.getElem_set_self b.isLt)).trans rfl

/-! ### The state before the scan -/

/-- A state that answering the freed slot's holder leaves: the banks are those of the freed state, and the queues, the
clock and the settings are as they were. -/
structure AfterFree (s t : State) (b : BankId) (rest : List Slot) : Prop where
  banks : t.banks = (s.freed b rest).banks
  parked : t.parked = s.parked
  fillQueue : t.fillQueue = s.fillQueue
  global : t.global = s.global
  clock : t.clock = s.clock

theorem AfterFree.freed (s : State) (b : BankId) (rest : List Slot) : AfterFree s (s.freed b rest) b rest :=
  ⟨rfl, rfl, rfl, rfl, rfl⟩

theorem AfterFree.answeredOne {s t : State} {b : BankId} {rest : List Slot} (h : AfterFree s t b rest) (g : Tag)
    (x : Status) (d : List Byte) : AfterFree s (t.answeredOne g x d) b rest :=
  ⟨h.banks, h.parked, h.fillQueue, h.global, h.clock⟩

theorem AfterFree.post {s t : State} {b : BankId} {rest : List Slot} (h : AfterFree s t b rest) (k : EventKind) (a : About) :
    AfterFree s (t.post k a) b rest where
  banks := (State.post_banks t k a).trans h.banks
  parked := (State.post_parked t k a).trans h.parked
  fillQueue := (State.post_fillQueue t k a).trans h.fillQueue
  global := (State.post_global t k a).trans h.global
  clock := (State.post_clock t k a).trans h.clock

section
variable {s t : State} {b : BankId} {rest : List Slot} (h : AfterFree s t b rest)
include h

theorem AfterFree.bank : t.bank b = { s.bank b with port := { (s.bank b).port with slots := rest } } :=
  (congrArg (fun q : Vector Bank 8 => q[b]) h.banks).trans (State.freed_bank s b rest)

theorem AfterFree.other {c : BankId} (ne : c ≠ b) : t.bank c = s.bank c :=
  (congrArg (fun q : Vector Bank 8 => q[c]) h.banks).trans (State.bank_updBank_ne s _ ne)

/-- The scan that follows is one of O46's: only bank `b`, in ON, takes forwards. -/
theorem AfterFree.releasing (on : (s.bank b).power = .on) (only : s.OnlyReleases b) (waits : ∃ e ∈ s.parked, e.req.bank = b)
    (held : ∀ n, (s.bank b).idleTimer ≠ .counting n) : t.Releasing b [] t.parked where
  on := (congrArg Bank.power h.bank).trans on
  queue := rfl
  only := only.transfer h.parked (fun _ ne => h.other ne) ((congrArg Bank.config h.bank).trans rfl)
  held _ _ := h.parked ▸ waits
  counting n counts := absurd ((congrArg Bank.idleTimer h.bank).symm.trans counts) (held n)

end

/-! ### The completion -/

/-- The condition of O46 on what is parked: nothing, or entries that the bank in ON alone can take. -/
def State.CompletionReleases (s : State) (b : BankId) : Prop :=
  s.parked = [] ∨
    ((s.bank b).power = .on ∧ s.OnlyReleases b ∧ (∃ e ∈ s.parked, e.req.bank = b)
      ∧ (∀ n, (s.bank b).idleTimer ≠ .counting n) ∧ s.global.respLimit ≠ 0)

/-- The state after the scan of O46. -/
def State.scannedFor (s t : State) (b : BankId) : State := if s.parked = [] then t else t.released b

theorem State.CompletionReleases.begin {s : State} {b : BankId} (h : s.CompletionReleases b) :
    s.settled.CompletionReleases b := by
  rcases h with none | ⟨on, only, waits, held, limit⟩
  · exact .inl none
  · exact .inr ⟨on, only.transfer rfl (fun _ _ => rfl) rfl, waits, held, limit⟩

section
variable {s t : State} {b : BankId} {rest : List Slot} (h : AfterFree s t b rest)
include h

theorem AfterFree.scannedFor_power : ((s.scannedFor t b).bank b).power = (s.bank b).power := by
  have power := congrArg Bank.power h.bank
  unfold State.scannedFor
  split
  · exact power
  · exact (State.released_power t b).trans power

/-- The scan leaves a slot busy where one was. -/
theorem AfterFree.scannedFor_busy (busy : rest ≠ []) : ((s.scannedFor t b).bank b).port.slots ≠ [] := by
  have slots := congrArg (·.port.slots) h.bank
  unfold State.scannedFor
  split
  · exact slots ▸ busy
  · obtain ⟨new, added, _⟩ := State.released_slots t b
    rw [added, slots]
    exact List.append_ne_nil_of_left_ne_nil busy new

end

section
variable {s t : State} {b : BankId} {rest : List Slot} (h : AfterFree s t b rest) (releases : s.CompletionReleases b)
include h releases

theorem Work.scan_scannedFor {w : Work} (st : w.st = t) : w.scan = w.on fun _ => s.scannedFor t b := by
  subst st
  unfold State.scannedFor
  by_cases none : s.parked = []
  · rw [Work.scan_empty (h.parked.trans none), if_pos none]
    rfl
  · obtain ⟨on, only, waits, held, _⟩ := releases.resolve_left none
    rw [Work.scan_releases (h.releasing on only waits held), if_neg none]
    rfl

/-- No slot runs out of time: the older ones by hypothesis, and the new ones are forwarded now. -/
theorem AfterFree.scannedFor_inTime (inTime : ∀ y, rest.head? = some y → y.inTime s.clock.micros) :
    ((s.scannedFor t b).bank b).port.timedOut (s.scannedFor t b).clock.micros = false := by
  have slots : (t.bank b).port.slots = rest := congrArg (·.port.slots) h.bank
  unfold State.scannedFor
  by_cases none : s.parked = []
  · rw [if_pos none]
    exact Port.timedOut_false fun y head => by rw [slots] at head; rw [h.clock]; exact inTime y head
  · obtain ⟨_, _, _, _, limit⟩ := releases.resolve_left none
    obtain ⟨new, added, fresh⟩ := State.released_slots t b
    rw [if_neg none]
    refine Port.timedOut_behind (added.trans (by rw [slots])) (fun y head => ?_) fun y mem => ?_
    · exact (congrArg (fun c : Timebase => y.inTime c.micros) h.clock).mpr (inTime y head)
    · exact Slot.inTime_new (s := t) (by rw [h.global]; exact limit) (fresh y mem).1 (fresh y mem).2

end

/-- A completion at a bank whose rail stays up and whose fill is not under way (R130, R132). -/
theorem exec_completion_other {s t : State} {b : BankId} {result : BankResult} {data : Vector Byte 64} {x : Slot}
    {rest : List Slot} {f : State → State} (taken : (s.bank b).port.ignoring = false)
    (slots : (s.bank b).port.slots = x :: rest)
    (up : (s.bank b).power = .on ∨ (s.bank b).power = .filling ∨ ((s.bank b).power = .draining ∧ rest ≠ []))
    (notHead : s.fillQueue.head? ≠ some b) (inTime : ∀ y, rest.head? = some y → y.inTime s.clock.micros)
    (releases : s.CompletionReleases b)
    (acts : ((Work.start s.settled).on fun u => u.freed b rest).holderAction b x result data =
      ((Work.start s.settled).on fun u => f (u.freed b rest), .issue))
    (leaves : f (s.settled.freed b rest) = t) (after : AfterFree s.settled t b rest) :
    exec (.completion b result data) s = .next (s.scannedFor t b) := by
  have scanned := Work.scan_scannedFor after releases.begin
    (w := (Work.start s.settled).on fun u => f (u.freed b rest)) leaves
  have queue : (s.settled.scannedFor t b).fillQueue = s.settled.fillQueue := by
    unfold State.scannedFor
    split <;> exact after.fillQueue
  have stays : ((Work.start s.settled).on fun _ => s.settled.scannedFor t b).drainIfEmpty b =
      (Work.start s.settled).on fun _ => s.settled.scannedFor t b := by
    have power := after.scannedFor_power
    rcases up with on | filling | ⟨_, busy⟩
    · exact Work.drainIfEmpty_not (by rw [Work.on_st, power]; exact on ▸ by decide)
    · exact Work.drainIfEmpty_not (by rw [Work.on_st, power]; exact filling ▸ by decide)
    · exact Work.drainIfEmpty_busy (after.scannedFor_busy busy)
  refine exec_completion taken slots ?_ (.inr (after.scannedFor_inTime releases.begin inTime))
  rw [State.completing_settled result (.inr notHead),
    Work.complete_other (w := Work.start s.settled) notHead acts scanned queue, show
      ((Work.start s.settled).on fun u => f (u.freed b rest)).on (fun _ => s.settled.scannedFor t b) =
        (Work.start s.settled).on fun _ => s.settled.scannedFor t b from rfl, stays]
  exact Work.takeTriggers_nothing rfl rfl

theorem Bank.completionAnswer_write {x : Slot} (k : Bank) (data : Vector Byte 64) (write : x.kind = .write) :
    k.completionAnswer x .ok data = (.okay, []) := by
  unfold Bank.completionAnswer
  rw [write]

/-- A read is answered OKAY or STALE by the mark of its segment (R92). -/
theorem Bank.completionAnswer_read {k : Bank} {x : Slot} {status : Status} (data : Vector Byte 64) (read : x.kind = .read)
    (mark : k.marks[x.segment] = .valid ∧ status = .okay ∨ k.marks[x.segment] = .lost ∧ status = .stale) :
    k.completionAnswer x .ok data = (status, data.toList.take x.length) := by
  unfold Bank.completionAnswer
  rw [read]
  rcases mark with ⟨valid, rfl⟩ | ⟨lost, rfl⟩
  · exact congrArg (·, _) (if_pos valid)
  · exact congrArg (·, _) (if_neg (Mark.ne_valid.2 lost))

/-- Settles O46: the holder of the freed slot says what is answered, and the scan follows. -/
theorem completionOfARequest : Obligations.CompletionOfARequest := by
  unfold Obligations.CompletionOfARequest
  refine fun s b result data => ⟨exec_completion_ignored result data, fun x rest taken slots up notHead inTime releases => ?_⟩
  have ends := fun {result} {f} {t} => exec_completion_other (s := s) (b := b) (result := result) (data := data) (x := x)
    (rest := rest) (f := f) (t := t) taken slots up notHead inTime releases
  have free := AfterFree.freed s.settled b rest
  have marks : ((s.settled.freed b rest).bank b).marks = (s.bank b).marks :=
    (congrArg Bank.marks (State.freed_bank s.settled b rest)).trans rfl
  refine ⟨fun g st holder pending => ⟨fun ok read valid => ?_, fun ok read lost => ?_, fun ok write => ?_, fun error => ?_⟩,
    fun g st holder => ?_, fun fill => ?_⟩
  all_goals try subst ok
  · exact (ends (f := fun u => u.completeRequest b x g st .ok data) (Work.holderAction_request holder .ok data) (State.completeRequest_ok (s := s.settled.freed b rest) pending
      (Bank.completionAnswer_read data read (.inl ⟨marks ▸ valid, rfl⟩))) (free.answeredOne g .okay _)).trans rfl
  · exact (ends (f := fun u => u.completeRequest b x g st .ok data) (Work.holderAction_request holder .ok data) (State.completeRequest_ok (s := s.settled.freed b rest) pending
      (Bank.completionAnswer_read data read (.inr ⟨marks ▸ lost, rfl⟩))) (free.answeredOne g .stale _)).trans rfl
  · exact (ends (f := fun u => u.completeRequest b x g st .ok data) (Work.holderAction_request holder .ok data) (State.completeRequest_ok (s := s.settled.freed b rest) pending
      (Bank.completionAnswer_write _ data write)) (free.answeredOne g .okay _)).trans rfl
  · subst error
    exact (ends (f := fun u => u.completeRequest b x g st .error data) (Work.holderAction_request holder .error data)
      (State.completeRequest_error (s := s.settled.freed b rest) b x st data pending)
      ((free.answeredOne g .bankerr []).post _ _)).trans rfl
  · exact (ends (f := id) (Work.holderAction_orphan holder result data) rfl free).trans rfl
  · exact (ends (f := id) ((Work.holderAction_fill fill result data).trans (Work.completeFillWrite_leftover x result notHead)) rfl free).trans rfl

end Sys2Proof.Machine
end
section
/-! SUPPORT. Completions of fill writes of the head bank: the count, the mark, the engine's next segment or the next head,
and the end of a fill in error (O47). -/

namespace Sys2Proof.Machine

/-! ### Scans that release nothing -/

/-- The release scan keeps the entry: its bank takes no forward, or its port is full, or its segment waits for the fill
engine (R31, R44). -/
def State.Blocks (s : State) (e : Entry) : Prop :=
  ((s.bank e.req.bank).power ≠ .on ∧ (s.bank e.req.bank).power ≠ .filling)
    ∨ 4 ≤ (s.bank e.req.bank).port.slots.length
    ∨ ((s.bank e.req.bank).power = .filling ∧ (s.bank e.req.bank).marks[e.req.segment] = .lost)

theorem State.reason_segment {s : State} {e : Entry} {earlier : List Entry}
    (first : earlier.any (fun x => x.req.stream = e.req.stream) = false)
    (filling : (s.bank e.req.bank).power = .filling) (lost : (s.bank e.req.bank).marks[e.req.segment] = .lost) :
    s.reason earlier e = some .segment := by
  unfold State.reason
  dsimp only
  rw [if_neg (by rw [first]; decide), if_neg (by rw [filling]; decide), if_pos ⟨filling, lost⟩]

theorem State.releasable_blocked {s : State} {e : Entry} (h : s.Blocks e) (earlier : List Entry) :
    s.releasable earlier e = false := by
  refine Bool.eq_false_iff.2 fun releases => ?_
  rcases h with ⟨on, filling⟩ | full | ⟨filling, lost⟩
  · exact (State.releasable_up releases).elim on filling
  · exact absurd (Port.hasRoom_iff.1 (State.releasable_room releases)) (Nat.not_lt.2 full)
  · have none := (of_decide_eq_true releases).1
    by_cases order : earlier.any (fun x => x.req.stream = e.req.stream) = true
    · unfold State.reason at none
      rw [if_pos order] at none
      cases none
    · rw [State.reason_segment (Bool.eq_false_iff.2 order) filling lost] at none
      cases none

theorem Work.walk_blocked : ∀ (ahead kept : List Entry) (w : Work), (∀ e ∈ ahead, w.st.Blocks e) → w.walk kept ahead = w
  | [], _, _, _ => rfl
  | e :: ahead, kept, w, h => by
    unfold Work.walk
    rw [if_neg (by rw [State.releasable_blocked (h e List.mem_cons_self)]; decide)]
    exact Work.walk_blocked ahead _ w fun y mem => h y (List.mem_cons_of_mem e mem)

theorem Work.scan_blocked {w : Work} (h : ∀ e ∈ w.st.parked, w.st.Blocks e) : w.scan = w := Work.walk_blocked _ _ w h

/-! ### What the fill engine leaves in the port -/

/-- A state that the moves of a fill completion reach: links, clock and settings are as they were, bank `b` does not drain,
and its port holds the older slots, with fill writes issued now behind them. -/
structure AfterFill (s t : State) (b : BankId) (rest : List Slot) : Prop where
  links : t.links = s.links
  global : t.global = s.global
  clock : t.clock = s.clock
  power : (t.bank b).power ≠ .draining
  slots : ∃ new : List Slot, (t.bank b).port.slots = rest ++ new ∧ ∀ y ∈ new,
    y.forwardTime = s.clock.micros ∧ y.expiryTime = s.clock.micros + s.global.respLimit.setWidth 32

theorem AfterFill.of_banks {s t : State} {b : BankId} {rest : List Slot} {u : Bank}
    (banks : t.banks = (s.updBank b fun _ => u).banks) (slots : u.port.slots = rest) (power : u.power ≠ .draining)
    (links : t.links = s.links) (global : t.global = s.global) (clock : t.clock = s.clock) : AfterFill s t b rest := by
  have record : t.bank b = u :=
    (congrArg (fun q : Vector Bank 8 => q[b]) banks).trans (State.bank_updBank_self s b fun _ => u)
  exact ⟨links, global, clock, record ▸ power, [], by rw [record, slots, List.append_nil], by simp⟩

section
variable {s t : State} {b : BankId} {rest : List Slot} (h : AfterFill s t b rest)
include h

theorem AfterFill.post (k : EventKind) (a : About) : AfterFill s (t.post k a) b rest where
  links := (State.post_links t k a).trans h.links
  global := (State.post_global t k a).trans h.global
  clock := (State.post_clock t k a).trans h.clock
  power := by rw [State.post_bank]; exact h.power
  slots := by rw [State.post_bank]; exact h.slots

theorem AfterFill.fillBegun (c : BankId) (g : Segment) : AfterFill s (t.fillBegun c g) b rest := by
  obtain ⟨new, slots, fresh⟩ := h.slots
  refine ⟨h.links, h.global, h.clock, ?_, ?_⟩
  · by_cases same : b = c
    · subst same; rw [State.fillBegun_bank_self]; exact h.power
    · rw [State.fillBegun_bank_ne t same]; exact h.power
  · by_cases same : b = c
    · subst same
      rw [State.fillBegun_bank_self]
      refine ⟨new ++ _, (congrArg (· ++ _) slots).trans (List.append_assoc ..), fun y mem => ?_⟩
      rcases List.mem_append.1 mem with mem | mem
      · exact fresh y mem
      · obtain ⟨n, _, rfl⟩ := List.mem_map.1 mem
        exact ⟨congrArg Timebase.micros h.clock, by rw [← h.clock, ← h.global]⟩
    · rw [State.fillBegun_bank_ne t same]; exact ⟨new, slots, fresh⟩

theorem AfterFill.issueFill : AfterFill s t.issueFill b rest := by
  obtain ⟨new, slots, fresh⟩ := h.slots
  rcases t.issueFill_cases with same | ⟨c, g, a, _, _, _, _, places⟩
  · rw [same]; exact h
  · rw [places]
    have bank := State.placeFill_bank t c g a
    by_cases at_b : b = c
    · subst at_b
      have record : (t.placeFill b g a).bank b = (t.bank b).withFill (t.fillSlot g a) :=
        (bank b).trans (State.bank_updBank_self ..)
      refine ⟨h.links, h.global, h.clock, record ▸ h.power, new ++ [t.fillSlot g a], ?_, fun y mem => ?_⟩
      · rw [record]
        exact (congrArg (· ++ _) slots).trans (List.append_assoc ..)
      · rcases List.mem_append.1 mem with mem | mem
        · exact fresh y mem
        · obtain rfl := List.mem_singleton.1 mem
          exact ⟨congrArg Timebase.micros h.clock, by rw [← h.clock, ← h.global]; rfl⟩
    · have record : (t.placeFill c g a).bank b = t.bank b := (bank b).trans (State.bank_updBank_ne _ _ at_b)
      exact ⟨h.links, h.global, h.clock, record ▸ h.power, new, record ▸ slots, fresh⟩

/-- No slot of the bank runs out of time. -/
theorem AfterFill.inTime (limit : s.global.respLimit ≠ 0) (older : ∀ y, rest.head? = some y → y.inTime s.clock.micros) :
    (t.bank b).port.timedOut t.clock.micros = false := by
  obtain ⟨new, slots, fresh⟩ := h.slots
  rw [h.clock]
  exact Port.timedOut_behind slots older fun y mem => Slot.inTime_new limit (fresh y mem).1 (fresh y mem).2

end

/-! ### A fill write of the fill under way -/

theorem FillProgress.ended_uncut {f : FillProgress} (uncut : f.cutOff = false) (n : Nat) :
    f.counted.ended n = true ↔ f.completed + 1 = n := by
  unfold FillProgress.ended
  rw [if_neg (show ¬ f.counted.cutOff = true by rw [show f.counted.cutOff = f.cutOff from rfl, uncut]; decide)]
  exact decide_eq_true_iff

theorem FillProgress.ended_cut {f : FillProgress} (cut : f.cutOff = true) (n : Nat) :
    f.counted.ended n = true ↔ f.inFlight - 1 = 0 := by
  unfold FillProgress.ended
  rw [if_pos (show f.counted.cutOff = true from cut)]
  exact decide_eq_true_iff

/-- The state once a write of the fill has been counted. -/
def State.countedFill (s : State) : State := { s with fill := s.fill.counted }

section
variable {w : Work} {b : BankId} {x : Slot} (current : w.st.inCurrentFill b x = true)
include current

theorem Work.completeFillWrite_error : w.completeFillWrite b x .error = (w.abandonFill b x.segment, .issue) := if_pos current

theorem Work.completeFillWrite_counts (runs : ¬ w.st.fill.counted.ended (w.st.bank b).config.segmentWrites = true) :
    w.completeFillWrite b x .ok = (w.on State.countedFill, .issue) := by
  unfold Work.completeFillWrite State.countFillWrite
  rw [if_pos current]
  dsimp only
  rw [if_neg runs]
  rfl

theorem Work.completeFillWrite_ends (ends : w.st.fill.counted.ended (w.st.bank b).config.segmentWrites = true) :
    w.completeFillWrite b x .ok = (w.on fun s => s.countedFill.markFilled b x.segment, .nextSegment) := by
  unfold Work.completeFillWrite State.countFillWrite
  rw [if_pos current]
  dsimp only
  rw [if_pos ends]
  rfl

end

theorem State.completing_ok (s : State) (b : BankId) (x : Slot) : s.completing b x .ok = s.settled := by
  unfold State.completing State.fillErrorOf
  rw [if_neg (by rintro ⟨_, error, _⟩; cases error)]
  rfl

/-- The state of a fill completion before the port acts. -/
def State.fillFreed (s : State) (b : BankId) (x : Slot) (rest : List Slot) (result : BankResult) : State :=
  (s.completing b x result).freed b rest

section
variable {s : State} {b : BankId} {x : Slot} {rest : List Slot} {g : Segment} (h : s.FillCompletes b x rest g)
include h

theorem State.FillCompletes.isCurrent (result : BankResult) : (s.fillFreed b x rest result).inCurrentFill b x = true :=
  State.inCurrentFill_iff.2 ⟨h.head, h.current.trans (congrArg some h.segment.symm), h.inFlight⟩

/-- A completion of a fill write of the fill under way, from what the engine does with it (R101, R132). -/
theorem State.FillCompletes.runs {result : BankResult} {data : Vector Byte 64} {v u z : Work} {step : FillStep}
    (unlinked : s.Unlinked)
    (acts : ((Work.start (s.completing b x result)).on fun t => t.freed b rest).completeFillWrite b x result = (v, step))
    (scanned : v.scan = u) (filled : u.fillStep b step = z) (after : AfterFill s z.st b rest) (crossings : z.crossings = []) :
    exec (.completion b result data) s = .next z.st := by
  refine exec_completion h.taken h.slots ?_ (.inr (after.inTime h.limit h.inTime))
  rw [Work.complete_eq ((Work.holderAction_fill h.holder result data).trans acts) scanned, filled,
    Work.drainIfEmpty_not after.power]
  exact Work.takeTriggers_unlinked (fun l => by rw [after.links]; exact unlinked l) crossings

end

/-! ### The record of the head bank -/

/-- The bank once the slot of a fill write is free. -/
def Bank.slotFreed (k : Bank) (rest : List Slot) : Bank := k.withPort fun p => { p with slots := rest }

/-- The bank once its segment `g` has been filled. -/
def Bank.segmentFilled (k : Bank) (rest : List Slot) (g : Segment) : Bank := (k.slotFreed rest).markRange g.val 1 .valid

theorem Bank.segmentFilled_eq (k : Bank) (rest : List Slot) (g : Segment) : k.segmentFilled rest g =
    { k.slotFreed rest with marks := Vector.ofFn fun h => if h = g then .valid else k.marks[h] } := by
  have same : setMarks (k.slotFreed rest).marks g.val 1 .valid =
      Vector.ofFn fun h : Segment => if h = g then .valid else k.marks[h] := by
    refine congrArg Vector.ofFn (funext fun h => ?_)
    by_cases eq : h = g
    · rw [if_pos eq, if_pos (by subst eq; omega)]
    · rw [if_neg eq, if_neg fun at_g => eq (Fin.ext (by omega))]
      rfl
  exact congrArg (fun m : Vector Mark 32 => { k.slotFreed rest with marks := m }) same

/-- The state that the end of a segment fill leaves before the engine goes on, with the head bank's record `u`. -/
def State.filledAs (s : State) (b : BankId) (u : Bank) : State :=
  { s.settled.updBank b fun _ => u with fill := s.fill.counted }

theorem State.filledAs_bank (s : State) (b : BankId) (u : Bank) : (s.filledAs b u).bank b = u :=
  State.bank_updBank_self s.settled b fun _ => u

theorem State.markFilled_uncut {s : State} (uncut : s.fill.cutOff = false) (b : BankId) (x : Slot) (rest : List Slot) :
    (s.fillFreed b x rest .ok).countedFill.markFilled b x.segment =
      s.filledAs b ((s.bank b).segmentFilled rest x.segment) := by
  refine (if_neg (show ¬ s.fill.cutOff = true by rw [uncut]; decide)).trans ?_
  rw [State.fillFreed, State.completing_ok]
  exact State.ext_banks (State.updBank_after (s := s.settled) (t := (s.settled.freed b rest).countedFill)
    (f := fun k => k.slotFreed rest) (fun k => k.markRange x.segment.val 1 .valid) rfl) rfl

theorem State.markFilled_cut {s : State} (cut : s.fill.cutOff = true) (b : BankId) (x : Slot) (rest : List Slot) :
    (s.fillFreed b x rest .ok).countedFill.markFilled b x.segment = s.filledAs b ((s.bank b).slotFreed rest) := by
  refine (if_pos (show s.fill.cutOff = true from cut)).trans ?_
  rw [State.fillFreed, State.completing_ok]
  rfl

/-! ### The end of a segment fill -/

theorem State.FillCompletes.queue {s : State} {b : BankId} {x : Slot} {rest : List Slot} {g : Segment}
    (h : s.FillCompletes b x rest g) : ∃ more, s.fillQueue = b :: more := by
  have head := h.head
  cases empty : s.fillQueue with
  | nil => rw [empty] at head; cases head
  | cons c more => rw [empty] at head; cases head; exact ⟨more, rfl⟩

section
variable {s : State} {b : BankId} {x : Slot} {rest : List Slot} {g : Segment} (h : s.FillCompletes b x rest g)
  (unlinked : s.Unlinked) {u : Bank} (ended : s.fill.counted.ended (s.bank b).config.segmentWrites = true)
  (leaves : (s.fillFreed b x rest .ok).countedFill.markFilled b x.segment = s.filledAs b u)
  (blocked : ∀ e ∈ s.parked, (s.filledAs b u).Blocks e)
include h unlinked ended leaves blocked

/-- The segment fill is over, and the engine goes on to its next head segment (R101). -/
theorem State.FillCompletes.goesOn {z : Work} (data : Vector Byte 64)
    (starts : ((Work.start s.settled).on fun _ => s.filledAs b u).startHead = z)
    (after : AfterFill s z.st b rest) (crossings : z.crossings = []) :
    exec (.completion b .ok data) s = .next z.st := by
  have ended' : (s.fillFreed b x rest .ok).fill.counted.ended ((s.fillFreed b x rest .ok).bank b).config.segmentWrites = true := by
    rw [State.fillFreed, State.freed_bank]
    exact ended
  have marks := (Work.completeFillWrite_ends (w := (Work.start (s.completing b x .ok)).on fun t => t.freed b rest)
    (h.isCurrent .ok) ended').trans (congrArg (fun t => (({ Work.start s.settled with st := t } : Work), FillStep.nextSegment)) leaves)
  exact h.runs unlinked marks (Work.scan_blocked blocked) starts after crossings

/-- The engine begins the segment fill of the segment that it chooses (R98, R101). -/
theorem State.FillCompletes.begins {g' : Segment} (data : Vector Byte 64) (lost : u.anyLost = true)
    (chosen : (s.filledAs b u).chooseSegment b = g') (noFill : ∀ y ∈ rest, y.holder ≠ .fill) (slots : u.port.slots = rest)
    (power : u.power ≠ .draining) :
    exec (.completion b .ok data) s = .next ((s.settled.updBank b fun _ => u).fillBegun b g') := by
  obtain ⟨more, queue⟩ := h.queue
  have record := State.filledAs_bank s b u
  have starts := Work.startHead_begins (w := (Work.start s.settled).on fun _ => s.filledAs b u) queue
    ((congrArg Bank.anyLost record).trans lost) chosen (by rw [Work.on_st, record, slots]; exact noFill)
  have after : AfterFill s (s.filledAs b u) b rest := .of_banks (u := u) rfl slots power rfl rfl rfl
  exact (h.goesOn unlinked ended leaves blocked data starts (after.fillBegun b g') rfl).trans rfl

end

/-- The state once the fill of the head bank is over, with its record and the queue behind it (R102). -/
def State.fillOver (s : State) (b : BankId) (u : Bank) (queue : List BankId) : State :=
  { s.settled.updBank b fun _ => u.readied with fillQueue := queue, fill := FillProgress.idle }

theorem State.fillOver_after (s : State) {b : BankId} {u : Bank} {rest : List Slot} (queue : List BankId)
    (slots : u.port.slots = rest) : AfterFill s (s.fillOver b u queue) b rest :=
  .of_banks (u := u.readied) rfl slots (by rw [show u.readied.power = .on from rfl]; decide) rfl rfl rfl

theorem State.filledAs_readied (s : State) (b : BankId) (u : Bank) (queue : List BankId) :
    { (s.filledAs b u).updBank b Bank.readied with fillQueue := queue, fill := FillProgress.idle } = s.fillOver b u queue :=
  State.ext_banks (State.updBank_after (s := s.settled) (t := s.filledAs b u) (f := fun _ => u) Bank.readied rfl) rfl

section
variable {s : State} {b : BankId} {x : Slot} {rest : List Slot} {g : Segment} (h : s.FillCompletes b x rest g)
  (unlinked : s.Unlinked) {u : Bank} (ended : s.fill.counted.ended (s.bank b).config.segmentWrites = true)
  (leaves : (s.fillFreed b x rest .ok).countedFill.markFilled b x.segment = s.filledAs b u)
  (none : s.parked = []) (whole : u.anyLost = false) (slots : u.port.slots = rest)
include h unlinked ended leaves none whole slots

/-- The only bank of the fill queue has no LOST segment left: its fill is done (R102). -/
theorem State.FillCompletes.done (data : Vector Byte 64) (last : s.fillQueue = [b]) :
    exec (.completion b .ok data) s = .next ((s.fillOver b u []).post .fillDone { bank := some b }) := by
  have starts := Work.startHead_last (w := (Work.start s.settled).on fun _ => s.filledAs b u) last
    ((congrArg Bank.anyLost (State.filledAs_bank s b u)).trans whole) none
  have finished : State.post { (s.filledAs b u).updBank b Bank.readied with fillQueue := [], fill := FillProgress.idle }
      .fillDone { bank := some b } = (s.fillOver b u []).post .fillDone { bank := some b } :=
    congrArg (State.post · .fillDone { bank := some b }) (s.filledAs_readied b u [])
  exact h.goesOn unlinked ended leaves (by rw [none]; intro e mem; cases mem) data
    (starts.trans (congrArg (fun t => ({ Work.start s.settled with st := t } : Work).offer b .ready) finished))
    ((s.fillOver_after [] slots).post _ _) rfl

/-- The head bank has no LOST segment left, and the next head's segment fill is begun (R102). -/
theorem State.FillCompletes.doneThenNext (data : Vector Byte 64) {c : BankId} {more : List BankId} {g' : Segment}
    (next : s.NextHead b c more g') : exec (.completion b .ok data) s =
      .next (((s.fillOver b u (c :: more)).post .fillDone { bank := some b }).fillBegun c g') := by
  have finished : ((s.filledAs b u).unqueueFill b).updBank b Bank.readied = s.fillOver b u (c :: more) := by
    rw [State.unqueueFill_next (s := s.filledAs b u) next.queue next.once]
    exact s.filledAs_readied b u (c :: more)
  have done := (Work.fillDone_alone (w := (Work.start s.settled).on fun _ => s.filledAs b u) b none).trans
    (congrArg (fun t : State => ({ Work.start s.settled with st := t.post .fillDone { bank := some b } } : Work).offer b .ready) finished)
  have full := Work.startHead_full (w := (Work.start s.settled).on fun _ => s.filledAs b u) next.queue
    ((congrArg Bank.anyLost (State.filledAs_bank s b u)).trans whole) (by rw [done]; exact State.post_fillQueue ..)
  have begins := Work.startHead_next next
    (w := ({ Work.start s.settled with st := (s.fillOver b u (c :: more)).post .fillDone { bank := some b } } : Work).offer b .ready)
    (State.post_fillQueue ..) ((State.post_parked ..).trans none)
    ((State.post_bank ..).trans (State.bank_updBank_ne s.settled (fun _ => u.readied) next.other))
  exact h.goesOn unlinked ended leaves (by rw [none]; intro e mem; cases mem) data (full.trans ((congrArg Work.startHead done).trans begins))
    (((s.fillOver_after _ slots).post _ _).fillBegun c g') rfl

end

end Sys2Proof.Machine
end
section
/-! SUPPORT. The completions of fill writes that count, end a fill in error, or begin the next segment fill, as O47 states
them. -/

namespace Sys2Proof.Machine

/-! ### A write that is not the last -/

theorem Work.fillStep_issue_head {w : Work} {b : BankId} (head : w.st.fillQueue.head? = some b) :
    w.fillStep b .issue = w.on State.issueFills := if_pos (State.fillsBank_iff.2 head)

theorem State.filledAs_after (s : State) {b : BankId} {u : Bank} {rest : List Slot} (slots : u.port.slots = rest)
    (power : u.power ≠ .draining) : AfterFill s (s.filledAs b u) b rest := .of_banks rfl slots power rfl rfl rfl

section
variable {s : State} {b : BankId} {x : Slot} {rest : List Slot} {g : Segment} (h : s.FillCompletes b x rest g)
  (unlinked : s.Unlinked) (none : s.parked = [])
include h unlinked none

/-- The write is counted, and the engine issues what the port takes (R99, R101). -/
theorem State.FillCompletes.counts (runs : ¬ s.fill.counted.ended (s.bank b).config.segmentWrites = true)
    (data : Vector Byte 64) :
    exec (.completion b .ok data) s = .next (s.filledAs b ((s.bank b).slotFreed rest)).issueFills := by
  have runs' : ¬ (s.fillFreed b x rest .ok).fill.counted.ended
      ((s.fillFreed b x rest .ok).bank b).config.segmentWrites = true := by
    rw [State.fillFreed, State.freed_bank]
    exact runs
  have record : (s.fillFreed b x rest .ok).countedFill = s.filledAs b ((s.bank b).slotFreed rest) := by
    rw [State.fillFreed, State.completing_ok]
    rfl
  have counts := (Work.completeFillWrite_counts (w := (Work.start (s.completing b x .ok)).on fun t => t.freed b rest)
    (h.isCurrent .ok) runs').trans
      (congrArg (fun t => (({ Work.start s.settled with st := t } : Work), FillStep.issue)) record)
  have up : ((s.bank b).slotFreed rest).power ≠ .draining := by
    rw [show ((s.bank b).slotFreed rest).power = .filling from h.filling]; decide
  have after : AfterFill s (s.filledAs b ((s.bank b).slotFreed rest)).issueFills b rest :=
    (s.filledAs_after rfl up).issueFill.issueFill
  exact h.runs unlinked counts (Work.scan_empty none)
    (Work.fillStep_issue_head (w := { Work.start s.settled with st := s.filledAs b ((s.bank b).slotFreed rest) }) h.head) after rfl

end

/-! ### A fill write in error -/

/-- The state once the fill of the head bank has ended in error (R104). -/
def State.fillFailed (s : State) (b : BankId) (g : Segment) (rest : List Slot) (queue : List BankId) : State :=
  State.post { s.fillOver b ((s.bank b).slotFreed rest) queue with
      fillError := if s.fill.cutOff then none else some (b, g) }
    .fillError { bank := some b, detail := some (.segment g) }

theorem State.fillFailed_after (s : State) (b : BankId) (g : Segment) (rest : List Slot) (queue : List BankId) : AfterFill s (s.fillFailed b g rest queue) b rest :=
  have ready : AfterFill s { s.fillOver b ((s.bank b).slotFreed rest) queue with
      fillError := if s.fill.cutOff then none else some (b, g) } b rest :=
    .of_banks (u := ((s.bank b).slotFreed rest).readied) rfl rfl
      (by rw [show ((s.bank b).slotFreed rest).readied.power = .on from rfl]; decide) rfl rfl rfl
  ready.post _ _

theorem State.FillCompletes.fillErrorOf {s : State} {b : BankId} {x : Slot} {rest : List Slot} {g : Segment}
    (h : s.FillCompletes b x rest g) : s.fillErrorOf b x .error = if s.fill.cutOff then none else some (b, g) := by
  have current : s.inCurrentFill b x = true :=
    State.inCurrentFill_iff.2 ⟨h.head, h.current.trans (congrArg some h.segment.symm), h.inFlight⟩
  unfold State.fillErrorOf
  cases cut : s.fill.cutOff
  · rw [if_pos ⟨h.holder, rfl, current, rfl⟩, h.segment]
    rfl
  · rw [if_neg fun ⟨_, _, _, uncut⟩ => by cases uncut]
    rfl

theorem State.setFill_self {s : State} {f : FillProgress} (h : s.fill = f) : { s with fill := f } = s := by
  subst h
  rfl

section
variable {s : State} {b : BankId} {x : Slot} {rest : List Slot} {g : Segment} (h : s.FillCompletes b x rest g)
include h

/-- The head bank leaves the fill queue and enters ON with the error posted (R104). -/
theorem State.FillCompletes.fails {queue : List BankId} (none : s.parked = [])
    (leaves : (s.fillFreed b x rest .error).unqueueFill b =
      { s.fillFreed b x rest .error with fillQueue := queue, fill := FillProgress.idle }) :
    ((Work.start (s.completing b x .error)).on fun t => t.freed b rest).abandonFill b x.segment =
      (({ Work.start s.settled with st := s.fillFailed b g rest queue } : Work).offer b .ready).startHead := by
  have fails : (State.post ((s.fillFreed b x rest .error).unqueueFill b) .fillError
      { bank := some b, detail := some (.segment x.segment) }).updBank b Bank.readied = s.fillFailed b g rest queue := by
    rw [leaves, ← State.post_updBank, h.segment]
    refine congrArg (State.post · .fillError { bank := some b, detail := some (.segment g) }) ?_
    refine State.ext_banks (State.updBank_after (s := s.settled) (t := { s.fillFreed b x rest .error with
      fillQueue := queue, fill := FillProgress.idle }) (f := fun k => k.slotFreed rest) Bank.readied rfl) ?_
    rw [State.fillFreed, State.completing, h.fillErrorOf]
    rfl
  have entered := Work.enterOn_alone (w := (((Work.start (s.completing b x .error)).on fun t => t.freed b rest).on fun t =>
    (t.unqueueFill b).post .fillError { bank := some b, detail := some (.segment x.segment) })) b
    ((State.post_parked ..).trans none)
  exact congrArg Work.startHead (entered.trans
    (congrArg (fun t => ({ Work.start s.settled with st := t } : Work).offer b .ready) fails))

theorem State.FillCompletes.failsLast (none : s.parked = []) (last : s.fillQueue = [b]) :
    ((Work.start (s.completing b x .error)).on fun t => t.freed b rest).abandonFill b x.segment =
      ({ Work.start s.settled with st := s.fillFailed b g rest [] } : Work).offer b .ready := by
  rw [h.fails none (State.unqueueFill_last (s := s.fillFreed b x rest .error) last),
    Work.startHead_empty (State.post_fillQueue ..)]
  have same : { s.fillFailed b g rest [] with fill := FillProgress.idle } = s.fillFailed b g rest [] :=
    State.setFill_self (State.post_fill ..)
  exact congrArg (fun t => ({ Work.start s.settled with st := t } : Work).offer b .ready) same

theorem State.FillCompletes.failsNext (none : s.parked = []) {c : BankId} {more : List BankId} {g' : Segment}
    (next : s.NextHead b c more g') :
    ((Work.start (s.completing b x .error)).on fun t => t.freed b rest).abandonFill b x.segment =
      ({ Work.start s.settled with st := (s.fillFailed b g rest (c :: more)).fillBegun c g' } : Work).offer b .ready := by
  rw [h.fails none (State.unqueueFill_next (s := s.fillFreed b x rest .error) next.queue next.once)]
  exact Work.startHead_next next (State.post_fillQueue ..) ((State.post_parked ..).trans none)
    ((State.post_bank ..).trans (State.bank_updBank_ne s.settled (fun _ => _) next.other))

/-- The completion in error, from the state that the end of the fill leaves (R104, R132). -/
theorem State.FillCompletes.errs {t : State} (unlinked : s.Unlinked) (none : t.parked = [])
    (ends : ((Work.start (s.completing b x .error)).on fun t => t.freed b rest).abandonFill b x.segment =
      ({ Work.start s.settled with st := t } : Work).offer b .ready)
    (after : AfterFill s t b rest) (notHead : t.fillQueue.head? ≠ some b) (data : Vector Byte 64) :
    exec (.completion b .error data) s = .next t :=
  h.runs unlinked ((Work.completeFillWrite_error (h.isCurrent .error)).trans (congrArg (·, FillStep.issue) ends))
    (Work.scan_empty none) (Work.fillStep_issue_other notHead) after rfl

end

/-! ### The segment that the engine chooses -/

/-- The oldest entry with the reason SEGMENT says which segment is filled next (R46, R98). -/
theorem State.chooseSegment_demand {s : State} {b : BankId} {e : Entry} {later : List Entry} (queue : s.parked = e :: later)
    (target : e.req.bank = b) (filling : (s.bank b).power = .filling) (lost : (s.bank b).marks[e.req.segment] = .lost) :
    s.chooseSegment b = e.req.segment := by
  subst target
  have demand : s.demandFrom e.req.bank [] s.parked = some e.req.segment := by
    rw [queue]
    exact if_pos ⟨rfl, State.reason_segment rfl filling lost⟩
  unfold State.chooseSegment
  rw [demand]

/-- Settles O47: what the engine does at the completion follows from the count, the cut-off and the marks. -/
theorem completionOfAFillWrite : Obligations.CompletionOfAFillWrite := by
  unfold Obligations.CompletionOfAFillWrite
  intro s b data x rest g k idle freed marked noFill done last counted fillOver h unlinked
  have filled : (s.bank b).segmentFilled rest x.segment = marked := by rw [h.segment]; exact Bank.segmentFilled_eq _ _ _
  have up : (s.bank b).power ≠ .draining := by rw [h.filling]; decide
  have nothing : s.parked = [] → ∀ u : Bank, ∀ e ∈ s.parked, (s.filledAs b u).Blocks e :=
    fun none u e mem => by rw [none] at mem; cases mem
  have chosen : ∀ (u : Bank) {h' : Segment}, u.LowestLost h' → ((s.filledAs b u).bank b).LowestLost h' :=
    fun u _ lowest => by rw [State.filledAs_bank]; exact lowest
  refine ⟨fun uncut notLast none => ?_, fun uncut isLast => ?_, fun cut noNext none => ?_, fun none => ⟨fun only => ?_, fun c more h' next => ?_⟩⟩
  · exact h.counts unlinked none (fun ended => notLast ((FillProgress.ended_uncut uncut _).1 ended)) data
  · have ended : s.fill.counted.ended (s.bank b).config.segmentWrites = true := (FillProgress.ended_uncut uncut _).2 isLast
    have leaves := (State.markFilled_uncut uncut b x rest).trans (congrArg (s.filledAs b) filled)
    refine ⟨fun others none => ?_, fun clear none h' lowest => ?_, fun clear e later queue all => ?_⟩
    · have whole : marked.anyLost = false := Bank.anyLost_false fun h' => by
        have mark : marked.marks[h'] = if h' = g then .valid else k.marks[h'] := Vector.getElem_ofFn h'.isLt
        by_cases same : h' = g
        · rw [mark, if_pos same]
        · rw [mark, if_neg same, others h' same]
      exact ⟨fun only => h.done unlinked ended leaves none whole rfl data only,
        fun c more h' next => h.doneThenNext unlinked ended leaves none whole rfl data next⟩
    · exact h.begins unlinked ended leaves (nothing none _) data lowest.any
        (State.chooseSegment_lowest none (chosen marked lowest)) clear rfl up
    · have record := State.filledAs_bank s b marked
      have target := (all e (by rw [queue]; exact List.mem_cons_self)).1
      have lost := (all e (by rw [queue]; exact List.mem_cons_self)).2
      refine h.begins unlinked ended leaves (fun y mem => .inr (.inr ?_)) data (Bank.anyLost_iff.2 ⟨_, lost⟩)
        (State.chooseSegment_demand queue target ((congrArg Bank.power record).trans h.filling)
          ((congrArg (fun u : Bank => u.marks[e.req.segment]) record).trans lost)) clear rfl up
      rw [(all y mem).1, record]
      exact ⟨h.filling, (all y mem).2⟩
  · have leaves := State.markFilled_cut cut b x rest
    have ends : s.fill.inFlight = 1 → s.fill.counted.ended (s.bank b).config.segmentWrites = true :=
      fun one => (FillProgress.ended_cut cut _).2 (by rw [one])
    refine ⟨fun notOne => ?_, fun one clear h' lowest => ?_, fun one whole only => ?_⟩
    · have inFlight := h.inFlight
      refine (h.counts unlinked none (fun ended => notOne ?_) data).trans (congrArg Host.Outcome.next ?_)
      · have := (FillProgress.ended_cut cut _).1 ended
        omega
      · have still : (s.filledAs b ((s.bank b).slotFreed rest)).issueFill = s.filledAs b ((s.bank b).slotFreed rest) :=
          State.issueFill_idle (.inr (.inr noNext))
        exact (congrArg State.issueFill still).trans still
    · exact h.begins unlinked (ends one) leaves (nothing none _) data lowest.any
        (State.chooseSegment_lowest none (chosen _ lowest)) clear rfl up
    · exact h.done unlinked (ends one) leaves none (Bank.anyLost_false whole) rfl data only
  · exact h.errs (t := s.fillFailed b g rest []) unlinked ((State.post_parked ..).trans none) (h.failsLast none only) (s.fillFailed_after b g rest [])
      (fun head => by
        rw [show (s.fillFailed b g rest []).fillQueue = [] from State.post_fillQueue ..] at head
        cases head) data
  · refine h.errs (t := (s.fillFailed b g rest (c :: more)).fillBegun c h') unlinked ((State.post_parked ..).trans none)
      (h.failsNext none next) ((s.fillFailed_after b g rest _).fillBegun c h')
      (fun head => next.other ?_) data
    have queue : ((s.fillFailed b g rest (c :: more)).fillBegun c h').fillQueue = c :: more := State.post_fillQueue ..
    rw [queue] at head
    exact Option.some.inj head

end Sys2Proof.Machine
end
section
/-! SUPPORT. Runs of answers: the parked entries of a bank with their cascades, as FLUSH BANK and PARK_EXPIRY answer them
(O30, O50). -/

namespace Sys2Proof.Machine

/-! ### Answers in order -/

theorem State.answered_nil (s : State) (x : Status) : s.answered x [] = s := by
  unfold State.answered
  refine State.ext rfl rfl rfl rfl rfl rfl rfl rfl (Vector.ext fun i hi => ?_) (List.append_nil _) rfl rfl rfl rfl rfl rfl
    rfl rfl rfl rfl rfl rfl rfl
  rw [Vector.getElem_ofFn]
  exact if_neg List.not_mem_nil

theorem State.answered_tags (s : State) (x : Status) (q : List Tag) (g : Tag) :
    (s.answered x q).tags[g] = if g ∈ q then { s.tags[g] with state := .answered } else s.tags[g] :=
  Vector.getElem_ofFn g.isLt

theorem State.answered_banks (s : State) (x : Status) (q : List Tag) : (s.answered x q).banks = s.banks := by
  unfold State.answered
  rfl

theorem State.answered_bank (s : State) (x : Status) (q : List Tag) (b : BankId) : (s.answered x q).bank b = s.bank b :=
  congrArg (fun k : Vector Bank 8 => k[b]) (s.answered_banks x q)

theorem State.answered_parked (s : State) (x : Status) (q : List Tag) : (s.answered x q).parked = s.parked := by
  unfold State.answered
  rfl

theorem State.answered_fillQueue (s : State) (x : Status) (q : List Tag) : (s.answered x q).fillQueue = s.fillQueue := by
  unfold State.answered
  rfl

theorem State.answered_fill (s : State) (x : Status) (q : List Tag) : (s.answered x q).fill = s.fill := by
  unfold State.answered
  rfl

theorem State.answered_links (s : State) (x : Status) (q : List Tag) : (s.answered x q).links = s.links := by
  unfold State.answered
  rfl

theorem State.answered_responses_length (s : State) (x : Status) (q : List Tag) :
    (s.answered x q).responses.length = s.responses.length + q.length := by
  unfold State.answered
  rw [List.length_append, List.length_map]

theorem State.tags_set (s : State) (g h : Tag) (x : TagRecord) :
    (s.tags.set g x)[h] = if h = g then x else s.tags[h] := by
  rw [Fin.getElem_fin, Vector.getElem_set]
  by_cases same : h = g
  · rw [if_pos same, if_pos (congrArg Fin.val same).symm]
  · rw [if_neg same, if_neg fun eq => same (Fin.ext eq).symm]
    rfl

theorem State.answered_cons {s : State} {g : Tag} {q : List Tag} (pending : s.tags[g].state = .pending) (new : g ∉ q)
    (x : Status) : s.answered x (g :: q) = (s.answer g x []).answered x q := by
  rw [State.answer_of_pending pending]
  unfold State.answered
  refine State.ext rfl rfl rfl rfl rfl rfl rfl rfl (congrArg Vector.ofFn (funext fun h => ?_))
    (by simp only [List.map_cons, List.append_assoc, List.cons_append, List.nil_append]) rfl rfl rfl rfl rfl rfl
    rfl rfl rfl rfl rfl rfl rfl
  rw [State.tags_set]
  by_cases same : h = g
  · rw [same, if_pos List.mem_cons_self, if_neg new, if_pos rfl]
  · rw [if_neg same]
    by_cases mem : h ∈ q
    · rw [if_pos mem, if_pos (List.mem_cons_of_mem g mem)]
    · rw [if_neg mem, if_neg fun at_h => (List.mem_cons.1 at_h).elim same mem]

/-- An answer leaves the record of every other tag. -/
theorem State.answer_tags_ne {s : State} {g h : Tag} (ne : h ≠ g) (x : Status) (d : List Byte) :
    (s.answer g x d).tags[h] = s.tags[h] := by
  unfold State.answer
  split
  · exact (State.tags_set s g h _).trans (if_neg ne)
  · rfl

/-- Entries with PENDING tags, each its own, are answered in order (R163). -/
theorem State.answerEntries_eq (x : Status) : ∀ {q : List Entry} {s : State}, (q.map fun e => e.req.tag).Nodup →
    (∀ g ∈ q.map fun e => e.req.tag, s.tags[g].state = .pending) →
    s.answerEntries x q = s.answered x (q.map fun e => e.req.tag)
  | [], s, _, _ => (s.answered_nil x).symm
  | e :: q, s, once, pending => by
    obtain ⟨new, once⟩ := List.nodup_cons.1 once
    rw [State.answerEntries, List.map_cons, State.answered_cons (pending _ List.mem_cons_self) new]
    refine State.answerEntries_eq x once fun g mem => ?_
    rw [State.answer_tags_ne (show g ≠ e.req.tag from fun same => (show e.req.tag ∉ _ from new) (same ▸ mem))]
    exact pending g (List.mem_cons_of_mem _ mem)

/-! ### The queue around an entry -/

theorem splitOldest_at {p : Entry → Bool} {e : Entry} {after : List Entry} (met : p e = true) :
    ∀ {before : List Entry}, (∀ x ∈ before, p x = false) → splitOldest p (before ++ e :: after) = some (before, e, after)
  | [], _ => if_pos met
  | x :: before, h => by
    rw [List.cons_append, splitOldest, if_neg (by rw [h x List.mem_cons_self]; decide),
      splitOldest_at met fun y mem => h y (List.mem_cons_of_mem x mem)]

theorem splitOldest_absent {p : Entry → Bool} : ∀ {q : List Entry}, (∀ e ∈ q, p e = false) → splitOldest p q = none
  | [], _ => rfl
  | x :: q, h => by
    rw [splitOldest, if_neg (by rw [h x List.mem_cons_self]; decide),
      splitOldest_absent fun y mem => h y (List.mem_cons_of_mem x mem)]

/-! ### The other fields -/

/-- Answers write the parking queue, the tag table, the response queue and the idle timers only. -/
theorem Ans.others {s t : State} (h : Ans s t) :
    { t with banks := s.banks, parked := s.parked, tags := s.tags, responses := s.responses } = s := by
  cases h with
  | answer g x d => unfold State.answer; split <;> rfl
  | fewer q _ => rfl

theorem AnsRun.others {s t : State} (h : AnsRun s t) :
    { t with banks := s.banks, parked := s.parked, tags := s.tags, responses := s.responses } = s := by
  induction h with
  | refl => rfl
  | @tail u v _ last ih =>
    rw [← last.others] at ih
    exact ih

/-- No entry is parked for a bank in ON, and no bank holds its idle timer: a change of the queue changes no timer (R59). -/
structure State.TimersFree (s : State) : Prop where
  parked : ∀ e ∈ s.parked, (s.bank e.req.bank).power ≠ .on
  held : ∀ c n, (s.bank c).idleTimer ≠ .held n

theorem Bank.syncIdle_keeps {k : Bank} {n : Nat} (none : k.power = .on → n = 0) (held : ∀ m, k.idleTimer ≠ .held m) :
    k.syncIdle n = k := by
  by_cases on : k.power = .on
  · rw [none on]; exact Bank.syncIdle_zero held
  · exact if_neg on

theorem State.TimersFree.setParked {s : State} (h : s.TimersFree) {q : List Entry} (sub : q.Sublist s.parked) :
    (s.setParked q).banks = s.banks := by
  refine State.banks_ext fun c => ?_
  rw [State.setParked_bank]
  refine Bank.syncIdle_keeps (fun on => parkedCount_eq_zero fun e mem same => ?_) (h.held c)
  exact h.parked e (sub.subset mem) (same ▸ on)

theorem AnsRun.banks_same {s t : State} (h : AnsRun s t) (free : s.TimersFree) : t.banks = s.banks := by
  have both : t.banks = s.banks ∧ t.parked.Sublist s.parked := by
    induction h with
    | refl => exact ⟨rfl, List.Sublist.refl _⟩
    | @tail u v _ last ih =>
      obtain ⟨same, sub⟩ := ih
      have bank : ∀ c, u.bank c = s.bank c := fun c => congrArg (fun q : Vector Bank 8 => q[c]) same
      cases last with
      | answer g x d =>
        have kept : (u.answer g x d).banks = u.banks ∧ (u.answer g x d).parked = u.parked := by
          unfold State.answer; split <;> exact ⟨rfl, rfl⟩
        exact ⟨kept.1.trans same, kept.2 ▸ sub⟩
      | fewer q fewer =>
        have still : u.TimersFree := ⟨fun e mem => bank _ ▸ free.parked e (sub.subset mem), fun c n => bank c ▸ free.held c n⟩
        exact ⟨(still.setParked fewer).trans same, fewer.trans sub⟩
  exact both.1

/-! ### PARK_EXPIRY -/

theorem Entry.due_iff {e : Entry} : e.due = true ↔ ∃ d, e.deadline = some d ∧ d.left = 0 := by
  unfold Entry.due
  cases e.deadline with
  | none => exact ⟨fun h => (nomatch h), fun ⟨_, h, _⟩ => (nomatch h)⟩
  | some d => exact ⟨fun h => ⟨d, rfl, of_decide_eq_true h⟩, fun ⟨_, same, left⟩ => by cases same; exact decide_eq_true left⟩

/-- A change of the queue leaves what blocks an entry: the power states and the ports. -/
theorem State.withQueue_blocks {s : State} {e : Entry} (q : List Entry) (h : (s.bank e.req.bank).power = .waiting
    ∨ (s.bank e.req.bank).power = .ramping ∨ 4 ≤ (s.bank e.req.bank).port.slots.length) : (s.withQueue q).Blocks e := by
  unfold State.Blocks
  rw [State.withQueue_bank, Bank.syncIdle_power, Bank.syncIdle_port]
  rcases h with waiting | ramping | full
  · exact .inl (by rw [waiting]; decide)
  · exact .inl (by rw [ramping]; decide)
  · exact .inr (.inl full)

theorem State.answered_blocks {s : State} {e : Entry} (h : s.Blocks e) (x : Status) (q : List Tag) : (s.answered x q).Blocks e := by
  unfold State.Blocks at h ⊢
  rw [State.answered_bank]
  exact h

theorem State.post_blocks {s : State} {e : Entry} (h : s.Blocks e) (k : EventKind) (a : About) : (s.post k a).Blocks e := by
  unfold State.Blocks
  rw [State.post_bank]
  exact h

/-- Settles O50: the entry and its cascade leave the queue and are answered, and the scan finds nothing to release. -/
theorem parkExpiry : Obligations.ParkExpiry := by
  unfold Obligations.ParkExpiry
  refine fun s g => ⟨fun running => ?_, fun before after e d queue tag deadline run_out first unlinked => ?_⟩
  · have none : splitOldest (fun e => e.req.tag = g ∧ e.due) s.parked = none := splitOldest_absent fun e mem =>
      decide_eq_false fun ⟨same, due⟩ => by
        obtain ⟨d, deadline, left⟩ := Entry.due_iff.1 due
        exact running e mem same d deadline left
    change execParkExpiry g s = _
    unfold execParkExpiry
    rw [none]
    rfl
  · intro cascade left gone blocked once pending
    have found : splitOldest (fun e => e.req.tag = g ∧ e.due) s.parked = some (before, e, after) := by
      rw [queue]
      exact splitOldest_at (decide_eq_true ⟨tag, Entry.due_iff.2 ⟨d, deadline, run_out⟩⟩)
        fun x mem => decide_eq_false fun ⟨same, _⟩ => first x mem same
    have tags : (e :: cascadeOf e after).map (fun x => x.req.tag) = gone := by rw [List.map_cons, tag]; rfl
    have expelled : s.begin.expel before e after .expired = (s.settled.withQueue left).answered .expired gone := by
      unfold State.expel
      rw [State.setParked_eq, State.answerEntries_eq .expired (by rw [tags]; exact once) (by rw [tags]; exact pending), tags]
      rfl
    let posted : State := ((s.settled.withQueue left).answered .expired gone).post .parkExpired
      { bank := some e.req.bank, tag := some g, stream := some e.req.stream, window := some e.req.window,
        detail := some (.count cascade.length) }
    have parked : posted.parked = left := (State.post_parked _ _ _).trans rfl
    have moved : (Work.start s.begin).expire before e after = (Work.start s.begin).on fun _ => posted := by
      unfold Work.expire
      rw [Work.on_congr (w := Work.start s.begin) (g := fun _ => posted) (by rw [Work.start, expelled, tag]; rfl)]
      refine Work.scan_blocked fun x mem => ?_
      rw [Work.on_st, parked] at mem
      have waits : (s.settled.withQueue left).Blocks x := State.withQueue_blocks (s := s.settled) left (blocked x mem)
      exact State.post_blocks (State.answered_blocks waits .expired gone) _ _
    change execParkExpiry g s = _
    unfold execParkExpiry
    rw [found]
    exact congrArg Host.Outcome.next (State.event_unlinked (s := s.begin) (moves := fun w => w.expire before e after)
      unlinked moved (State.post_links ..) rfl)

end Sys2Proof.Machine
end
section
/-! SUPPORT. FLUSH BANK: the parked entries of a bank are answered ABORTED with their cascades, and one scan follows
(O30). -/

namespace Sys2Proof.Machine

/-! ### The queue that a flush splits -/

/-- Each entry is answered, or stays, or is of a stream that has been answered before. -/
theorem mem_flush (b : BankId) : ∀ {q : List Entry} {gone : List Stream} {e : Entry}, e ∈ q →
    e.req.stream ∈ gone ∨ e ∈ flushOrder b gone q ∨ e ∈ flushRest b gone q
  | x :: q, gone, e, mem => by
    rw [flushOrder, flushRest]
    by_cases out : x.req.stream ∈ gone
    · rw [if_pos out, if_pos out]
      rcases List.mem_cons.1 mem with rfl | mem
      · exact .inl out
      · exact mem_flush b mem
    · rw [if_neg out, if_neg out]
      by_cases target : x.req.bank = b
      · rw [if_pos target, if_pos target]
        rcases List.mem_cons.1 mem with rfl | mem
        · exact .inr (.inl (List.mem_append_left _ List.mem_cons_self))
        · by_cases same : e.req.stream = x.req.stream
          · exact .inr (.inl (List.mem_append_left _ (List.mem_cons_of_mem _ (List.mem_filter.2 ⟨mem, decide_eq_true same⟩))))
          · rcases mem_flush b (gone := x.req.stream :: gone) mem with h | h | h
            · exact .inl ((List.mem_cons.1 h).resolve_left same)
            · exact .inr (.inl (List.mem_append_right _ h))
            · exact .inr (.inr h)
      · rw [if_neg target, if_neg target]
        rcases List.mem_cons.1 mem with rfl | mem
        · exact .inr (.inr List.mem_cons_self)
        · rcases mem_flush b (gone := gone) mem with h | h | h
          · exact .inl h
          · exact .inr (.inl h)
          · exact .inr (.inr (List.mem_cons_of_mem _ h))

/-- What a flush leaves was parked, for another bank. -/
theorem mem_flushRest (b : BankId) : ∀ {q : List Entry} {gone : List Stream} {e : Entry}, e ∈ flushRest b gone q →
    e ∈ q ∧ e.req.bank ≠ b
  | x :: q, gone, e, mem => by
    have later : ∀ {gone}, e ∈ flushRest b gone q → e ∈ x :: q ∧ e.req.bank ≠ b := fun mem =>
      ⟨List.mem_cons_of_mem x (mem_flushRest b mem).1, (mem_flushRest b mem).2⟩
    rw [flushRest] at mem
    by_cases out : x.req.stream ∈ gone
    · rw [if_pos out] at mem
      exact later mem
    · rw [if_neg out] at mem
      by_cases target : x.req.bank = b
      · rw [if_pos target] at mem
        exact later mem
      · rw [if_neg target] at mem
        rcases List.mem_cons.1 mem with rfl | mem
        · exact ⟨List.mem_cons_self, target⟩
        · exact later mem

/-! ### The flush -/

section
variable {s : State} {b : BankId}

theorem State.flushParked_ans (s : State) (b : BankId) (x : Status) : AnsRun s (s.flushParked b x) :=
  State.expelBank_ans b x _ s

/-- The tags and responses after a flush of entries with PENDING tags, each its own. -/
theorem State.flushParked_answers (x : Status) (once : ((flushOrder b [] s.parked).map fun e => e.req.tag).Nodup)
    (pending : ∀ g ∈ (flushOrder b [] s.parked).map fun e => e.req.tag, s.tags[g].state = .pending) :
    SameAnswers (s.answered x ((flushOrder b [] s.parked).map fun e => e.req.tag)) (s.flushParked b x) := by
  have order := (State.flushParked_order s b x).2
  rw [State.answerEntries_eq x once pending] at order
  exact order

/-- A flush that changes no idle timer changes the queue, the tags and the responses only. -/
theorem State.flushParked_eq (x : Status) (once : ((flushOrder b [] s.parked).map fun e => e.req.tag).Nodup)
    (pending : ∀ g ∈ (flushOrder b [] s.parked).map fun e => e.req.tag, s.tags[g].state = .pending) (free : s.TimersFree) :
    s.flushParked b x = State.answered { s with parked := flushRest b [] s.parked } x
      ((flushOrder b [] s.parked).map fun e => e.req.tag) := by
  have answers := State.flushParked_answers x once pending
  have banks := (s.flushParked_ans b x).banks_same free
  have parked := (State.flushParked_order s b x).1
  have others := (s.flushParked_ans b x).others
  generalize s.flushParked b x = t at answers banks parked others
  rw [← others]
  refine State.ext banks rfl rfl rfl rfl rfl rfl rfl ?_ ?_ rfl rfl rfl parked rfl rfl rfl rfl rfl rfl rfl rfl rfl
  · rw [answers.tags, ← others]; rfl
  · rw [answers.responses, ← others]; rfl

/-- A flush of a bank with one entry parked, which has no cascade. -/
theorem State.flushParked_one {before after : List Entry} {e : Entry} (x : Status) (queue : s.parked = before ++ e :: after)
    (target : e.req.bank = b) (others : ∀ y ∈ before ++ after, y.req.bank ≠ b ∧ y.req.stream ≠ e.req.stream)
    (pending : s.tags[e.req.tag].state = .pending) :
    s.flushParked b x = (s.withQueue (before ++ after)).answered x [e.req.tag] := by
  have found : splitOldest (fun y => y.req.bank = b) s.parked = some (before, e, after) := by
    rw [queue]
    exact splitOldest_at (decide_eq_true target) fun y mem => decide_eq_false (others y (List.mem_append_left _ mem)).1
  have alone : cascadeOf e after = [] := List.filter_eq_nil_iff.2 fun y mem => by
    simpa using (others y (List.mem_append_right _ mem)).2
  have left : withoutCascade before e after = before ++ after := congrArg (before ++ ·)
    (List.filter_eq_self.2 fun y mem => decide_eq_true (others y (List.mem_append_right _ mem)).2)
  have expelled : s.expel before e after x = (s.withQueue (before ++ after)).answered x [e.req.tag] := by
    unfold State.expel
    rw [left, alone, State.setParked_eq]
    exact State.answerEntries_eq x (List.nodup_singleton _) fun g mem => by
      obtain rfl := List.mem_singleton.1 mem; exact pending
  have none : ∀ n, ((s.withQueue (before ++ after)).answered x [e.req.tag]).expelBank b x n =
      (s.withQueue (before ++ after)).answered x [e.req.tag] := by
    intro n
    cases n with
    | zero => rfl
    | succ n =>
      have absent : splitOldest (fun y => y.req.bank = b) (before ++ after) = Option.none :=
        splitOldest_absent fun y mem => decide_eq_false (others y mem).1
      unfold State.expelBank
      rw [show ((s.withQueue (before ++ after)).answered x [e.req.tag]).parked = before ++ after from rfl, absent]
  have count : s.parked.length = (before.length + after.length) + 1 := by
    rw [queue, List.length_append, List.length_cons, Nat.add_assoc]
  unfold State.flushParked
  rw [count, State.expelBank, found]
  dsimp only
  rw [expelled, none]

end

/-! ### The command -/

theorem exec_flushBank_absent {s : State} (held : s.frameHeld = false) {b : BankId}
    (absent : (s.bank b).config.present = false) :
    exec (.flushBank (byteOf b.val)) s = .next (s.replied [0x15, byteOf b.val] [0x03, 0x00]) := by
  show proceed (s.begin.serve .flushBank (byteOf b.val) [] (withBank (byteOf b.val) s.begin.flushBank)) = _
  have refused : s.begin.flushBank b = .error .state := if_pos absent
  rw [withBank_byteOf, refused, State.serve_begin_error held]
  rfl

theorem exec_flushBank_taken {s t : State} (held : s.frameHeld = false) {b : BankId}
    (present : (s.bank b).config.present = true) (flushed : s.begin.flushParked b .aborted = t) :
    exec (.flushBank (byteOf b.val)) s = .next ((t.event Work.scan).withFrame [0x15, byteOf b.val]
      [0x00, byteOf (t.responses.length - s.responses.length)]) := by
  show proceed (s.begin.serve .flushBank (byteOf b.val) [] (withBank (byteOf b.val) s.begin.flushBank)) = _
  have taken : s.begin.flushBank b =
      .ok (t.event Work.scan, [byteOf (t.responses.length - s.responses.length)]) := by
    subst flushed
    exact if_neg (by rw [show (s.begin.bank b).config.present = true from present]; decide)
  rw [withBank_byteOf, taken, State.serve_begin_ok held]
  rfl

/-- The command where the scan that follows releases nothing. -/
theorem exec_flushBank_still {s t : State} (held : s.frameHeld = false) {b : BankId} {x : Status} {q : List Tag}
    (present : (s.bank b).config.present = true) (flushed : s.begin.flushParked b .aborted = t.answered x q)
    (responses : t.responses = s.responses) (blocked : ∀ e ∈ t.parked, t.Blocks e) :
    exec (.flushBank (byteOf b.val)) s =
      .next ((t.answered x q).withFrame [0x15, byteOf b.val] [0x00, byteOf q.length]) := by
  have still : (Work.start (t.answered x q)).scan = Work.start (t.answered x q) :=
    Work.scan_blocked fun e mem => State.answered_blocks (blocked e (by
      rw [Work.start, State.answered_parked] at mem; exact mem)) x q
  have count : (t.answered x q).responses.length - s.responses.length = q.length := by
    rw [State.answered_responses_length, responses, Nat.add_sub_cancel_left]
  have silent : (t.answered x q).event Work.scan = t.answered x q :=
    State.event_silent (s := t.answered x q) (moves := Work.scan) (w := Work.start (t.answered x q)) still rfl rfl
  rw [exec_flushBank_taken held present flushed, silent, count]

theorem State.answered_settled (s : State) (x : Status) (q : List Tag) : (s.answered x q).settled = s.settled.answered x q := by
  unfold State.answered State.settled
  rfl

theorem State.answered_withFrame {s t : State} (same : t.settled = s) (x : Status) (q : List Tag) (received reply : List Byte) :
    (s.answered x q).withFrame received reply = (t.answered x q).replied received reply := by
  subst same
  rw [State.replied_eq, State.answered_settled]

/-- Settles O30: the flush answers in the order of R50 and R53, and the scan is the only thing that follows. -/
theorem flushBank : Obligations.FlushBank := by
  unfold Obligations.FlushBank
  refine fun s b held => ⟨exec_flushBank_absent held, fun present once pending => ?_,
    fun present once pending unlinked gone left timers => ?_, fun present before after e unlinked queue target others pending => ?_⟩
  · have answers := State.flushParked_answers (s := s.begin) (b := b) .aborted once pending
    have scanned : CalmRun (s.begin.flushParked b .aborted) ((s.begin.flushParked b .aborted).event Work.scan) :=
      State.event_run (Work.scan_calm (Work.start _))
    have setup := scanned.setup
    have responses := setup.responses.trans answers.responses
    refine ⟨_, exec_flushBank_taken held present rfl, responses, fun g => ?_, ?_, fun e mem => mem_flushRest b mem, ?_⟩
    · refine (congrArg (fun t : Vector TagRecord 32 => t[g]) (setup.tags.trans answers.tags)).trans ?_
      exact State.answered_tags s.begin .aborted _ g
    · exact (State.flushParked_order s.begin b .aborted).1 ▸ scanned.parked
    · have count : (s.begin.flushParked b .aborted).responses.length - s.responses.length =
          ((flushOrder b [] s.parked).map fun e => e.req.tag).length := by
        rw [answers.responses]
        exact (congrArg (· - _) List.length_append).trans ((Nat.add_sub_cancel_left ..).trans (List.length_map _))
      exact congrArg (fun n => ({ mcsLow := true, received := [0x15, byteOf b.val], reply := [0x00, byteOf n] } : Frame)) count
  · have free : s.begin.TimersFree := by
      refine ⟨fun e mem => ?_, timers⟩
      rcases mem_flush b (gone := []) mem with h | h | h
      · cases h
      · exact gone e h
      · rcases left e h with waits | waits <;> exact waits ▸ by decide
    have flushed := State.flushParked_eq (s := s.begin) (b := b) .aborted once pending free
    refine (exec_flushBank_still held present flushed rfl fun e mem => .inl ?_).trans ?_
    · rcases left e mem with waits | waits <;> exact ⟨waits ▸ by decide, waits ▸ by decide⟩
    · exact congrArg Host.Outcome.next (State.answered_withFrame (t := { s with parked := flushRest b [] s.parked }) rfl _ _ _ _)
  · have flushed := State.flushParked_one (s := s.begin) .aborted queue target
      (fun y mem => ⟨(others y mem).1, (others y mem).2.1⟩) pending
    refine (exec_flushBank_still held present flushed rfl fun y mem => State.withQueue_blocks (s := s.begin) _ ?_).trans ?_
    · exact (others y mem).2.2.elim .inl fun ramping => .inr (.inl ramping)
    · exact congrArg Host.Outcome.next (State.answered_withFrame (t := s.withQueue (before ++ after)) rfl _ _ _ _)

end Sys2Proof.Machine
end
section
/-! SUPPORT. Entry into FAULT with nothing parked: the answers of the requests in flight, and what the fill engine goes on
with (O44, O45). -/

namespace Sys2Proof.Machine

/-! ### The requests of a slot list -/

theorem requestTags_request {x : Slot} {rest : List Slot} {g : Tag} {st : Stream} (holder : x.holder = .request g st) :
    requestTags (x :: rest) = g :: requestTags rest := by
  rw [requestTags, holder]

theorem requestTags_other {x : Slot} {rest : List Slot} (holder : ∀ g st, x.holder ≠ .request g st) :
    requestTags (x :: rest) = requestTags rest := by
  rw [requestTags]
  split
  · exact absurd ‹_› (holder _ _)
  · rfl
  · rfl

theorem State.answerSlots_request {s : State} {x : Slot} {rest : List Slot} {g : Tag} {st : Stream}
    (holder : x.holder = .request g st) (first : Status) :
    s.answerSlots first (x :: rest) = (s.answer g first []).answerSlots .faulted rest := by
  rw [State.answerSlots, holder]

theorem State.answerSlots_other {s : State} {x : Slot} {rest : List Slot} (holder : ∀ g st, x.holder ≠ .request g st)
    (first : Status) : s.answerSlots first (x :: rest) = s.answerSlots .faulted rest := by
  rw [State.answerSlots]
  split
  · exact absurd ‹_› (holder _ _)
  · rfl
  · rfl

theorem Slot.request_or_other (x : Slot) : (∃ g st, x.holder = .request g st) ∨ ∀ g st, x.holder ≠ .request g st := by
  cases h : x.holder with
  | request g st => exact .inl ⟨g, st, rfl⟩
  | fill => exact .inr fun _ _ same => nomatch same
  | orphan g st => exact .inr fun _ _ same => nomatch same

/-- The requests in flight, with PENDING tags each its own, are answered FAULTED in order (R19). -/
theorem State.answerSlots_faulted : ∀ {q : List Slot} {s : State}, (requestTags q).Nodup →
    (∀ g ∈ requestTags q, s.tags[g].state = .pending) → s.answerSlots .faulted q = s.answered .faulted (requestTags q)
  | [], s, _, _ => (s.answered_nil .faulted).symm
  | x :: q, s, once, pending => by
    rcases x.request_or_other with ⟨g, st, holder⟩ | other
    · rw [requestTags_request holder] at once pending ⊢
      obtain ⟨new, once⟩ := List.nodup_cons.1 once
      rw [State.answerSlots_request holder, State.answered_cons (pending g List.mem_cons_self) new]
      refine State.answerSlots_faulted once fun h mem => ?_
      rw [State.answer_tags_ne (show h ≠ g from fun same => new (same ▸ mem))]
      exact pending h (List.mem_cons_of_mem g mem)
    · rw [requestTags_other other] at once pending ⊢
      rw [State.answerSlots_other other]
      exact State.answerSlots_faulted once pending

/-- The oldest of them has a status of its own (R19). -/
theorem State.answerSlots_first {s : State} {x : Slot} {rest : List Slot} {g : Tag} {st : Stream}
    (holder : x.holder = .request g st) (first : Status) (once : (requestTags (x :: rest)).Nodup)
    (pending : ∀ h ∈ requestTags (x :: rest), s.tags[h].state = .pending) :
    s.answerSlots first (x :: rest) = (s.answered first [g]).answered .faulted (requestTags rest) := by
  rw [requestTags_request holder] at once pending
  obtain ⟨new, once⟩ := List.nodup_cons.1 once
  rw [State.answerSlots_request holder, State.answered_cons (pending g List.mem_cons_self) List.not_mem_nil,
    State.answered_nil]
  refine State.answerSlots_faulted once fun h mem => ?_
  rw [State.answer_tags_ne (show h ≠ g from fun same => new (same ▸ mem))]
  exact pending h (List.mem_cons_of_mem g mem)

theorem State.answered_setFill (s : State) (f : FillProgress) (x : Status) (q : List Tag) :
    State.answered { s with fill := f } x q = { s.answered x q with fill := f } := by
  unfold State.answered
  rfl

/-! ### The faulted state -/

/-- The state once bank `b` is in FAULT and out of the fill queue, the fill in progress apart (R18). -/
def State.faultBase (s : State) (b : BankId) : State :=
  { s.updBank b Bank.faulted with fillQueue := s.fillQueue.filter fun c => c ≠ b }

theorem State.toFault_eq (s : State) (b : BankId) : s.toFault b =
    { s.faultBase b with fill := if s.fillsBank b then FillProgress.idle else s.fill } := rfl

/-- A state that the answers of an entry into FAULT leave, the fill in progress apart. -/
structure FaultLeaves (s t : State) (b : BankId) : Prop where
  parked : t.parked = s.parked
  queue : t.fillQueue = s.fillQueue.filter fun c => c ≠ b
  fill : t.fill = s.fill
  links : t.links = s.links
  others : ∀ c, c ≠ b → t.bank c = s.bank c

theorem FaultLeaves.base (s : State) (b : BankId) : FaultLeaves s (s.faultBase b) b :=
  ⟨rfl, rfl, rfl, rfl, fun _ ne => State.bank_updBank_ne s Bank.faulted ne⟩

theorem FaultLeaves.answered {s t : State} {b : BankId} (h : FaultLeaves s t b) (x : Status) (q : List Tag) :
    FaultLeaves s (t.answered x q) b where
  parked := (t.answered_parked x q).trans h.parked
  queue := (t.answered_fillQueue x q).trans h.queue
  fill := (t.answered_fill x q).trans h.fill
  links := (t.answered_links x q).trans h.links
  others c ne := (t.answered_bank x q c).trans (h.others c ne)

/-- What the fill engine goes on with after bank `b` has left its queue: nothing changes where the bank was not the head,
it idles where it was the last, and it begins the next head's segment fill (R107). -/
inductive State.Refills (s t : State) (b : BankId) : State → Prop
  | other (notHead : s.fillQueue.head? ≠ some b) : Refills s t b t
  | last (only : s.fillQueue = [b]) : Refills s t b { t with fill := FillProgress.idle }
  | next (c : BankId) (more : List BankId) (g : Segment) (next : s.NextHead b c more g) : Refills s t b (t.fillBegun c g)

theorem State.Refills.links {s t u : State} {b : BankId} (h : s.Refills t b u) : u.links = t.links := by
  cases h <;> rfl

theorem State.filter_ne_next {b c : BankId} {more : List BankId} (once : (b :: c :: more).Nodup) :
    ((b :: c :: more).filter fun d => d ≠ b) = c :: more := by
  obtain ⟨new, _⟩ := List.nodup_cons.1 once
  rw [List.filter_cons_of_neg (by simp)]
  exact List.filter_eq_self.2 fun d mem => decide_eq_true fun same => new (same ▸ mem)

/-- The fill engine's part of an entry into FAULT, with nothing parked (R107). -/
theorem State.Refills.startHead {w : Work} {t u : State} {b : BankId} (h : w.st.Refills t b u)
    (none : w.st.parked = []) (leaves : FaultLeaves w.st t b) :
    let answered : Work := { w with st := { t with fill := (w.st.toFault b).fill } }
    (if w.st.fillsBank b then answered.startHead else answered) = { w with st := u } := by
  intro answered
  have fill := congrArg State.fill (w.st.toFault_eq b)
  cases h with
  | other notHead =>
    have notFills : ¬ w.st.fillsBank b = true := fun head => notHead (State.fillsBank_iff.1 head)
    have kept : (w.st.toFault b).fill = t.fill := fill.trans ((if_neg notFills).trans leaves.fill.symm)
    rw [if_neg notFills]
    exact congrArg (fun v => ({ w with st := v } : Work)) (by rw [kept])
  | last only =>
    have fills : w.st.fillsBank b = true := State.fillsBank_iff.2 (by rw [only]; rfl)
    have idle : (w.st.toFault b).fill = FillProgress.idle := fill.trans (if_pos fills)
    have queue : answered.st.fillQueue = [] := leaves.queue.trans (by rw [only]; simp)
    rw [if_pos fills, Work.startHead_empty queue]
    rfl
  | next c more g next =>
    have queue : answered.st.fillQueue = c :: more := leaves.queue.trans (by rw [next.queue]; exact State.filter_ne_next next.once)
    rw [if_pos next.head, Work.startHead_next next queue (leaves.parked.trans none) (leaves.others c next.other)]
    rfl

theorem State.flushParked_nothing {s : State} (none : s.parked = []) (b : BankId) (x : Status) : s.flushParked b x = s := by
  unfold State.flushParked
  rw [none]
  rfl

/-- An entry into FAULT with nothing parked: the answers, the fill engine, the event of the cause, and FAULTED (R18). -/
theorem Work.enterFault_refills {w : Work} {b : BankId} {cause : FaultCause} {t u : State} {n : Nat} (none : w.st.parked = [])
    (answers : (w.st.toFault b).answerSlots cause.firstStatus (w.st.bank b).port.slots =
      { t with fill := (w.st.toFault b).fill })
    (leaves : FaultLeaves w.st t b) (refills : w.st.Refills t b u)
    (count : t.responses.length - w.st.responses.length = n) : w.enterFault b cause =
      ({ w with st := u.post (faultEvent b (w.st.bank b) cause n).1 (faultEvent b (w.st.bank b) cause n).2 } : Work).offer b
        .faulted := by
  have faultAnswers : (w.st.toFault b).faultAnswers b cause (w.st.bank b).port.slots =
      { t with fill := (w.st.toFault b).fill } := by
    unfold State.faultAnswers
    rw [answers]
    exact State.flushParked_nothing (s := { t with fill := (w.st.toFault b).fill }) (leaves.parked.trans none) b .faulted
  have answered : (w.on fun s => (s.toFault b).faultAnswers b cause (w.st.bank b).port.slots) =
      { w with st := { t with fill := (w.st.toFault b).fill } } :=
    congrArg (fun v => ({ w with st := v } : Work)) faultAnswers
  have scanned : (w.on fun s => (s.toFault b).faultAnswers b cause (w.st.bank b).port.slots).scan =
      { w with st := { t with fill := (w.st.toFault b).fill } } := by
    rw [answered]
    exact Work.scan_empty (leaves.parked.trans none)
  unfold Work.enterFault
  dsimp only
  rw [scanned, answered, refills.startHead none leaves]
  subst count
  rfl

end Sys2Proof.Machine
end
section
/-! SUPPORT. RAIL_DROP and RESPONSE_TIMEOUT: the bank enters FAULT with its cause's event and answers (O44, O45). -/

namespace Sys2Proof.Machine

/-! ### A whole event of an entry into FAULT -/

theorem State.toFault_answered (s : State) (b : BankId) (x : Status) (q : List Tag) : (s.toFault b).answered x q =
    { (s.faultBase b).answered x q with fill := (s.toFault b).fill } := State.answered_setFill (s.faultBase b) _ x q

/-- The answers as they stand in the faulted state, whatever the fill in progress (R19). -/
theorem State.answerSlots_toFault {s : State} {b : BankId} (once : (requestTags (s.bank b).port.slots).Nodup)
    (pending : ∀ g ∈ requestTags (s.bank b).port.slots, s.tags[g].state = .pending) :
    (s.toFault b).answerSlots .faulted (s.bank b).port.slots =
      { (s.faultBase b).answered .faulted (requestTags (s.bank b).port.slots) with fill := (s.toFault b).fill } :=
  (State.answerSlots_faulted (s := s.toFault b) once pending).trans (s.toFault_answered b _ _)

theorem State.answered_count {s t : State} (x : Status) (q : List Tag) (responses : t.responses = s.responses) :
    (t.answered x q).responses.length - s.responses.length = q.length := by
  rw [State.answered_responses_length, responses, Nat.add_sub_cancel_left]

/-- An event whose moves end in an entry into FAULT, with no link enabled (R18). -/
theorem State.event_enterFault {s t u : State} {b : BankId} {moves : Work → Work} {w : Work} {k : EventKind} {a : About}
    (unlinked : s.Unlinked) (links : w.st.links = s.links) (crossings : w.crossings = [])
    (leaves : FaultLeaves w.st t b) (refills : w.st.Refills t b u)
    (enters : moves (Work.start s) = ({ w with st := u.post k a } : Work).offer b .faulted) : s.event moves = u.post k a :=
  State.event_unlinked unlinked enters
    ((State.post_links u k a).trans (refills.links.trans (leaves.links.trans links))) crossings

/-! ### RAIL_DROP -/

/-- A bank whose PGOOD has fallen. -/
def Bank.dropped (k : Bank) : Bank := { k with pgood := false }

theorem exec_railDrop_down {s : State} {b : BankId} (down : ¬ (s.bank b).railUp = true) :
    exec (.railDrop b) s = .next (s.begin.updBank b Bank.dropped) :=
  congrArg Host.Outcome.next (State.event_silent (s := s.begin)
    (moves := fun w => if (s.bank b).railUp then (w.bank b Bank.dropped).enterFault b .railDropped else w.bank b Bank.dropped)
    (w := (Work.start s.begin).bank b Bank.dropped) (if_neg down) rfl rfl)

theorem exec_railDrop_up {s : State} {b : BankId} (up : (s.bank b).railUp = true) : exec (.railDrop b) s =
    .next (s.begin.event fun w => (w.bank b Bank.dropped).enterFault b .railDropped) := by
  refine congrArg (fun moves => Host.Outcome.next (s.begin.event moves)) (funext fun w => ?_)
  exact if_pos up

theorem State.dropped_bank (s : State) (b : BankId) : (s.begin.updBank b Bank.dropped).bank b = (s.bank b).dropped :=
  State.bank_updBank_self s.begin b Bank.dropped

/-- The state once bank `b`, its rail gone, is in FAULT, its requests in flight answered (R16, R19). -/
def State.railDropped (s : State) (b : BankId) : State :=
  State.answered { s.settled.updBank b fun _ => (s.bank b).dropped.failed with
    fillQueue := s.fillQueue.filter fun c => c ≠ b } .faulted (requestTags (s.bank b).port.slots)

theorem State.faultBase_dropped (s : State) (b : BankId) : (s.begin.updBank b Bank.dropped).faultBase b =
    { s.settled.updBank b fun _ => (s.bank b).dropped.failed with fillQueue := s.fillQueue.filter fun c => c ≠ b } :=
  State.ext_banks (State.updBank_after (s := s.settled) (f := Bank.dropped) Bank.faulted rfl) rfl

section
variable {s : State} {b : BankId} (up : (s.bank b).railUp = true) (unlinked : s.Unlinked) (none : s.parked = [])
  (once : (requestTags (s.bank b).port.slots).Nodup)
  (pending : ∀ g ∈ requestTags (s.bank b).port.slots, s.tags[g].state = .pending)
include up unlinked none once pending

theorem exec_railDrop_refills {u : State} (refills : (s.begin.updBank b Bank.dropped).Refills (s.railDropped b) b u) :
    exec (.railDrop b) s = .next
      (u.post .railDrop { bank := some b, detail := some (.count (requestTags (s.bank b).port.slots).length) }) := by
  have slots : ((s.begin.updBank b Bank.dropped).bank b).port.slots = (s.bank b).port.slots :=
    congrArg (·.port.slots) (s.dropped_bank b)
  have answers := State.answerSlots_toFault (s := s.begin.updBank b Bank.dropped) (b := b) (by rw [slots]; exact once)
    (by rw [slots]; exact pending)
  have base : ((s.begin.updBank b Bank.dropped).faultBase b).answered .faulted
      (requestTags ((s.begin.updBank b Bank.dropped).bank b).port.slots) = s.railDropped b := by
    rw [slots, State.faultBase_dropped]
    rfl
  rw [base] at answers
  have leaves : FaultLeaves (s.begin.updBank b Bank.dropped) (s.railDropped b) b :=
    base ▸ (FaultLeaves.base (s.begin.updBank b Bank.dropped) b).answered _ _
  have enters := Work.enterFault_refills (w := (Work.start s.begin).bank b Bank.dropped) (cause := .railDropped) none answers
    leaves refills (State.answered_count .faulted _ rfl)
  rw [exec_railDrop_up up]
  exact congrArg Host.Outcome.next (State.event_enterFault (s := s.begin)
    (w := (Work.start s.begin).bank b Bank.dropped) unlinked rfl rfl leaves refills enters)

end

theorem State.answered_one {s : State} {g : Tag} (pending : s.tags[g].state = .pending) (x : Status) :
    s.answered x [g] = s.answeredOne g x [] := by
  rw [State.answered_cons pending List.not_mem_nil, State.answered_nil, State.answer_of_pending pending]
  rfl

/-- An entry into FAULT with no slot busy and one entry parked, for the bank (R19, R52). -/
theorem Work.enterFault_parked {w : Work} {b : BankId} {cause : FaultCause} {e : Entry} (queue : w.st.parked = [e])
    (target : e.req.bank = b) (empty : (w.st.bank b).port.slots = []) (absent : b ∉ w.st.fillQueue)
    (pending : w.st.tags[e.req.tag].state = .pending) : ∃ k a, w.enterFault b cause =
      ({ w with st := (((w.st.updBank b Bank.faulted).withQueue []).answeredOne e.req.tag .faulted []).post k a } : Work).offer
        b .faulted := by
  have faulted : w.st.toFault b = w.st.updBank b Bank.faulted := State.unqueueFill_absent (s := w.st.updBank b Bank.faulted) absent
  have flushed := State.flushParked_one (s := w.st.updBank b Bank.faulted) (before := []) (after := []) .faulted queue target
    (by simp) pending
  have answers : (w.st.toFault b).faultAnswers b cause (w.st.bank b).port.slots =
      ((w.st.updBank b Bank.faulted).withQueue []).answeredOne e.req.tag .faulted [] := by
    unfold State.faultAnswers
    rw [empty, faulted]
    exact flushed.trans (State.answered_one (s := (w.st.updBank b Bank.faulted).withQueue []) pending .faulted)
  have answered := congrArg (fun t => ({ w with st := t } : Work)) answers
  have scanned : (w.on fun s => (s.toFault b).faultAnswers b cause (w.st.bank b).port.slots).scan =
      { w with st := ((w.st.updBank b Bank.faulted).withQueue []).answeredOne e.req.tag .faulted [] } :=
    (congrArg Work.scan answered).trans (Work.scan_empty rfl)
  have notFills : ¬ w.st.fillsBank b = true := fun head => absent (List.mem_of_head? (State.fillsBank_iff.1 head))
  let event := faultEvent b (w.st.bank b) cause
    (((w.st.toFault b).faultAnswers b cause (w.st.bank b).port.slots).responses.length - w.st.responses.length)
  refine ⟨event.1, event.2, ?_⟩
  unfold Work.enterFault
  dsimp only
  rw [scanned, if_neg notFills]
  rfl

/-- Settles O44: the entry into FAULT, by what stands in the fill queue; and, with one entry parked, its answer. -/
theorem railDrop : Obligations.RailDrop := by
  unfold Obligations.RailDrop
  refine ⟨fun s b => ⟨fun down => ?_, fun up unlinked none once pending => ?_⟩,
    fun s b e unlinked queue target on empty absent pending => ?_⟩
  · exact exec_railDrop_down fun up => down (Bank.railUp_iff.1 up)
  · have refill := fun {u} => exec_railDrop_refills (u := u) (Bank.railUp_iff.2 up) unlinked none once pending
    refine ⟨fun notHead => refill (.other notHead), fun only => (refill (.last only)).trans ?_, fun c more g next => ?_⟩
    · refine congrArg (fun t : State => Host.Outcome.next (t.post .railDrop _)) ?_
      rw [State.railDropped, ← State.answered_setFill, only]
      simp only [List.filter_cons, List.filter_nil, ne_eq, not_true, decide_false]
      rfl
    · refine (refill (.next c more g (next.transfer rfl (State.bank_updBank_ne s.begin Bank.dropped next.other)))).trans ?_
      rw [State.railDropped, next.queue, State.filter_ne_next next.once]
      rfl
  · have up : (s.bank b).railUp = true := Bank.railUp_iff.2 (.inr (.inl on))
    obtain ⟨k, a, enters⟩ := Work.enterFault_parked (w := (Work.start s.begin).bank b Bank.dropped) (cause := .railDropped)
      queue target ((congrArg (·.port.slots) (s.dropped_bank b)).trans empty) absent pending
    have ends := State.event_unlinked (s := s.begin) (moves := fun w => (w.bank b Bank.dropped).enterFault b .railDropped)
      unlinked enters (State.post_links _ _ _) rfl
    refine ⟨_, (exec_railDrop_up up).trans (congrArg Host.Outcome.next ends), ?_, State.post_parked _ _ _,
      State.post_responses _ _ _, State.post_tags _ _ _⟩
    refine (congrArg Bank.power (State.post_bank _ _ _ b)).trans ?_
    refine (congrArg Bank.power (State.withQueue_bank ((s.begin.updBank b Bank.dropped).updBank b Bank.faulted) [] b)).trans ?_
    rw [Bank.syncIdle_power, State.bank_updBank_self]
    rfl

/-! ### RESPONSE_TIMEOUT -/

theorem Port.timedOut_iff {p : Port} {now : Micros} : p.timedOut now = true ↔ ∃ x rest, p.slots = x :: rest ∧
    (x.expiryTime - x.forwardTime).toNat ≤ (now - x.forwardTime).toNat := by
  unfold Port.timedOut
  split
  · rename_i empty
    exact ⟨fun h => (nomatch h), fun ⟨x, rest, slots, _⟩ => by rw [empty] at slots; cases slots⟩
  · rename_i x rest slots
    exact ⟨fun h => ⟨x, rest, slots, of_decide_eq_true h⟩, fun ⟨y, later, slots', out⟩ => by
      rw [slots] at slots'; cases slots'; exact decide_eq_true out⟩

theorem exec_responseTimeout_not {s : State} {b : BankId}
    (h : ¬ ((s.bank b).railUp = true ∧ (s.bank b).port.timedOut s.clock.micros = true)) :
    exec (.responseTimeout b) s = .next s.settled := if_neg h

theorem exec_responseTimeout_due {s : State} {b : BankId} (up : (s.bank b).railUp = true)
    (out : (s.bank b).port.timedOut s.clock.micros = true) :
    exec (.responseTimeout b) s = .next (s.begin.event fun w => w.enterFault b .timedOut) := if_pos ⟨up, out⟩

/-- The event of a response timeout carries the timed-out request, or only the count where it was none (R17). -/
theorem faultEvent_timedOut_request {b : BankId} {k : Bank} {x : Slot} {rest : List Slot} {g : Tag} {st : Stream}
    (slots : k.port.slots = x :: rest) (holder : x.holder = .request g st) (n : Nat) : faultEvent b k .timedOut n =
      (.bankTimeout, { bank := some b, tag := some g, stream := some st, detail := some (.count n) }) := by
  unfold faultEvent
  rw [slots, List.head?_cons, Option.map_some, holder]

theorem faultEvent_timedOut_other {b : BankId} {k : Bank} {x : Slot} {rest : List Slot}
    (slots : k.port.slots = x :: rest) (other : ∀ g st, x.holder ≠ .request g st) (n : Nat) :
    faultEvent b k .timedOut n = (.bankTimeout, { bank := some b, detail := some (.count n) }) := by
  unfold faultEvent
  rw [slots, List.head?_cons, Option.map_some]
  dsimp only
  split
  · rename_i g st same
    exact absurd (Option.some.inj same) (other g st)
  · rfl

section
variable {s : State} {b : BankId} {x : Slot} {rest : List Slot} (slots : (s.bank b).port.slots = x :: rest)
  (out : (x.expiryTime - x.forwardTime).toNat ≤ (s.clock.micros - x.forwardTime).toNat)
  (up : (s.bank b).railUp = true) (unlinked : s.Unlinked) (none : s.parked = [])
  (once : (requestTags (s.bank b).port.slots).Nodup)
  (pending : ∀ g ∈ requestTags (s.bank b).port.slots, s.tags[g].state = .pending)
include slots out up unlinked none once pending

theorem exec_responseTimeout_request {u : State} {g : Tag} {st : Stream} (holder : x.holder = .request g st)
    (refills : s.begin.Refills (((s.begin.faultBase b).answered .bankerr [g]).answered .faulted (requestTags rest)) b u) :
    exec (.responseTimeout b) s = .next (u.post .bankTimeout
      { bank := some b, tag := some g, stream := some st
        detail := some (.count (requestTags (s.bank b).port.slots).length) }) := by
  rw [slots] at once pending
  have answers : (s.begin.toFault b).answerSlots .bankerr (s.bank b).port.slots =
      { ((s.begin.faultBase b).answered .bankerr [g]).answered .faulted (requestTags rest) with
        fill := (s.begin.toFault b).fill } := by
    rw [slots]
    exact (State.answerSlots_first (s := s.begin.toFault b) holder .bankerr once pending).trans
      ((congrArg (State.answered · .faulted (requestTags rest)) (s.begin.toFault_answered b .bankerr [g])).trans
        (State.answered_setFill _ _ _ _))
  have leaves := ((FaultLeaves.base s.begin b).answered .bankerr [g]).answered .faulted (requestTags rest)
  have count : (((s.begin.faultBase b).answered .bankerr [g]).answered .faulted (requestTags rest)).responses.length -
      s.begin.responses.length = (requestTags (s.bank b).port.slots).length := by
    rw [State.answered_responses_length, State.answered_responses_length, slots, requestTags_request holder,
      show (s.begin.faultBase b).responses = s.begin.responses from rfl]
    simp only [List.length_cons, List.length_nil]
    omega
  have enters := Work.enterFault_refills (w := Work.start s.begin) (cause := .timedOut) none answers leaves refills count
  rw [faultEvent_timedOut_request (k := (Work.start s.begin).st.bank b) slots holder] at enters
  rw [exec_responseTimeout_due up (Port.timedOut_iff.2 ⟨x, rest, slots, out⟩)]
  exact congrArg Host.Outcome.next (State.event_enterFault (s := s.begin) (w := Work.start s.begin) unlinked rfl rfl leaves
    refills enters)

theorem exec_responseTimeout_other {u : State} (other : ∀ g st, x.holder ≠ .request g st)
    (refills : s.begin.Refills ((s.begin.faultBase b).answered .faulted (requestTags rest)) b u) :
    exec (.responseTimeout b) s = .next (u.post .bankTimeout
      { bank := some b, detail := some (.count (requestTags (s.bank b).port.slots).length) }) := by
  rw [slots, requestTags_other other] at once pending
  have answers : (s.begin.toFault b).answerSlots .bankerr (s.bank b).port.slots =
      { (s.begin.faultBase b).answered .faulted (requestTags rest) with fill := (s.begin.toFault b).fill } := by
    rw [slots]
    exact (State.answerSlots_other other .bankerr).trans
      ((State.answerSlots_faulted (s := s.begin.toFault b) once pending).trans (s.begin.toFault_answered b _ _))
  have leaves := (FaultLeaves.base s.begin b).answered .faulted (requestTags rest)
  have count : ((s.begin.faultBase b).answered .faulted (requestTags rest)).responses.length - s.begin.responses.length =
      (requestTags (s.bank b).port.slots).length := by
    rw [slots, requestTags_other other]
    exact State.answered_count .faulted _ rfl
  have enters := Work.enterFault_refills (w := Work.start s.begin) (cause := .timedOut) none answers leaves refills count
  rw [faultEvent_timedOut_other (k := (Work.start s.begin).st.bank b) slots other] at enters
  rw [exec_responseTimeout_due up (Port.timedOut_iff.2 ⟨x, rest, slots, out⟩)]
  exact congrArg Host.Outcome.next (State.event_enterFault (s := s.begin) (w := Work.start s.begin) unlinked rfl rfl leaves
    refills enters)

end

/-- Settles O45: the two holders of the timed-out slot, and the three places of the bank in the fill queue. -/
theorem responseTimeout : Obligations.ResponseTimeout := by
  unfold Obligations.ResponseTimeout
  refine fun s b => ⟨fun not => exec_responseTimeout_not fun ⟨up, out⟩ => ?_, fun x rest slots out up unlinked none once pending => ?_⟩
  · obtain ⟨x, rest, slots, out⟩ := Port.timedOut_iff.1 out
    rcases not with down | empty | ⟨y, later, slots', running⟩
    · exact down (Bank.railUp_iff.1 up)
    · rw [slots] at empty; cases empty
    · rw [slots] at slots'; cases slots'
      exact absurd out (Nat.not_le.2 running)
  · intro failed count faults
    have request := fun {g} {st} {u} => exec_responseTimeout_request (u := u) (g := g) (st := st) slots out
      (Bank.railUp_iff.2 up) unlinked none once pending
    have other := fun {u} => exec_responseTimeout_other (u := u) slots out (Bank.railUp_iff.2 up) unlinked none once pending
    have each : ∀ begun : State → State, (∀ t, s.begin.Refills t b (begun t)) → faults begun := fun begun refills =>
      ⟨fun g st holder => request holder (refills _), fun none => other none (refills _)⟩
    refine ⟨fun notHead => each id fun t => .other notHead,
      fun only => each (fun u => { u with fill := FillProgress.idle }) fun t => .last only,
      fun c more g next => each (fun u => u.fillBegun c g) fun t => .next c more g (next.transfer rfl rfl)⟩

end Sys2Proof.Machine
end
section
/-! SUPPORT. WAKE_LIMIT_EXPIRY: a failed wake attempt retries, or faults the bank (O43). -/

namespace Sys2Proof.Machine

/-! ### A failed attempt -/

/-- The bank back in WAITING after a failed attempt (R13, R14). -/
def Bank.retried (k : Bank) : Bank :=
  { k with
    power := .waiting, rampStage := 0, dwellTimer := none, wakeTimer := none, charge := 0, attempts := k.attempts + 1
    wakeKind := if k.wakeKind = .fromRetain then .fromOff else k.wakeKind
    marks := if k.wakeKind = .fromRetain then Vector.replicate 32 .lost else k.marks }

theorem Bank.retried_eq (k : Bank) : { k.attemptFailed with charge := 0, power := .waiting } = k.retried := by
  unfold Bank.attemptFailed Bank.retried
  by_cases retained : k.wakeKind = .fromRetain
  · rw [if_pos retained, if_pos retained, if_pos retained]; rfl
  · rw [if_neg retained, if_neg retained, if_neg retained]

theorem Bank.attemptFailed_failed (k : Bank) : ({ k.attemptFailed with charge := 0 } : Bank).failed =
    ({ k with charge := 0, attempts := k.attempts + 1 } : Bank).failed := by
  unfold Bank.attemptFailed
  by_cases retained : k.wakeKind = .fromRetain
  · rw [if_pos retained]; rfl
  · rw [if_neg retained]; rfl

theorem Bank.attemptFailed_attempts (k : Bank) : k.attemptFailed.attempts = k.attempts + 1 := by
  unfold Bank.attemptFailed
  dsimp only
  split <;> rfl

/-- A retry wakes from OFF, whatever the first attempt woke from (R13). -/
theorem Bank.retried_wakeCost (k : Bank) : k.retried.wakeCost = k.config.offCost.toNat := by
  rw [Bank.wakeCost_eq_ite]
  refine if_neg fun same => ?_
  have kind : (if k.wakeKind = .fromRetain then WakeKind.fromOff else k.wakeKind) = .fromRetain := same
  by_cases retained : k.wakeKind = .fromRetain
  · rw [if_pos retained] at kind; cases kind
  · rw [if_neg retained] at kind; exact retained kind

theorem State.failAttempt_eq (s : State) (b : BankId) : s.failAttempt b =
    { s.updBank b (fun k => { k.attemptFailed with charge := 0 }) with unitsHeld := s.unitsHeld - (s.bank b).charge } := by
  have charge : ((s.updBank b Bank.attemptFailed).bank b).charge = (s.bank b).charge := by
    rw [State.bank_updBank_self]
    unfold Bank.attemptFailed
    dsimp only
    split <;> rfl
  unfold State.failAttempt State.releaseUnits
  rw [charge]
  exact State.ext_banks (State.updBank_after (f := Bank.attemptFailed) (fun k => { k with charge := 0 }) rfl) rfl

/-- The state once the bank is back in WAITING, alone in the wake-wait list (R14). -/
def State.retried (s : State) (b : BankId) : State :=
  { s.updBank b (fun _ => (s.bank b).retried) with waitList := [b], unitsHeld := s.unitsHeld - (s.bank b).charge }

theorem State.failAttempt_rejoinWait {s : State} {b : BankId} (alone : s.waitList = []) :
    (s.failAttempt b).rejoinWait b = s.retried b := by
  have banks := State.updBank_after (s := s) (t := s.failAttempt b) (f := fun k => { k.attemptFailed with charge := 0 })
    (fun k => { k with power := .waiting }) (by rw [State.failAttempt_eq])
  have record := congrArg State.banks (State.updBank_congr (s := s) (b := b)
    (f := fun k => { k.attemptFailed with charge := 0, power := .waiting }) (g := fun _ => (s.bank b).retried)
    (Bank.retried_eq (s.bank b)))
  refine State.ext_banks (banks.trans record) ?_
  unfold State.rejoinWait
  rw [State.failAttempt_eq]
  dsimp only
  rw [show (s.updBank b fun k => { k.attemptFailed with charge := 0 }).waitList = [] from alone]
  rfl

theorem State.retried_bank (s : State) (b : BankId) : (s.retried b).bank b = (s.bank b).retried :=
  State.bank_updBank_self s b fun _ => (s.bank b).retried

/-! ### A retry -/

theorem State.post_rejoinWait (s : State) (b : BankId) (k : EventKind) (a : About) :
    (s.post k a).rejoinWait b = (s.rejoinWait b).post k a :=
  (State.post_comm (f := fun t => t.rejoinWait b) k a s rfl rfl rfl rfl rfl fun _ _ _ => rfl).symm

theorem State.post_grantWake (s : State) (b : BankId) (rest : List BankId) (k : EventKind) (a : About) :
    (s.post k a).grantWake b rest = (s.grantWake b rest).post k a :=
  (State.post_comm (f := fun t => t.grantWake b rest) k a s rfl rfl rfl rfl rfl fun _ _ _ => rfl).symm

/-- The event of a retry. -/
def retryAbout (b : BankId) (k : Bank) : About := { bank := some b, detail := some (.count (k.attempts + 1)) }

/-- The state of a retry, its event posted. -/
def State.retry (s : State) (b : BankId) : State := (s.retried b).post .wakeRetry (retryAbout b (s.bank b))

/-- The state once bank `b` is in FAULT after its last attempt (R14, R18). -/
def State.wakeFailed (s : State) (b : BankId) : State :=
  { s.updBank b (fun k => ({ k with charge := 0, attempts := k.attempts + 1 } : Bank).failed) with
    unitsHeld := s.unitsHeld - (s.bank b).charge }

section
variable {w : Work} {b : BankId} (alone : w.st.waitList = [])
include alone

/-- An attempt that has not used up the retries goes back to the wake-wait list, and a grant is tried (R14). -/
theorem Work.failAttempt_retries (left : (w.st.bank b).attempts + 1 ≤ (w.st.bank b).config.retries.toNat) :
    w.failAttempt b = ({ w with st := w.st.retry b } : Work).tryGrant := by
  have attempts : ((w.st.failAttempt b).bank b).attempts = (w.st.bank b).attempts + 1 := by
    rw [State.failAttempt_bank]; exact Bank.attemptFailed_attempts _
  have config : ((w.st.failAttempt b).bank b).config = (w.st.bank b).config := by
    rw [State.failAttempt_bank]; exact Bank.attemptFailed_config _
  have rejoins : ((w.st.failAttempt b).post .wakeRetry
      { bank := some b, detail := some (.count ((w.st.failAttempt b).bank b).attempts) }).rejoinWait b = w.st.retry b := by
    rw [attempts, State.post_rejoinWait, State.failAttempt_rejoinWait alone]
    rfl
  have within : ((w.st.failAttempt b).bank b).attempts ≤ ((w.st.failAttempt b).bank b).config.retries.toNat := by
    rw [attempts, config]; exact left
  refine (if_pos within).trans ?_
  exact congrArg (fun t => ({ w with st := t } : Work).tryGrant) rejoins

omit alone in
theorem State.retry_bank (s : State) (b : BankId) : (s.retry b).bank b = (s.bank b).retried :=
  (State.post_bank _ _ _ b).trans (s.retried_bank b)

/-- Without the units for it, the retry waits (R79). -/
theorem Work.failAttempt_waits (left : (w.st.bank b).attempts + 1 ≤ (w.st.bank b).config.retries.toNat)
    (tight : w.st.global.budget.toNat < w.st.unitsHeld - (w.st.bank b).charge + (w.st.bank b).config.offCost.toNat) :
    w.failAttempt b = { w with st := w.st.retry b } := by
  rw [Work.failAttempt_retries alone left]
  refine Work.tryGrant_waits fun c head => ?_
  have list : (w.st.retry b).waitList = [b] := State.post_waitList ..
  rw [list] at head
  obtain rfl : b = c := Option.some.inj head
  rw [State.retry_bank, Bank.retried_wakeCost, show (w.st.retry b).global = w.st.global from State.post_global ..,
    show (w.st.retry b).unitsHeld = w.st.unitsHeld - (w.st.bank b).charge from State.post_unitsHeld ..]
  exact tight

/-- With them, the bank ramps again, here without completing at once (R80). -/
theorem Work.failAttempt_ramps (left : (w.st.bank b).attempts + 1 ≤ (w.st.bank b).config.retries.toNat)
    (fits : w.st.unitsHeld - (w.st.bank b).charge + (w.st.bank b).config.offCost.toNat ≤ w.st.global.budget.toNat)
    (slow : (w.st.bank b).config.stages.toNat ≠ 1 ∨ (w.st.bank b).pgood = false) : w.failAttempt b =
      { w with st := ((w.st.retried b).grantWake b []).post .wakeRetry (retryAbout b (w.st.bank b)) } := by
  rw [Work.failAttempt_retries alone left]
  have list : (w.st.retry b).waitList = b :: [] := State.post_waitList ..
  have ramps := Work.tryGrant_ramps (w := { w with st := w.st.retry b }) list
    (by rw [State.retry_bank, Bank.retried_wakeCost, show (w.st.retry b).global = w.st.global from State.post_global ..,
      show (w.st.retry b).unitsHeld = w.st.unitsHeld - (w.st.bank b).charge from State.post_unitsHeld ..]; exact fits)
    (by rw [State.retry_bank]; exact slow) fun c head => nomatch head
  exact ramps.trans (congrArg (fun t => ({ w with st := t } : Work)) (State.post_grantWake ..))

/-- An attempt that has used them up faults the bank, here with nothing in flight or parked (R14, R18). -/
theorem Work.failAttempt_faults (spent : (w.st.bank b).config.retries.toNat < (w.st.bank b).attempts + 1)
    (empty : (w.st.bank b).port.slots = []) (absent : b ∉ w.st.fillQueue) (none : w.st.parked = []) : w.failAttempt b =
      ({ w with st := (w.st.wakeFailed b).post .wakeFault (retryAbout b (w.st.bank b)) } : Work).offer b .faulted := by
  have record := State.failAttempt_bank w.st b
  have attempts : ((w.st.failAttempt b).bank b).attempts = (w.st.bank b).attempts + 1 := by
    rw [record]; exact Bank.attemptFailed_attempts _
  have config : ((w.st.failAttempt b).bank b).config = (w.st.bank b).config := by
    rw [record]; exact Bank.attemptFailed_config _
  have beyond : ¬ ((w.st.failAttempt b).bank b).attempts ≤ ((w.st.failAttempt b).bank b).config.retries.toNat := by
    rw [attempts, config]; omega
  have slots : ((w.st.failAttempt b).bank b).port.slots = [] := by
    rw [record]; exact (congrArg Port.slots (Bank.attemptFailed_port _)).trans empty
  have notHead : (w.st.failAttempt b).fillQueue.head? ≠ some b := fun head =>
    absent (by have := List.mem_of_head? head; rw [State.failAttempt_eq] at this; exact this)
  have still : (w.on fun s => s.failAttempt b).tryGrant = w.on fun s => s.failAttempt b :=
    Work.tryGrant_empty (by rw [Work.on_st, State.failAttempt_eq]; exact alone)
  have enters := Work.enterFault_refills (w := w.on fun s => s.failAttempt b) (b := b) (cause := .wakeFailed) (n := 0)
    (t := (w.st.failAttempt b).faultBase b) (by rw [Work.on_st, State.failAttempt_eq]; exact none)
    (by rw [Work.on_st, slots]; rfl) (FaultLeaves.base _ b) (.other notHead) (Nat.sub_self _)
  have base : (w.st.failAttempt b).faultBase b = w.st.wakeFailed b := by
    have banks := State.updBank_after (s := w.st) (t := w.st.failAttempt b)
      (f := fun k => { k.attemptFailed with charge := 0 }) Bank.faulted (by rw [State.failAttempt_eq])
    have same := congrArg State.banks (State.updBank_congr (s := w.st) (b := b)
      (f := fun k => Bank.faulted { k.attemptFailed with charge := 0 })
      (g := fun k => ({ k with charge := 0, attempts := k.attempts + 1 } : Bank).failed) (Bank.attemptFailed_failed (w.st.bank b)))
    have queue : (w.st.fillQueue.filter fun c => c ≠ b) = w.st.fillQueue :=
      List.filter_eq_self.2 fun c mem => decide_eq_true fun same => absent (same ▸ mem)
    refine State.ext_banks (banks.trans same) ?_
    unfold State.faultBase
    rw [State.failAttempt_eq]
    exact congrArg (fun q : List BankId => { w.st.wakeFailed b with fillQueue := q }) queue
  refine (if_neg beyond).trans ?_
  rw [still, enters]
  have about : faultEvent b ((w.on fun s => s.failAttempt b).st.bank b) .wakeFailed 0 =
      (.wakeFault, retryAbout b (w.st.bank b)) := by
    unfold faultEvent retryAbout
    rw [Work.on_st, attempts]
  rw [about, base]
  rfl

end

/-! ### The event -/

theorem exec_wakeLimitExpiry_not {s : State} {b : BankId} (h : (s.bank b).power ≠ .ramping ∨ (s.bank b).wakeTimer ≠ some 0) :
    exec (.wakeLimitExpiry b) s = .next s.settled := if_neg fun ⟨ramping, due⟩ => h.elim (absurd ramping) (absurd due)

theorem exec_wakeLimitExpiry_due {s : State} {b : BankId} (ramping : (s.bank b).power = .ramping)
    (due : (s.bank b).wakeTimer = some 0) :
    exec (.wakeLimitExpiry b) s = .next (s.begin.event fun w => w.failAttempt b) := if_pos ⟨ramping, due⟩

/-- Settles O43: the units are released, and the count of attempts decides between a retry and FAULT. -/
theorem wakeLimitExpiry : Obligations.WakeLimitExpiry := by
  unfold Obligations.WakeLimitExpiry
  refine fun s b => ⟨exec_wakeLimitExpiry_not, fun ramping due quiet => ?_⟩
  have ends := fun {w : Work} (moves : (Work.start s.begin).failAttempt b = w) (links : w.st.links = s.links)
    (crossings : w.crossings = []) => (exec_wakeLimitExpiry_due ramping due).trans (congrArg Host.Outcome.next
      (State.event_unlinked (s := s.begin) (moves := fun w => w.failAttempt b) quiet.unlinked moves links crossings))
  have alone : (Work.start s.begin).st.waitList = [] := quiet.wait
  refine ⟨fun left => ⟨fun tight => ?_, fun fits slow => ?_⟩, fun spent empty absent => ?_⟩
  · exact (ends (Work.failAttempt_waits alone left tight) (State.post_links ..) rfl).trans rfl
  · refine (ends (Work.failAttempt_ramps alone left fits slow) (State.post_links ..) rfl).trans ?_
    refine congrArg (fun t : State => Host.Outcome.next (t.post .wakeRetry _)) ?_
    have banks := State.updBank_after (s := s.begin) (t := s.begin.retried b) (f := fun _ => (s.bank b).retried)
      (fun k => k.granted ((s.begin.retried b).bank b).wakeCost) rfl
    have cost : ((s.begin.retried b).bank b).wakeCost = (s.bank b).config.offCost.toNat := by
      rw [State.retried_bank]; exact Bank.retried_wakeCost _
    refine State.ext (banks.trans ?_) rfl ?_ quiet.wait.symm rfl rfl rfl rfl rfl rfl rfl rfl rfl rfl rfl rfl rfl rfl rfl rfl
      rfl rfl rfl
    · rw [cost]; rfl
    · exact congrArg (s.unitsHeld - (s.bank b).charge + ·) cost
  · exact (ends (Work.failAttempt_faults alone spent empty absent quiet.parked) (State.post_links ..) rfl).trans rfl

end Sys2Proof.Machine
end
section
/-! SUPPORT. One NOTE link at each trigger: the events that offer the trigger, and the note behind their records (O53, first
part). -/

namespace Sys2Proof.Machine

/-! ### A note -/

theorem State.NoteWatches.transfer {s t : State} {b : BankId} {l : LinkId} {x : Trigger} (h : s.NoteWatches b l x)
    (links : t.links = s.links) : t.NoteWatches b l x := by
  obtain ⟨enabled, source, trigger, note, alone⟩ := h
  constructor <;> rw [links] <;> assumption

theorem State.noted_bank (s : State) (b : BankId) (l : LinkId) (x : Trigger) (c : BankId) :
    (s.noted b l x).bank c = s.bank c := State.post_bank (s.linksFired [l]) _ _ c

theorem State.noted_clock (s : State) (b : BankId) (l : LinkId) (x : Trigger) : (s.noted b l x).clock = s.clock :=
  State.post_clock (s.linksFired [l]) _ _

theorem State.noted_replied (s : State) (b : BankId) (l : LinkId) (x : Trigger) (received reply : List Byte) :
    (s.noted b l x).replied received reply = (s.settled.noted b l x).withFrame received reply :=
  congrArg (fun t : State => t.withFrame received reply) (State.post_settled (s.linksFired [l]) _ _)

/-- An event whose moves offer one trigger, which a NOTE link watches (R142, R147). -/
theorem State.event_note {s : State} {b : BankId} {l : LinkId} {x : Trigger} {moves : Work → Work} {w : Work}
    (watches : s.NoteWatches b l x) (result : moves (Work.start s) = w) (links : w.st.links = s.links)
    (offered : w.offered = [(b, x)]) (crossings : w.crossings = []) (fired : w.fired = []) :
    s.event moves = w.st.noted b l x := by
  unfold State.event
  rw [result]
  exact Work.takeTriggers_note (watches.transfer links) offered crossings fired

/-! ### WAKE_BEGUN -/

section
variable {s : State} {b : BankId} {l : LinkId} (watches : s.NoteWatches b l .wakeBegun)
  (present : (s.bank b).config.present = true) (asleep : (s.bank b).power = .off ∨ (s.bank b).power = .retain)
  (alone : s.waitList = []) (tight : s.global.budget.toNat < s.unitsHeld + (s.bank b).costAsleep)
include watches present asleep alone tight

theorem exec_wakeBank_noted (held : s.frameHeld = false) : exec (.wakeBank (byteOf b.val)) s = .next
    (({ s.updBank b fun _ => (s.bank b).awaiting with waitList := [b] }.noted b l .wakeBegun).replied
      [0x13, byteOf b.val] [0x00]) := by
  have wakes := Work.wake_waits (w := Work.start s.begin) false present asleep alone tight
  have noted := State.event_note (s := s.begin) (moves := fun w => w.wake b false) (watches.transfer rfl) wakes
    rfl rfl rfl rfl
  rw [Work.joinWait_st, State.joinWait_alone (s := (Work.start s.begin).st) b alone] at noted
  rw [exec_wakeBank_taken held ((State.wakeBank_asleep (s := s.begin) present asleep).trans
    (congrArg (fun t => Except.ok (t, [])) noted)), State.noted_replied]
  rfl

theorem exec_acceptance_wakes_noted {r : Request} {i : WindowId} (ht : s.Takes r) (hd : s.DecodedThrough r i)
    (target : s.windows[i].config.bank = b) (may : s.windows[i].config.access = .readWrite ∨ r.kind = .read)
    (room : s.parked.length < 24) {entry : Entry} (isEntry : (s.accepted r i).entryFor (s.figures r i) = entry) :
    exec (.acceptance (.edge r)) s = .next
      ({ ((s.accepted r i).withQueue (s.parked ++ [entry])).updBank b (fun _ => (s.bank b).awaiting) with
        waitList := [b] }.noted b l .wakeBegun) := by
  subst isEntry
  obtain rfl : (s.figures r i).bank = b := target
  have noFault : (s.bank (s.figures r i).bank).power ≠ .fault := by rcases asleep with h | h <;> rw [h] <;> decide
  have notOn : (s.bank (s.figures r i).bank).power ≠ .on := by rcases asleep with h | h <;> rw [h] <;> decide
  have notFilling : (s.bank (s.figures r i).bank).power ≠ .filling := by rcases asleep with h | h <;> rw [h] <;> decide
  have hard : (s.bank (s.figures r i).bank).power = .draining → (s.bank (s.figures r i).bank).drainKind ≠ .soft := by
    intro draining; rcases asleep with h | h <;> rw [h] at draining <;> cases draining
  let t := (s.accepted r i).withQueue (s.parked ++ [(s.accepted r i).entryFor (s.figures r i)])
  have bank : (Work.start t).st.bank (s.figures r i).bank = s.bank (s.figures r i).bank :=
    State.withQueue_bank_off (s := s.accepted r i) notOn _
  have wakes := Work.wake_waits (w := Work.start t) (b := (s.figures r i).bank) false (by rw [bank]; exact present)
    (by rw [bank]; exact asleep) alone (by rw [bank]; exact tight)
  rw [exec_acceptance_parked ht hd may room noFault hard,
    Work.place_wakes (w := Work.start (s.accepted r i)) (x := s.figures r i) (State.forwardsDirectly_down notOn notFilling)]
  show Host.Outcome.next ((Work.start t).wake (s.figures r i).bank false).takeTriggers.st = _
  rw [wakes, Work.takeTriggers_note (watches.transfer (by rw [Work.joinWait_st]; rfl)) rfl rfl rfl, Work.joinWait_st,
    State.joinWait_alone (s := (Work.start t).st) _ alone, State.updBank_const, bank]
  rfl

end

/-! ### READY -/

section
variable {s : State} {b : BankId} {l : LinkId} (watches : s.NoteWatches b l .ready) (alone : s.waitList = [])
  (unparked : s.parked = [])
include alone unparked

theorem exec_rampCompletion_filling (ramping : (s.bank b).power = .ramping)
    (last : (s.bank b).rampStage = (s.bank b).config.stages.toNat) (limit : (s.bank b).wakeTimer ≠ none)
    (fills : (s.bank b).config.fillPolicy = .zero ∧ ∃ g : Segment, (s.bank b).marks[g] = .lost) (behind : s.fillQueue ≠ []) :
    exec (.rampCompletion b) s = .next
      { s.settled.updBank b fun _ => { (s.bank b).raised.ramped with power := .filling } with
        unitsHeld := s.unitsHeld - (s.bank b).charge, fillQueue := s.fillQueue ++ [b] } := by
  rw [exec_rampCompletion, State.event_silent (s := s.begin) (moves := fun w => (w.bank b Bank.raised).finishRamp b)
    (Work.finishRamp_filling (State.raised_rampDone ramping last limit) alone unparked behind
      (by rw [State.raised_bank]; exact fills)) rfl rfl]
  exact congrArg Host.Outcome.next (State.ramped_after s.begin b Bank.raised
    (fun k => { k.ramped with power := .filling }) (s.fillQueue ++ [b]))

include watches

theorem exec_rampCompletion_noted (ramping : (s.bank b).power = .ramping)
    (last : (s.bank b).rampStage = (s.bank b).config.stages.toNat) (limit : (s.bank b).wakeTimer ≠ none)
    (stays : ¬ ((s.bank b).config.fillPolicy = .zero ∧ ∃ g : Segment, (s.bank b).marks[g] = .lost)) :
    exec (.rampCompletion b) s = .next
      ({ s.settled.updBank b fun _ => (s.bank b).raised.ramped.readied with
        unitsHeld := s.unitsHeld - (s.bank b).charge }.noted b l .ready) := by
  rw [exec_rampCompletion, State.event_note (s := s.begin) (moves := fun w => (w.bank b Bank.raised).finishRamp b)
    (watches.transfer rfl) (Work.finishRamp_on (State.raised_rampDone ramping last limit) alone unparked
      (by rw [State.raised_bank]; exact stays)) rfl rfl rfl rfl]
  exact congrArg (fun t : State => Host.Outcome.next (t.noted b l .ready))
    (State.ramped_after s.begin b Bank.raised (fun k => k.ramped.readied) s.fillQueue)

theorem exec_stageDwellExpiry_noted (ramping : (s.bank b).power = .ramping) (due : (s.bank b).dwellTimer = some 0)
    (last : (s.bank b).rampStage + 1 = (s.bank b).config.stages.toNat) (high : (s.bank b).pgood = true)
    (limit : (s.bank b).wakeTimer ≠ none)
    (stays : ¬ ((s.bank b).config.fillPolicy = .zero ∧ ∃ g : Segment, (s.bank b).marks[g] = .lost)) :
    exec (.stageDwellExpiry b) s = .next
      ({ s.settled.updBank b fun _ => (s.bank b).nextStage.ramped.readied with
        unitsHeld := s.unitsHeld - (s.bank b).charge }.noted b l .ready) := by
  have bank : ((Work.start s.begin).bank b Bank.nextStage).st.bank b = (s.bank b).nextStage := State.bank_updBank_self _ b _
  have done : (((Work.start s.begin).bank b Bank.nextStage).st.bank b).rampDone = true := by
    rw [bank, Bank.rampDone_iff]
    exact ⟨ramping, last, high, limit⟩
  rw [exec_stageDwellExpiry_due ramping due, State.event_note (s := s.begin)
    (moves := fun w => (w.bank b Bank.nextStage).finishRamp b) (watches.transfer rfl)
    (Work.finishRamp_on done alone unparked (by rw [bank]; exact stays)) rfl rfl rfl rfl]
  exact congrArg (fun t : State => Host.Outcome.next (t.noted b l .ready))
    (State.ramped_after s.begin b Bank.nextStage (fun k => k.ramped.readied) s.fillQueue)

omit alone in
theorem exec_fillError_noted {x : Slot} {rest : List Slot} {g : Segment} (h : s.FillCompletes b x rest g)
    (data : Vector Byte 64) (only : s.fillQueue = [b]) :
    exec (.completion b .error data) s = .next ((s.fillFailed b g rest []).noted b l .ready) := by
  have after := s.fillFailed_after b g rest []
  have acts := (Work.completeFillWrite_error (h.isCurrent .error)).trans (congrArg (·, FillStep.issue) (h.failsLast unparked only))
  have queue : (s.fillFailed b g rest []).fillQueue = [] := State.post_fillQueue ..
  have completes := (Work.complete_eq ((Work.holderAction_fill h.holder .error data).trans acts)
    (Work.scan_empty (show (s.fillFailed b g rest []).parked = [] from (State.post_parked ..).trans unparked))).trans
      ((congrArg (fun w : Work => w.drainIfEmpty b) (Work.fillStep_issue_other fun head => by
        cases (congrArg List.head? queue).symm.trans head)).trans
        (Work.drainIfEmpty_not after.power))
  refine exec_completion h.taken h.slots ?_ (.inr ?_)
  · rw [completes]
    exact Work.takeTriggers_note (watches.transfer after.links) rfl rfl rfl
  · rw [State.noted_bank, State.noted_clock]
    exact after.inTime h.limit h.inTime

end

end Sys2Proof.Machine
end
section
/-! SUPPORT. One NOTE link at DRAIN_BEGUN, ASLEEP, FAULTED and COUNT (O53, first part). -/

namespace Sys2Proof.Machine

/-! ### DRAIN_BEGUN -/

section
variable {s : State} {b : BankId} {l : LinkId} (watches : s.NoteWatches b l .drainBegun) (on : (s.bank b).power = .on)
  (busy : (s.bank b).port.slots ≠ [])
include watches on busy

theorem exec_idleExpiry_noted (due : (s.bank b).idleTimer = .counting 0) : exec (.idleExpiry b) s = .next
    ((s.settled.updBank b fun _ => (s.bank b).softDraining).noted b l .drainBegun) := by
  rw [exec_idleExpiry_due on due, State.event_note (s := s.begin) (moves := fun w => w.softDrain b) (watches.transfer rfl)
    (Work.softDrain_busy (w := Work.start s.begin) busy) rfl rfl rfl rfl]
  rfl

theorem exec_sleepBank_noted {target : Byte} (held : s.frameHeld = false) (present : (s.bank b).config.present = true)
    (coded : target.toNat ≤ 1) (notHead : s.fillQueue.head? ≠ some b) : exec (.sleepBank (byteOf b.val) target) s = .next
      (({ s.updBank b fun _ => (s.bank b).draining .hard (sleepTarget target) with
        fillQueue := s.fillQueue.filter fun c => c ≠ b }.noted b l .drainBegun).replied
          [0x14, byteOf b.val, target] [0x00]) := by
  have record : (s.begin.updBank b fun k => k.draining .hard (sleepTarget target)).bank b =
      (s.bank b).draining .hard (sleepTarget target) := State.bank_updBank_self _ b _
  have drains := (Work.hardDrain_other (w := Work.start s.begin) (sleepTarget target) false notHead).trans
    (Work.drainBegun_busy false record busy)
  have noted := Work.takeTriggers_note (watches.transfer (t := { s.begin.updBank b (fun k =>
    k.draining .hard (sleepTarget target)) with fillQueue := s.fillQueue.filter fun c => c ≠ b }) rfl)
    (w := ((Work.start s.begin).on fun s => { s.updBank b (fun k => k.draining .hard (sleepTarget target)) with
      fillQueue := s.fillQueue.filter fun c => c ≠ b }).drainBegun b false) rfl rfl rfl
  rw [exec_sleepBank_taken held coded present (by rw [on]; decide), Work.sleep_up (w := Work.start s.begin) _ false (.inl on),
    drains, noted, State.noted_replied]
  rfl

end

/-! ### ASLEEP -/

section
variable {s : State} {b : BankId} {l : LinkId} (watches : s.NoteWatches b l .asleep) (draining : (s.bank b).power = .draining)
include watches draining

theorem exec_drainCompletion_noted (empty : (s.bank b).port.slots = []) (none : ∀ e ∈ s.parked, e.req.bank ≠ b) :
    exec (.drainCompletion b) s = .next ((s.settled.updBank b fun _ => (s.bank b).rested).noted b l .asleep) :=
  (congrArg Host.Outcome.next (State.event_note (s := s.begin) (moves := fun w => w.drainIfEmpty b) (watches.transfer rfl)
    (Work.drainIfEmpty_rests (w := Work.start s.begin) draining empty none) rfl rfl rfl rfl)).trans rfl

theorem exec_completion_orphan_noted {result : BankResult} {data : Vector Byte 64} {x : Slot} {g : Tag} {st : Stream}
    (taken : (s.bank b).port.ignoring = false) (slots : (s.bank b).port.slots = [x]) (holder : x.holder = .orphan g st)
    (none : s.parked = []) (notHead : s.fillQueue.head? ≠ some b) : exec (.completion b result data) s = .next
      ((s.settled.updBank b fun _ => ((s.bank b).slotFreed []).rested).noted b l .asleep) := by
  have record := State.freed_bank s.settled b []
  have completes := (Work.complete_other (w := Work.start s.settled) (f := id) notHead
    (Work.holderAction_orphan holder result data) (Work.scan_empty none) rfl).trans
      (Work.drainIfEmpty_rests (w := (Work.start s.settled).on fun t => t.freed b [])
        ((congrArg Bank.power record).trans draining) (congrArg (·.port.slots) record)
        fun e mem => absurd (none ▸ mem : e ∈ ([] : List Entry)) List.not_mem_nil)
  have rested : (s.settled.freed b []).updBank b Bank.rested =
      s.settled.updBank b fun _ => ((s.bank b).slotFreed []).rested :=
    State.updBank_updBank s.settled b (fun k => k.slotFreed []) Bank.rested
  refine exec_completion taken slots ?_ (.inl ?_)
  · rw [State.completing_settled result (.inr notHead), completes]
    exact (Work.takeTriggers_note (watches.transfer rfl) rfl rfl rfl).trans
      (congrArg (fun t : State => t.noted b l .asleep) rested)
  · rw [State.noted_bank, State.bank_updBank_self]
    unfold Bank.rested
    split <;> rfl

end

/-! ### FAULTED -/

theorem State.answerSlots_none : ∀ {q : List Slot} (s : State) (x : Status), requestTags q = [] → s.answerSlots x q = s
  | [], _, _, _ => rfl
  | x :: q, s, first, idle => by
    rcases x.request_or_other with ⟨g, st, holder⟩ | other
    · rw [requestTags_request holder] at idle; cases idle
    · rw [requestTags_other other] at idle
      rw [State.answerSlots_other other]
      exact State.answerSlots_none s .faulted idle

theorem State.faultBase_absent {s : State} {b : BankId} (absent : b ∉ s.fillQueue) : s.faultBase b = s.updBank b Bank.faulted := by
  have queue : (s.fillQueue.filter fun c => c ≠ b) = s.fillQueue :=
    List.filter_eq_self.2 fun c mem => decide_eq_true fun same => absent (same ▸ mem)
  unfold State.faultBase
  rw [queue]
  rfl

/-- The state of an entry into FAULT that answers nothing, its event posted (R18). -/
def State.faultedAs (s : State) (b : BankId) (event : EventKind × About) : State :=
  (s.updBank b Bank.faulted).post event.1 event.2

/-- An entry into FAULT with no request in flight or parked, of a bank outside the fill queue. -/
theorem Work.enterFault_idle {w : Work} {b : BankId} (cause : FaultCause) (none : w.st.parked = [])
    (idle : requestTags (w.st.bank b).port.slots = []) (absent : b ∉ w.st.fillQueue) :
    w.enterFault b cause = (w.on fun s => s.faultedAs b (faultEvent b (w.st.bank b) cause 0)).offer b .faulted := by
  have enters := Work.enterFault_refills (w := w) (b := b) (cause := cause) (n := 0) none
    (State.answerSlots_none (w.st.toFault b) cause.firstStatus idle) (FaultLeaves.base w.st b)
    (.other fun head => absent (List.mem_of_head? head)) (Nat.sub_self _)
  rw [State.faultBase_absent absent] at enters
  exact enters

section
variable {s : State} {b : BankId} {l : LinkId} (watches : s.NoteWatches b l .faulted) (none : s.parked = [])
  (absent : b ∉ s.fillQueue)
include watches none absent

theorem exec_railDrop_noted (up : (s.bank b).railUp = true) (idle : requestTags (s.bank b).port.slots = []) :
    exec (.railDrop b) s = .next (((s.settled.updBank b fun _ => (s.bank b).dropped.failed).post .railDrop
      { bank := some b, detail := some (.count 0) }).noted b l .faulted) := by
  have enters := Work.enterFault_idle (w := (Work.start s.begin).bank b Bank.dropped) .railDropped none
    ((congrArg (fun k : Bank => requestTags k.port.slots) (s.dropped_bank b)).trans idle) absent
  rw [exec_railDrop_up up, State.event_note (s := s.begin) (moves := fun w => (w.bank b Bank.dropped).enterFault b .railDropped)
    (watches.transfer rfl) enters (State.post_links ..) rfl rfl rfl]
  exact congrArg (fun t : State => Host.Outcome.next ((t.post .railDrop _).noted b l .faulted))
    (State.updBank_updBank s.begin b Bank.dropped Bank.faulted)

theorem exec_responseTimeout_noted {x : Slot} {rest : List Slot} (up : (s.bank b).railUp = true)
    (idle : requestTags (s.bank b).port.slots = []) (slots : (s.bank b).port.slots = x :: rest)
    (out : (x.expiryTime - x.forwardTime).toNat ≤ (s.clock.micros - x.forwardTime).toNat) :
    exec (.responseTimeout b) s = .next (((s.settled.updBank b fun _ => (s.bank b).failed).post .bankTimeout
      { bank := some b, detail := some (.count 0) }).noted b l .faulted) := by
  have other : ∀ g st, x.holder ≠ .request g st := fun g st holder => by
    rw [slots, requestTags_request holder] at idle; cases idle
  have enters := Work.enterFault_idle (w := Work.start s.begin) .timedOut none idle absent
  rw [faultEvent_timedOut_other (k := (Work.start s.begin).st.bank b) slots other] at enters
  rw [exec_responseTimeout_due up (Port.timedOut_iff.2 ⟨x, rest, slots, out⟩),
    State.event_note (s := s.begin) (moves := fun w => w.enterFault b .timedOut) (watches.transfer rfl) enters
      (State.post_links ..) rfl rfl rfl]
  rfl

theorem exec_wakeLimitExpiry_noted (ramping : (s.bank b).power = .ramping) (due : (s.bank b).wakeTimer = some 0)
    (alone : s.waitList = []) (spent : (s.bank b).config.retries.toNat < (s.bank b).attempts + 1)
    (empty : (s.bank b).port.slots = []) : exec (.wakeLimitExpiry b) s = .next
      (((s.settled.wakeFailed b).post .wakeFault (retryAbout b (s.bank b))).noted b l .faulted) := by
  rw [exec_wakeLimitExpiry_due ramping due, State.event_note (s := s.begin) (moves := fun w => w.failAttempt b)
    (watches.transfer rfl) (Work.failAttempt_faults (w := Work.start s.begin) alone spent empty absent none)
    (State.post_links ..) rfl rfl rfl]
  rfl

end

/-! ### COUNT -/

theorem exec_acceptance_count_noted {s : State} {b : BankId} {l : LinkId} (watches : s.NoteWatches b l .count) {r : Request}
    {i : WindowId} (ht : s.Takes r) (hd : s.DecodedThrough r i) (target : s.windows[i].config.bank = b)
    (may : s.windows[i].config.access = .readWrite ∨ r.kind = .read)
    (direct : s.forwardsDirectly (s.figures r i) = true) (crosses : (s.bank b).crosses = true) :
    exec (.acceptance (.edge r)) s = .next ((((s.accepted r i).sendRequest (s.figures r i)).post .countReached
      { bank := some b, tag := some r.tag, stream := some r.stream }).noted b l .count) := by
  subst target
  have crossing : ((Work.start (s.accepted r i)).forward (s.figures r i)).crossings =
      [(s.windows[i].config.bank, r.tag, r.stream)] := if_pos crosses
  rw [exec_acceptance_forwarded ht hd may direct, Work.takeTriggers_note_count (watches.transfer rfl) rfl crossing rfl]
  rfl

end Sys2Proof.Machine
end
section
/-! SUPPORT. Several NOTE links in one event: the triggers are taken in the order offered, and the links of a trigger in
ascending order (O53, second part). -/

namespace Sys2Proof.Machine

/-! ### One firing -/

/-- The fire count of a link that fires rises, and no other link changes (R142). -/
theorem State.linksFired_one (s : State) (l : LinkId) :
    ({ s with links := s.links.set l s.links[l].firedOnce } : State) = s.linksFired [l] := by
  refine State.ext rfl rfl rfl rfl rfl rfl rfl (Vector.ext fun i hi => ?_) rfl rfl rfl rfl rfl rfl rfl rfl rfl rfl rfl rfl
    rfl rfl rfl
  unfold State.linksFired
  by_cases same : l.val = i
  · subst same; simp [Link.firedOnce, Link.fireCountRaised]; split <;> simp_all
  · have other : (⟨i, hi⟩ : LinkId) ≠ l := fun h => same (congrArg Fin.val h).symm
    simp [same, other]

theorem State.linksFired_links (s : State) (q : List LinkId) (l : LinkId) : (s.linksFired q).links[l] =
    if l ∈ q then { s.links[l] with fireCount := s.links[l].fireCountRaised } else s.links[l] :=
  Vector.getElem_ofFn l.isLt

theorem State.linksFired_config (s : State) (q : List LinkId) (l : LinkId) :
    (s.linksFired q).links[l].config = s.links[l].config := by
  rw [State.linksFired_links]
  split <;> rfl

theorem State.linksFired_nil (s : State) : s.linksFired [] = s := by
  refine State.ext rfl rfl rfl rfl rfl rfl rfl (Vector.ext fun i hi => ?_) rfl rfl rfl rfl rfl rfl rfl rfl rfl rfl rfl rfl
    rfl rfl rfl
  exact (s.linksFired_links [] ⟨i, hi⟩).trans (if_neg List.not_mem_nil)

/-- Firings of different links, one after the other. -/
theorem State.linksFired_cons {s : State} {l : LinkId} {q : List LinkId} (new : l ∉ q) :
    (s.linksFired [l]).linksFired q = s.linksFired (l :: q) := by
  refine State.ext rfl rfl rfl rfl rfl rfl rfl (Vector.ext fun i hi => ?_) rfl rfl rfl rfl rfl rfl rfl rfl rfl rfl rfl rfl
    rfl rfl rfl
  have left := (s.linksFired [l]).linksFired_links q ⟨i, hi⟩
  have one := s.linksFired_links [l] ⟨i, hi⟩
  have right := s.linksFired_links (l :: q) ⟨i, hi⟩
  refine left.trans (Eq.trans ?_ right.symm)
  rw [one]
  by_cases same : (⟨i, hi⟩ : LinkId) = l
  · rw [same, if_neg new, if_pos List.mem_cons_self, if_pos List.mem_cons_self]
  · rw [if_neg (fun mem => same (List.mem_singleton.1 mem))]
    by_cases mem : (⟨i, hi⟩ : LinkId) ∈ q
    · rw [if_pos mem, if_pos (List.mem_cons_of_mem l mem)]
    · rw [if_neg mem, if_neg fun h => (List.mem_cons.1 h).elim same mem]

theorem State.post_linksFired (s : State) (q : List LinkId) (k : EventKind) (a : About) :
    (s.post k a).linksFired q = (s.linksFired q).post k a := by
  refine (State.post_comm (f := fun t => t.linksFired q) k a s rfl rfl rfl rfl rfl fun _ _ _ => ?_).symm
  unfold State.linksFired
  rfl

theorem State.noted_config (s : State) (b : BankId) (l : LinkId) (x : Trigger) (m : LinkId) :
    (s.noted b l x).links[m].config = s.links[m].config := by
  rw [State.noted, State.post_links]
  exact s.linksFired_config [l] m

/-- The firing of a NOTE link (R142, R147). -/
theorem Work.fire_note {w : Work} {l : LinkId} (note : w.st.links[l].config.action = .note) (crossings : w.crossings = [])
    (b : BankId) (x : Trigger) (still : List (BankId × Trigger)) : w.fire l (b, x) still =
      { st := w.st.noted b l x, offered := still, crossings := [], fired := l :: w.fired } := by
  have note' : (w.st.linksFired [l]).links[l].config.action = .note :=
    (congrArg LinkConfig.action (w.st.linksFired_config [l] l)).trans note
  unfold Work.fire Work.act
  simp only [Work.on, State.linksFired_one, note', crossings]
  rfl

/-! ### The links of one trigger -/

/-- The enabled links that a trigger of bank `b` matches (R142). -/
def State.watchers (s : State) (b : BankId) (x : Trigger) (fired : List LinkId) : List LinkId :=
  (List.finRange 8).filter fun l =>
    s.links[l].config.enabled ∧ s.links[l].config.source = b ∧ s.links[l].config.trigger = x ∧ l ∉ fired

theorem State.matchingLink_watchers (s : State) (fired : List LinkId) (b : BankId) (x : Trigger) :
    s.matchingLink fired b x = (s.watchers b x fired).head? := (List.head?_filter ..).symm

theorem State.watchers_congr {s t : State} (config : ∀ m : LinkId, t.links[m].config = s.links[m].config) (b : BankId)
    (x : Trigger) (fired : List LinkId) : t.watchers b x fired = s.watchers b x fired := by
  unfold State.watchers
  refine List.filter_congr fun m _ => ?_
  rw [config]

theorem State.mem_watchers {s : State} {b : BankId} {x : Trigger} {fired : List LinkId} {l : LinkId} :
    l ∈ s.watchers b x fired ↔ s.links[l].config.enabled = true ∧ s.links[l].config.source = b
      ∧ s.links[l].config.trigger = x ∧ l ∉ fired := by
  unfold State.watchers
  rw [List.mem_filter, decide_eq_true_iff]
  exact and_iff_right (List.mem_finRange l)

/-- Once the lowest of them has fired, the others are left. -/
theorem State.watchers_fired {s : State} {b : BankId} {x : Trigger} {fired : List LinkId} {l : LinkId} {q : List LinkId}
    (watch : s.watchers b x fired = l :: q) : s.watchers b x (l :: fired) = q := by
  have once : (l :: q).Nodup := watch ▸ (List.nodup_finRange 8).filter _
  have split : s.watchers b x (l :: fired) = (s.watchers b x fired).filter fun m => m ≠ l := by
    unfold State.watchers
    rw [List.filter_filter]
    refine List.filter_congr fun m _ => ?_
    by_cases same : m = l <;> simp [same]
  rw [split, watch, List.filter_cons_of_neg (by simp)]
  exact List.filter_eq_self.2 fun m mem => decide_eq_true fun same => (List.nodup_cons.1 once).1 (same ▸ mem)

/-- The notes of a run of links, each link fired with its note. -/
def State.notedBy (s : State) (b : BankId) (x : Trigger) : List LinkId → State
  | [] => s
  | l :: q => (s.noted b l x).notedBy b x q

theorem State.notedBy_config (b : BankId) (x : Trigger) : ∀ (q : List LinkId) (s : State) (m : LinkId),
    (s.notedBy b x q).links[m].config = s.links[m].config
  | [], _, _ => rfl
  | l :: q, s, m => (State.notedBy_config b x q (s.noted b l x) m).trans (s.noted_config b l x m)

/-- The notes stand behind all the counts. -/
theorem State.notedBy_eq (b : BankId) (x : Trigger) : ∀ {q : List LinkId} {s : State}, q.Nodup →
    s.notedBy b x q = q.foldl (fun (v : State) (l : LinkId) =>
      v.post .linkNote { bank := some b, link := some l, detail := some (.trigger x) }) (s.linksFired q)
  | [], s, _ => s.linksFired_nil.symm
  | l :: q, s, once => by
    obtain ⟨new, once⟩ := List.nodup_cons.1 once
    rw [State.notedBy, State.notedBy_eq b x once, List.foldl_cons, State.noted, State.post_linksFired,
      State.linksFired_cons new]

/-- A run of event posts by NOTE links commutes with the firings of others. -/
theorem State.notes_linksFired (b : BankId) (x : Trigger) (p : List LinkId) : ∀ (q : List LinkId) (s : State),
    (q.foldl (fun (v : State) (l : LinkId) =>
      v.post .linkNote { bank := some b, link := some l, detail := some (.trigger x) }) s).linksFired p =
    q.foldl (fun (v : State) (l : LinkId) =>
      v.post .linkNote { bank := some b, link := some l, detail := some (.trigger x) }) (s.linksFired p)
  | [], _ => rfl
  | l :: q, s => by
    rw [List.foldl_cons, List.foldl_cons, State.notes_linksFired b x p q, State.post_linksFired]

theorem State.linksFired_append : ∀ {p q : List LinkId} {s : State}, (p ++ q).Nodup →
    (s.linksFired p).linksFired q = s.linksFired (p ++ q)
  | [], q, s, _ => by rw [State.linksFired_nil]; rfl
  | l :: p, q, s, once => by
    obtain ⟨new, once⟩ := List.nodup_cons.1 once
    rw [← State.linksFired_cons (fun mem => new (List.mem_append_left q mem)), State.linksFired_append once]
    exact State.linksFired_cons new

/-! ### A run of firings -/

/-- A trigger that no link watches, or whose links have fired, is dropped. -/
theorem Work.fireUpTo_drop {w : Work} {o : BankId × Trigger} {later : List (BankId × Trigger)}
    (offered : w.offered = o :: later) (none : w.st.watchers o.1 o.2 w.fired = []) (n : Nat) :
    w.fireUpTo n = ({ w with offered := later } : Work).fireUpTo n := by
  cases n with
  | zero => rfl
  | succ n =>
    have skips : w.st.nextFiring w.fired w.offered = w.st.nextFiring w.fired later := by
      rw [offered, State.nextFiring, State.matchingLink_watchers, none]
      rfl
    unfold Work.fireUpTo
    rw [skips]
    dsimp only
    cases w.st.nextFiring w.fired later <;> rfl

/-- The NOTE links that watch a trigger fire in ascending order (R142, R143). -/
theorem Work.fireUpTo_notes {b : BankId} {x : Trigger} {later : List (BankId × Trigger)} :
    ∀ {q : List LinkId} {w : Work}, w.offered = (b, x) :: later → w.crossings = [] → w.st.watchers b x w.fired = q →
      (∀ l ∈ q, w.st.links[l].config.action = .note) → ∀ n : Nat, w.fireUpTo (q.length + n) =
        Work.fireUpTo { st := w.st.notedBy b x q, offered := later, crossings := [], fired := q.reverse ++ w.fired } n
  | [], w, offered, crossings, watch, _, n => by
    rw [List.length_nil, Nat.zero_add, Work.fireUpTo_drop offered watch, ← crossings]
    rfl
  | l :: q, w, offered, crossings, watch, notes, n => by
    have next : w.st.nextFiring w.fired w.offered = some (l, (b, x), (b, x) :: later) := by
      rw [offered, State.nextFiring, State.matchingLink_watchers, watch]
      rfl
    have config := w.st.noted_config b l x
    have fires := Work.fire_note (notes l List.mem_cons_self) crossings b x ((b, x) :: later)
    have rest := Work.fireUpTo_notes (q := q)
      (w := { st := w.st.noted b l x, offered := (b, x) :: later, crossings := [], fired := l :: w.fired }) rfl rfl
      ((State.watchers_congr config b x (l :: w.fired)).trans (State.watchers_fired watch))
      (fun m mem => (congrArg LinkConfig.action (config m)).trans (notes m (List.mem_cons_of_mem l mem))) n
    rw [List.length_cons, Nat.add_right_comm, Work.fireUpTo, next]
    dsimp only
    rw [fires, rest, List.reverse_cons, List.append_assoc]
    rfl

/-! ### DRAIN_BEGUN and ASLEEP in one event -/

/-- The links that O53 lists for a trigger, where every enabled link is one of bank `b`. -/
def State.watching (s : State) (x : Trigger) : List LinkId :=
  (List.finRange 8).filter fun l => s.links[l].config.enabled = true ∧ s.links[l].config.trigger = x

/-- The notes of these links behind the counts. -/
def State.notes (s : State) (b : BankId) (x : Trigger) (q : List LinkId) : State :=
  q.foldl (fun (v : State) (l : LinkId) => v.post .linkNote { bank := some b, link := some l, detail := some (.trigger x) }) s

theorem State.watchers_watching {s : State} {b : BankId} {x : Trigger} {fired : List LinkId}
    (source : ∀ l : LinkId, s.links[l].config.enabled = true → s.links[l].config.source = b)
    (fresh : ∀ l ∈ fired, s.links[l].config.trigger ≠ x) : s.watchers b x fired = s.watching x := by
  unfold State.watchers State.watching
  refine List.filter_congr fun l _ => decide_eq_decide.2 ⟨fun ⟨enabled, _, trigger, _⟩ => ⟨enabled, trigger⟩,
    fun ⟨enabled, trigger⟩ => ⟨enabled, source l enabled, trigger, fun mem => fresh l mem trigger⟩⟩

theorem State.watching_nodup (s : State) (x : Trigger) : (s.watching x).Nodup := (List.nodup_finRange 8).filter _

theorem State.mem_watching {s : State} {x : Trigger} {l : LinkId} :
    l ∈ s.watching x ↔ s.links[l].config.enabled = true ∧ s.links[l].config.trigger = x := by
  unfold State.watching
  rw [List.mem_filter, decide_eq_true_iff]
  exact and_iff_right (List.mem_finRange l)

/-- An event that offers two triggers of bank `b`, with NOTE links alone enabled, all of them of that bank (R142, R143). -/
theorem Work.takeTriggers_notes {w : Work} {b : BankId} {x y : Trigger} (differ : x ≠ y) (offered : w.offered = [(b, x), (b, y)])
    (crossings : w.crossings = []) (fired : w.fired = [])
    (links : ∀ l : LinkId, w.st.links[l].config.enabled = true →
      w.st.links[l].config.source = b ∧ w.st.links[l].config.action = .note) :
    w.takeTriggers.st = ((w.st.linksFired (w.st.watching x ++ w.st.watching y)).notes b x (w.st.watching x)).notes b y
      (w.st.watching y) := by
  have source := fun l enabled => (links l enabled).1
  have apart : (w.st.watching x ++ w.st.watching y).Nodup := by
    refine List.nodup_append.2 ⟨w.st.watching_nodup x, w.st.watching_nodup y, fun l memX m memY same => ?_⟩
    subst same
    exact differ ((State.mem_watching.1 memX).2.symm.trans (State.mem_watching.1 memY).2)
  have short : (w.st.watching x).length + (w.st.watching y).length ≤ 8 := by
    have := apart.length_le_card
    rw [List.length_append, Fintype.card_fin] at this
    exact this
  have notes : ∀ z, ∀ l ∈ w.st.watching z, w.st.links[l].config.action = .note := fun z l mem =>
    (links l (State.mem_watching.1 mem).1).2
  have config := State.notedBy_config b x (w.st.watching x) w.st
  have first := Work.fireUpTo_notes (w := w) offered crossings
    (State.watchers_watching source (by rw [fired]; intro l mem; cases mem)) (notes x)
    ((w.st.watching y).length + (8 - ((w.st.watching x).length + (w.st.watching y).length)))
  have second := Work.fireUpTo_notes
    (w := { st := w.st.notedBy b x (w.st.watching x), offered := [(b, y)], crossings := []
            fired := (w.st.watching x).reverse ++ w.fired }) rfl rfl
    ((State.watchers_congr config b y _).trans (State.watchers_watching source fun l mem => by
      rw [fired, List.append_nil, List.mem_reverse, State.mem_watching] at mem
      rw [mem.2]; exact differ))
    (fun l mem => (congrArg LinkConfig.action (config l)).trans (notes y l mem))
    (8 - ((w.st.watching x).length + (w.st.watching y).length))
  have ends : ∀ (v : Work) (n : Nat), v.offered = [] → (v.fireUpTo n).st = v.st := fun v n none => by
    cases n with
    | zero => rfl
    | succ n => unfold Work.fireUpTo; rw [none]; rfl
  have eight : 8 = (w.st.watching x).length + ((w.st.watching y).length +
      (8 - ((w.st.watching x).length + (w.st.watching y).length))) := by omega
  unfold Work.takeTriggers
  rw [Work.settle_nothing crossings, eight, first, second, ends _ _ rfl, State.notedBy_eq b x (w.st.watching_nodup x),
    State.notedBy_eq b y (w.st.watching_nodup y), State.notes_linksFired, State.linksFired_append apart]
  rfl

end Sys2Proof.Machine
end
section
/-! SUPPORT. A link that acts: what each action does to its target, by the target's state (O53, third part). -/

namespace Sys2Proof.Machine

/-! ### The firing -/

/-- The state once link `l` has fired at the DRAIN_BEGUN of an idle expiry of bank `b`, its action apart. -/
def State.drainFired (s : State) (b : BankId) (l : LinkId) : State :=
  (s.settled.updBank b fun _ => (s.bank b).softDraining).linksFired [l]

/-- The event at that point. -/
def Work.drainFired (s : State) (b : BankId) (l : LinkId) : Work :=
  { st := s.drainFired b l, offered := [(b, .drainBegun)], crossings := [], fired := [l] }

theorem State.drainFired_self (s : State) (b : BankId) (l : LinkId) : (s.drainFired b l).bank b = (s.bank b).softDraining :=
  State.bank_updBank_self s.settled b fun _ => (s.bank b).softDraining

theorem State.drainFired_other (s : State) {b c : BankId} (other : c ≠ b) (l : LinkId) : (s.drainFired b l).bank c = s.bank c :=
  State.bank_updBank_ne s.settled (fun _ => (s.bank b).softDraining) other

theorem State.drainFired_config (s : State) (b : BankId) (l m : LinkId) :
    (s.drainFired b l).links[m].config = s.links[m].config :=
  State.linksFired_config (s.settled.updBank b fun _ => (s.bank b).softDraining) [l] m

/-- Triggers that no link watches end the event. -/
theorem Work.fireUpTo_unwatched : ∀ {q : List (BankId × Trigger)} {w : Work}, w.offered = q →
    (∀ o ∈ q, w.st.watchers o.1 o.2 w.fired = []) → ∀ n : Nat, (w.fireUpTo n).st = w.st
  | [], w, offered, _, 0 => rfl
  | [], w, offered, _, n + 1 => by unfold Work.fireUpTo; rw [offered]; rfl
  | o :: q, w, offered, unwatched, n => by
    rw [Work.fireUpTo_drop offered (unwatched o List.mem_cons_self)]
    exact Work.fireUpTo_unwatched (w := { w with offered := q }) rfl
      (fun x mem => unwatched x (List.mem_cons_of_mem o mem)) n

section
variable {s : State} {b : BankId} {l : LinkId} (h : s.OneLinkWatches b l)
include h

theorem State.OneLinkWatches.matchingLink {t : State} (links : t.links = s.links) :
    t.matchingLink [] b .drainBegun = some l := by
  refine find?_finRange_only (by rw [links]; exact decide_eq_true ⟨h.enabled, h.source, h.trigger, List.not_mem_nil⟩) fun m met => ?_
  obtain ⟨enabled, source, _, _⟩ := of_decide_eq_true met
  rw [links] at enabled source
  by_contra other
  obtain ⟨away, watches, _⟩ := h.others m other enabled
  exact away (watches.symm.trans source)

/-- No other link watches what the event goes on to offer: bank `b`'s trigger again, or ASLEEP of the target. -/
theorem State.OneLinkWatches.unwatched {t : State} (links : ∀ m : LinkId, t.links[m].config = s.links[m].config)
    {o : BankId × Trigger} (offer : o = (b, .drainBegun) ∨ o = (s.links[l].config.target, .asleep)) :
    t.watchers o.1 o.2 [l] = [] := by
  refine List.eq_nil_iff_forall_not_mem.2 fun m mem => ?_
  obtain ⟨enabled, source, trigger, fresh⟩ := State.mem_watchers.1 mem
  rw [links m] at enabled source trigger
  obtain ⟨away, watches, notAsleep⟩ := h.others m (fun same => fresh (same ▸ List.mem_singleton_self m)) enabled
  rcases offer with rfl | rfl
  · exact away (watches.symm.trans source)
  · exact notAsleep trigger

/-- The idle expiry, from what the action does (R142, R143, R148). -/
theorem exec_idleExpiry_fires {v : Work} (acts : (Work.drainFired s b l).act l b .drainBegun = v)
    (offered : ∀ o ∈ v.offered, o = (b, .drainBegun) ∨ o = (s.links[l].config.target, .asleep))
    (links : v.st.links = (s.drainFired b l).links) (crossings : v.crossings = []) (fired : v.fired = [l]) :
    exec (.idleExpiry b) s = .next v.st := by
  let drained : Work := ((Work.start s.begin).on fun t => t.updBank b Bank.softDraining).offer b .drainBegun
  have drains : (Work.start s.begin).softDrain b = drained := Work.softDrain_busy (w := Work.start s.begin) h.busy
  have next : drained.st.nextFiring drained.fired drained.offered = some (l, (b, .drainBegun), [(b, .drainBegun)]) := by
    have watched : drained.st.matchingLink [] b .drainBegun = some l := h.matchingLink rfl
    change drained.st.nextFiring [] [(b, .drainBegun)] = _
    rw [State.nextFiring, watched]
  have fires : drained.fire l (b, .drainBegun) [(b, .drainBegun)] = v := by
    have counted : ({ (drained.on fun t => { t with links := t.links.set l t.links[l].firedOnce }) with
        offered := [(b, .drainBegun)], fired := l :: drained.fired } : Work) = Work.drainFired s b l :=
      congrArg (fun t : State => ({ st := t, offered := [(b, .drainBegun)], crossings := [], fired := [l] } : Work))
        (State.linksFired_one drained.st l)
    change (Work.act _ l b .drainBegun).settle = v
    rw [counted, acts, Work.settle_nothing crossings]
  have ends : (v.fireUpTo 7).st = v.st := Work.fireUpTo_unwatched rfl (fun o mem => by
    rw [fired]
    exact h.unwatched (fun m => by rw [links]; exact s.drainFired_config b l m) (offered o mem)) 7
  have taken : drained.takeTriggers.st = v.st := by
    unfold Work.takeTriggers
    rw [Work.settle_nothing rfl, Work.fireUpTo, next]
    dsimp only
    rw [fires, ends]
  rw [exec_idleExpiry_due h.on h.due]
  exact congrArg Host.Outcome.next ((congrArg (fun w : Work => w.takeTriggers.st) drains).trans taken)

/-- The idle expiry where the action changes the state and offers nothing. -/
theorem exec_idleExpiry_acts {f : State → State} {t : State}
    (acts : (Work.drainFired s b l).act l b .drainBegun = (Work.drainFired s b l).on f) (result : f (s.drainFired b l) = t)
    (links : t.links = (s.drainFired b l).links) : exec (.idleExpiry b) s = .next t := by
  subst result
  exact exec_idleExpiry_fires h acts (fun o mem => .inl (List.mem_singleton.1 mem)) links rfl rfl

/-- The idle expiry where the target's state leaves the action nothing to do. -/
theorem exec_idleExpiry_unmoved (acts : (Work.drainFired s b l).act l b .drainBegun = Work.drainFired s b l) :
    exec (.idleExpiry b) s = .next (s.drainFired b l) :=
  exec_idleExpiry_acts h (f := id) acts rfl rfl

end

/-! ### The actions -/

section
variable {w : Work} {l : LinkId} {c : BankId} (target : w.st.links[l].config.target = c)
include target

/-- PREWAKE cancels a soft drain, and wakes otherwise (R144). -/
theorem Work.act_prewake (action : w.st.links[l].config.action = .prewake) (b : BankId) (t : Trigger) : w.act l b t =
    if (w.st.bank c).power = .draining ∧ (w.st.bank c).drainKind = .soft then w.cancelDrain c else w.wake c true := by
  subst target
  unfold Work.act
  dsimp only
  rw [action]

/-- HOLD cancels a soft drain, and reloads the idle timer otherwise (R145). -/
theorem Work.act_hold (action : w.st.links[l].config.action = .hold) (b : BankId) (t : Trigger) : w.act l b t =
    if (w.st.bank c).power = .draining ∧ (w.st.bank c).drainKind = .soft then w.cancelDrain c else w.bank c Bank.reloadIdle := by
  subst target
  unfold Work.act
  dsimp only
  rw [action]

theorem Work.act_sleep (action : w.st.links[l].config.action = .sleepRetain ∨ w.st.links[l].config.action = .sleepOff)
    (b : BankId) (t : Trigger) : w.act l b t =
      w.sleep c (if w.st.links[l].config.action = .sleepOff then .off else .retain) true := by
  subst target
  unfold Work.act
  dsimp only
  rcases action with h | h <;> rw [h] <;> rfl

theorem Work.act_cancels (action : w.st.links[l].config.action = .prewake ∨ w.st.links[l].config.action = .hold)
    (draining : (w.st.bank c).power = .draining) (soft : (w.st.bank c).drainKind = .soft) (b : BankId) (t : Trigger) :
    w.act l b t = w.cancelDrain c := by
  rcases action with h | h
  · rw [Work.act_prewake target h]; exact if_pos ⟨draining, soft⟩
  · rw [Work.act_hold target h]; exact if_pos ⟨draining, soft⟩

end

theorem Work.drainFired_action {s : State} {b : BankId} {l : LinkId} {a : Action} (action : s.links[l].config.action = a) :
    (Work.drainFired s b l).st.links[l].config.action = a :=
  (congrArg LinkConfig.action (s.drainFired_config b l l)).trans action

theorem Work.drainFired_target {s : State} {b : BankId} {l : LinkId} {c : BankId} (target : s.links[l].config.target = c) :
    (Work.drainFired s b l).st.links[l].config.target = c :=
  (congrArg LinkConfig.target (s.drainFired_config b l l)).trans target

end Sys2Proof.Machine
end
section
/-! SUPPORT. What each action of a link leaves, by the state of its target (O53, third part). -/

namespace Sys2Proof.Machine

/-- The rest target that a sleep action names (R146). -/
def sleepActionTarget (a : Action) : RestTarget := if a = .sleepOff then .off else .retain

theorem sleepActionTarget_drain (a : Action) : (sleepActionTarget a).drain = if a = .sleepOff then .off else .retain := by
  unfold sleepActionTarget
  split <;> rfl

/-- The state once the target is in its hard drain. -/
def State.drainsTarget (t : State) (c : BankId) (r : RestTarget) : State :=
  { t.updBank c fun k => k.draining .hard r with fillQueue := t.fillQueue.filter fun d => d ≠ c }

section
variable {s : State} {b : BankId} {l : LinkId} (h : s.OneLinkWatches b l) {c : BankId} (target : s.links[l].config.target = c)
include h target

/-- PREWAKE and HOLD cancel a soft drain of their target, the bank's own among them (R144, R145). -/
theorem exec_idleExpiry_cancels (action : s.links[l].config.action = .prewake ∨ s.links[l].config.action = .hold)
    (draining : ((s.drainFired b l).bank c).power = .draining) (soft : ((s.drainFired b l).bank c).drainKind = .soft)
    (unparked : s.parked = []) :
    exec (.idleExpiry b) s = .next ((s.drainFired b l).updBank c fun _ => ((s.drainFired b l).bank c).readied) :=
  exec_idleExpiry_acts h (f := fun t => t.updBank c Bank.readied)
    ((Work.act_cancels (Work.drainFired_target target) (action.imp Work.drainFired_action Work.drainFired_action)
      draining soft b .drainBegun).trans (Work.cancelDrain_alone c unparked)) rfl rfl

/-! ### PREWAKE -/

section
variable (action : s.links[l].config.action = .prewake) (other : c ≠ b)
include action other

omit h in
theorem Work.drainFired_wakes (hard : ¬ ((s.bank c).power = .draining ∧ (s.bank c).drainKind = .soft)) :
    (Work.drainFired s b l).act l b .drainBegun = (Work.drainFired s b l).wake c true :=
  (Work.act_prewake (Work.drainFired_target target) (Work.drainFired_action action) b .drainBegun).trans
    (if_neg ((s.drainFired_other other l).symm ▸ hard))

theorem exec_idleExpiry_prewakes_awake (hard : ¬ ((s.bank c).power = .draining ∧ (s.bank c).drainKind = .soft))
    (awake : ¬ ((s.bank c).power = .off ∨ (s.bank c).power = .retain)) :
    exec (.idleExpiry b) s = .next (s.drainFired b l) :=
  exec_idleExpiry_unmoved h ((Work.drainFired_wakes target action other hard).trans
    (Work.wake_awake (w := Work.drainFired s b l) true ((s.drainFired_other other l).symm ▸ awake)))

section
variable (asleep : (s.bank c).power = .off ∨ (s.bank c).power = .retain) (present : (s.bank c).config.present = true)
  (alone : s.waitList = [])
include asleep present alone

omit h present alone in
theorem Work.drainFired_wakes_asleep :
    (Work.drainFired s b l).act l b .drainBegun = (Work.drainFired s b l).wake c true :=
  Work.drainFired_wakes target action other fun ⟨draining, _⟩ => by
    rcases asleep with off | retain
    · rw [off] at draining; cases draining
    · rw [retain] at draining; cases draining

theorem exec_idleExpiry_prewakes_waits (tight : s.global.budget.toNat < s.unitsHeld + (s.bank c).costAsleep) :
    exec (.idleExpiry b) s = .next
      { (s.drainFired b l).updBank c fun _ => (s.bank c).awaiting with waitList := [c] } := by
  have record := s.drainFired_other other l
  have wakes := Work.wake_waits (w := Work.drainFired s b l) (b := c) true (record.symm ▸ present) (record.symm ▸ asleep) alone
    (record.symm ▸ tight)
  refine exec_idleExpiry_acts h (f := fun t => t.joinWait c)
    ((Work.drainFired_wakes_asleep target action other asleep).trans wakes) ?_ rfl
  rw [State.joinWait_alone (s := s.drainFired b l) c alone, State.updBank_const, record]

theorem exec_idleExpiry_prewakes_ramps (fits : s.unitsHeld + (s.bank c).costAsleep ≤ s.global.budget.toNat)
    (slow : (s.bank c).config.stages.toNat ≠ 1 ∨ (s.bank c).pgood = false) :
    exec (.idleExpiry b) s = .next { (s.drainFired b l).updBank c fun _ => (s.bank c).awaiting.ramping (s.bank c).costAsleep with
      unitsHeld := s.unitsHeld + (s.bank c).costAsleep } := by
  have record := s.drainFired_other other l
  have wakes := Work.wake_ramps (w := Work.drainFired s b l) (b := c) true (record.symm ▸ present) (record.symm ▸ asleep) alone
    (record.symm ▸ fits) (record.symm ▸ slow)
  refine exec_idleExpiry_acts h (f := fun t => (t.joinWait c).grantWake c [])
    ((Work.drainFired_wakes_asleep target action other asleep).trans wakes) ?_ rfl
  rw [State.joinWait_grantWake (s := s.drainFired b l) c alone, State.updBank_const, record]
  rfl

end
end

/-! ### HOLD -/

section
variable (action : s.links[l].config.action = .hold) (other : c ≠ b)
include action other

theorem exec_idleExpiry_holds (hard : ¬ ((s.bank c).power = .draining ∧ (s.bank c).drainKind = .soft)) :
    exec (.idleExpiry b) s = .next ((s.drainFired b l).updBank c fun _ => (s.bank c).reloadIdle) := by
  have record := s.drainFired_other other l
  refine exec_idleExpiry_acts h (f := fun t => t.updBank c Bank.reloadIdle)
    ((Work.act_hold (Work.drainFired_target target) (Work.drainFired_action action) b .drainBegun).trans
      (if_neg (record.symm ▸ hard))) ?_ rfl
  rw [State.updBank_const, record]

theorem exec_idleExpiry_holds_off (hard : ¬ ((s.bank c).power = .draining ∧ (s.bank c).drainKind = .soft))
    (off : (s.bank c).power ≠ .on) : exec (.idleExpiry b) s = .next (s.drainFired b l) := by
  have same := (s.drainFired b l).updBank_self c
  rw [s.drainFired_other other l] at same
  rw [exec_idleExpiry_holds h target action other hard, Bank.reloadIdle_off _ off, same]

end

/-! ### SLEEP_RETAIN and SLEEP_OFF -/

section
variable {a : Action} (action : s.links[l].config.action = a) (sleeps : a = .sleepRetain ∨ a = .sleepOff)
include action sleeps

omit h in
theorem Work.drainFired_sleeps :
    (Work.drainFired s b l).act l b .drainBegun = (Work.drainFired s b l).sleep c (sleepActionTarget a) true := by
  have fires := Work.drainFired_action (b := b) action
  have sleep := Work.act_sleep (Work.drainFired_target (b := b) target)
    (sleeps.imp fires.trans fires.trans) b .drainBegun
  rw [fires] at sleep
  exact sleep

theorem exec_idleExpiry_sleeps_draining (draining : ((s.drainFired b l).bank c).power = .draining) :
    exec (.idleExpiry b) s = .next ((s.drainFired b l).updBank c fun _ =>
      { (s.drainFired b l).bank c with drainKind := .hard, drainTarget := (sleepActionTarget a).drain }) :=
  exec_idleExpiry_acts h
    ((Work.drainFired_sleeps target action sleeps).trans
      (Work.sleep_draining (w := Work.drainFired s b l) (sleepActionTarget a) true draining)) rfl rfl

section
variable (other : c ≠ b)
include other

theorem exec_idleExpiry_sleeps_unmoved (low : (s.bank c).power = .off ∨ (s.bank c).power = .waiting
      ∨ (s.bank c).power = .ramping ∨ (s.bank c).power = .fault ∨ ((s.bank c).power = .retain ∧ sleepActionTarget a = .retain)) :
    exec (.idleExpiry b) s = .next (s.drainFired b l) :=
  exec_idleExpiry_unmoved h ((Work.drainFired_sleeps target action sleeps).trans
    (Work.sleep_nothing (w := Work.drainFired s b l) _ true ((s.drainFired_other other l).symm ▸ low)))

theorem exec_idleExpiry_sleeps_off (off : sleepActionTarget a = .off) (retain : (s.bank c).power = .retain) :
    exec (.idleExpiry b) s = .next ((s.drainFired b l).updBank c fun _ => (s.bank c).retainToOff) := by
  have record := s.drainFired_other other l
  refine exec_idleExpiry_acts h (f := fun t => t.updBank c Bank.retainToOff)
    ((Work.drainFired_sleeps target action sleeps).trans ((congrArg (fun r => (Work.drainFired s b l).sleep c r true) off).trans
      (Work.sleep_retain_off (w := Work.drainFired s b l) true (record.symm ▸ retain)))) ?_ rfl
  rw [State.updBank_const, record]

section
variable (up : (s.bank c).power = .on ∨ (s.bank c).power = .filling) (notHead : s.fillQueue.head? ≠ some c)
include up notHead

omit h in
theorem Work.drainFired_hardDrains : (Work.drainFired s b l).act l b .drainBegun =
    (((Work.drainFired s b l).on fun t => t.drainsTarget c (sleepActionTarget a)).drainBegun c true).drainIfEmpty c :=
  (Work.drainFired_sleeps target action sleeps).trans
    ((Work.sleep_up (w := Work.drainFired s b l) _ true ((s.drainFired_other other l).symm ▸ up)).trans
      (Work.hardDrain_other (w := Work.drainFired s b l) (sleepActionTarget a) true notHead))

omit h target action sleeps up notHead in
theorem State.drainsTarget_bank (r : RestTarget) : ((s.drainFired b l).drainsTarget c r).bank c = (s.bank c).draining .hard r :=
  (State.bank_updBank_self (s.drainFired b l) c fun k => k.draining .hard r).trans
    (congrArg (fun k : Bank => k.draining .hard r) (s.drainFired_other other l))

theorem exec_idleExpiry_sleeps_busy (busy : (s.bank c).port.slots ≠ []) : exec (.idleExpiry b) s = .next
    { (s.drainFired b l).updBank c fun _ => (s.bank c).draining .hard (sleepActionTarget a) with
      fillQueue := s.fillQueue.filter fun d => d ≠ c } := by
  refine exec_idleExpiry_acts h (f := fun t => t.drainsTarget c (sleepActionTarget a))
    ((Work.drainFired_hardDrains target action sleeps other up notHead).trans
      (Work.drainBegun_busy true (State.drainsTarget_bank other _) busy)) ?_ rfl
  unfold State.drainsTarget
  rw [State.updBank_const, s.drainFired_other other l]
  rfl

theorem exec_idleExpiry_sleeps_rests (empty : (s.bank c).port.slots = []) (unparked : ∀ e ∈ s.parked, e.req.bank ≠ c) :
    exec (.idleExpiry b) s = .next
      { (s.drainFired b l).updBank c fun _ => ((s.bank c).draining .hard (sleepActionTarget a)).rested with
        fillQueue := s.fillQueue.filter fun d => d ≠ c } := by
  have acts := (Work.drainFired_hardDrains target action sleeps other up notHead).trans
    (Work.drainBegun_rests true (State.drainsTarget_bank other _) rfl empty unparked)
  refine (exec_idleExpiry_fires h acts (fun o mem => ?_) rfl rfl rfl).trans (congrArg Host.Outcome.next ?_)
  · rcases List.mem_append.1 mem with begun | asleep
    · exact .inl (List.mem_singleton.1 begun)
    · rw [target]; exact .inr (List.mem_singleton.1 asleep)
  · have bank := State.drainsTarget_bank (s := s) (b := b) (l := l) other (sleepActionTarget a)
    show ((s.drainFired b l).drainsTarget c (sleepActionTarget a)).updBank c Bank.rested = _
    rw [State.updBank_const, bank]
    exact State.ext_banks (State.updBank_after (f := fun k => k.draining .hard (sleepActionTarget a)) (fun _ => ((s.bank c).draining .hard (sleepActionTarget a)).rested) rfl) rfl

end
end
end
end

end Sys2Proof.Machine
end
section
/-! SUPPORT. The links of one event (O53). -/

namespace Sys2Proof.Machine

/-- A request parked for a bank with no park limit has no deadline (R37). -/
theorem State.entryFor_unlimited {s : State} {r : Request} {i : WindowId}
    (unlimited : (s.bank s.windows[i].config.bank).config.parkLimit = 0) : (s.accepted r i).entryFor (s.figures r i) =
      { req := s.figures r i, acceptTime := s.clock.micros, deadline := none } :=
  congrArg (fun d => ({ req := s.figures r i, acceptTime := s.clock.micros, deadline := d } : Entry)) (if_pos unlimited)

/-- The forward of the request whose count reaches the threshold, to an idle port (R127, R135). -/
theorem Bank.forwarded_crosses {k : Bank} (crosses : k.crosses = true) (empty : k.port.slots = [])
    (stopped : k.idleTimer = .stopped) (below : k.port.counter ≠ 0xFFFFFFFF) (x : Slot) : k.forwarded x =
      { k with port := { k.port with slots := [x], counter := k.port.counter + 1, reached := true } } := by
  cases k with | mk power _ _ _ _ _ _ _ idle _ _ _ _ _ _ =>
  dsimp only at stopped empty below
  subst stopped
  rw [Bank.forwarded_eq, crosses]
  dsimp only
  rw [empty, if_neg below, Bool.or_true, ite_self]
  rfl

/-- The soft drain of an idle bank ends at once: the events of both triggers (R61, R67). -/
theorem exec_idleExpiry_notes {s : State} {b : BankId}
    (links : ∀ l : LinkId, s.links[l].config.enabled = true →
      s.links[l].config.source = b ∧ s.links[l].config.action = .note)
    (on : (s.bank b).power = .on) (due : (s.bank b).idleTimer = .counting 0) (empty : (s.bank b).port.slots = [])
    (unparked : ∀ e ∈ s.parked, e.req.bank ≠ b) : exec (.idleExpiry b) s = .next
      ((((s.settled.updBank b fun _ => (s.bank b).softDraining.rested).linksFired
        (s.watching .drainBegun ++ s.watching .asleep)).notes b .drainBegun (s.watching .drainBegun)).notes b .asleep
          (s.watching .asleep)) := by
  have drains := Work.softDrain_rests (w := Work.start s.begin) empty unparked
  have noted := Work.takeTriggers_notes (w := (((Work.start s.begin).on fun t => t.updBank b fun k =>
    k.softDraining.rested).offer b .drainBegun).offer b .asleep) (x := .drainBegun) (y := .asleep) (by decide) rfl rfl rfl links
  rw [exec_idleExpiry_due on due]
  exact congrArg Host.Outcome.next ((congrArg (fun w : Work => w.takeTriggers.st) drains).trans noted)

/-- Settles O53: by the trigger and the event that offers it; by the order of the links where two triggers are offered; and
by the action and the state of its target. -/
theorem noteLinkFires : Obligations.NoteLinkFires := by
  refine ⟨fun s b l => ⟨?_, ?_, ?_, ?_, ?_, ?_⟩, fun s b => ?_, fun s b l h => ?_⟩
  case refine_1 =>
    intro watches present asleep alone tight
    exact ⟨exec_wakeBank_noted watches present asleep alone tight, fun r i ht hd target may room unlimited =>
      exec_acceptance_wakes_noted watches present asleep alone tight ht hd target may room
        (State.entryFor_unlimited (target.symm ▸ unlimited))⟩
  case refine_2 =>
    intro watches alone unparked
    refine ⟨fun ramping last limit => ⟨?_, ?_⟩, ?_, ?_⟩
    · exact exec_rampCompletion_noted watches alone unparked ramping last limit
    · exact exec_rampCompletion_filling alone unparked ramping last limit
    · exact fun ramping due last high limit stays =>
        exec_stageDwellExpiry_noted watches alone unparked ramping due last high limit stays
    · exact fun x rest g data completes only => exec_fillError_noted watches unparked completes data only
  case refine_3 =>
    intro watches on
    refine ⟨fun due busy => exec_idleExpiry_noted watches on busy due, fun target held present coded busy notHead => ?_⟩
    rw [← sleepTarget_drain]
    exact exec_sleepBank_noted watches on busy held present coded notHead
  case refine_4 =>
    intro watches draining
    exact ⟨exec_drainCompletion_noted watches draining, fun result data x g st taken slots holder unparked notHead =>
      exec_completion_orphan_noted watches draining taken slots holder unparked notHead⟩
  case refine_5 =>
    intro watches unparked absent
    refine ⟨fun up idle => ?_, fun ramping due alone spent empty => ?_⟩
    · have railUp := Bank.railUp_iff.2 (.inr up)
      exact ⟨exec_railDrop_noted watches unparked absent railUp idle, fun x rest slots out =>
        exec_responseTimeout_noted watches unparked absent railUp idle slots out⟩
    · exact exec_wakeLimitExpiry_noted watches unparked absent ramping due alone spent empty
  case refine_6 =>
    intro watches r i ht hd target may on empty stopped unparked fresh below reaches counts
    subst target
    have crosses : (s.bank s.windows[i].config.bank).crosses = true :=
      Bank.crosses_iff.2 ⟨below, (if_neg below).trans reaches, counts, fresh⟩
    have direct : s.forwardsDirectly (s.figures r i) = true := State.forwardsDirectly_ready unparked on (by
      rw [show (s.bank (s.figures r i).bank).port.slots = [] from empty]; decide)
    have record := Bank.forwarded_crosses crosses empty stopped below ((s.accepted r i).requestSlot (s.figures r i))
    have banks := State.updBank_congr (s := s.accepted r i) (b := s.windows[i].config.bank)
      (f := fun k => k.forwarded ((s.accepted r i).requestSlot (s.figures r i))) (g := fun _ => _) record
    rw [exec_acceptance_count_noted watches ht hd rfl may direct crosses]
    exact congrArg (fun t : State => Host.Outcome.next ((State.post { t with busOut := _ } .countReached _).noted _ l .count)) banks
  case refine_7 =>
    exact fun links on due empty unparked => exec_idleExpiry_notes links on due empty unparked
  case refine_8 =>
    intro k act c m fired after sleeps target
    have drain : target = (sleepActionTarget act).drain := (sleepActionTarget_drain act).symm
    have notSoft {p : Power} (power : m.power = p) (differs : p ≠ .draining) :
        ¬ (m.power = .draining ∧ m.drainKind = .soft) := fun draining => differs (power.symm.trans draining.1)
    refine ⟨fun own action unparked => ?_, fun own sleep => ?_, fun other =>
      ⟨fun action asleep present alone => ⟨?_, ?_⟩, fun action draining soft unparked => ?_, fun action power => ?_,
        fun action on => ?_, fun action power => ?_, fun sleep low => ?_, fun sleep draining => ?_, fun action retain => ?_,
        fun action retain => ?_, fun sleep up notHead => ⟨fun busy => ?_, fun empty unparked => ?_⟩⟩⟩
    · have record := s.drainFired_self b l
      have cancels := exec_idleExpiry_cancels h (c := b) own action (by rw [record]; rfl) (by rw [record]; rfl) unparked
      rw [record] at cancels
      exact cancels
    · have record := s.drainFired_self b l
      have drains := exec_idleExpiry_sleeps_draining h (c := b) own rfl sleep (by rw [record]; rfl)
      rw [record] at drains
      rw [drain]
      exact drains
    · exact exec_idleExpiry_prewakes_waits h rfl action other asleep present alone
    · exact exec_idleExpiry_prewakes_ramps h rfl action other asleep present alone
    · have record : fired.bank c = m := s.drainFired_other other l
      have cancels := exec_idleExpiry_cancels h rfl action ((congrArg Bank.power record).trans draining)
        ((congrArg Bank.drainKind record).trans soft) unparked
      exact cancels.trans (congrArg (fun k : Bank => Host.Outcome.next (fired.updBank c fun _ => k.readied)) record)
    · have hard : ¬ (m.power = .draining ∧ m.drainKind = .soft) := by
        rcases power with p | p | p | p | ⟨_, notSoft⟩ | p
        case inr.inr.inr.inr.inl => exact fun soft => notSoft soft.2
        all_goals exact notSoft p (by decide)
      have awake : ¬ (m.power = .off ∨ m.power = .retain) := by
        rcases power with p | p | p | p | ⟨p, _⟩ | p <;> rw [p] <;> decide
      exact exec_idleExpiry_prewakes_awake h rfl action other hard awake
    · have holds := exec_idleExpiry_holds h rfl action other (notSoft on (by decide))
      rw [Bank.reloadIdle_on on] at holds
      exact holds
    · have hard : ¬ (m.power = .draining ∧ m.drainKind = .soft) := by
        rcases power with p | p | p | p | p | ⟨_, notSoft⟩ | p
        case inr.inr.inr.inr.inr.inl => exact fun soft => notSoft soft.2
        all_goals exact notSoft p (by decide)
      have off : m.power ≠ .on := by rcases power with p | p | p | p | p | ⟨p, _⟩ | p <;> rw [p] <;> decide
      exact exec_idleExpiry_holds_off h rfl action other hard off
    · exact exec_idleExpiry_sleeps_unmoved h rfl rfl sleep other
        (low.imp_right fun low => low.imp_right fun low => low.imp_right .inl)
    · have record : fired.bank c = m := s.drainFired_other other l
      rw [drain]
      exact (exec_idleExpiry_sleeps_draining h rfl rfl sleep ((congrArg Bank.power record).trans draining)).trans
        (congrArg (fun k : Bank => Host.Outcome.next (fired.updBank c fun _ =>
          { k with drainKind := .hard, drainTarget := (sleepActionTarget act).drain })) record)
    · exact exec_idleExpiry_sleeps_unmoved h rfl action (.inl rfl) other (.inr (.inr (.inr (.inr ⟨retain, rfl⟩))))
    · exact exec_idleExpiry_sleeps_off h rfl action (.inr rfl) other rfl retain
    · rw [drain]
      exact exec_idleExpiry_sleeps_busy h rfl rfl sleep other up notHead busy
    · rw [drain]
      exact exec_idleExpiry_sleeps_rests h rfl rfl sleep other up notHead empty unparked

end Sys2Proof.Machine
end
